-- ==== Sys2Proof/Word.lean ====
section
/-! DEFINITION. The word types of CHIP (00_scope.md R7, 20_memory.md R62, 10_state.md R32). -/

namespace Sys2Proof

/-- Eight bits, the smallest addressable unit of memory (R7, R62). -/
abbrev Byte := BitVec 8

/-- Sixteen bits: a register, a memory word and an address (R20, R60). -/
abbrev Word := BitVec 16

/-- Thirty-two bits: TDCK and IT (R32, R33). -/
abbrev DWord := BitVec 32

/-- The width of a CPU access: the CPU makes accesses of one byte and of one word only (R65). -/
inductive Size where
  | byte
  | word
  deriving DecidableEq, Repr

/-- The number of bits an access of this width moves (R65). -/
@[reducible] def Size.bits : Size → Nat
  | .byte => 8
  | .word => 16

end Sys2Proof
end

