-- ==== Sys2Proof/Config.lean ====
section
/-! DEFINITION. The configuration of a CHIP machine (00_scope.md R7, 93_implementation_defined.md
section P), and the free values the spec leaves open. -/

namespace Sys2Proof

/-- `PRIORITY_ORDER`: which end of the level numbering is the highest priority (R344, D10). -/
inductive PriorityOrder where
  | highNumberFirst
  | lowNumberFirst
  deriving DecidableEq, Repr

/-- `SAME_LEVEL_ORDER`: which device of one level is served first (R344, D39). -/
inductive SameLevelOrder where
  | lowestDeviceFirst
  | any
  deriving DecidableEq, Repr

/-- `STACK_CHECK_POLICY`: which instructions get the stack limit check (R332, D14). -/
inductive StackPolicy where
  | lowered
  | always
  | spWritten
  deriving DecidableEq, Repr

/-- `IT_AFTER_ZERO`: what the interval timer does at zero (R351, D23). -/
inductive ItAfterZero where
  | stop
  | wrap
  deriving DecidableEq, Repr

/-- `MOVBCK_ORDER` (R185, D24). -/
inductive MovbckOrder where
  | ascending
  | asIfBuffered
  deriving DecidableEq, Repr

/-- `W_SAVED`: the W bit stored in the Old PS1 when an interrupt ends a wait (R346, D28). -/
inductive WSaved where
  | asIs
  | cleared
  deriving DecidableEq, Repr

/-- `TERM_LONG_LINE`: what a terminal read leaves of a line longer than UPAMOUNT (R382, D41). -/
inductive TermLongLine where
  | leaveRest
  | discardRest
  deriving DecidableEq, Repr

/-- `EOI_TIMING`: which terminal read returns End of Input (R382, D42). -/
inductive EoiTiming where
  | exhaustingRead
  | late
  deriving DecidableEq, Repr

/-- `DIV_OVERFLOW_REGS`: R[r] and R[r+1] after a quotient overflow (R236, U4). -/
inductive DivOverflowRegs where
  | unchanged
  | any
  deriving DecidableEq, Repr

/-- `IMMEDIATE_ACCESS_KIND`: the access kind of an immediate operand (R86, D6). -/
inductive ImmediateKind where
  | execute
  | read
  deriving DecidableEq, Repr

/-- `CONSOLE_ADDR`: how the console reads a memory address (R421, D43). -/
inductive ConsoleAddr where
  | physical
  | currentMap
  deriving DecidableEq, Repr

/-- The checks a device makes of a request, one per failing status of Table 8 (R366). -/
inductive DeviceCheck where
  | nonExistentDevice
  | invalidOperation
  | invalidArgument
  | invalidBuffer
  | notReady
  | hardwareFailure
  deriving DecidableEq, Repr

/-- `PS1_LAYOUT`: the bit of PS1 each field lies in (R26, D1). -/
structure Ps1Layout where
  /-- The bits of INTMASK[0] to INTMASK[7], in that order. -/
  intmask : List Nat
  ku    : Nat
  m     : Nat
  w     : Nat
  n     : Nat
  z     : Nat
  v     : Nat
  c     : Nat
  /-- The bit that has no field (R28). -/
  spare : Nat
  deriving DecidableEq, Repr

/-- `SD_LAYOUT`: the places of the fields of a segment descriptor among its 32 bits: places 0 to 15 lie in
the first word SD1, 16 to 31 in the second word SD2. A field of several bits has a list of places, that of
its least significant bit first (R92, D2). -/
structure SdLayout where
  len : List Nat
  e   : Nat
  w   : Nat
  r   : Nat
  p   : Nat
  pta : List Nat
  deriving DecidableEq, Repr

/-- `PD_LAYOUT`: the places of the fields of a page descriptor; `frame` lists those of the bits of PageFrame,
the least significant first (R94, D3). -/
structure PdLayout where
  p     : Nat
  m     : Nat
  r     : Nat
  frame : List Nat
  deriving DecidableEq, Repr

/-- `MM_CODE_LAYOUT`: the lowest bits of the segment and of the page number in PS2[7:0] after a
Memory Management trap (R98, D5). -/
structure MmCodeLayout where
  seg  : Nat
  page : Nat
  deriving DecidableEq, Repr

/-- The parameters of the machine (R7, section P). The step never changes them. -/
structure Config where
  /-- Bytes of available physical memory (R60, R75). -/
  memsize   : Nat
  /-- Numbers of configured devices (R358). -/
  nterm     : Nat
  nprint    : Nat
  ndisk     : Nat
  ndrum     : Nat
  /-- Device capacities (R370, R375, R378). -/
  uptrack   : Nat
  upsector  : Nat
  updrumsec : Nat
  upamount  : Nat
  ps1Layout : Ps1Layout
  sdLayout  : SdLayout
  pdLayout  : PdLayout
  mmCodeLayout : MmCodeLayout
  /-- `UNSUPPORTED_SET` as inclusive ranges of first words that raise code 1 (R136, D15). -/
  unsupported : List (Nat × Nat)
  immediateKind : ImmediateKind
  priorityOrder : PriorityOrder
  sameLevelOrder : SameLevelOrder
  stackPolicy : StackPolicy
  itAfterZero : ItAfterZero
  movbckOrder : MovbckOrder
  wSaved : WSaved
  /-- `DEVICE_CHECK_ORDER` (R366, D37). -/
  deviceCheckOrder : List DeviceCheck
  /-- `HW_FAILURE`: the (slot, request number) pairs the environment fails (R366, U12). -/
  hwFailures : List (Nat × Nat)
  termLongLine : TermLongLine
  eoiTiming : EoiTiming
  consoleAddr : ConsoleAddr
  divOverflowRegs : DivOverflowRegs
  /-- M1: a register source that the destination mode steps is read after the step (R167). -/
  steppedSource : Bool
  /-- M2: PC as a register source before a destination with an extension word is the instruction's
  address + 4 (R167). -/
  latePcSource : Bool
  /-- M3: `jmp (Rn)+` and `jsr Rx,(Rn)+` step the register before it is the target (R167). -/
  jumpStepFirst : Bool
  /-- M5: V after sbc is set by the operand alone, whatever C (R211). -/
  sbcVIgnoresC : Bool
  deriving DecidableEq, Repr

/-- The default layout of PS1 (R26): INTMASK 15:8, KU 7, M 6, W 5, no field 4, N Z V C 3:0. -/
def Ps1Layout.default : Ps1Layout :=
  { intmask := [8, 9, 10, 11, 12, 13, 14, 15], ku := 7, m := 6, w := 5, spare := 4,
    n := 3, z := 2, v := 1, c := 0 }

/-- The default layout of a segment descriptor (R92). -/
def SdLayout.default : SdLayout :=
  { len := [11, 12, 13, 14, 15], e := 10, w := 9, r := 8, p := 7
    pta := [16, 17, 18, 19, 20, 21, 22, 23, 24, 25, 26, 27, 28, 29, 30, 31] }

/-- The default layout of a page descriptor (R94). -/
def PdLayout.default : PdLayout := { p := 15, m := 14, r := 13, frame := [0, 1, 2, 3, 4, 5, 6] }

/-- The default placement of the segment and page number in PS2[7:0] (R98). -/
def MmCodeLayout.default : MmCodeLayout := { seg := 5, page := 0 }

/-- The words of PDP-11 instructions that CHIP does not support (R136): WAIT, RTI, BPT, IOT, RESET,
RTT; SPL; MFPI, MTPI; FIS; EMT; MTPS, MFPD, MTPD, MFPS; floating point. -/
def Config.pdp11Unsupported : List (Nat × Nat) :=
  [(0o1, 0o6), (0o230, 0o237), (0o6500, 0o6677), (0o75000, 0o75037), (0o104000, 0o104377),
   (0o106400, 0o106777), (0o170000, 0o177777)]

/-- The order in which a device makes its checks (R366, D37). -/
def Config.checkOrderDefault : List DeviceCheck :=
  [.nonExistentDevice, .invalidOperation, .invalidArgument, .invalidBuffer, .notReady,
   .hardwareFailure]

/-- The configuration after reset. DESIGN CHOICE (unsafe): MEMSIZE is the example of the status line
(R422), log entry 1; the device counts and capacities are those of the illustrative configuration of
95_test_vectors.md (Devices), log entry 2. Every other parameter has the spec's default (section P). -/
def Config.default : Config :=
  { memsize := 0o20000, nterm := 2, nprint := 1, ndisk := 1, ndrum := 1
    uptrack := 9, upsector := 7, updrumsec := 15, upamount := 80
    ps1Layout := .default, sdLayout := .default, pdLayout := .default, mmCodeLayout := .default
    unsupported := Config.pdp11Unsupported
    immediateKind := .execute, priorityOrder := .highNumberFirst
    sameLevelOrder := .lowestDeviceFirst, stackPolicy := .lowered, itAfterZero := .stop
    movbckOrder := .ascending, wSaved := .asIs, deviceCheckOrder := Config.checkOrderDefault
    hwFailures := [], termLongLine := .leaveRest, eoiTiming := .exhaustingRead
    consoleAddr := .physical, divOverflowRegs := .unchanged
    steppedSource := false, latePcSource := false, jumpStepFirst := false, sbcVIgnoresC := false }

/-! ### What a configuration may be -/

/-- The sixteen bits of a PS1 layout, in the order INTMASK[0..7], KU, M, W, N, Z, V, C, spare. -/
def Ps1Layout.bits (l : Ps1Layout) : List Nat :=
  l.intmask ++ [l.ku, l.m, l.w, l.n, l.z, l.v, l.c, l.spare]

/-- Each of the sixteen bits has one place of its own (section P: any assignment of the field bits). -/
def Ps1Layout.wf (l : Ps1Layout) : Bool :=
  l.intmask.length == 8 && l.bits.all (· < 16) && decide l.bits.Nodup

/-- Each bit of a field of a segment descriptor has a place of its own in the two words (section P: any
assignment in two words). -/
def SdLayout.wf (l : SdLayout) : Bool :=
  let places := l.len ++ l.pta ++ [l.e, l.w, l.r, l.p]
  l.len.length == 5 && l.pta.length == 16 && places.all (· < 32) && decide places.Nodup

/-- Each bit of a field of a page descriptor has a place of its own (section P: any assignment in one
word). -/
def PdLayout.wf (l : PdLayout) : Bool :=
  let places := l.frame ++ [l.p, l.m, l.r]
  l.frame.length == 7 && places.all (· < 16) && decide places.Nodup

/-- Two bits of segment number and five of page number lie apart within the low byte (R98). -/
def MmCodeLayout.wf (l : MmCodeLayout) : Bool :=
  decide (l.seg + 2 ≤ 8) && decide (l.page + 5 ≤ 8) &&
    (decide (l.seg + 2 ≤ l.page) || decide (l.page + 5 ≤ l.seg))

/-- The configurations the spec admits: MEMSIZE is a multiple of 512 from 03000 to 0200000 (D9), the
device counts are at most those of R7, the layouts place their fields apart, and the device checks are in
some order (section P). -/
def Config.wf (g : Config) : Bool :=
  g.memsize % 512 == 0 && decide (0o3000 ≤ g.memsize) && decide (g.memsize ≤ 0o200000) &&
  decide (g.nterm ≤ 5) && decide (g.nprint ≤ 2) && decide (g.ndisk ≤ 4) && decide (g.ndrum ≤ 4) &&
  g.ps1Layout.wf && g.sdLayout.wf && g.pdLayout.wf && g.mmCodeLayout.wf &&
  g.deviceCheckOrder.isPerm Config.checkOrderDefault

/-! ### Free values

Constants with no body: nothing can be proved of a particular value of one. The first argument of each
is the draw counter of State, or a device's slot and request number. -/

/-- `InstrTime`: one less than the microseconds an executed instruction, entry or failed attempt takes that
takes any (R350, D22, U14); log entry 8. -/
opaque Config.instrTime : Nat → Nat

/-- How many instructions, entries or failed attempts take no time before the next one that does: finitely
many, so that over any infinite run time grows without bound (R350, D22); log entry 8. -/
opaque Config.instrLull : Nat → Nat

/-- `OpTime`: one less than the microseconds the given request of the given slot takes, so that every
operation takes a positive, finite time (R365, U14); log entry 9. -/
opaque Config.opTime : (slot request : Nat) → Nat

/-- Whether the given slot's controller moves the given byte of its transfer at the given instant, which is
the start of a step or lies between two accesses of an instruction (R105, R112, U13); log entry 10. -/
opaque Config.movesNow : (draw slot index : Nat) → Bool

/-- The byte at the given key of a disk or drum that nothing has written since the machine was
configured, fixed for the run (U10); log entry 6. -/
opaque Config.mediumByte : (slot key : Nat) → Byte

/-- TDCK after it has passed 2^32 microseconds (U9); log entry 11. -/
opaque Config.tdckAfterOverflow : Nat → DWord

/-- R[r] after `ashc` with an odd register (U3); log entry 12. -/
opaque Config.ashcOddResult : Nat → Word

/-- N, Z, V, C after `ashc` with an odd register (U3); log entry 12. -/
opaque Config.ashcOddFlags : Nat → BitVec 4

/-- N and Z after a `div` whose quotient overflows (U4); log entry 13. -/
opaque Config.divOverflowFlags : Nat → BitVec 2

/-- R[r] and R[r+1] after a `div` whose quotient overflows, where `DIV_OVERFLOW_REGS` is `any` (U4);
log entry 13. -/
opaque Config.divOverflowPair : Nat → DWord

/-- The device of one level that is served first, where `SAME_LEVEL_ORDER` is `any` (D39); log
entry 23. -/
opaque Config.pickDevice : Nat → Nat

end Sys2Proof
end

