-- ==== Sys2Proof/Syntax.lean ====
section
/-! DEFINITION. The instruction set as syntax: one constructor of `Instr` per row of
spec/opcode_table.json (30_encoding.md R127, R128). An instruction is its first word only: the first
word alone decides the instruction (R120), and extension words are read through PC while operands
are evaluated (40_operand_addressing.md R151, R164). -/

namespace Sys2Proof

/-- The eight general registers, numbered 0 to 7; 6 is SP and 7 is PC (10_state.md R20, R124). -/
inductive Reg where
  | r0 | r1 | r2 | r3 | r4 | r5 | sp | pc
  deriving DecidableEq, Repr

/-- The eight addressing modes, numbered 0 to 7 in this order (R153 to R160). -/
inductive Mode where
  | register
  | deferred
  | autoInc
  | autoIncDeferred
  | autoDec
  | autoDecDeferred
  | index
  | indexDeferred
  deriving DecidableEq, Repr

/-- A six-bit operand specifier: a mode and a register (R123, R150). -/
structure Operand where
  mode : Mode
  reg  : Reg
  deriving DecidableEq, Repr

/-- The instructions of the Appendix (R127). The comment after a group names the section file. -/
inductive Instr where
  -- privileged, 42_privileged_instructions.md
  | halt
  | ldst
  | stst
  | ldit
  | ldim
  | ldstl
  -- new USER instructions, 41_new_user_instructions.md
  | movbck
  | stck
  | inprg
  | csv
  | cret
  | sys (number : BitVec 8)
  -- single operand, 43_single_operand.md
  | clr (dd : Operand)
  | clrb (dd : Operand)
  | com (dd : Operand)
  | comb (dd : Operand)
  | inc (dd : Operand)
  | incb (dd : Operand)
  | dec (dd : Operand)
  | decb (dd : Operand)
  | neg (dd : Operand)
  | negb (dd : Operand)
  | adc (dd : Operand)
  | adcb (dd : Operand)
  | sbc (dd : Operand)
  | sbcb (dd : Operand)
  | tst (dd : Operand)
  | tstb (dd : Operand)
  | ror (dd : Operand)
  | rorb (dd : Operand)
  | rol (dd : Operand)
  | rolb (dd : Operand)
  | asr (dd : Operand)
  | asrb (dd : Operand)
  | asl (dd : Operand)
  | aslb (dd : Operand)
  | sxt (dd : Operand)
  | swab (dd : Operand)
  -- program control, 46_subroutine_and_control.md
  | jmp (dd : Operand)
  -- register and operand, 43_single_operand.md and 44_double_operand.md
  | ash (r : Reg) (ss : Operand)
  | ashc (r : Reg) (ss : Operand)
  | mul (r : Reg) (ss : Operand)
  | div (r : Reg) (ss : Operand)
  | xor (r : Reg) (dd : Operand)
  | jsr (r : Reg) (dd : Operand)
  -- double operand, 44_double_operand.md
  | mov (ss dd : Operand)
  | movb (ss dd : Operand)
  | cmp (ss dd : Operand)
  | cmpb (ss dd : Operand)
  | bit (ss dd : Operand)
  | bitb (ss dd : Operand)
  | bic (ss dd : Operand)
  | bicb (ss dd : Operand)
  | bis (ss dd : Operand)
  | bisb (ss dd : Operand)
  | add (ss dd : Operand)
  | sub (ss dd : Operand)
  -- branches, 45_branches.md
  | br (offset : BitVec 8)
  | bne (offset : BitVec 8)
  | beq (offset : BitVec 8)
  | bge (offset : BitVec 8)
  | blt (offset : BitVec 8)
  | bgt (offset : BitVec 8)
  | ble (offset : BitVec 8)
  | bpl (offset : BitVec 8)
  | bmi (offset : BitVec 8)
  | bhi (offset : BitVec 8)
  | blos (offset : BitVec 8)
  | bvc (offset : BitVec 8)
  | bvs (offset : BitVec 8)
  | bcc (offset : BitVec 8)
  | bcs (offset : BitVec 8)
  | bhis (offset : BitVec 8)
  | blo (offset : BitVec 8)
  -- subroutine and program control, 46_subroutine_and_control.md
  | sob (r : Reg) (offset : BitVec 6)
  | rts (r : Reg)
  | mark (nn : BitVec 6)
  -- condition code operators, 47_condition_code_operators.md
  | ccop (s n z v c : Bool)
  | nop
  | clc
  | clv
  | clz
  | cln
  | ccc
  | sec
  | sev
  | sez
  | sen
  | scc
  deriving DecidableEq, Repr

end Sys2Proof
end

