-- ==== Sys2Proof/Machine/State.lean ====
section
/-! DEFINITION. The state of a CHIP machine as plain data, and its value after Initial Program Load
(10_state.md, R38, R40; 70_reset_and_hazards.md R401, R410, R420 to R425). -/

namespace Sys2Proof.Machine

/-- Memory as (address, byte) pairs in canonical form: addresses strictly rising, no entry equal to what
an unlisted address reads as (`Memory.wf`). -/
abbrev Memory := List Host.Cell

/-- The sectors of a disk or drum as (key, byte) pairs, keys strictly rising: the bytes written since the
machine was configured. Every other byte is a free value (`Config.mediumByte`, U10). -/
abbrev Medium := List Host.Cell

/-- The condition codes (R25, R35). -/
structure Cc where
  n : Bool
  z : Bool
  v : Bool
  c : Bool
  deriving DecidableEq, Repr

/-- PS1 by its fields (R25); the layout says where each lies when PS1 is a word (R26). -/
structure Ps1 where
  /-- INTMASK[i] = 1 disables the interrupts of level i. -/
  intmask : BitVec 8
  /-- 1 is KERNEL mode, 0 USER mode. -/
  ku    : Bool
  /-- Memory mapping is enabled. -/
  m     : Bool
  /-- The CPU ceases to execute until an interrupt occurs. -/
  w     : Bool
  cc    : Cc
  /-- The bit that has no field (R28). -/
  spare : Bool
  deriving DecidableEq, Repr

/-- The Processor State: twelve registers in the order of R34. -/
structure ProcState where
  r0  : Word
  r1  : Word
  r2  : Word
  r3  : Word
  r4  : Word
  r5  : Word
  sp  : Word
  pc  : Word
  ps1 : Ps1
  ps2 : Word
  sta : Word
  stl : Word
  deriving DecidableEq, Repr

/-- An operation in progress (R362 to R365). -/
structure DevOp where
  /-- The Operation word, the Length or Disk Address word and the Buffer Address word as they stood
  when the operation was started (R362). -/
  code : Word
  arg  : Word
  buf  : Word
  /-- The failing status the request will complete with; none if it is performed (R366). -/
  failure : Option Nat
  /-- Microseconds until completion (R365). -/
  left : Nat
  /-- The instruction that started it has ended: an operation starts at its end (R430). -/
  begun : Bool
  /-- The bytes of the transfer already moved, by index, the latest first (R112). -/
  moved : List (Nat × Byte)
  deriving DecidableEq, Repr

/-- A device slot's controller (R38, R343, R363). -/
structure DevCtl where
  busy : Option DevOp
  /-- The pending interrupt request. -/
  pending : Bool
  /-- How many requests have been made; the model's own, for `HW_FAILURE` and `OpTime`. -/
  requests : Nat
  deriving DecidableEq, Repr

/-- A terminal's host files (R381, R382). -/
structure Terminal where
  /-- The input sequence; none if the file does not exist. -/
  input : Option (List Byte)
  /-- The position reached in it. -/
  pos : Nat
  output : List Byte
  /-- The output file can be created. -/
  ready : Bool
  deriving DecidableEq, Repr

/-- A printer's host file (R378). -/
structure Printer where
  output : List Byte
  ready : Bool
  deriving DecidableEq, Repr

/-- A disk: the current track, and the bytes of the sectors, keyed by
(track * (UPSECTOR + 1) + sector) * 512 + byte (R370). -/
structure Disk where
  head : Nat
  data : Medium
  deriving DecidableEq, Repr

/-- A drum: the bytes of the sectors, keyed by sector * 512 + byte (R375). -/
structure Drum where
  data : Medium
  deriving DecidableEq, Repr

/-- The devices. The controllers are in the order of the register slots (R360): terminals 0 to 4,
printers 0 and 1, disks 0 to 3, drums 0 to 3. -/
structure Io where
  ctl    : Vector DevCtl 15
  terms  : Vector Terminal 5
  prints : Vector Printer 2
  disks  : Vector Disk 4
  drums  : Vector Drum 4
  deriving DecidableEq, Repr

/-- Why the processor is stopped (R410). -/
inductive StopReason where
  | ipl
  | halt
  | wait
  | bkpt
  | susp
  | ss
  | stop
  deriving DecidableEq, Repr

/-- The run state (R410). -/
inductive RunState where
  | running
  | stopped (why : StopReason)
  deriving DecidableEq, Repr

/-- A breakpoint: the address of the marked instruction, and how often it is still to be encountered
before it breaks (R412). -/
structure Breakpoint where
  addr : Word
  count : Nat
  deriving DecidableEq, Repr

/-- A suspect: a block of memory from its first byte `lo` to its last byte `hi`, and the references that
stop (R413, R425). -/
structure Suspect where
  lo : Nat
  hi : Nat
  onRead : Bool
  onWrite : Bool
  deriving DecidableEq, Repr

/-- A display format (R414). -/
inductive Format where
  | octal
  | decimal
  | binary
  | ascii
  deriving DecidableEq, Repr

/-- A traced region: a block of memory words, the addresses of its first and of its last word, and its
display format (R414). -/
structure Trace where
  lo : Nat
  hi : Nat
  format : Format
  deriving DecidableEq, Repr

/-- The three virtual screens (R420). -/
inductive Screen where
  | static
  | dynamic
  | work
  deriving DecidableEq, Repr

/-- The registers the console can name; #sp and #pc are #r6 and #r7 (R421). -/
inductive ConsoleReg where
  | general (r : Reg)
  | ps1
  | ps2
  | sta
  | stl
  | tdck
  | it
  deriving DecidableEq, Repr

/-- Displayed characters. -/
abbrev Text := List Char

/-- What the work screen records: the memory and register requests of the operator, with the values as they
were displayed or given (R420). -/
inductive WorkLine where
  | readMem (addr : Nat) (shown : Text)
  | writeMem (addr : Nat) (value : Word)
  | writeText (lo hi : Nat) (bytes : List Byte)
  | readReg (r : ConsoleReg) (shown : Text)
  | writeReg (r : ConsoleReg) (value : DWord)
  deriving DecidableEq, Repr

/-- What a virtual screen shows (R420): the breakpoints and suspects; the addresses and displayed values of
the traced regions, and with switch RD the registers; the record of requests. -/
inductive Window where
  | static (breakpoints : List Breakpoint) (suspects : List Suspect)
  | dynamic (regions : List (Nat × List Text)) (registers : List (ConsoleReg × Text))
  | work (lines : List WorkLine)
  deriving DecidableEq, Repr

/-- The status line, but for the two surplus digits of the source's example (R422, U15). -/
structure StatusLine where
  b : Bool
  t : Bool
  s : Bool
  rd : Bool
  sl : Bool
  pace : Nat
  pc : Word
  /-- PC as a function name and an offset, where a symbol lies at or below it. -/
  place : Option (String × Nat)
  sp : Word
  intmask : BitVec 8
  k : Bool
  m : Bool
  w : Bool
  cc : Cc
  ps2 : Word
  screen : Screen
  run : RunState
  deriving DecidableEq, Repr

/-- What the operator sees: the status line and the virtual screen as last brought up to date (R420, R422,
R423). -/
structure Display where
  status : StatusLine
  window : Window
  /-- The list of valid commands, where the last command asked for it (R424). -/
  commands : List Text
  deriving DecidableEq, Repr

/-! The syntax of the commands (R424, R425), without their spelling. -/

/-- A location: an identifier or a number, with an offset (R425). The form `(loc)` is not modelled
(U16). -/
inductive ConsoleLoc where
  | symbol (name : String) (offset : Int)
  | number (n : Nat) (offset : Int)
  deriving DecidableEq, Repr

/-- The upper bound of an interval (R425). -/
inductive ConsoleBound where
  | single
  | upTo (loc : ConsoleLoc)
  | plus (offset : Int)
  deriving DecidableEq, Repr

/-- An interval: a block of memory words (R425). -/
structure ConsoleInterval where
  lower : ConsoleLoc
  upper : ConsoleBound
  deriving DecidableEq, Repr

/-- The modifier of a suspect: none is reads and writes (R413). -/
inductive SuspectKind where
  | both
  | read
  | write
  deriving DecidableEq, Repr

/-- What the display command is given (R421, R424). -/
inductive Shown where
  | interval (i : ConsoleInterval) (format : Format)
  | register (r : ConsoleReg) (format : Format)
  deriving DecidableEq, Repr

/-- What the write command is given: an interval or a register, and a number or a string (R424). How one
number fills an interval of several words is not modelled, so that a number is given for a word (U16). -/
inductive Written where
  | word (loc : ConsoleLoc) (value : Int)
  | string (i : ConsoleInterval) (bytes : List Byte)
  | register (r : ConsoleReg) (value : Int)
  | registerString (r : ConsoleReg) (bytes : List Byte)
  deriving DecidableEq, Repr

/-- The lists whose entries the operator can remove (R424). -/
inductive RemovalList where
  | breakpoints
  | suspects
  | traces
  deriving DecidableEq, Repr

/-- Removal mode (R424): the list shown, and the place in it, from the top, of the entry to the right of the
cursor. -/
structure Removal where
  list : RemovalList
  cursor : Nat
  deriving DecidableEq, Repr

/-- What is typed in removal mode (R424). -/
inductive RemovalKey where
  /-- `d`. -/
  | delete
  /-- `j` or New Line. -/
  | down
  /-- `k` or Space. -/
  | up
  /-- `q`. -/
  | quit
  deriving DecidableEq, Repr

/-- The console commands (R424), and what is typed in removal mode. The flag of `sr`, `tr` and `br` says
whether `*` is given. -/
inductive Command where
  | ds
  | ss
  | ws
  | wsc
  | p (pace : Nat)
  | si (intervals : List (ConsoleInterval × SuspectKind))
  | sr (star : Bool)
  | s
  | ti (regions : List (ConsoleInterval × Format))
  | tr (star : Bool)
  | t
  | rd
  | sl
  | bi (marks : List (ConsoleLoc × Nat))
  | br (star : Bool)
  | b
  | show (items : List Shown)
  | write (items : List Written)
  | finput (file : String)
  | foutput (file : String)
  | redraw
  | ipl
  | run
  | null
  | help
  | bye
  | key (k : RemovalKey)
  deriving DecidableEq, Repr

/-- The instruction that `run` was given at, after a breakpoint or a suspect stopped the machine before it:
it is executed without stopping there again (R412, R413). -/
structure Resume where
  addr : Word
  /-- A suspect had stopped the machine: its references pass too. -/
  passes : Bool
  deriving DecidableEq, Repr

/-- A symbol table: a map from names to addresses (R402). -/
abbrev SymbolTable := List (String × Word)

/-- An object file: the bytes of its text and initialized data, and its global symbols (R401, R402). -/
structure ObjectFile where
  image : List Byte
  symbols : SymbolTable
  deriving DecidableEq, Repr

/-- The command line `chip [-s] [file]` (R402). -/
structure Invocation where
  /-- The flag `-s`. -/
  writeSymbols : Bool
  file : Option String
  deriving DecidableEq, Repr

/-- The operator's console (R411 to R425). -/
structure Console where
  /-- Switch B: breakpoints enabled. -/
  b  : Bool
  /-- Switch T: traces shown while running. -/
  t  : Bool
  /-- Switch S: suspects enabled. -/
  s  : Bool
  /-- Switch RD: registers on the dynamic screen. -/
  rd : Bool
  /-- Switch SL: status line updated while running. -/
  sl : Bool
  /-- 0 is single step, 9 full speed. -/
  pace : Nat
  screen : Screen
  breakpoints : List Breakpoint
  suspects : List Suspect
  traces : List Trace
  work : List WorkLine
  /-- The console is in removal mode; if not, it is in command input mode (R424). -/
  removal : Option Removal
  /-- The object file's text and initialized data (R401). -/
  image : List Byte
  /-- The object file's global symbols (R402, R403). -/
  symbols : SymbolTable
  /-- ^C was typed (R415). -/
  stopReq : Bool
  /-- The instruction that `run` goes on from (R412, R413). -/
  resume : Option Resume
  /-- The instruction about to be executed is not stopped by suspects (R413). -/
  passing : Bool
  /-- What the operator sees. -/
  display : Display
  /-- The host's files of commands, by name (R424). -/
  inputs : List (String × List Command)
  /-- The commands still to be read from a file, each with the number of its line (R424). -/
  script : List (Nat × Command)
  /-- The line of the last command in error read from a file (R424). -/
  errorLine : Option Nat
  /-- What was written to files by `foutput`, by the name of the file, the latest last (R424; log entry 41). -/
  outputs : List (String × Window)
  /-- The object files of the host's current directory, by name (R402). -/
  objects : List (String × ObjectFile)
  /-- The symbol tables written to files by the flag `-s`, by the name of the file, the latest last (R402; log
  entry 47). -/
  symbolFiles : List (String × SymbolTable)
  deriving DecidableEq, Repr

/-- The machine. -/
structure State where
  cfg : Config
  cpu : ProcState
  /-- The time of day clock (R32). -/
  tdck : DWord
  /-- The interval timer (R33). -/
  it : DWord
  /-- The clock's pending interrupt request (R343). -/
  clockReq : Bool
  mem : Memory
  io : Io
  run : RunState
  console : Console
  /-- The model's own: counts executed instructions, entries, waits and, while a transfer is in progress,
  the accesses of instructions; indexes the free values of `Config`. -/
  draw : Nat
  /-- The model's own: how many instructions, entries and failed attempts have taken no time since one last
  took time, and what `draw` was after that one (R350). -/
  still : Nat
  since : Nat
  deriving DecidableEq, Repr

/-- Why a step stops outside the spec's own behaviour. -/
inductive Fault where
  /-- Raised by `step` alone, in a configuration that no CHIP machine has (`Config.wf` is false).
  Safe: the spec describes no such machine (D9, R7). Log entry 15. -/
  | badConfiguration
  deriving DecidableEq, Repr

/-- Why an instruction has no meaning. -/
inductive Refusal where
  /-- Raised by `exec` for an instruction that has no meaning yet. Safe. No arm of `exec` raises it. -/
  | notModelled (mnemonic : String)
  deriving DecidableEq, Repr

/-! ### After Initial Program Load (R40, R401) -/

/-- PS1 after IPL: all interrupts masked, KERNEL mode, everything else 0 (R40). -/
def Ps1.afterIpl : Ps1 :=
  { intmask := 0xFF#8, ku := true, m := false, w := false
    cc := { n := false, z := false, v := false, c := false }, spare := false }

/-- The Processor State after IPL in a machine of the given memory size (R401). -/
def ProcState.afterIpl (memsize : Nat) : ProcState :=
  { r0 := 0, r1 := 0, r2 := 0, r3 := 0, r4 := 0, r5 := 0
    sp := BitVec.ofNat 16 memsize, pc := 0o2000#16, ps1 := Ps1.afterIpl
    ps2 := 0, sta := 0, stl := BitVec.ofNat 16 (memsize - 512) }

/-- A controller after IPL: nothing in progress, nothing pending (R40). -/
def DevCtl.idle : DevCtl := { busy := none, pending := false, requests := 0 }

/-- A terminal with no input file and nothing written. DESIGN CHOICE, log entry 7. -/
def Terminal.fresh : Terminal := { input := none, pos := 0, output := [], ready := true }

/-- A printer with nothing printed. DESIGN CHOICE, log entry 7. -/
def Printer.fresh : Printer := { output := [], ready := true }

/-- The devices after power-up. The disks' head positions are unspecified (U11): DESIGN CHOICE 0, log
entry 6. No sector has been written. -/
def Io.fresh : Io :=
  { ctl := Vector.replicate 15 DevCtl.idle
    terms := Vector.replicate 5 Terminal.fresh
    prints := Vector.replicate 2 Printer.fresh
    disks := Vector.replicate 4 { head := 0, data := [] }
    drums := Vector.replicate 4 { data := [] } }

/-- The status line upon initialization (R422), in a machine of the given memory size. -/
def StatusLine.afterIpl (memsize : Nat) : StatusLine :=
  let p := ProcState.afterIpl memsize
  { b := true, t := true, s := true, rd := false, sl := false, pace := 9
    pc := p.pc, place := some ("start", 0), sp := p.sp
    intmask := p.ps1.intmask, k := p.ps1.ku, m := p.ps1.m, w := p.ps1.w, cc := p.ps1.cc, ps2 := p.ps2
    screen := .dynamic, run := .stopped .ipl }

/-- The console after power-up: the switches, pace and screen of the status line (R422); the symbol `start`
at 02000 (R403); no breakpoint, suspect, trace, other symbol, object file or file of commands, DESIGN CHOICE,
log entry 28. -/
def Console.fresh (memsize : Nat) : Console :=
  { b := true, t := true, s := true, rd := false, sl := false, pace := 9, screen := .dynamic
    breakpoints := [], suspects := [], traces := [], work := [], removal := none, image := []
    symbols := [("start", 0o2000#16)]
    stopReq := false, resume := none, passing := false
    display := { status := .afterIpl memsize, window := .dynamic [] [], commands := [] }
    inputs := [], script := [], errorLine := none, outputs := []
    objects := [], symbolFiles := [] }

/-- The machine right after Initial Program Load of an empty object file, stopped with STATE `IPL`
(R40, R401), in the configuration of log entries 1 and 2. -/
def State.reset : State :=
  { cfg := Config.default
    cpu := ProcState.afterIpl Config.default.memsize
    tdck := 0, it := 0, clockReq := false
    mem := [], io := Io.fresh
    run := .stopped .ipl
    console := Console.fresh Config.default.memsize
    draw := 0, still := 0, since := 0 }

end Sys2Proof.Machine
end

