-- ==== Sys2Proof/Machine/Bits.lean ====
section
/-! DEFINITION. Words made of fields: PS1 (10_state.md R26), segment and page descriptors (20_memory.md
R92, R94), virtual addresses (R91), and the codes in PS2 (60_exceptions.md R312 to R314, R342). The
layouts are parameters of the configuration. -/

namespace Sys2Proof.Machine

/-- A word with one bit, at the given place. -/
def bitAt (place : Nat) (b : Bool) : Word := (BitVec.ofBool b).setWidth 16 <<< place

/-- INTMASK spread over the places of its bits, the first place holding INTMASK[i]. -/
def spreadMask : (places : List Nat) → (i : Nat) → BitVec 8 → Word
  | [], _, _ => 0
  | p :: ps, i, mask => bitAt p (mask.getLsbD i) ||| spreadMask ps (i + 1) mask

/-- A field gathered from the places of its bits in a word, bit `i` of the field from the first place. -/
def gather {m n : Nat} : (places : List Nat) → (i : Nat) → BitVec m → BitVec n
  | [], _, _ => 0
  | p :: ps, i, w => ((BitVec.ofBool (w.getLsbD p)).setWidth n <<< i) ||| gather ps (i + 1) w

/-- PS1 as a word (R26). -/
def Ps1.pack (l : Ps1Layout) (p : Ps1) : Word :=
  spreadMask l.intmask 0 p.intmask ||| bitAt l.ku p.ku ||| bitAt l.m p.m ||| bitAt l.w p.w |||
    bitAt l.n p.cc.n ||| bitAt l.z p.cc.z ||| bitAt l.v p.cc.v ||| bitAt l.c p.cc.c |||
    bitAt l.spare p.spare

/-- The fields of a PS1 word (R26); all sixteen bits are kept (R28). -/
def Ps1.unpack (l : Ps1Layout) (w : Word) : Ps1 :=
  { intmask := gather l.intmask 0 w
    ku := w.getLsbD l.ku, m := w.getLsbD l.m, w := w.getLsbD l.w
    cc := { n := w.getLsbD l.n, z := w.getLsbD l.z, v := w.getLsbD l.v, c := w.getLsbD l.c }
    spare := w.getLsbD l.spare }

/-- The Processor State as twelve words in the order of R34. -/
def ProcState.words (l : Ps1Layout) (p : ProcState) : List Word :=
  [p.r0, p.r1, p.r2, p.r3, p.r4, p.r5, p.sp, p.pc, p.ps1.pack l, p.ps2, p.sta, p.stl]

/-- The Processor State held by twelve words, word k at offset 2k (R34). -/
def ProcState.ofWords (l : Ps1Layout) (t : Nat → Word) : ProcState :=
  { r0 := t 0, r1 := t 1, r2 := t 2, r3 := t 3, r4 := t 4, r5 := t 5, sp := t 6, pc := t 7
    ps1 := Ps1.unpack l (t 8), ps2 := t 9, sta := t 10, stl := t 11 }

/-! ### Virtual addresses (R91) -/

/-- va.Seg, bits 15:14. -/
def vaSeg (va : Word) : BitVec 2 := va.extractLsb' 14 2

/-- va.Page, bits 13:9. -/
def vaPage (va : Word) : BitVec 5 := va.extractLsb' 9 5

/-- va.offset, bits 8:0. -/
def vaOffset (va : Word) : BitVec 9 := va.extractLsb' 0 9

/-! ### Descriptors (R92, R94) -/

/-- A segment descriptor's fields (R92). -/
structure SegDesc where
  len : BitVec 5
  e : Bool
  w : Bool
  r : Bool
  p : Bool
  pta : Word
  deriving DecidableEq, Repr

/-- The fields of the two words of a segment descriptor (R92). -/
def SegDesc.ofWords (l : SdLayout) (sd1 sd2 : Word) : SegDesc :=
  let sd : DWord := sd2 ++ sd1
  { len := gather l.len 0 sd
    e := sd.getLsbD l.e, w := sd.getLsbD l.w, r := sd.getLsbD l.r, p := sd.getLsbD l.p
    pta := gather l.pta 0 sd }

/-- The P bit of a page descriptor (R94). -/
def pdPresent (l : PdLayout) (pd : Word) : Bool := pd.getLsbD l.p

/-- The PageFrame of a page descriptor (R94). -/
def pdFrame (l : PdLayout) (pd : Word) : BitVec 7 := gather l.frame 0 pd

/-- A page descriptor with R set, and M too for a write; every other bit is preserved (R94, R96). -/
def pdMark (l : PdLayout) (isWrite : Bool) (pd : Word) : Word :=
  if isWrite then pd ||| bitAt l.r true ||| bitAt l.m true else pd ||| bitAt l.r true

/-- PS2 after a Memory Management trap: the condition in the high byte, segment and page number in the
low byte (R98, R313). -/
def mmCode (l : MmCodeLayout) (code : BitVec 8) (va : Word) : Word :=
  code ++ (((vaSeg va).setWidth 8 <<< l.seg) ||| ((vaPage va).setWidth 8 <<< l.page) : BitVec 8)

/-- PS2 after an interrupt: the type code in bits 5:3, the device number in bits 2:0 (R342, R347). -/
def interruptCode (type number : Nat) : Word :=
  BitVec.ofNat 10 0 ++ (BitVec.ofNat 3 type ++ BitVec.ofNat 3 number : BitVec 6)

/-- The high byte of a word (R62). -/
def highByte (w : Word) : Byte := w.extractLsb' 8 8

/-- The low byte of a word (R62). -/
def lowByte (w : Word) : Byte := w.extractLsb' 0 8

end Sys2Proof.Machine
end

