-- ==== Sys2Proof/WellFormed.lean ====
section
/-! DEFINITION. The instructions a decoder produces. Two kinds of constructor are second names of words
that another constructor already stands for (30_encoding.md R132): `bhis` and `blo`, and the general
`ccop` on the eleven words that have names of their own. Their meanings agree with the first name's;
the decoder gives the first name (log entry 17). -/

namespace Sys2Proof

/-- `bhis` and `blo` are assembler synonyms of `bcc` and `bcs` (R132, R266, R267). -/
def Instr.isBranchSynonym : Instr → Bool
  | .bhis _ => true
  | .blo _ => true
  | _ => false

/-- The general condition code operator on a word that has a name (R301 to R309, R298, R299). -/
def Instr.isNamedCcop : Instr → Bool
  | .ccop s n z v c =>
    match s, n, z, v, c with
    | false, false, false, false, false => true
    | _, true, false, false, false => true
    | _, false, true, false, false => true
    | _, false, false, true, false => true
    | _, false, false, false, true => true
    | _, true, true, true, true => true
    | _, _, _, _, _ => false
  | _ => false

/-- The instruction is the one name the decoder gives its word. Ill-formed operands in the sense of
R137 (`jmp` in register mode and the like) are instructions all the same: they decode, and trap. -/
def Instr.wellFormed (i : Instr) : Bool :=
  !i.isBranchSynonym && !i.isNamedCcop

end Sys2Proof
end

