-- ==== Sys2Proof/Decode.lean ====
section
/-! DEFINITION. Decoding and encoding the first word of an instruction (30_encoding.md). The decoder
follows the ranges of R128; a word that matches no row of the Appendix is rejected by name, illegal or
unsupported (R136). The encoder is written from the bit patterns of R127. -/

namespace Sys2Proof

/-- The register a three-bit field selects (R124). -/
def Reg.ofBits (b : BitVec 3) : Reg :=
  match b with
  | 0#3 => .r0
  | 1#3 => .r1
  | 2#3 => .r2
  | 3#3 => .r3
  | 4#3 => .r4
  | 5#3 => .r5
  | 6#3 => .sp
  | _   => .pc

/-- The three-bit number of a register (R20, R124). -/
def Reg.bits : Reg → BitVec 3
  | .r0 => 0#3
  | .r1 => 1#3
  | .r2 => 2#3
  | .r3 => 3#3
  | .r4 => 4#3
  | .r5 => 5#3
  | .sp => 6#3
  | .pc => 7#3

/-- The addressing mode a three-bit field selects (R150, R153 to R160). -/
def Mode.ofBits (b : BitVec 3) : Mode :=
  match b with
  | 0#3 => .register
  | 1#3 => .deferred
  | 2#3 => .autoInc
  | 3#3 => .autoIncDeferred
  | 4#3 => .autoDec
  | 5#3 => .autoDecDeferred
  | 6#3 => .index
  | _   => .indexDeferred

/-- The three-bit number of an addressing mode (R153 to R160). -/
def Mode.bits : Mode → BitVec 3
  | .register => 0#3
  | .deferred => 1#3
  | .autoInc => 2#3
  | .autoIncDeferred => 3#3
  | .autoDec => 4#3
  | .autoDecDeferred => 5#3
  | .index => 6#3
  | .indexDeferred => 7#3

/-- A specifier's mode is its high three bits, its register the low three (R123). -/
def Operand.ofBits (b : BitVec 6) : Operand :=
  { mode := Mode.ofBits (b.extractLsb' 3 3), reg := Reg.ofBits (b.extractLsb' 0 3) }

/-- The six bits of a specifier (R123). -/
def Operand.bits (o : Operand) : BitVec 6 := o.mode.bits ++ o.reg.bits

/-! ### The fields of a word (R121) -/

/-- The destination specifier, and the source of format RS: bits 5:0 (R121). -/
def Word.dd (w : Word) : Operand := Operand.ofBits (w.extractLsb' 0 6)

/-- The source specifier of format D: bits 11:6 (R121). -/
def Word.ss (w : Word) : Operand := Operand.ofBits (w.extractLsb' 6 6)

/-- The register field of formats RS and SB: bits 8:6 (R121). -/
def Word.r (w : Word) : Reg := Reg.ofBits (w.extractLsb' 6 3)

/-- The offset of format B and the number of format Y: bits 7:0 (R121, R125). -/
def Word.low8 (w : Word) : BitVec 8 := w.extractLsb' 0 8

/-- The offset of format SB and the count of format M: bits 5:0 (R121, R125). -/
def Word.low6 (w : Word) : BitVec 6 := w.extractLsb' 0 6

/-! ### Decoding (R128, R129) -/

/-- The condition code operators, words 000240 to 000277 (R300): a word with a name is that name's
instruction, the others are the general operator. `b` is bits 4:0. -/
def decodeCc (b : BitVec 5) : Instr :=
  match b with
  | 0b00000#5 => .nop
  | 0b00001#5 => .clc
  | 0b00010#5 => .clv
  | 0b00100#5 => .clz
  | 0b01000#5 => .cln
  | 0b01111#5 => .ccc
  | 0b10001#5 => .sec
  | 0b10010#5 => .sev
  | 0b10100#5 => .sez
  | 0b11000#5 => .sen
  | 0b11111#5 => .scc
  | b => .ccop (b.getLsbD 4) (b.getLsbD 3) (b.getLsbD 2) (b.getLsbD 1) (b.getLsbD 0)

/-- The words 000000 to 000377 (R128): HALT, `jmp`, `rts`, the condition code operators, `swab`. -/
def decodeLowest (w : Word) : Option Instr :=
  match w.extractLsb' 6 2 with
  | 0b00#2 => if w = 0o000000#16 then some .halt else none
  | 0b01#2 => some (.jmp w.dd)
  | 0b10#2 =>
    if w.extractLsb' 3 3 = 0b000#3 then some (.rts (Reg.ofBits (w.extractLsb' 0 3)))
    else if w.extractLsb' 5 1 = 0b1#1 then some (decodeCc (w.extractLsb' 0 5))
    else none
  | _ => some (.swab w.dd)

/-- The words 007000 to 007777: the five privileged fixed words (R130). -/
def decodePrivileged (w : Word) : Option Instr :=
  if w = 0o007000#16 then some .ldst
  else if w = 0o007100#16 then some .stst
  else if w = 0o007200#16 then some .ldit
  else if w = 0o007300#16 then some .ldim
  else if w = 0o007400#16 then some .ldstl
  else none

/-- The words 107000 to 107777: the five fixed words of the new USER instructions (R130). -/
def decodeNewUser (w : Word) : Option Instr :=
  if w = 0o107000#16 then some .movbck
  else if w = 0o107100#16 then some .stck
  else if w = 0o107200#16 then some .inprg
  else if w = 0o107300#16 then some .csv
  else if w = 0o107400#16 then some .cret
  else none

/-- The words 000000 to 007777, by bits 11:8 and then bits 7:6 (R128). -/
def decodeGroup0 (w : Word) : Option Instr :=
  match w.extractLsb' 8 4 with
  | 0b0000#4 => decodeLowest w
  | 0b0001#4 => some (.br w.low8)
  | 0b0010#4 => some (.bne w.low8)
  | 0b0011#4 => some (.beq w.low8)
  | 0b0100#4 => some (.bge w.low8)
  | 0b0101#4 => some (.blt w.low8)
  | 0b0110#4 => some (.bgt w.low8)
  | 0b0111#4 => some (.ble w.low8)
  | 0b1000#4 => some (.jsr w.r w.dd)
  | 0b1001#4 => some (.jsr w.r w.dd)
  | 0b1010#4 =>
    match w.extractLsb' 6 2 with
    | 0b00#2 => some (.clr w.dd)
    | 0b01#2 => some (.com w.dd)
    | 0b10#2 => some (.inc w.dd)
    | _      => some (.dec w.dd)
  | 0b1011#4 =>
    match w.extractLsb' 6 2 with
    | 0b00#2 => some (.neg w.dd)
    | 0b01#2 => some (.adc w.dd)
    | 0b10#2 => some (.sbc w.dd)
    | _      => some (.tst w.dd)
  | 0b1100#4 =>
    match w.extractLsb' 6 2 with
    | 0b00#2 => some (.ror w.dd)
    | 0b01#2 => some (.rol w.dd)
    | 0b10#2 => some (.asr w.dd)
    | _      => some (.asl w.dd)
  | 0b1101#4 =>
    match w.extractLsb' 6 2 with
    | 0b00#2 => some (.mark w.low6)
    | 0b01#2 => none
    | 0b10#2 => none
    | _      => some (.sxt w.dd)
  | _ => decodePrivileged w

/-- The words 070000 to 077777, by bits 11:9 (R128). -/
def decodeGroup7 (w : Word) : Option Instr :=
  match w.extractLsb' 9 3 with
  | 0b000#3 => some (.mul w.r w.dd)
  | 0b001#3 => some (.div w.r w.dd)
  | 0b010#3 => some (.ash w.r w.dd)
  | 0b011#3 => some (.ashc w.r w.dd)
  | 0b100#3 => some (.xor w.r w.dd)
  | 0b111#3 => some (.sob w.r w.low6)
  | _ => none

/-- The words 100000 to 107777, by bits 11:8 and then bits 7:6 (R128). -/
def decodeGroup8 (w : Word) : Option Instr :=
  match w.extractLsb' 8 4 with
  | 0b0000#4 => some (.bpl w.low8)
  | 0b0001#4 => some (.bmi w.low8)
  | 0b0010#4 => some (.bhi w.low8)
  | 0b0011#4 => some (.blos w.low8)
  | 0b0100#4 => some (.bvc w.low8)
  | 0b0101#4 => some (.bvs w.low8)
  | 0b0110#4 => some (.bcc w.low8)
  | 0b0111#4 => some (.bcs w.low8)
  | 0b1000#4 => none
  | 0b1001#4 => some (.sys w.low8)
  | 0b1010#4 =>
    match w.extractLsb' 6 2 with
    | 0b00#2 => some (.clrb w.dd)
    | 0b01#2 => some (.comb w.dd)
    | 0b10#2 => some (.incb w.dd)
    | _      => some (.decb w.dd)
  | 0b1011#4 =>
    match w.extractLsb' 6 2 with
    | 0b00#2 => some (.negb w.dd)
    | 0b01#2 => some (.adcb w.dd)
    | 0b10#2 => some (.sbcb w.dd)
    | _      => some (.tstb w.dd)
  | 0b1100#4 =>
    match w.extractLsb' 6 2 with
    | 0b00#2 => some (.rorb w.dd)
    | 0b01#2 => some (.rolb w.dd)
    | 0b10#2 => some (.asrb w.dd)
    | _      => some (.aslb w.dd)
  | 0b1101#4 => none
  | _ => decodeNewUser w

/-- The instruction a first word is, if it matches a row of the Appendix (R128, R129). -/
def decodeWord (w : Word) : Option Instr :=
  match w.extractLsb' 12 4 with
  | 0x0#4 => decodeGroup0 w
  | 0x1#4 => some (.mov w.ss w.dd)
  | 0x2#4 => some (.cmp w.ss w.dd)
  | 0x3#4 => some (.bit w.ss w.dd)
  | 0x4#4 => some (.bic w.ss w.dd)
  | 0x5#4 => some (.bis w.ss w.dd)
  | 0x6#4 => some (.add w.ss w.dd)
  | 0x7#4 => decodeGroup7 w
  | 0x8#4 => decodeGroup8 w
  | 0x9#4 => some (.movb w.ss w.dd)
  | 0xA#4 => some (.cmpb w.ss w.dd)
  | 0xB#4 => some (.bitb w.ss w.dd)
  | 0xC#4 => some (.bicb w.ss w.dd)
  | 0xD#4 => some (.bisb w.ss w.dd)
  | 0xE#4 => some (.sub w.ss w.dd)
  | _ => none

/-- Why bytes are no instruction. `illegalOpcode` and `unsupported` are Program trap codes 0 and 1
(R135, R136); `truncated` is a byte list too short to hold a word. -/
inductive Reject where
  | illegalOpcode
  | unsupported
  | truncated
  deriving DecidableEq, Repr

/-- The class of a word that matches no row: a valid PDP-11 instruction that CHIP does not support, or
no legal operation code (R136). `set` is the parameter `UNSUPPORTED_SET`. -/
def classifyReject (set : List (Nat × Nat)) (w : Word) : Reject :=
  if set.any (fun p => decide (p.1 ≤ w.toNat) && decide (w.toNat ≤ p.2)) then .unsupported
  else .illegalOpcode

/-- The word of two bytes in storage order, the low byte first (20_memory.md R63). -/
def wordOfBytes (lo hi : Byte) : Word := hi ++ lo

/-- The two bytes of a word in storage order (R63). -/
def bytesOfWord (w : Word) : List Byte := [w.extractLsb' 0 8, w.extractLsb' 8 8]

/-- Decodes the bytes of an instruction, total on any bytes: the instruction with the bytes after its
first word, or why there is none. -/
def decode (set : List (Nat × Nat)) : List Byte → Except Reject (Instr × List Byte)
  | lo :: hi :: rest =>
    match decodeWord (wordOfBytes lo hi) with
    | some i => .ok (i, rest)
    | none => .error (classifyReject set (wordOfBytes lo hi))
  | _ => .error .truncated

/-! ### Encoding (R127) -/

/-- Format S: ten opcode bits, then the specifier (R121). -/
def encodeS (op : BitVec 10) (dd : Operand) : Word := op ++ dd.bits

/-- Format D: four opcode bits, then the two specifiers (R121). -/
def encodeD (op : BitVec 4) (ss dd : Operand) : Word := op ++ (ss.bits ++ dd.bits : BitVec 12)

/-- Format RS: seven opcode bits, the register, then the specifier (R121). -/
def encodeRS (op : BitVec 7) (r : Reg) (o : Operand) : Word := op ++ (r.bits ++ o.bits : BitVec 9)

/-- Formats B and Y: eight opcode bits, then the offset or number (R121). -/
def encodeB (op : BitVec 8) (offset : BitVec 8) : Word := op ++ offset

/-- Format CC: eleven opcode bits, the set bit, then the mask N Z V C (R121). -/
def encodeCc (s n z v c : Bool) : Word :=
  0b00000000101#11 ++ (BitVec.ofBool s ++ (BitVec.ofBool n ++ (BitVec.ofBool z ++
    (BitVec.ofBool v ++ BitVec.ofBool c : BitVec 2) : BitVec 3) : BitVec 4) : BitVec 5)

/-- The word of an instruction: its encoding is one word, the extension words of its operands being
data read through PC (R120). -/
def encode : Instr → Word
  | .halt => 0o000000#16
  | .ldst => 0o007000#16
  | .stst => 0o007100#16
  | .ldit => 0o007200#16
  | .ldim => 0o007300#16
  | .ldstl => 0o007400#16
  | .movbck => 0o107000#16
  | .stck => 0o107100#16
  | .inprg => 0o107200#16
  | .csv => 0o107300#16
  | .cret => 0o107400#16
  | .sys number => encodeB 0b10001001#8 number
  | .clr dd => encodeS 0b0000101000#10 dd
  | .clrb dd => encodeS 0b1000101000#10 dd
  | .com dd => encodeS 0b0000101001#10 dd
  | .comb dd => encodeS 0b1000101001#10 dd
  | .inc dd => encodeS 0b0000101010#10 dd
  | .incb dd => encodeS 0b1000101010#10 dd
  | .dec dd => encodeS 0b0000101011#10 dd
  | .decb dd => encodeS 0b1000101011#10 dd
  | .neg dd => encodeS 0b0000101100#10 dd
  | .negb dd => encodeS 0b1000101100#10 dd
  | .adc dd => encodeS 0b0000101101#10 dd
  | .adcb dd => encodeS 0b1000101101#10 dd
  | .sbc dd => encodeS 0b0000101110#10 dd
  | .sbcb dd => encodeS 0b1000101110#10 dd
  | .tst dd => encodeS 0b0000101111#10 dd
  | .tstb dd => encodeS 0b1000101111#10 dd
  | .ror dd => encodeS 0b0000110000#10 dd
  | .rorb dd => encodeS 0b1000110000#10 dd
  | .rol dd => encodeS 0b0000110001#10 dd
  | .rolb dd => encodeS 0b1000110001#10 dd
  | .asr dd => encodeS 0b0000110010#10 dd
  | .asrb dd => encodeS 0b1000110010#10 dd
  | .asl dd => encodeS 0b0000110011#10 dd
  | .aslb dd => encodeS 0b1000110011#10 dd
  | .sxt dd => encodeS 0b0000110111#10 dd
  | .swab dd => encodeS 0b0000000011#10 dd
  | .jmp dd => encodeS 0b0000000001#10 dd
  | .ash r ss => encodeRS 0b0111010#7 r ss
  | .ashc r ss => encodeRS 0b0111011#7 r ss
  | .mul r ss => encodeRS 0b0111000#7 r ss
  | .div r ss => encodeRS 0b0111001#7 r ss
  | .xor r dd => encodeRS 0b0111100#7 r dd
  | .jsr r dd => encodeRS 0b0000100#7 r dd
  | .mov ss dd => encodeD 0b0001#4 ss dd
  | .movb ss dd => encodeD 0b1001#4 ss dd
  | .cmp ss dd => encodeD 0b0010#4 ss dd
  | .cmpb ss dd => encodeD 0b1010#4 ss dd
  | .bit ss dd => encodeD 0b0011#4 ss dd
  | .bitb ss dd => encodeD 0b1011#4 ss dd
  | .bic ss dd => encodeD 0b0100#4 ss dd
  | .bicb ss dd => encodeD 0b1100#4 ss dd
  | .bis ss dd => encodeD 0b0101#4 ss dd
  | .bisb ss dd => encodeD 0b1101#4 ss dd
  | .add ss dd => encodeD 0b0110#4 ss dd
  | .sub ss dd => encodeD 0b1110#4 ss dd
  | .br offset => encodeB 0b00000001#8 offset
  | .bne offset => encodeB 0b00000010#8 offset
  | .beq offset => encodeB 0b00000011#8 offset
  | .bge offset => encodeB 0b00000100#8 offset
  | .blt offset => encodeB 0b00000101#8 offset
  | .bgt offset => encodeB 0b00000110#8 offset
  | .ble offset => encodeB 0b00000111#8 offset
  | .bpl offset => encodeB 0b10000000#8 offset
  | .bmi offset => encodeB 0b10000001#8 offset
  | .bhi offset => encodeB 0b10000010#8 offset
  | .blos offset => encodeB 0b10000011#8 offset
  | .bvc offset => encodeB 0b10000100#8 offset
  | .bvs offset => encodeB 0b10000101#8 offset
  | .bcc offset => encodeB 0b10000110#8 offset
  | .bcs offset => encodeB 0b10000111#8 offset
  | .bhis offset => encodeB 0b10000110#8 offset
  | .blo offset => encodeB 0b10000111#8 offset
  | .sob r offset => 0b0111111#7 ++ (r.bits ++ offset : BitVec 9)
  | .rts r => 0b0000000010000#13 ++ r.bits
  | .mark nn => 0b0000110100#10 ++ nn
  | .ccop s n z v c => encodeCc s n z v c
  | .nop => 0o000240#16
  | .clc => 0o000241#16
  | .clv => 0o000242#16
  | .clz => 0o000244#16
  | .cln => 0o000250#16
  | .ccc => 0o000257#16
  | .sec => 0o000261#16
  | .sev => 0o000262#16
  | .sez => 0o000264#16
  | .sen => 0o000270#16
  | .scc => 0o000277#16

/-- The bytes of an instruction's word in storage order (R63). -/
def encodeBytes (i : Instr) : List Byte := bytesOfWord (encode i)

/-- The instruction the decoder reads from an opcode-table word: the low `nbits` bits of `w`, laid out
in storage order with zero extension words after them. -/
def decodeTableWord (nbits w : Nat) : Option Instr :=
  match decode Config.pdp11Unsupported
      (bytesOfWord (BitVec.ofNat 16 (w % 2 ^ nbits)) ++ List.replicate 4 0#8) with
  | .ok (i, _) => some i
  | .error _ => none

end Sys2Proof
end

