-- ==== Sys2Proof/Machine/Memory.lean ====
section
/-! DEFINITION. Named operations over stored bytes (20_memory.md R60 to R64): reading and writing one
byte, words in little-endian order, blocks of words. -/

namespace Sys2Proof.Machine

/-- What a byte nothing has written reads as. The spec leaves it unspecified (U1, U2): DESIGN CHOICE,
unsafe, log entry 5. -/
def Memory.unwritten : Byte := 0#8

/-- The byte at an address. -/
def Memory.read : Memory → Nat → Byte
  | [], _ => Memory.unwritten
  | (k, b) :: rest, a =>
    if a = k then b else if a < k then Memory.unwritten else Memory.read rest a

/-- Stores a byte, keeping the canonical form. -/
def Memory.write : Memory → Nat → Byte → Memory
  | [], a, v => if v = Memory.unwritten then [] else [(a, v)]
  | (k, b) :: rest, a, v =>
    if a < k then (if v = Memory.unwritten then (k, b) :: rest else (a, v) :: (k, b) :: rest)
    else if a = k then (if v = Memory.unwritten then rest else (a, v) :: rest)
    else (k, b) :: Memory.write rest a v

/-- The canonical form: addresses strictly rising, no entry equal to what an unlisted address reads as. -/
def Memory.wf : Memory → Bool
  | [] => true
  | (k, b) :: rest => decide (b ≠ Memory.unwritten) && rest.all (fun c => decide (k < c.1)) && Memory.wf rest

/-- Every listed address is below the bound (R60). -/
def Memory.below (bound : Nat) (m : Memory) : Bool := m.all (fun c => decide (c.1 < bound))

/-- The word at an even address: the low byte is at the address (R63). -/
def Memory.readWord (m : Memory) (a : Nat) : Word := wordOfBytes (m.read a) (m.read (a + 1))

/-- Stores a word, low byte first (R63). -/
def Memory.writeWord (m : Memory) (a : Nat) (v : Word) : Memory :=
  (m.write a (v.extractLsb' 0 8)).write (a + 1) (v.extractLsb' 8 8)

/-- Stores consecutive words upward from an address. -/
def Memory.writeWords (m : Memory) (a : Nat) : List Word → Memory
  | [] => m
  | v :: vs => Memory.writeWords (m.writeWord a v) (a + 2) vs

/-- Stores consecutive bytes upward from an address. -/
def Memory.writeBytes (m : Memory) (a : Nat) : List Byte → Memory
  | [] => m
  | v :: vs => Memory.writeBytes (m.write a v) (a + 1) vs

/-! ### Disk and drum sectors -/

/-- The byte at a key of a medium; `fresh` gives the bytes nothing has written (U10). -/
def Medium.read (fresh : Nat → Byte) : Medium → Nat → Byte
  | [], key => fresh key
  | (k, b) :: rest, key =>
    if key = k then b else if key < k then fresh key else Medium.read fresh rest key

/-- Stores a byte of a sector, keys kept strictly rising. -/
def Medium.write : Medium → Nat → Byte → Medium
  | [], key, v => [(key, v)]
  | (k, b) :: rest, key, v =>
    if key < k then (key, v) :: (k, b) :: rest
    else if key = k then (key, v) :: rest
    else (k, b) :: Medium.write rest key v

end Sys2Proof.Machine
end

