-- ==== Sys2Proof/Machine/Device.lean ====
section
/-! DEFINITION. The devices and their controllers (60_exceptions.md sections 12 to 16): register slots,
the checks of a request, starting an operation, moving the bytes of a transfer, completing it. -/

namespace Sys2Proof.Machine

/-- A device slot (R360). -/
inductive Dev where
  | terminal (i : Fin 5)
  | printer (i : Fin 2)
  | disk (i : Fin 4)
  | drum (i : Fin 4)
  deriving DecidableEq, Repr

/-- The device of a slot; slots are 020 bytes each, in the order of R360. -/
def Dev.ofSlot (k : Fin 15) : Dev :=
  if h : k.val < 5 then .terminal ⟨k.val, h⟩
  else if h : k.val < 7 then .printer ⟨k.val - 5, by omega⟩
  else if h : k.val < 11 then .disk ⟨k.val - 7, by omega⟩
  else .drum ⟨k.val - 11, by omega⟩

/-- The slot of a device (R360). -/
def Dev.slot : Dev → Fin 15
  | .terminal i => ⟨i.val, by omega⟩
  | .printer i => ⟨i.val + 5, by omega⟩
  | .disk i => ⟨i.val + 7, by omega⟩
  | .drum i => ⟨i.val + 11, by omega⟩

/-- The address of a device's Operation register (R360). -/
def Dev.base (d : Dev) : Nat := 0o1400 + 0o20 * d.slot.val

/-- The addresses of the other three registers (R360). -/
def Dev.argAddr (d : Dev) : Nat := d.base + 2
def Dev.bufAddr (d : Dev) : Nat := d.base + 4
def Dev.statusAddr (d : Dev) : Nat := d.base + 6

/-- The interrupt priority level, which is also the type code (R341, R342). -/
def Dev.level : Dev → Nat
  | .terminal _ => 0
  | .printer _ => 1
  | .disk _ => 2
  | .drum _ => 3

/-- The number of the device within its type (R342). -/
def Dev.number : Dev → Nat
  | .terminal i => i.val
  | .printer i => i.val
  | .disk i => i.val
  | .drum i => i.val

/-- How many devices of this one's type are configured (R358). -/
def Dev.configured (g : Config) : Dev → Nat
  | .terminal _ => g.nterm
  | .printer _ => g.nprint
  | .disk _ => g.ndisk
  | .drum _ => g.ndrum

/-- The fifteen devices in the order of their slots (R360). -/
def Dev.all : List Dev :=
  [.terminal 0, .terminal 1, .terminal 2, .terminal 3, .terminal 4, .printer 0, .printer 1,
   .disk 0, .disk 1, .disk 2, .disk 3, .drum 0, .drum 1, .drum 2, .drum 3]

/-- The device whose Operation word the byte or the aligned word at a physical address lies in (R362). -/
def Dev.operatedBy (pa : Nat) : Option Dev := Dev.all.find? (fun d => decide (pa / 2 = d.base / 2))

/-! ### What an operation is -/

/-- The operations of Tables 9 to 12 (R370, R375, R378, R380). -/
inductive OpKind where
  | sectorRead
  | sectorWrite
  | seek
  | print
  | lineRead
  deriving DecidableEq, Repr

/-- The operation a code stands for on a device; none is Invalid Operation (R366). -/
def Dev.opKind (d : Dev) (code : Word) : Option OpKind :=
  match d, code.toNat with
  | .terminal _, 0 => some .lineRead
  | .terminal _, 1 => some .print
  | .printer _, 1 => some .print
  | .disk _, 0 => some .sectorRead
  | .disk _, 1 => some .sectorWrite
  | .disk _, 2 => some .seek
  | .drum _, 0 => some .sectorRead
  | .drum _, 1 => some .sectorWrite
  | _, _ => none

/-- The last sector of a disk's track or of a drum (R370, R375). -/
def Dev.lastSector (g : Config) : Dev → Nat
  | .drum _ => g.updrumsec
  | _ => g.upsector

/-- The length of the buffer an operation uses (R366). -/
def OpKind.bufferLength (g : Config) (arg : Word) : OpKind → Nat
  | .sectorRead => 512
  | .sectorWrite => 512
  | .seek => 0
  | .print => arg.toNat
  | .lineRead => g.upamount

/-- `BUFFER_VALID`: the buffer lies wholly below MEMSIZE (D38). -/
def bufferValid (g : Config) (buf : Word) (len : Nat) : Bool :=
  decide (len = 0) || decide (buf.toNat + len ≤ g.memsize)

/-- Status 4, 5 or 6: the Length or Disk Address register is out of range (R366). -/
def OpKind.argumentStatus (g : Config) (d : Dev) (arg : Word) : OpKind → Option Nat
  | .print => if arg.toNat > g.upamount then some 4 else none
  | .seek => if arg.toNat > g.uptrack then some 5 else none
  | .sectorRead => if arg.toNat > d.lastSector g then some 6 else none
  | .sectorWrite => if arg.toNat > d.lastSector g then some 6 else none
  | .lineRead => none

/-- The host file of a print, or of a line read, is there (R378, R381, R382). -/
def Io.ready (io : Io) (d : Dev) : OpKind → Bool
  | .print =>
    match d with
    | .terminal i => io.terms[i].ready
    | .printer i => io.prints[i].ready
    | _ => true
  | .lineRead =>
    match d with
    | .terminal i => io.terms[i].input.isSome
    | _ => true
  | _ => true

/-- The status one check fails a request with (R366, R367); a check of an operation passes where the
code names none. -/
def checkStatus (g : Config) (io : Io) (d : Dev) (request : Nat) (code arg buf : Word) :
    DeviceCheck → Option Nat
  | .nonExistentDevice => if d.number < d.configured g then none else some 8
  | .invalidOperation => if (d.opKind code).isSome then none else some 2
  | .invalidArgument => (d.opKind code).bind (fun op => op.argumentStatus g d arg)
  | .invalidBuffer =>
    (d.opKind code).bind (fun op =>
      if bufferValid g buf (op.bufferLength g arg) then none else some 3)
  | .notReady => (d.opKind code).bind (fun op => if io.ready d op then none else some 9)
  | .hardwareFailure => if g.hwFailures.contains (d.slot.val, request) then some 1 else none

/-- The failing status of a request: that of the first check in `DEVICE_CHECK_ORDER` that fails
(R366). -/
def requestStatus (g : Config) (io : Io) (d : Dev) (request : Nat) (code arg buf : Word) :
    Option Nat :=
  g.deviceCheckOrder.findSome? (checkStatus g io d request code arg buf)

/-! ### Starting (R362, R363) -/

/-- The controller after its Operation register has been written: any operation in progress is
abandoned, and the parameters are sampled from the registers; the operation begins at the end of the
instruction (R430). The pending flag stays (R363). -/
def DevCtl.start (g : Config) (mem : Memory) (io : Io) (d : Dev) (c : DevCtl) : DevCtl :=
  let code := mem.readWord d.base
  let arg := mem.readWord d.argAddr
  let buf := mem.readWord d.bufAddr
  { busy := some
      { code := code, arg := arg, buf := buf
        failure := requestStatus g io d c.requests code arg buf
        left := Config.opTime d.slot.val c.requests + 1
        begun := false, moved := [] }
    pending := c.pending
    requests := c.requests + 1 }

/-- The machine after a device's Operation register has been written. -/
def State.startDevice (s : State) (d : Dev) : State :=
  { s with io := { s.io with
      ctl := s.io.ctl.set d.slot (DevCtl.start s.cfg s.mem s.io d s.io.ctl[d.slot]) } }

/-! ### A terminal read (R382) -/

/-- What one terminal read takes from the input. -/
structure LineRead where
  /-- The bytes for the buffer. -/
  bytes : List Byte
  /-- The position reached. -/
  pos : Nat
  status : Nat
  deriving DecidableEq, Repr

/-- The New Line character (R378, R382). -/
def newLine : Byte := 0o12#8

/-- A read from the given position: the line up to a New Line or UPAMOUNT bytes, the New Line consumed
where the read reached it (R382). Of a longer line the rest stays, or is discarded (`TERM_LONG_LINE`).
Status 7 comes with the read that consumes the last byte; under the other `EOI_TIMING` a read that ends
with a New Line does not give it. -/
def lineRead (g : Config) (input : List Byte) (pos : Nat) : LineRead :=
  let line := (input.drop pos).takeWhile (fun b => decide (b ≠ newLine))
  let bytes := line.take g.upamount
  let discards := decide (g.termLongLine = .discardRest)
  let stopped := pos + (if discards then line.length else bytes.length)
  let atNewLine := (decide (bytes.length < g.upamount) || discards) && decide (stopped < input.length)
  let next := if atNewLine then stopped + 1 else stopped
  let exhausted := decide (input.length ≤ next) &&
    (decide (g.eoiTiming = .exhaustingRead) || !atNewLine)
  { bytes := bytes, pos := next, status := if exhausted then 7 else 0 }

/-! ### Transfers (R112) -/

/-- The key of a byte of a sector on a disk (R370). -/
def Disk.key (g : Config) (head sector j : Nat) : Nat := (head * (g.upsector + 1) + sector) * 512 + j

/-- The line a terminal read brings in. -/
def State.lineOf (s : State) : Dev → LineRead
  | .terminal i =>
    let t := s.io.terms[i]
    lineRead s.cfg (t.input.getD []) t.pos
  | _ => { bytes := [], pos := 0, status := 0 }

/-- How many bytes an operation moves. A failing request moves none (R366). -/
def State.transferLength (s : State) (d : Dev) (op : DevOp) : Nat :=
  match op.failure, d.opKind op.code with
  | none, some .sectorRead => 512
  | none, some .sectorWrite => 512
  | none, some .print => op.arg.toNat
  | none, some .lineRead => (s.lineOf d).bytes.length
  | _, _ => 0

/-- The byte at a place of a sector of a disk or drum (R372, R375). -/
def State.sectorByte (s : State) (sector j : Nat) : Dev → Byte
  | .disk i =>
    (s.io.disks[i].data).read (Config.mediumByte (Dev.disk i).slot.val)
      (Disk.key s.cfg s.io.disks[i].head sector j)
  | .drum i =>
    (s.io.drums[i].data).read (Config.mediumByte (Dev.drum i).slot.val) (sector * 512 + j)
  | _ => Memory.unwritten

/-- Stores a byte at a place of a sector of a disk or drum (R372, R375). -/
def State.writeSector (s : State) (sector j : Nat) (b : Byte) : Dev → State
  | .disk i =>
    let d := s.io.disks[i]
    let d' : Disk := { d with data := d.data.write (Disk.key s.cfg d.head sector j) b }
    { s with io := { s.io with disks := s.io.disks.set i d' } }
  | .drum i =>
    let d' : Drum := { data := (s.io.drums[i].data).write (sector * 512 + j) b }
    { s with io := { s.io with drums := s.io.drums.set i d' } }
  | _ => s

/-- The value of the byte of index `j` of a transfer, as it stands now. -/
def State.transferByte (s : State) (d : Dev) (op : DevOp) (j : Nat) : Byte :=
  match d.opKind op.code with
  | some .sectorRead => s.sectorByte op.arg.toNat j d
  | some .lineRead => (s.lineOf d).bytes.getD j Memory.unwritten
  | _ => s.mem.read (op.buf.toNat + j)

/-- Puts one byte of a transfer where it goes: into the buffer, or onto the sector. A byte to print is
only recorded; it is put out at completion (R378). A transfer into a buffer that covers an Operation register
starts no device: R83 with R82 would start it, R362 and D40 speak of CPU writes alone. DESIGN CHOICE, log
entry 45. -/
def State.placeByte (s : State) (d : Dev) (op : DevOp) (j : Nat) (b : Byte) : State :=
  match d.opKind op.code with
  | some .sectorRead => { s with mem := s.mem.write (op.buf.toNat + j) b }
  | some .lineRead => { s with mem := s.mem.write (op.buf.toNat + j) b }
  | some .sectorWrite => s.writeSector op.arg.toNat j b d
  | _ => s

/-- Replaces a slot's controller. -/
def State.setCtl (s : State) (d : Dev) (c : DevCtl) : State :=
  { s with io := { s.io with ctl := s.io.ctl.set d.slot c } }

/-- Moves the byte of index `j` of the slot's operation, unless it has been moved (R112). -/
def State.moveByte (s : State) (d : Dev) (j : Nat) : State :=
  match s.io.ctl[d.slot].busy with
  | none => s
  | some op =>
    if op.moved.any (fun m => m.1 == j) then s
    else
      let b := s.transferByte d op j
      let s' := s.placeByte d op j b
      s'.setCtl d { s.io.ctl[d.slot] with busy := some { op with moved := (j, b) :: op.moved } }

/-- Moves the bytes of the indices below `n` that the filter lets through. -/
def State.moveBytes (s : State) (d : Dev) (now : Nat → Bool) : Nat → State
  | 0 => s
  | n + 1 =>
    let s' := State.moveBytes s d now n
    if now n then s'.moveByte d n else s'

/-- The bytes of the slot's transfer whose instant has come are moved (R112). -/
def State.moveSome (draw : Nat) (s : State) (d : Dev) : State :=
  match s.io.ctl[d.slot].busy with
  | none => s
  | some op =>
    if op.begun then s.moveBytes d (Config.movesNow draw d.slot.val) (s.transferLength d op) else s

/-- No transfer can be going on: no operation in progress has begun. -/
def State.quiet (s : State) : Bool :=
  Dev.all.all (fun d => !((s.io.ctl[d.slot].busy).any (fun op => op.begun)))

/-- The instant between two accesses of an instruction: the controllers may move bytes of their transfers
(R105, R107, R112). With no transfer going on nothing can happen. -/
def State.race (s : State) : State :=
  if s.quiet then s else { Dev.all.foldl (State.moveSome s.draw) s with draw := s.draw + 1 }

/-- Several such instants. -/
def State.races (s : State) : Nat → State
  | 0 => s
  | n + 1 => State.races s.race n

/-- The state with what the controllers moved until the draw counter stood at `draw`, and nothing else: what
an instruction that is undone leaves (R318, R319). -/
def State.meanwhile (s : State) (draw : Nat) : State := s.races (draw - s.draw)

/-- The bytes a print has caught, in order. -/
def DevOp.line (op : DevOp) (n : Nat) : List Byte :=
  (List.range n).map (fun j => ((op.moved.find? (fun m => m.1 == j)).map Prod.snd).getD Memory.unwritten)

/-- Appends to the output of a printer or a terminal (R378, R381). -/
def State.emit (s : State) (bytes : List Byte) : Dev → State
  | .terminal i =>
    let t := s.io.terms[i]
    { s with io := { s.io with terms := s.io.terms.set i { t with output := t.output ++ bytes } } }
  | .printer i =>
    let p := s.io.prints[i]
    { s with io := { s.io with prints := s.io.prints.set i { p with output := p.output ++ bytes } } }
  | _ => s

/-- Moves the position of a terminal's input (R382). -/
def State.setInputPos (s : State) (pos : Nat) : Dev → State
  | .terminal i =>
    { s with io := { s.io with terms := s.io.terms.set i { s.io.terms[i] with pos := pos } } }
  | _ => s

/-- Moves the head of a disk (R371). -/
def State.setHead (s : State) (track : Nat) : Dev → State
  | .disk i =>
    { s with io := { s.io with disks := s.io.disks.set i { s.io.disks[i] with head := track } } }
  | _ => s

/-- What completing an operation does besides its transfer: the status and the effects of the kind of
operation. The Length register is written by a terminal read alone (R378, R382). -/
def State.finishOp (s : State) (d : Dev) (op : DevOp) : State × Nat :=
  match op.failure with
  | some status => (s, status)
  | none =>
    match d.opKind op.code with
    | some .seek => (s.setHead op.arg.toNat d, 0)
    | some .print => (s.emit (op.line op.arg.toNat ++ [newLine]) d, 0)
    | some .lineRead =>
      let line := s.lineOf d
      (({ s with mem := s.mem.writeWord d.argAddr (BitVec.ofNat 16 line.bytes.length) }).setInputPos
        line.pos d, line.status)
    | _ => (s, 0)

/-- Completion (R365): the transfer is finished, the Status register written, the request made. -/
def State.completeOp (s : State) (d : Dev) : State :=
  match s.io.ctl[d.slot].busy with
  | none => s
  | some op =>
    let s1 := s.moveBytes d (fun _ => true) (s.transferLength d op)
    let op1 := s1.io.ctl[d.slot].busy.getD op
    let (s2, status) := s1.finishOp d op1
    let s3 := { s2 with mem := s2.mem.writeWord d.statusAddr (BitVec.ofNat 16 status) }
    s3.setCtl d { s3.io.ctl[d.slot] with busy := none, pending := true }

/-- One controller's share of a step: it completes if its time has come, else moves the bytes whose
instant has come (R112, R365). -/
def State.pollDevice (s : State) (d : Dev) : State :=
  match s.io.ctl[d.slot].busy with
  | none => s
  | some op => if op.left = 0 then s.completeOp d else State.moveSome s.draw s d

/-- The controllers' share of a step, in the order of the slots (R390); log entry 18. -/
def State.pollDevices (s : State) : State := Dev.all.foldl State.pollDevice s

end Sys2Proof.Machine
end

