-- ==== Sys2Proof/Machine/Ops.lean ====
section
/-! DEFINITION. The shared operations: traps and the one entry sequence (60_exceptions.md R311 to R322),
memory access with mapping (20_memory.md R80 to R99), instruction fetch, the stack (R330 to R332), and an
instruction as a transaction (R318). -/

namespace Sys2Proof.Machine

/-! ### Registers -/

/-- A general register (R20). -/
def ProcState.reg (p : ProcState) : Reg → Word
  | .r0 => p.r0
  | .r1 => p.r1
  | .r2 => p.r2
  | .r3 => p.r3
  | .r4 => p.r4
  | .r5 => p.r5
  | .sp => p.sp
  | .pc => p.pc

/-- The Processor State with one general register replaced. -/
def ProcState.setReg (p : ProcState) (v : Word) : Reg → ProcState
  | .r0 => { p with r0 := v }
  | .r1 => { p with r1 := v }
  | .r2 => { p with r2 := v }
  | .r3 => { p with r3 := v }
  | .r4 => { p with r4 := v }
  | .r5 => { p with r5 := v }
  | .sp => { p with sp := v }
  | .pc => { p with pc := v }

/-- A general register of the machine. -/
def State.reg (s : State) (r : Reg) : Word := s.cpu.reg r

/-- Writes a general register. -/
def State.setReg (s : State) (r : Reg) (v : Word) : State := { s with cpu := s.cpu.setReg v r }

/-- Writes the condition codes (R25, R297). -/
def State.setCc (s : State) (cc : Cc) : State :=
  { s with cpu := { s.cpu with ps1 := { s.cpu.ps1 with cc := cc } } }

/-- Writes PS1.INTMASK (R193). -/
def State.setIntmask (s : State) (mask : BitVec 8) : State :=
  { s with cpu := { s.cpu with ps1 := { s.cpu.ps1 with intmask := mask } } }

/-- Writes STL (R194). -/
def State.setStl (s : State) (v : Word) : State := { s with cpu := { s.cpu with stl := v } }

/-- Writes IT (R192). -/
def State.setIt (s : State) (v : DWord) : State := { s with it := v }

/-- Stops the processor (R410). -/
def State.stop (s : State) (why : StopReason) : State := { s with run := .stopped why }

/-- Stops the processor before the instruction at PC, which the next `run` will execute without stopping
there again (R412, R413). -/
def State.stopAt (s : State) (why : StopReason) (passes : Bool) : State :=
  { s with
    run := .stopped why
    console := { s.console with resume := some { addr := s.cpu.pc, passes := passes } } }

/-! ### Traps -/

/-- The Program traps (R312, Table 5). `nonPageAlignment` is never raised (R327). -/
inductive ProgCode where
  | illegalOpcode
  | unsupported
  | privileged
  | illInstruction
  | oddAddress
  | nonPageAlignment
  | nonexistentMemory
  | stackYellow
  | stackRed
  | zeroDivide
  deriving DecidableEq, Repr

/-- The number of a Program trap (R312). -/
def ProgCode.number : ProgCode → Nat
  | .illegalOpcode => 0
  | .unsupported => 1
  | .privileged => 2
  | .illInstruction => 3
  | .oddAddress => 4
  | .nonPageAlignment => 5
  | .nonexistentMemory => 6
  | .stackYellow => 7
  | .stackRed => 8
  | .zeroDivide => 9

/-- The Memory Management traps (R313, Table 4). -/
inductive MmCode where
  | accessProtection
  | pageMissing
  | invalidPage
  | segmentMissing
  deriving DecidableEq, Repr

/-- The code of a Memory Management trap in PS2[15..8] (R313). -/
def MmCode.number : MmCode → BitVec 8
  | .accessProtection => 0#8
  | .pageMissing => 1#8
  | .invalidPage => 2#8
  | .segmentMissing => 3#8

/-- What an instruction can raise (R315, R316). -/
inductive Trap where
  | program (code : ProgCode)
  | mm (code : MmCode) (va : Word)
  deriving DecidableEq, Repr

/-- The trap area of a trap's category (R312, R313). -/
def Trap.area : Trap → Nat
  | .program _ => 0o0
  | .mm _ _ => 0o60

/-- The code loaded in PS2 (R312, R313, R316). -/
def Trap.ps2 (l : MmCodeLayout) : Trap → Word
  | .program c => BitVec.ofNat 16 c.number
  | .mm c va => mmCode l c.number va

/-- The trap area of SYS (R314). -/
def sysArea : Nat := 0o140

/-- `StoreState(A)`: the Processor State into twelve words of physical memory (R320). -/
def State.storeState (s : State) (a : Nat) : State :=
  { s with mem := s.mem.writeWords a (s.cpu.words s.cfg.ps1Layout) }

/-- Replaces the whole Processor State by twelve words, word k being register k of R34. Taking an event
and returning from one both end with this (R321, R325). -/
def State.install (s : State) (t : Nat → Word) : State :=
  { s with cpu := ProcState.ofWords s.cfg.ps1Layout t }

/-- `LoadState(A)`: the Processor State from twelve words of physical memory (R321). -/
def State.loadState (s : State) (a : Nat) : State := s.install (fun k => s.mem.readWord (a + 2 * k))

/-- `Entry(A, code)`, the one entry sequence of traps and interrupts: PS2 is loaded with the code, the
state stored in the area's Old region, and a new state loaded from its New region (R322). -/
def State.enter (s : State) (area : Nat) (code : Word) : State :=
  (({ s with cpu := { s.cpu with ps2 := code } }).storeState area).loadState (area + 0o30)

/-- `raise`, of a trap that undoes its instruction: the entry from the state before it (R315, R316). -/
def State.takeTrap (s : State) (t : Trap) : State := s.enter t.area (t.ps2 s.cfg.mmCodeLayout)

/-! ### An instruction in progress -/

/-- Why an instruction is given up: a trap, or a reference to a suspect that the console stops before
(R318, R413); and the draw counter at that moment, which says what the controllers had moved by then. -/
inductive Abort where
  | trap (t : Trap) (draw : Nat)
  | suspect (draw : Nat)
  deriving DecidableEq, Repr

/-- A part of an instruction: it answers a value and the state it leaves, or gives the instruction up. -/
abbrev Exec := StateT State (Except Abort)

/-- Gives the instruction up with a trap. -/
def raise {α : Type} (t : Trap) : Exec α := fun s => .error (.trap t s.draw)

/-- Gives the instruction up with a Program trap. -/
def raiseProgram {α : Type} (c : ProgCode) : Exec α := raise (.program c)

/-- Reads from the state. -/
def peek {α : Type} (f : State → α) : Exec α := fun s => .ok (f s, s)

/-- Changes the state. -/
def update (f : State → State) : Exec Unit := fun s => .ok ((), f s)

/-- Reads a general register. -/
def getReg (r : Reg) : Exec Word := peek (fun s => s.reg r)

/-- Writes a general register. -/
def putReg (r : Reg) (v : Word) : Exec Unit := update (fun s => s.setReg r v)

/-- Writes the condition codes. -/
def putCc (cc : Cc) : Exec Unit := update (fun s => s.setCc cc)

/-- The privilege check of R196. -/
def privileged : Exec Unit := fun s =>
  if s.cpu.ps1.ku then .ok ((), s) else .error (.trap (.program .privileged) s.draw)

/-! ### Memory access -/

/-- The kinds of access (R86). -/
inductive Access where
  | read
  | write
  | execute
  deriving DecidableEq, Repr

/-- The byte or word at a physical address (R81). -/
def State.load (s : State) (pa : Word) : (size : Size) → BitVec size.bits
  | .byte => s.mem.read pa.toNat
  | .word => s.mem.readWord pa.toNat

/-- Memory after a store at a physical address (R82). -/
def State.storeMem (s : State) (pa : Word) : (size : Size) → BitVec size.bits → State
  | .byte, v => { s with mem := s.mem.write pa.toNat v }
  | .word, v => { s with mem := s.mem.writeWord pa.toNat v }

/-- A CPU store at a physical address: a store to an Operation register starts the device (R82, R362). -/
def State.store (s : State) (pa : Word) (size : Size) (v : BitVec size.bits) : State :=
  match Dev.operatedBy pa.toNat with
  | none => s.storeMem pa size v
  | some d => (s.storeMem pa size v).startDevice d

/-- `PhysRead` (R81). -/
def physRead (size : Size) (pa : Word) : Exec (BitVec size.bits) := fun s =>
  if pa.toNat < s.cfg.memsize then .ok (s.load pa size, s)
  else .error (.trap (.program .nonexistentMemory) s.draw)

/-- `PhysWrite` (R82). -/
def physWrite (size : Size) (pa : Word) (v : BitVec size.bits) : Exec Unit := fun s =>
  if pa.toNat < s.cfg.memsize then .ok ((), s.store pa size v)
  else .error (.trap (.program .nonexistentMemory) s.draw)

/-- The right of a segment that an access needs (R93). -/
def SegDesc.permits (sd : SegDesc) : Access → Bool
  | .read => sd.r
  | .write => sd.w
  | .execute => sd.e

/-- The address of the segment descriptor of a virtual address (R92, R97). -/
def segDescAddr (sta va : Word) : Word := sta + 4 * (vaSeg va).setWidth 16

/-- The address of the page descriptor of a virtual address (R94, R97). -/
def pageDescAddr (pta va : Word) : Word := pta + 2 * (vaPage va).setWidth 16

/-- The table walk of R97 up to the page descriptor: its address and its value. The tables are read from
memory on every access (R100), and an odd or non-existent descriptor traps (R99). With no kind of access
the rights are not asked for: so the console walks (R421). -/
def walk (s : State) (kind : Option Access) (va : Word) : Except Trap (Word × Word) :=
  let sda := segDescAddr s.cpu.sta va
  if sda.getLsbD 0 then .error (.program .oddAddress)
  else if s.cfg.memsize ≤ sda.toNat ∨ s.cfg.memsize ≤ (sda + 2).toNat then
    .error (.program .nonexistentMemory)
  else
    let sd := SegDesc.ofWords s.cfg.sdLayout (s.mem.readWord sda.toNat) (s.mem.readWord (sda + 2).toNat)
    if !sd.p then .error (.mm .segmentMissing va)
    else if sd.len.toNat < (vaPage va).toNat then .error (.mm .invalidPage va)
    else if !kind.all sd.permits then .error (.mm .accessProtection va)
    else
      let pda := pageDescAddr sd.pta va
      if pda.getLsbD 0 then .error (.program .oddAddress)
      else if s.cfg.memsize ≤ pda.toNat then .error (.program .nonexistentMemory)
      else
        let pd := s.mem.readWord pda.toNat
        if !pdPresent s.cfg.pdLayout pd then .error (.mm .pageMissing va)
        else .ok (pda, pd)

/-- The physical address of a virtual address in the page frame of a descriptor (R95). -/
def frameAddr (l : PdLayout) (pd va : Word) : Word := pdFrame l pd ++ vaOffset va

/-- `Translate(va, kind)` (R97): the walk, then R and for a write M set in the page descriptor (R96). -/
def translate (kind : Access) (va : Word) : Exec Word := fun s =>
  match walk s (some kind) va with
  | .error t => .error (.trap t s.draw)
  | .ok (pda, pd) =>
    .ok (frameAddr s.cfg.pdLayout pd va,
      s.store pda .word (pdMark s.cfg.pdLayout (decide (kind = .write)) pd))

/-- A word access at an odd address (R66, R67). -/
def misaligned (size : Size) (va : Word) : Bool :=
  match size with
  | .byte => false
  | .word => va.getLsbD 0

/-- The reference is one the suspect stops (R413): fetches are no references, log entry 25. -/
def Suspect.stops (u : Suspect) (size : Size) (kind : Access) (va : Word) : Bool :=
  decide (u.lo ≤ va.toNat + (match size with | .byte => 0 | .word => 1)) &&
    decide (va.toNat ≤ u.hi) &&
    (match kind with | .read => u.onRead | .write => u.onWrite | .execute => false)

/-- The reference stops the machine: switch S is on and a suspect is met (R413, R423), but for the
instruction that `run` goes on from after such a stop. -/
def State.suspected (s : State) (size : Size) (kind : Access) (va : Word) : Bool :=
  s.console.s && !s.console.passing && s.console.suspects.any (fun u => u.stops size kind va)

/-- From the address a program supplies to the physical one: the alignment check, the suspects, and
mapping when `PS1.M` is on (R84, R85, R87). -/
def resolve (size : Size) (kind : Access) (va : Word) : Exec Word := fun s =>
  if misaligned size va then .error (.trap (.program .oddAddress) s.draw)
  else if s.suspected size kind va then .error (.suspect s.draw)
  else if s.cpu.ps1.m then translate kind va s
  else .ok (va, s)

/-- An instant between two accesses (R105, R107). -/
def instant : Exec Unit := update State.race

/-- `MemRead` (R84). -/
def memRead (size : Size) (kind : Access) (va : Word) : Exec (BitVec size.bits) :=
  instant >>= fun _ => resolve size kind va >>= physRead size

/-- `MemWrite` (R85). -/
def memWrite (size : Size) (va : Word) (v : BitVec size.bits) : Exec Unit :=
  instant >>= fun _ => resolve size .write va >>= fun pa => physWrite size pa v

/-- `FetchWord`: the next word of the instruction stream (R151). -/
def fetchWord : Exec Word := do
  let pc ← getReg .pc
  let w ← memRead .word .execute pc
  putReg .pc (pc + 2)
  return w

/-- `push` (R11, R183). -/
def push (v : Word) : Exec Unit := do
  let sp ← getReg .sp
  putReg .sp (sp - 2)
  memWrite .word (sp - 2) v

/-- `pop` (R11, R184). -/
def pop : Exec Word := do
  let sp ← getReg .sp
  let v ← memRead .word .read sp
  putReg .sp (sp + 2)
  return v

/-- The word on top of the stack, left there (R186, R197). -/
def topOfStack : Exec Word := do
  let sp ← getReg .sp
  memRead .word .read sp

/-- Consecutive words upward from an address, modulo 2^16 (R190). -/
def readBlock (a : Word) : Nat → Exec (List Word)
  | 0 => pure []
  | n + 1 => do
    let w ← memRead .word .read a
    let ws ← readBlock (a + 2) n
    return w :: ws

/-- Stores consecutive words upward from an address, modulo 2^16 (R191). -/
def writeBlock (a : Word) : List Word → Exec Unit
  | [] => pure ()
  | w :: ws => do
    memWrite .word a w
    writeBlock (a + 2) ws

/-! ### The stack limit (R330 to R332) -/

/-- What the stack limit check asks of an instruction: whether it can write SP, and the two kinds that
install a whole state (R332, R322). -/
inductive StackRole where
  | ordinary (writesSp : Bool)
  | loadsState
  | entersTrap
  deriving DecidableEq, Repr

/-- Whether the end of an instruction is checked, by `STACK_CHECK_POLICY` (R332). -/
def stackChecked (policy : StackPolicy) (role : StackRole) (before after : Word) : Bool :=
  match role, policy with
  | .entersTrap, _ => false
  | .loadsState, .always => true
  | .loadsState, _ => false
  | .ordinary _, .lowered => decide (after.toNat < before.toNat)
  | .ordinary _, .always => true
  | .ordinary writesSp, .spWritten => writesSp

/-- The red zone: `SP <= STL + 4`, the sum not wrapped (R331). -/
def inRedZone (stl sp : Word) : Bool := decide (sp.toNat ≤ stl.toNat + 4)

/-- The yellow zone and the red one below it: `SP <= STL + 16` (R330). -/
def inYellowZone (stl sp : Word) : Bool := decide (sp.toNat ≤ stl.toNat + 16)

/-- The end of an instruction that raised no trap: `s` is the state before it, `s'` the one it leaves.
Red undoes it, Yellow keeps it and enters the trap after it (R330, R331). -/
def commit (role : StackRole) (s s' : State) : State :=
  if stackChecked s'.cfg.stackPolicy role s.cpu.sp s'.cpu.sp then
    if inRedZone s'.cpu.stl s'.cpu.sp then (s.meanwhile s'.draw).takeTrap (.program .stackRed)
    else if inYellowZone s'.cpu.stl s'.cpu.sp then s'.takeTrap (.program .stackYellow)
    else s'
  else s'

/-- What becomes of an instruction that is given up: all it did is undone, what the controllers moved
meanwhile stays (R318, R319), and the trap is taken from there, or the machine stops there. -/
def State.abandon (s : State) : Abort → State
  | .trap t draw => (s.meanwhile draw).takeTrap t
  | .suspect draw => (s.meanwhile draw).stopAt .susp true

/-- An instruction as a transaction (R318): its first word is fetched, its body runs, and the stack limit
is checked; a trap or a suspect undoes it. The state before the instruction is the state before its fetch
(log entry 32). -/
def transact (role : StackRole) (body : Exec Unit) (s : State) : Host.Outcome State Fault Refusal :=
  match (fetchWord >>= fun _ => body) s with
  | .ok (_, s') => .next (commit role s s')
  | .error a => .next (s.abandon a)

end Sys2Proof.Machine
end

