-- ==== Sys2Proof/Machine/Time.lean ====
section
/-! DEFINITION. Time: TDCK, IT and the operations in progress (60_exceptions.md R350, R351, R365). -/

namespace Sys2Proof.Machine

/-- TDCK after `dt` microseconds; past 2^32 microseconds its value is free (R350, U9). -/
def tdckAfter (draw : Nat) (t : DWord) (dt : Nat) : DWord :=
  if t.toNat + dt < 2 ^ 32 then BitVec.ofNat 32 (t.toNat + dt) else Config.tdckAfterOverflow draw

/-- How many microseconds pass before a decrement makes IT zero; none if it stands (R351). -/
def itPeriod (policy : ItAfterZero) (it : DWord) : Option Nat :=
  if it = 0 then (match policy with | .stop => none | .wrap => some (2 ^ 32)) else some it.toNat

/-- IT after `dt` microseconds (R351). -/
def itAfter (policy : ItAfterZero) (it : DWord) (dt : Nat) : DWord :=
  match policy with
  | .stop => if it.toNat ≤ dt then 0 else it - BitVec.ofNat 32 dt
  | .wrap => it - BitVec.ofNat 32 dt

/-- IT reached zero within `dt` microseconds, so that the clock requests an interrupt (R351). -/
def itRequests (policy : ItAfterZero) (it : DWord) (dt : Nat) : Bool :=
  match itPeriod policy it with
  | none => false
  | some n => decide (n ≤ dt)

/-- A controller after `dt` microseconds: the operation in progress is nearer its completion (R365), and
one that was started has begun (R430). -/
def DevCtl.elapse (dt : Nat) (c : DevCtl) : DevCtl :=
  { c with busy := c.busy.map (fun op => { op with left := op.left - dt, begun := true }) }

/-- The machine after `dt` microseconds (R350). -/
def State.advance (s : State) (dt : Nat) : State :=
  { s with
    tdck := tdckAfter s.draw s.tdck dt
    it := itAfter s.cfg.itAfterZero s.it dt
    clockReq := s.clockReq || itRequests s.cfg.itAfterZero s.it dt
    io := { s.io with ctl := s.io.ctl.map (DevCtl.elapse dt) } }

/-- The free values are drawn anew. -/
def State.nextDraw (s : State) : State := { s with draw := s.draw + 1 }

/-- The microseconds that the instruction, entry or failed attempt at hand takes: none while a lull lasts,
else a positive number (R350, D22). -/
def State.instrTime (s : State) : Nat :=
  if s.still < Config.instrLull s.since then 0 else Config.instrTime s.draw + 1

/-- The time one executed instruction, entry or failed attempt takes passes (R350). -/
def State.tick (s : State) : State :=
  { ((s.advance s.instrTime).nextDraw) with
    still := if s.instrTime = 0 then s.still + 1 else 0
    since := if s.instrTime = 0 then s.since else s.draw + 1 }

/-- The events that time brings: the completions of operations, and IT reaching zero (R346, R365). -/
def State.eventTimes (s : State) : List Nat :=
  (itPeriod s.cfg.itAfterZero s.it).toList ++
    s.io.ctl.toList.filterMap (fun c => c.busy.map DevOp.left)

/-- The time to the next event, 0 if there is none. -/
def State.nextEvent (s : State) : Nat :=
  match s.eventTimes with
  | [] => 0
  | t :: ts => ts.foldl min t

end Sys2Proof.Machine
end

