-- ==== Sys2Proof/Machine/Interrupt.lean ====
section
/-! DEFINITION. Interrupts and the wait state (60_exceptions.md R340 to R348). -/

namespace Sys2Proof.Machine

/-- The sources of interrupts (R341). -/
inductive Source where
  | clock
  | device (d : Dev)
  deriving DecidableEq, Repr

/-- All sources, devices of one type in the order of their numbers. -/
def Source.all : List Source := .clock :: Dev.all.map Source.device

/-- The priority level, which is also the type code (R341, R342). -/
def Source.level : Source → Nat
  | .clock => 5
  | .device d => d.level

/-- The device number (R342, R352). -/
def Source.number : Source → Nat
  | .clock => 0
  | .device d => d.number

/-- The interrupt area of a level (R342). -/
def interruptArea (level : Nat) : Nat := 0o220 + 0o60 * level

/-- The source's pending flag (R343). -/
def Source.pending (s : State) : Source → Bool
  | .clock => s.clockReq
  | .device d => s.io.ctl[d.slot].pending

/-- The source's level is enabled (R340). -/
def Source.unmasked (s : State) (src : Source) : Bool := !s.cpu.ps1.intmask.getLsbD src.level

/-- The source can become pending: an operation in progress, or a running interval timer (R346). -/
def Source.possible (s : State) : Source → Bool
  | .clock => (itPeriod s.cfg.itAfterZero s.it).isSome
  | .device d => s.io.ctl[d.slot].busy.isSome

/-- The pending sources that are unmasked (R344). -/
def State.readySources (s : State) : List Source :=
  Source.all.filter (fun src => src.pending s && src.unmasked s)

/-- The levels from the highest priority to the lowest (R344). -/
def levelsByPriority : PriorityOrder → List Nat
  | .highNumberFirst => [7, 6, 5, 4, 3, 2, 1, 0]
  | .lowNumberFirst => [0, 1, 2, 3, 4, 5, 6, 7]

/-- The source of one level served first (R344). -/
def pickOfLevel (order : SameLevelOrder) (draw : Nat) (sources : List Source) : Option Source :=
  match order with
  | .lowestDeviceFirst => sources.head?
  | .any => sources[Config.pickDevice draw % sources.length]?

/-- The source whose interrupt is taken (R344). -/
def State.selectSource (s : State) : Option Source :=
  (levelsByPriority s.cfg.priorityOrder).findSome? (fun l =>
    pickOfLevel s.cfg.sameLevelOrder s.draw
      (s.readySources.filter (fun src => decide (src.level = l))))

/-- Clears a source's pending flag (R343, R347). -/
def State.clearPending (s : State) : Source → State
  | .clock => { s with clockReq := false }
  | .device d => s.setCtl d { s.io.ctl[d.slot] with pending := false }

/-- The W bit as the Old PS1 gets it, by `W_SAVED` (R346). -/
def State.settleW (s : State) : State :=
  match s.cfg.wSaved with
  | .asIs => s
  | .cleared => { s with cpu := { s.cpu with ps1 := { s.cpu.ps1 with w := false } } }

/-- Interrupt entry (R347). -/
def State.interrupt (s : State) (src : Source) : State :=
  ((s.clearPending src).settleW).enter (interruptArea src.level)
    (interruptCode src.level src.number)

/-- The machine in the wait state with no unmasked request pending: it stops if no source can become
pending and is unmasked, else time runs to the next event (R346, R350). -/
def State.waitStep (s : State) : State :=
  if Source.all.any (fun src => src.possible s && src.unmasked s) then
    (s.advance s.nextEvent).nextDraw
  else s.stop .wait

end Sys2Proof.Machine
end

