-- ==== Sys2Proof/Machine/Console.lean ====
section
/-! DEFINITION. The operator's console (70_reset_and_hazards.md R400 to R425): IPL, the stop conditions
the step asks for, the commands as functions on the stopped machine, and what the operator sees. -/

namespace Sys2Proof.Machine

/-! ### Initial Program Load (R400, R401) -/

/-- The bytes of an object file at 02000, in memory that nothing else has written (R401). What happens to an
image that does not fit below MEMSIZE is not stated: the bytes that do not fit are lost, DESIGN CHOICE, log
entry 39. -/
def imageMemory (memsize : Nat) (image : List Byte) : Memory :=
  Memory.writeBytes [] 0o2000 (image.take (memsize - 0o2000))

/-- A controller after IPL: nothing in progress and no request pending. -/
def DevCtl.ipl (c : DevCtl) : DevCtl := { c with busy := none, pending := false }

/-- A terminal after IPL: its input is read from the beginning (R401). -/
def Terminal.ipl (t : Terminal) : Terminal := { t with pos := 0 }

/-- The console command `ipl`, which is also what power-up does (R400, R401). The host files of the
devices, and the console's switches and lists, are kept (log entry 27). -/
def State.ipl (s : State) : State :=
  { s with
    cpu := ProcState.afterIpl s.cfg.memsize
    tdck := 0, it := 0, clockReq := false
    mem := imageMemory s.cfg.memsize s.console.image
    io := { s.io with ctl := s.io.ctl.map DevCtl.ipl, terms := s.io.terms.map Terminal.ipl }
    run := .stopped .ipl
    console := { s.console with stopReq := false, resume := none, passing := false, removal := none } }

/-- Loading an object file: its image and its symbol table (R401, R402). -/
def State.loadImage (s : State) (image : List Byte) (symbols : SymbolTable) : State :=
  ({ s with console := { s.console with image := image, symbols := symbols } }).ipl

/-! ### The stop conditions of the step (R390, R410) -/

/-- The breakpoint at an address, if there is one (R412). -/
def Console.breakpointAt (c : Console) (pc : Word) : Option Breakpoint :=
  c.breakpoints.find? (fun b => decide (b.addr = pc))

/-- One encounter of the breakpoint at an address is counted off (R412). -/
def Console.countOff (c : Console) (pc : Word) : Console :=
  { c with breakpoints := c.breakpoints.map (fun b =>
      if b.addr = pc then { b with count := b.count - 1 } else b) }

/-- The instruction at the address is the one that `run` goes on from, after a breakpoint or a suspect
stopped the machine before it (R412, R413; log entry 24). -/
def Console.resuming (c : Console) (pc : Word) : Option Resume :=
  c.resume.filter (fun r => decide (r.addr = pc))

/-- A breakpoint stops the machine at the address: switch B is on and the count is reached (R412, R423). What a
count of 0 means is not stated: it breaks at once, as a count of 1 does, DESIGN CHOICE, log entry 24. -/
def Console.breaksAt (c : Console) (pc : Word) : Bool :=
  c.b && (c.resuming pc).isNone && (c.breakpointAt pc).any (fun b => decide (b.count ≤ 1))

/-- The console as the instruction at the address is executed: an encounter of a breakpoint whose count is
not reached is counted off; the instruction that `run` goes on from passes. -/
def Console.goOn (c : Console) (pc : Word) : Console :=
  match c.resuming pc with
  | some r => { c with resume := none, passing := r.passes }
  | none => { (if c.b then c.countOff pc else c) with passing := false }

/-- The console's stop conditions before an instruction is fetched: a breakpoint, then ^C (R390, R412,
R415; log entry 29). -/
def State.consoleCheck (s : State) : State :=
  if s.console.breaksAt s.cpu.pc then s.stopAt .bkpt false
  else if s.console.stopReq then
    { s with run := .stopped .stop, console := { s.console with stopReq := false } }
  else { s with console := s.console.goOn s.cpu.pc }

/-- The end of a step that executed an instruction: time passes, and a single step stops (R390, R411).
An instruction that a suspect stopped has not been executed (R413). After a HALT in single step mode R195 and
R410 give the state Halt, the listing of R390 the state SS: Halt, DEDUCED, log entry 29. -/
def State.endStep (s : State) : State :=
  if s.run = .stopped .susp then s
  else
    let t := s.tick
    let t' : State := { t with console := { t.console with passing := false } }
    if t'.console.pace = 0 ∧ t'.run = .running then t'.stop .ss else t'

/-- `run` (R416): the processor goes on from the machine as it stands; if a breakpoint or a suspect stopped
it before the instruction at PC, that instruction passes. A ^C typed before is spent. -/
def State.start (s : State) : State :=
  { s with
    run := .running
    console := { s.console with resume := s.console.resuming s.cpu.pc, stopReq := false } }

/-- ^C (R415): the machine stops before the next instruction. -/
def State.typeInterrupt (s : State) : State := { s with console := { s.console with stopReq := true } }

/-! ### Locations and values (R421, R425) -/

/-- The address a location names, if its symbol is known (R425). What a location is that its offset carries below
0 or past 177777 is not stated: an error, DESIGN CHOICE, log entry 41. -/
def Console.address (c : Console) (loc : ConsoleLoc) : Option Nat :=
  let place : Option Int :=
    match loc with
    | .symbol name offset =>
      (c.symbols.find? (fun e => decide (e.1 = name))).map (fun e => (e.2.toNat : Int) + offset)
    | .number n offset => some ((n : Int) + offset)
  place.bind (fun a => if 0 ≤ a ∧ a < 2 ^ 16 then some a.toNat else none)

/-- The bounds of an interval: the addresses of its first and of its last word (R425). An upper bound below
the lower one, which the spec does not speak of, is an error: DESIGN CHOICE, log entry 41. -/
def Console.bounds (c : Console) (i : ConsoleInterval) : Option (Nat × Nat) :=
  (c.address i.lower).bind (fun lo =>
    let hi := match i.upper with
      | .single => some lo
      | .upTo loc => c.address loc
      | .plus offset => c.address (.number lo offset)
    hi.bind (fun hi => if lo ≤ hi then some (lo, hi) else none))

/-- The physical address of a console address, by `CONSOLE_ADDR`; the console needs no access right and
sets no bit of a page descriptor (R421, D43). -/
def State.consoleAddr (s : State) (a : Nat) : Option Nat :=
  let pa : Option Nat :=
    match s.cfg.consoleAddr, s.cpu.ps1.m with
    | .currentMap, true =>
      match walk s none (BitVec.ofNat 16 a) with
      | .ok (_, pd) => some (frameAddr s.cfg.pdLayout pd (BitVec.ofNat 16 a)).toNat
      | .error _ => none
    | _, _ => some a
  pa.bind (fun a => if a < s.cfg.memsize then some a else none)

/-- Reads a byte for the console. What an address names that does not exist is not stated: nothing, so that
the command is an error, DESIGN CHOICE, log entry 41. -/
def State.examineByte (s : State) (a : Nat) : Option Byte := (s.consoleAddr a).map s.mem.read

/-- Writes a byte for the console: it starts no device (R421, U7). A write to an address at or beyond MEMSIZE,
of which the spec is silent, is an error: DESIGN CHOICE, log entry 41. -/
def State.depositByte (s : State) (a : Nat) (b : Byte) : Option State :=
  (s.consoleAddr a).map (fun pa => { s with mem := s.mem.write pa b })

/-- Reads the word at an address: the bytes there and at the next address. Which word an odd address names,
where the spec has no alignment trap, it does not say: DESIGN CHOICE, log entry 41. -/
def State.examine (s : State) (a : Nat) : Option Word :=
  (s.examineByte a).bind (fun lo => (s.examineByte (a + 1)).map (fun hi => wordOfBytes lo hi))

/-- Writes the word at an address, of the same bytes as `State.examine` reads (log entry 41). -/
def State.deposit (s : State) (a : Nat) (v : Word) : Option State :=
  (s.depositByte a (lowByte v)).bind (fun s' => s'.depositByte (a + 1) (highByte v))

/-- Writes successive bytes of an interval, whose last word is at `last`, from a string until either is
exhausted (R424). -/
def State.depositText (s : State) (a last : Nat) : List Byte → Option State
  | [] => some s
  | b :: bs =>
    if last + 1 < a then some s
    else (s.depositByte a b).bind (fun s' => s'.depositText (a + 1) last bs)

/-- A register as the console displays it (R421). -/
def State.examineReg (s : State) : ConsoleReg → DWord
  | .general r => (s.reg r).setWidth 32
  | .ps1 => (s.cpu.ps1.pack s.cfg.ps1Layout).setWidth 32
  | .ps2 => s.cpu.ps2.setWidth 32
  | .sta => s.cpu.sta.setWidth 32
  | .stl => s.cpu.stl.setWidth 32
  | .tdck => s.tdck
  | .it => s.it

/-- Writes a register from the console, TDCK and IT included (R421). -/
def State.depositReg (s : State) (v : DWord) : ConsoleReg → State
  | .general r => s.setReg r (v.setWidth 16)
  | .ps1 => { s with cpu := { s.cpu with ps1 := Ps1.unpack s.cfg.ps1Layout (v.setWidth 16) } }
  | .ps2 => { s with cpu := { s.cpu with ps2 := v.setWidth 16 } }
  | .sta => { s with cpu := { s.cpu with sta := v.setWidth 16 } }
  | .stl => s.setStl (v.setWidth 16)
  | .tdck => { s with tdck := v }
  | .it => s.setIt v

/-! ### Displayed values (R414, R421, R422, R424) -/

/-- A number in octal or decimal digits. -/
def octalText (n : Nat) : Text := Nat.toDigits 8 n
def decimalText (n : Nat) : Text := Nat.toDigits 10 n

/-- The low bits of a number in binary, the most significant first. -/
def binaryText (width n : Nat) : Text :=
  (List.range width).reverse.map (fun i => if n.testBit i then '1' else '0')

/-- A character in ASCII format: unprintable ones are displayed as `@` (R414). -/
def asciiChar (b : Byte) : Char :=
  if 0o40 ≤ b.toNat ∧ b.toNat ≤ 0o176 then Char.ofNat b.toNat else '@'

/-- The places of the bytes of a double word and of a word in the order of their addresses (R63, R64). -/
def bytePlaces (double : Bool) : List Nat := if double then [16, 24, 0, 8] else [0, 8]

/-- A word, or a double word, in a display format. Numbers are unsigned and without leading zeros but in
binary; characters stand in the order of addresses: DESIGN CHOICE, log entry 40. -/
def Format.text (f : Format) (double : Bool) (v : DWord) : Text :=
  match f with
  | .octal => octalText v.toNat
  | .decimal => decimalText v.toNat
  | .binary => binaryText (if double then 32 else 16) v.toNat
  | .ascii => (bytePlaces double).map (fun p => asciiChar (v.extractLsb' p 8))

/-- The registers of 32 bits (R32, R33). -/
def ConsoleReg.double : ConsoleReg → Bool
  | .tdck => true
  | .it => true
  | _ => false

/-- A register in a display format. -/
def State.registerText (s : State) (f : Format) (r : ConsoleReg) : Text :=
  f.text r.double (s.examineReg r)

/-- The registers that switch RD shows. -/
def ConsoleReg.all : List ConsoleReg :=
  [.general .r0, .general .r1, .general .r2, .general .r3, .general .r4, .general .r5, .general .sp,
   .general .pc, .ps1, .ps2, .sta, .stl, .tdck, .it]

/-- The words of a block of memory in a display format. Of a word that does not exist nothing is shown, where
the spec is silent: DESIGN CHOICE, log entry 41. -/
def State.blockText (s : State) (format : Format) (a : Nat) : Nat → List Text
  | 0 => []
  | n + 1 =>
    (match s.examine a with
      | some v => format.text false (v.setWidth 32)
      | none => []) :: s.blockText format (a + 2) n

/-- The number of words from the word at one address to the word at another. Of addresses an odd distance
apart, of which the spec is silent, it is the number of whole words: DESIGN CHOICE, log entry 41. -/
def wordsBetween (lo hi : Nat) : Nat := (hi + 2 - lo) / 2

/-- What the virtual screen in view shows of the machine as it stands (R420): all breakpoints and suspects;
the regions traced, in the order of insertion, with the registers where switch RD is on (R414, R423); the
record of requests. -/
def State.view (s : State) : Window :=
  match s.console.screen with
  | .static => .static s.console.breakpoints s.console.suspects
  | .dynamic =>
    .dynamic (s.console.traces.map (fun t => (t.lo, s.blockText t.format t.lo (wordsBetween t.lo t.hi))))
      (if s.console.rd then ConsoleReg.all.map (fun r => (r, s.registerText .octal r)) else [])
  | .work => .work s.console.work

/-! ### The status line (R422) -/

/-- The symbol nearest below an address, and the distance. -/
def nearestSymbol (a : Word) : List (String × Word) → Option (String × Nat)
  | [] => none
  | (name, v) :: rest =>
    let others := nearestSymbol a rest
    if v.toNat ≤ a.toNat then
      match others with
      | some (name', off) =>
        if off < a.toNat - v.toNat then some (name', off) else some (name, a.toNat - v.toNat)
      | none => some (name, a.toNat - v.toNat)
    else others

/-- The status line of the machine as it stands (R422). -/
def State.statusLine (s : State) : StatusLine :=
  { b := s.console.b, t := s.console.t, s := s.console.s, rd := s.console.rd, sl := s.console.sl
    pace := s.console.pace, pc := s.cpu.pc, place := nearestSymbol s.cpu.pc s.console.symbols
    sp := s.cpu.sp, intmask := s.cpu.ps1.intmask, k := s.cpu.ps1.ku, m := s.cpu.ps1.m
    w := s.cpu.ps1.w, cc := s.cpu.ps1.cc, ps2 := s.cpu.ps2
    screen := s.console.screen, run := s.run }

/-- A switch, or a bit of PS1, on the status line. -/
def flagText (b : Bool) : Text := if b then ['1'] else ['0']

/-- The name of a virtual screen (R420). -/
def Screen.text : Screen → Text
  | .static => "Static".toList
  | .dynamic => "Dynamic".toList
  | .work => "Work".toList

/-- The field STATE (R410). The word shown while running is not given (91_not_in_source.md N41): none,
DESIGN CHOICE, log entry 40. -/
def RunState.text : RunState → Text
  | .running => []
  | .stopped .ipl => "IPL".toList
  | .stopped .halt => "Halt".toList
  | .stopped .wait => "Wait".toList
  | .stopped .bkpt => "Bkpt".toList
  | .stopped .susp => "Susp".toList
  | .stopped .ss => "SS".toList
  | .stopped .stop => "Stop".toList

/-- The fields of the status line from left to right (R422): PC in octal and as function name + offset, SP
and PS2 in octal, PS1 in binary. The base of the offset is not given: octal, DESIGN CHOICE, log entry 40. -/
def StatusLine.fields (l : StatusLine) : List Text :=
  [flagText l.b, flagText l.t, flagText l.s, flagText l.rd, flagText l.sl, decimalText l.pace,
   octalText l.pc.toNat,
   (match l.place with
    | some (name, offset) => name.toList ++ '+' :: octalText offset
    | none => []),
   octalText l.sp.toNat, binaryText 8 l.intmask.toNat, flagText l.k, flagText l.m, flagText l.w,
   flagText l.cc.n, flagText l.cc.z, flagText l.cc.v, flagText l.cc.c, octalText l.ps2.toNat,
   l.screen.text, l.run.text]

/-! ### What the operator sees (R420, R422, R423) -/

/-- The display is brought up to date. While the machine runs, the status line is only where switch SL is
on, and the window only where the dynamic screen is in view and switch T is on (R423). -/
def State.refresh (s : State) : State :=
  let c := s.console
  let running := decide (s.run = .running)
  { s with console := { c with display :=
      { status := if !running || c.sl then s.statusLine else c.display.status
        window := if !running || (c.t && decide (c.screen = .dynamic)) then s.view
          else c.display.window
        commands := [] } } }

/-- The words of the commands (R423, R424). How they are listed is not given: DESIGN CHOICE, log entry 43. -/
def commandWords : List String :=
  ["ds", "ss", "ws", "wsc", "p", "si", "sr", "s", "ti", "tr", "t", "rd", "sl", "bi", "br", "b", ".", "fin",
   "finput", "fout", "foutput", "re", "redraw", "ipl", "r", "run", "?", "help", "bye", "q", "quit", "end"]

/-- The list of valid commands is displayed (R424). -/
def State.listCommands (s : State) : State :=
  let shown := { s.console.display with commands := commandWords.map String.toList }
  { s with console := { s.console with display := shown } }

/-! ### The commands (R424) -/

/-- The host files of the devices (R378, R381, R382, R440): the terminals' input and output files, the
printers' files, and the contents of disks and drums. -/
structure HostFiles where
  termIn   : Vector (Option (List Byte)) 5
  termOut  : Vector (List Byte) 5
  printOut : Vector (List Byte) 2
  disks    : Vector Medium 4
  drums    : Vector Medium 4
  deriving DecidableEq, Repr

/-- The host files of the devices as they stand. -/
def Io.hostFiles (io : Io) : HostFiles :=
  { termIn := io.terms.map (·.input), termOut := io.terms.map (·.output)
    printOut := io.prints.map (·.output)
    disks := io.disks.map (·.data), drums := io.drums.map (·.data) }

/-- What a command answers: the machine after it, an error that leaves it, or power down, which nothing
survives but the host files of the devices (R397, R424). -/
inductive Reply where
  | done (s : State)
  | error
  | poweredDown (files : HostFiles)
  deriving DecidableEq, Repr

/-- Adds to the record of the work screen and brings it into view (R420). -/
def State.record (s : State) (line : WorkLine) : State :=
  { s with console := { s.console with work := s.console.work ++ [line], screen := .work } }

/-- Displays the words of a block, `n` of them upward from an address (R421, R424). -/
def State.showWords (s : State) (format : Format) (a : Nat) : Nat → Option State
  | 0 => some s
  | n + 1 =>
    (s.examine a).bind (fun v =>
      (s.record (.readMem a (format.text false (v.setWidth 32)))).showWords format (a + 2) n)

/-- One item of the display command (R424). -/
def State.showItem (s : State) : Shown → Option State
  | .interval i format =>
    (s.console.bounds i).bind (fun b => s.showWords format b.1 (wordsBetween b.1 b.2))
  | .register r format => some (s.record (.readReg r (s.registerText format r)))

/-- A register with its first bytes, in the order of addresses, replaced by those of a string: DESIGN CHOICE,
log entry 41. -/
def overlay (places : List Nat) (bytes : List Byte) (v : DWord) : DWord :=
  (places.zip bytes).foldl (fun v x =>
    (v &&& ~~~((0xFF#32) <<< x.1)) ||| (x.2.setWidth 32 <<< x.1)) v

/-- Writes a value to a register and records it. -/
def State.writeReg (s : State) (r : ConsoleReg) (v : DWord) : State :=
  (s.depositReg v r).record (.writeReg r v)

/-- One item of the write command (R424). Of a number that does not fit the word or the register the low bits
are written, where the spec is silent: DESIGN CHOICE, log entry 41. -/
def State.writeItem (s : State) : Written → Option State
  | .word loc n =>
    let v := BitVec.ofInt 16 n
    (s.console.address loc).bind (fun a => (s.deposit a v).map (fun s' => s'.record (.writeMem a v)))
  | .string i bytes =>
    (s.console.bounds i).bind (fun b =>
      (s.depositText b.1 b.2 bytes).map (fun s' => s'.record (.writeText b.1 b.2 bytes)))
  | .register r n => some (s.writeReg r (BitVec.ofInt 32 n))
  | .registerString r bytes =>
    some (s.writeReg r (overlay (bytePlaces r.double) bytes (s.examineReg r)))

/-- Does one thing after another, giving up where one fails. -/
def doAll {α : Type} (f : State → α → Option State) : List α → State → Option State
  | [], s => some s
  | x :: xs, s => (f s x).bind (doAll f xs)

/-- How many entries a list has. -/
def Console.entries (c : Console) : RemovalList → Nat
  | .breakpoints => c.breakpoints.length
  | .suspects => c.suspects.length
  | .traces => c.traces.length

/-- Deletes the entry at a place of a list. -/
def Console.deleteEntry (c : Console) (index : Nat) : RemovalList → Console
  | .breakpoints => { c with breakpoints := c.breakpoints.eraseIdx index }
  | .suspects => { c with suspects := c.suspects.eraseIdx index }
  | .traces => { c with traces := c.traces.eraseIdx index }

/-- Deletes all entries of a list. -/
def Console.deleteAll (c : Console) : RemovalList → Console
  | .breakpoints => { c with breakpoints := [] }
  | .suspects => { c with suspects := [] }
  | .traces => { c with traces := [] }

/-- The screen that shows a list (R420). -/
def RemovalList.screen : RemovalList → Screen
  | .breakpoints => .static
  | .suspects => .static
  | .traces => .dynamic

/-- The commands `sr`, `tr` and `br`: with `*` every entry is deleted; without, removal mode is entered, with
the cursor at the top. The list's screen comes into view (R420, R424). -/
def Console.remove (c : Console) (list : RemovalList) (star : Bool) : Console :=
  let c' := { c with screen := list.screen }
  if star then c'.deleteAll list else { c' with removal := some { list := list, cursor := 0 } }

/-- The cursor of removal mode is moved to an entry, and to the last one where there is none so far down: it
does not leave the list, DESIGN CHOICE, log entry 43. -/
def Console.pointAt (c : Console) (list : RemovalList) (cursor : Nat) : Console :=
  { c with removal := some { list := list, cursor := min cursor (c.entries list - 1) } }

/-- What is typed in removal mode (R424): the entry at the cursor is deleted, the cursor moves down or up, or
the console returns to command input mode. -/
def Console.press (c : Console) (m : Removal) : RemovalKey → Console
  | .delete => (c.deleteEntry m.cursor m.list).pointAt m.list m.cursor
  | .down => c.pointAt m.list (m.cursor + 1)
  | .up => c.pointAt m.list (m.cursor - 1)
  | .quit => { c with removal := none }

/-- In removal mode its keys are taken, in command input mode the commands (R424). -/
def Console.takes (c : Console) : Command → Bool
  | .key _ => c.removal.isSome
  | _ => c.removal.isNone

/-- What is left of a suspect without the bytes from `lo` to `hi`. -/
def Suspect.without (lo hi : Nat) (u : Suspect) : List Suspect :=
  if hi < u.lo ∨ u.hi < lo then [u]
  else (if u.lo < lo then [{ u with hi := lo - 1 }] else []) ++
    (if hi < u.hi then [{ u with lo := hi + 1 }] else [])

/-- Inserts a suspect. A location appears only once on the list (R413): what older entries have of the new
interval is taken out of them, and the new one stands last, DESIGN CHOICE, log entry 41. -/
def State.insertSuspect (s : State) (x : ConsoleInterval × SuspectKind) : Option State :=
  (s.console.bounds x.1).map (fun b =>
    let u : Suspect :=
      { lo := b.1, hi := b.2 + 1, onRead := decide (x.2 ≠ .write), onWrite := decide (x.2 ≠ .read) }
    let others := s.console.suspects.flatMap (Suspect.without u.lo u.hi)
    { s with console := { s.console with suspects := others ++ [u], screen := .static } })

/-- Inserts a traced region; traces are kept in the order of insertion (R414). Whether a region that is already
traced is listed again is not stated: it is, DESIGN CHOICE, log entry 41. -/
def State.insertTrace (s : State) (x : ConsoleInterval × Format) : Option State :=
  (s.console.bounds x.1).map (fun b =>
    let t : Trace := { lo := b.1, hi := b.2, format := x.2 }
    { s with console := { s.console with traces := s.console.traces ++ [t], screen := .dynamic } })

/-- Inserts a breakpoint; one that is already in the list is updated (R412). -/
def State.insertBreakpoint (s : State) (x : ConsoleLoc × Nat) : Option State :=
  (s.console.address x.1).map (fun a =>
    let mark : Breakpoint := { addr := BitVec.ofNat 16 a, count := x.2 }
    let marks :=
      if s.console.breakpoints.any (fun b => decide (b.addr = mark.addr)) then
        s.console.breakpoints.map (fun b => if b.addr = mark.addr then mark else b)
      else s.console.breakpoints ++ [mark]
    { s with console := { s.console with breakpoints := marks, screen := .static } })

/-- Changes the console. -/
def State.withConsole (s : State) (f : Console → Console) : State := { s with console := f s.console }

/-- The answer of a command that can fail. -/
def Reply.of : Option State → Reply
  | some s => .done s
  | none => .error

/-- The commands of a file with the numbers of their lines. -/
def numbered (commands : List Command) : List (Nat × Command) :=
  ((List.range commands.length).map (· + 1)).zip commands

/-- What a command does to the stopped machine (R424). The null command has a meaning at pace 0 only; at
another pace the spec gives it none, and it is an error. Whether `foutput` writes over a file that was written
before or adds to it is not stated: both windows are kept, the latest last. DESIGN CHOICE, log entry 41. -/
def State.perform (s : State) : Command → Reply
  | .ds => .done (s.withConsole (fun c => { c with screen := .dynamic }))
  | .ss => .done (s.withConsole (fun c => { c with screen := .static }))
  | .ws => .done (s.withConsole (fun c => { c with screen := .work }))
  | .wsc => .done (s.withConsole (fun c => { c with work := [] }))
  | .p pace => if pace ≤ 9 then .done (s.withConsole (fun c => { c with pace := pace })) else .error
  | .si intervals => .of (doAll State.insertSuspect intervals s)
  | .sr star => .done (s.withConsole (fun c => c.remove .suspects star))
  | .s => .done (s.withConsole (fun c => { c with s := !c.s }))
  | .ti regions => .of (doAll State.insertTrace regions s)
  | .tr star => .done (s.withConsole (fun c => c.remove .traces star))
  | .t => .done (s.withConsole (fun c => { c with t := !c.t }))
  | .rd => .done (s.withConsole (fun c => { c with rd := !c.rd }))
  | .sl => .done (s.withConsole (fun c => { c with sl := !c.sl }))
  | .bi marks => .of (doAll State.insertBreakpoint marks s)
  | .br star => .done (s.withConsole (fun c => c.remove .breakpoints star))
  | .b => .done (s.withConsole (fun c => { c with b := !c.b }))
  | .show items => .of (doAll State.showItem items s)
  | .write items => .of (doAll State.writeItem items s)
  | .finput file =>
    match s.console.inputs.find? (fun f => decide (f.1 = file)) with
    | none => .error
    | some f =>
      .done (s.withConsole (fun c => { c with script := numbered f.2 ++ c.script, errorLine := none }))
  | .foutput file =>
    if s.console.screen = .work then .error
    else .done (s.withConsole (fun c => { c with outputs := c.outputs ++ [(file, c.display.window)] }))
  | .redraw => .done s
  | .ipl => .done s.ipl
  | .run => .done s.start
  | .null => if s.console.pace = 0 then .done s.start else .error
  | .help => .done s
  | .bye => .poweredDown s.io.hostFiles
  | .key k =>
    match s.console.removal with
    | some m => .done (s.withConsole (fun c => c.press m k))
    | none => .error

/-- A console command. It is taken only while the processor is stopped (R410) and the console is in the mode
for it (R424), and what it does is seen at once (R420, R422); the list of commands stands until the next. -/
def State.command (s : State) (c : Command) : Reply :=
  match s.run with
  | .running => .error
  | .stopped _ =>
    if s.console.takes c then
      match s.perform c with
      | .done t => .done (if c = .help then t.refresh.listCommands else t.refresh)
      | r => r
    else .error

/-- The next command of a file that `finput` reads, taken when the processor is stopped: after a `run` the
machine runs until it stops before the commands that follow. At an error the number of its line is reported
and no further command is read (R424). The commands of a file that a file reads come before the rest of that
file, and an error drops both, where the spec is silent: DESIGN CHOICE, log entry 41. -/
def State.nextCommand (s : State) : Reply :=
  match s.run, s.console.script with
  | .stopped _, (line, c) :: rest =>
    match (s.withConsole (fun k => { k with script := rest })).command c with
    | .error => .done (s.withConsole (fun k => { k with script := [], errorLine := some line }))
    | r => r
  | _, _ => .done s

/-! ### Starting the simulator (R402) -/

/-- The object file taken where the command line names none (R402). -/
def defaultObject : String := "a.out"

/-- The object file that a command line names. -/
def Invocation.object (v : Invocation) : String := v.file.getD defaultObject

/-- The name of the file that the flag `-s` writes the symbol table to. For the default object file the spec
does not give it: its name with the same ending, DESIGN CHOICE, log entry 47. -/
def Invocation.symbolsName (v : Invocation) : String := v.object ++ ".symbols"

/-- The console of a simulator that has just been started, among the host's files (R422). -/
def Console.started (c : Console) (memsize : Nat) : Console :=
  { Console.fresh memsize with
    inputs := c.inputs, outputs := c.outputs, objects := c.objects, symbolFiles := c.symbolFiles }

/-- Starting the simulator by a command line, among the host's files and the device files as they stand: the
machine after Initial Program Load of the object file, whose symbol table is written to a file with `-s` (R400,
R402). Without the object file no machine is started, where the spec is silent: DESIGN CHOICE, log entry 47. -/
def State.invoke (s : State) (v : Invocation) : Option State :=
  (s.console.objects.find? (fun f => decide (f.1 = v.object))).map (fun f =>
    let t := (s.withConsole (·.started s.cfg.memsize)).loadImage f.2.image f.2.symbols
    let written := if v.writeSymbols then [(v.symbolsName, f.2.symbols)] else []
    (t.withConsole (fun c => { c with symbolFiles := c.symbolFiles ++ written })).refresh)

end Sys2Proof.Machine
end

