-- ==== Sys2Proof/Machine/Flags.lean ====
section
/-! DEFINITION. Results and condition codes of the arithmetic and logical instructions
(43_single_operand.md, 44_double_operand.md), each as one function over bit vectors of the operand's
width. A single operand function takes the old value and the old codes, a double operand function the
source, the destination and the old codes; each answers the result and the new codes. -/

namespace Sys2Proof.Machine

variable {w : Nat}

/-- N and Z of a result, with the given V and C (R220). -/
def Cc.of (res : BitVec w) (v c : Bool) : Cc := { n := res.msb, z := decide (res = 0), v := v, c := c }

/-- SIGN, the most negative value (R220). -/
def signValue (w : Nat) : BitVec w := BitVec.ofNat w (2 ^ (w - 1))

/-- MAXPOS, the most positive value (R220). -/
def maxPositive (w : Nat) : BitVec w := BitVec.ofNat w (2 ^ (w - 1) - 1)

/-- C as a value of the operand's width. -/
def Cc.carry (cc : Cc) : BitVec w := (BitVec.ofBool cc.c).setWidth w

/-! ### Single operand -/

/-- clr (R200). -/
def clrOp : BitVec w × Cc := (0, { n := false, z := true, v := false, c := false })

/-- dec (R201). -/
def decOp (old : BitVec w) (cc : Cc) : BitVec w × Cc :=
  (old - 1, Cc.of (old - 1) (decide (old = signValue w)) cc.c)

/-- inc (R202). -/
def incOp (old : BitVec w) (cc : Cc) : BitVec w × Cc :=
  (old + 1, Cc.of (old + 1) (decide (old = maxPositive w)) cc.c)

/-- neg (R203). -/
def negOp (old : BitVec w) : BitVec w × Cc :=
  (-old, Cc.of (-old) (decide (-old = signValue w)) (decide (-old ≠ 0)))

/-- tst (R204). -/
def tstOp (res : BitVec w) : Cc := Cc.of res false false

/-- com (R205). -/
def comOp (old : BitVec w) : BitVec w × Cc := (~~~old, Cc.of (~~~old) false true)

/-- A shift or rotate by one place: V is N xor C (R206, R207, R214, R215). -/
def shiftCc (res : BitVec w) (c : Bool) : Cc := Cc.of res (xor res.msb c) c

/-- asr (R206): the sign is kept. -/
def asrOp (old : BitVec w) : BitVec w × Cc :=
  let res := (old >>> 1) ||| (old &&& signValue w)
  (res, shiftCc res (old.getLsbD 0))

/-- asl (R207). -/
def aslOp (old : BitVec w) : BitVec w × Cc := (old <<< 1, shiftCc (old <<< 1) old.msb)

/-- adc (R210). -/
def adcOp (old : BitVec w) (cc : Cc) : BitVec w × Cc :=
  let res := old + cc.carry
  (res, Cc.of res (decide (old = maxPositive w) && cc.c) (decide (old = -1) && cc.c))

/-- sbc (R211); with `sbcVIgnoresC` V is set by the operand alone (M5). -/
def sbcOp (vIgnoresC : Bool) (old : BitVec w) (cc : Cc) : BitVec w × Cc :=
  let res := old - cc.carry
  (res, Cc.of res (decide (old = signValue w) && (cc.c || vIgnoresC)) (decide (old = 0) && cc.c))

/-- sxt (R212). -/
def sxtOp (cc : Cc) : BitVec w × Cc :=
  (if cc.n then -1 else 0, { n := cc.n, z := !cc.n, v := false, c := cc.c })

/-- rol (R214): a rotate left through C. -/
def rolOp (old : BitVec w) (cc : Cc) : BitVec w × Cc :=
  let res := (old <<< 1) ||| cc.carry
  (res, shiftCc res old.msb)

/-- ror (R215): a rotate right through C. -/
def rorOp (old : BitVec w) (cc : Cc) : BitVec w × Cc :=
  let res := (old >>> 1) ||| ((cc.carry : BitVec w) <<< (w - 1))
  (res, shiftCc res (old.getLsbD 0))

/-- swab (R216): N and Z from the low byte of the result. -/
def swabOp (old : Word) : Word × Cc :=
  let low : Byte := old.extractLsb' 8 8
  (old.extractLsb' 0 8 ++ low, Cc.of low false false)

/-! ### Shifts by a count (R208, R209) -/

/-- ash and ashc: a shift by a signed six-bit count, of a register or of a register pair. C is the last
bit shifted out; V is set when a left shift leaves the range of the width. -/
def shiftOp (old : BitVec w) (count : BitVec 6) : BitVec w × Cc :=
  let n := count.toInt
  let x := old.toInt
  if n = 0 then (old, Cc.of old false false)
  else if 0 < n then
    let m := n.toNat
    let y := x * 2 ^ m
    let res := BitVec.ofInt w y
    (res, Cc.of res (decide (y < -(2 ^ (w - 1)) ∨ 2 ^ (w - 1) - 1 < y))
      (decide (m ≤ w) && old.getLsbD (w - m)))
  else
    let m := (-n).toNat
    let res := BitVec.ofInt w (x / 2 ^ m)
    (res, Cc.of res false ((old.signExtend (w + 32)).getLsbD (m - 1)))

/-! ### Double operand -/

/-- mov (R230, R231), and the codes of every logical result: V is cleared, C kept (R237, R239 to R241). -/
def logicCc (res : BitVec w) (cc : Cc) : Cc := Cc.of res false cc.c

/-- add (R232). -/
def addOp (src dst : BitVec w) : BitVec w × Cc :=
  let res := src + dst
  (res, Cc.of res (decide (src.msb = dst.msb ∧ res.msb ≠ src.msb))
    (decide (2 ^ w ≤ src.toNat + dst.toNat)))

/-- sub (R233): destination minus source. -/
def subOp (src dst : BitVec w) : BitVec w × Cc :=
  let res := dst - src
  (res, Cc.of res (decide (src.msb ≠ dst.msb ∧ res.msb = src.msb)) (decide (dst.toNat < src.toNat)))

/-- cmp (R234): source minus destination. -/
def cmpOp (src dst : BitVec w) : Cc :=
  let res := src - dst
  Cc.of res (decide (src.msb ≠ dst.msb ∧ res.msb = dst.msb)) (decide (src.toNat < dst.toNat))

/-- bis (R239). -/
def bisOp (src dst : BitVec w) (cc : Cc) : BitVec w × Cc := (dst ||| src, logicCc (dst ||| src) cc)

/-- bic (R241). -/
def bicOp (src dst : BitVec w) (cc : Cc) : BitVec w × Cc :=
  (dst &&& ~~~src, logicCc (dst &&& ~~~src) cc)

/-- bit (R240). -/
def bitOp (src dst : BitVec w) (cc : Cc) : Cc := logicCc (dst &&& src) cc

/-- xor (R237). -/
def xorOp (src dst : BitVec w) (cc : Cc) : BitVec w × Cc := (dst ^^^ src, logicCc (dst ^^^ src) cc)

/-- The product of mul and its codes (R235). -/
def mulOp (a b : Word) : DWord × Cc :=
  let p := a.toInt * b.toInt
  (BitVec.ofInt 32 p,
    { n := decide (p < 0), z := decide (p = 0), v := false, c := decide (p < -(2 ^ 15) ∨ 2 ^ 15 - 1 < p) })

/-- The exact quotient of div, truncated toward zero (R236). -/
def divQuotient (n : DWord) (d : Word) : Int := n.toInt.tdiv d.toInt

/-- The remainder of div, with the sign of the dividend (R236). -/
def divRemainder (n : DWord) (d : Word) : Int := n.toInt - divQuotient n d * d.toInt

/-- The quotient does not fit in sixteen bits, as the listing of R236 tests it. The sentence after the listing
counts every case where the dividend's high word is not smaller than the divisor in magnitude, also where the
quotient fits (0177777, 0177771 divided by 1): the listing is followed, DESIGN CHOICE, log entry 46. -/
def divOverflows (n : DWord) (d : Word) : Bool :=
  decide (divQuotient n d < -(2 ^ 15) ∨ 2 ^ 15 - 1 < divQuotient n d)

/-- The codes of a div whose quotient fits (R236). -/
def divCc (q : Int) : Cc := { n := decide (q < 0), z := decide (q = 0), v := false, c := false }

/-! ### Branch conditions (R268) -/

/-- The conditions the branches test (R251 to R267). -/
inductive Cond where
  | always
  | notEqual
  | equal
  | greaterEqual
  | less
  | greater
  | lessEqual
  | plus
  | minus
  | higher
  | lowerSame
  | overflowClear
  | overflowSet
  | carryClear
  | carrySet
  deriving DecidableEq, Repr

/-- Whether a branch is taken (R268). -/
def Cond.holds : Cond → Cc → Bool
  | .always, _ => true
  | .notEqual, cc => !cc.z
  | .equal, cc => cc.z
  | .greaterEqual, cc => !(xor cc.n cc.v)
  | .less, cc => xor cc.n cc.v
  | .greater, cc => !(cc.z || xor cc.n cc.v)
  | .lessEqual, cc => cc.z || xor cc.n cc.v
  | .plus, cc => !cc.n
  | .minus, cc => cc.n
  | .higher, cc => !(cc.c || cc.z)
  | .lowerSame, cc => cc.c || cc.z
  | .overflowClear, cc => !cc.v
  | .overflowSet, cc => cc.v
  | .carryClear, cc => !cc.c
  | .carrySet, cc => cc.c

/-- The codes after a condition code operator: each selected one gets the value `set` (R300). -/
def Cc.operate (cc : Cc) (set n z v c : Bool) : Cc :=
  { n := if n then set else cc.n, z := if z then set else cc.z
    v := if v then set else cc.v, c := if c then set else cc.c }

end Sys2Proof.Machine
end

