-- ==== Sys2Proof/Machine/Operands.lean ====
section
/-! DEFINITION. Operand addressing (40_operand_addressing.md R150 to R168). -/

namespace Sys2Proof.Machine

/-- What a specifier evaluates to (R150). -/
inductive Loc where
  | reg (r : Reg)
  | mem (a : Word) (kind : Access)
  deriving DecidableEq, Repr

/-- The step of the autoincrement and autodecrement modes: 1 for a byte operand through R0 to R5, else
2, so that SP and PC stay even (40_operand_addressing.md section 2). -/
def stepOf (size : Size) (r : Reg) : Word :=
  match size, r with
  | .byte, .sp => 2
  | .byte, .pc => 2
  | .byte, _ => 1
  | .word, _ => 2

/-- The access kind of a word of the instruction stream that a mode reaches through its register: the
pointer word of mode 3 (R156). -/
def streamKind (r : Reg) : Access := if r = .pc then .execute else .read

/-- The access kind of an immediate operand, `IMMEDIATE_ACCESS_KIND` (R155, D6). -/
def immediateAccess (g : Config) (r : Reg) : Access :=
  if r = .pc then (match g.immediateKind with | .execute => .execute | .read => .read) else .read

/-- `Operand(spec, size)` (R164). -/
def operand (size : Size) (o : Operand) : Exec Loc :=
  match o.mode with
  | .register => return .reg o.reg
  | .deferred => do
    let a ← getReg o.reg
    return .mem a .read
  | .autoInc => do
    let a ← getReg o.reg
    putReg o.reg (a + stepOf size o.reg)
    let kind ← peek (fun s => immediateAccess s.cfg o.reg)
    return .mem a kind
  | .autoIncDeferred => do
    let a ← getReg o.reg
    putReg o.reg (a + 2)
    let p ← memRead .word (streamKind o.reg) a
    return .mem p .read
  | .autoDec => do
    let a ← getReg o.reg
    putReg o.reg (a - stepOf size o.reg)
    return .mem (a - stepOf size o.reg) .read
  | .autoDecDeferred => do
    let a ← getReg o.reg
    putReg o.reg (a - 2)
    let p ← memRead .word .read (a - 2)
    return .mem p .read
  | .index => do
    let x ← fetchWord
    let a ← getReg o.reg
    return .mem (a + x) .read
  | .indexDeferred => do
    let x ← fetchWord
    let a ← getReg o.reg
    let p ← memRead .word .read (a + x)
    return .mem p .read

/-- `ReadLoc` (R165). A byte operand in a register is its low byte (R152). -/
def readLoc (size : Size) : Loc → Exec (BitVec size.bits)
  | .reg r => peek (fun s => (s.reg r).setWidth size.bits)
  | .mem a kind => memRead size kind a

/-- A register after an operand of the given size is written to it: a byte replaces the low byte (R152,
R165). -/
def mergeLow (old : Word) : (size : Size) → BitVec size.bits → Word
  | .byte, v => highByte old ++ v
  | .word, v => v

/-- `WriteLoc` (R165). -/
def writeLoc (size : Size) (v : BitVec size.bits) : Loc → Exec Unit
  | .reg r => update (fun s => s.setReg r (mergeLow (s.reg r) size v))
  | .mem a _ => memWrite size a v

/-- The value a specifier selects as a source (R166). -/
def sourceValue (size : Size) (ss : Operand) : Exec (BitVec size.bits) :=
  operand size ss >>= readLoc size

/-- The mode steps its register (R155 to R158). -/
def modeSteps : Mode → Bool
  | .autoInc => true
  | .autoIncDeferred => true
  | .autoDec => true
  | .autoDecDeferred => true
  | _ => false

/-- The mode fetches an extension word with the given register (R151, R161). -/
def modeExtends (m : Mode) (r : Reg) : Bool :=
  match m with
  | .index => true
  | .indexDeferred => true
  | .autoIncDeferred => decide (r = .pc)
  | _ => false

/-- A register source is read again after the destination has been evaluated: the other answer to M1 and
M2 (R167). The spec's answer is never. Which of the two governs a form of PC that both describe, or that the
list of M2 does not name, is not stated: the source is read again under either parameter that describes the
form, and under M2 for modes 6 and 7 with every register and mode 3 with PC, so that `@#A` is under both and
`#n` under M1 alone. DESIGN CHOICE, log entry 42. -/
def rereadsSource (g : Config) (ss dd : Operand) : Bool :=
  decide (ss.mode = .register) &&
    ((g.steppedSource && decide (ss.reg = dd.reg) && modeSteps dd.mode) ||
     (g.latePcSource && decide (ss.reg = .pc) && modeExtends dd.mode dd.reg))

/-- The two operands of format D in the order of R166: the source value, then the destination's place. -/
def sourceThenDest (size : Size) (ss dd : Operand) : Exec (BitVec size.bits × Loc) := do
  let sloc ← operand size ss
  let src ← readLoc size sloc
  let dloc ← operand size dd
  let again ← peek (fun s => rereadsSource s.cfg ss dd)
  if again then
    let src' ← readLoc size sloc
    return (src', dloc)
  else return (src, dloc)

/-- The target of `jmp` and `jsr`: the address the specifier selects, which is not read; register mode is
an Ill Instruction (R280, R283). Under the other answer to M3 mode 2 steps before it is the target. -/
def jumpTarget (dd : Operand) : Exec Word := do
  let loc ← operand .word dd
  match loc with
  | .reg _ => raiseProgram .illInstruction
  | .mem a _ => do
    let stepped ← getReg dd.reg
    let first ← peek (fun s => s.cfg.jumpStepFirst && decide (dd.mode = .autoInc))
    return (if first then stepped else a)

/-! ### What can write SP, for `STACK_CHECK_POLICY` `sp_written` (R332) -/

/-- Evaluating the specifier writes SP. -/
def stepsSp (o : Operand) : Bool := decide (o.reg = .sp) && modeSteps o.mode

/-- Evaluating the specifier or writing to what it selects writes SP. -/
def writesSp (o : Operand) : Bool :=
  decide (o.reg = .sp) && (decide (o.mode = .register) || modeSteps o.mode)

end Sys2Proof.Machine
end

