-- ==== Sys2Proof/Machine/Shapes.lean ====
section
/-! DEFINITION. The common shapes of the single operand instructions (43_single_operand.md R220), the
double operand instructions (44_double_operand.md R242, R243) and the branches (45_branches.md R250). -/

namespace Sys2Proof.Machine

/-- The condition codes before the instruction's own effect. -/
def getCc : Exec Cc := peek (fun s => s.cpu.ps1.cc)

/-- Format S with a destination that is read and written: `f` takes the old value and the old codes
(R220). -/
def modifyDest (size : Size) (dd : Operand) (f : BitVec size.bits → Cc → BitVec size.bits × Cc) :
    Exec Unit := do
  let loc ← operand size dd
  let old ← readLoc size loc
  let cc ← getCc
  writeLoc size (f old cc).1 loc
  putCc (f old cc).2

/-- Format S with a destination that is only written (R200, R212). -/
def overwriteDest (size : Size) (dd : Operand) (f : Cc → BitVec size.bits × Cc) : Exec Unit := do
  let loc ← operand size dd
  let cc ← getCc
  writeLoc size (f cc).1 loc
  putCc (f cc).2

/-- Format S with a destination that is only read (R204). -/
def testDest (size : Size) (dd : Operand) (f : BitVec size.bits → Cc) : Exec Unit := do
  let loc ← operand size dd
  let old ← readLoc size loc
  putCc (f old)

/-- Format D with a destination that is read and written: `f` takes the source, the destination and the
old codes (R242). -/
def combineInto (size : Size) (ss dd : Operand)
    (f : BitVec size.bits → BitVec size.bits → Cc → BitVec size.bits × Cc) : Exec Unit := do
  let (src, loc) ← sourceThenDest size ss dd
  let dst ← readLoc size loc
  let cc ← getCc
  writeLoc size (f src dst cc).1 loc
  putCc (f src dst cc).2

/-- Format D with a destination that is only read (R234, R240). -/
def compareWith (size : Size) (ss dd : Operand)
    (f : BitVec size.bits → BitVec size.bits → Cc → Cc) : Exec Unit := do
  let (src, loc) ← sourceThenDest size ss dd
  let dst ← readLoc size loc
  let cc ← getCc
  putCc (f src dst cc)

/-- `mov` and, to memory, `movb`: the destination is only written, and C is kept (R230, R231). -/
def moveInto (size : Size) (ss dd : Operand) : Exec Unit := do
  let (src, loc) ← sourceThenDest size ss dd
  let cc ← getCc
  writeLoc size src loc
  putCc (logicCc src cc)

/-- `movb`: a register destination takes the sign-extended byte (R231). -/
def moveByteInto (ss dd : Operand) : Exec Unit := do
  let (src, loc) ← sourceThenDest .byte ss dd
  let cc ← getCc
  match loc with
  | .reg r => putReg r (src.signExtend 16)
  | .mem a _ => memWrite .byte a src
  putCc (logicCc src cc)

/-- The register with number `r | 1`, the low half of a pair (R209, R235, R236). -/
def pairLow : Reg → Reg
  | .r0 => .r1
  | .r1 => .r1
  | .r2 => .r3
  | .r3 => .r3
  | .r4 => .r5
  | .r5 => .r5
  | .sp => .pc
  | .pc => .pc

/-- The register's number is odd (R236). -/
def oddReg (r : Reg) : Bool := r.bits.getLsbD 0

/-- The double word of a register pair, the high word in the even register (R64). -/
def getPair (r : Reg) : Exec DWord := peek (fun s => s.reg r ++ s.reg (pairLow r))

/-- Writes a register pair. -/
def putPair (r : Reg) (v : DWord) : Exec Unit := do
  putReg r (v.extractLsb' 16 16)
  putReg (pairLow r) (v.extractLsb' 0 16)

/-- Writing the register pair writes SP. -/
def pairWritesSp (r : Reg) : Bool := decide (r = .sp)

/-- The common branch rule (R250): PC is the address of the word after the branch. -/
def branchIf (cond : Cond) (offset : BitVec 8) : Exec Unit := do
  let cc ← getCc
  let pc ← getReg .pc
  if cond.holds cc then putReg .pc (pc + 2 * offset.signExtend 16) else pure ()

end Sys2Proof.Machine
end

