-- ==== Sys2Proof/Machine/Branches.lean ====
section
/-! DEFINITION. The branches (45_branches.md). -/

namespace Sys2Proof.Machine

/-- br (R251). -/
def execBr (offset : BitVec 8) (s : State) : Host.Outcome State Fault Refusal :=
  transact (.ordinary false) (branchIf .always offset) s

/-- bne (R252). -/
def execBne (offset : BitVec 8) (s : State) : Host.Outcome State Fault Refusal :=
  transact (.ordinary false) (branchIf .notEqual offset) s

/-- beq (R253). -/
def execBeq (offset : BitVec 8) (s : State) : Host.Outcome State Fault Refusal :=
  transact (.ordinary false) (branchIf .equal offset) s

/-- bge (R260). -/
def execBge (offset : BitVec 8) (s : State) : Host.Outcome State Fault Refusal :=
  transact (.ordinary false) (branchIf .greaterEqual offset) s

/-- blt (R261). -/
def execBlt (offset : BitVec 8) (s : State) : Host.Outcome State Fault Refusal :=
  transact (.ordinary false) (branchIf .less offset) s

/-- bgt (R262). -/
def execBgt (offset : BitVec 8) (s : State) : Host.Outcome State Fault Refusal :=
  transact (.ordinary false) (branchIf .greater offset) s

/-- ble (R263). -/
def execBle (offset : BitVec 8) (s : State) : Host.Outcome State Fault Refusal :=
  transact (.ordinary false) (branchIf .lessEqual offset) s

/-- bpl (R254). -/
def execBpl (offset : BitVec 8) (s : State) : Host.Outcome State Fault Refusal :=
  transact (.ordinary false) (branchIf .plus offset) s

/-- bmi (R255). -/
def execBmi (offset : BitVec 8) (s : State) : Host.Outcome State Fault Refusal :=
  transact (.ordinary false) (branchIf .minus offset) s

/-- bhi (R264). -/
def execBhi (offset : BitVec 8) (s : State) : Host.Outcome State Fault Refusal :=
  transact (.ordinary false) (branchIf .higher offset) s

/-- blos (R265). -/
def execBlos (offset : BitVec 8) (s : State) : Host.Outcome State Fault Refusal :=
  transact (.ordinary false) (branchIf .lowerSame offset) s

/-- bvc (R256). -/
def execBvc (offset : BitVec 8) (s : State) : Host.Outcome State Fault Refusal :=
  transact (.ordinary false) (branchIf .overflowClear offset) s

/-- bvs (R257). -/
def execBvs (offset : BitVec 8) (s : State) : Host.Outcome State Fault Refusal :=
  transact (.ordinary false) (branchIf .overflowSet offset) s

/-- bcc (R258). -/
def execBcc (offset : BitVec 8) (s : State) : Host.Outcome State Fault Refusal :=
  transact (.ordinary false) (branchIf .carryClear offset) s

/-- bcs (R259). -/
def execBcs (offset : BitVec 8) (s : State) : Host.Outcome State Fault Refusal :=
  transact (.ordinary false) (branchIf .carrySet offset) s

/-- bhis (R266). -/
def execBhis (offset : BitVec 8) (s : State) : Host.Outcome State Fault Refusal :=
  transact (.ordinary false) (branchIf .carryClear offset) s

/-- blo (R267). -/
def execBlo (offset : BitVec 8) (s : State) : Host.Outcome State Fault Refusal :=
  transact (.ordinary false) (branchIf .carrySet offset) s

end Sys2Proof.Machine
end

