-- ==== Sys2Proof/Machine/ConditionCodes.lean ====
section
/-! DEFINITION. The condition code operators (47_condition_code_operators.md). They write PS1.N, Z, V and C
and no other bit of PS1 (R297). -/

namespace Sys2Proof.Machine

/-- The effect of a condition code operator (R300). -/
def ccBody (set n z v c : Bool) : Exec Unit := do
  let cc ← getCc
  putCc (cc.operate set n z v c)

/-- The general condition code operator (R300). -/
def execCcop (set n z v c : Bool) (s : State) : Host.Outcome State Fault Refusal :=
  transact (.ordinary false) (ccBody set n z v c) s

/-- nop (R301). -/
def execNop (s : State) : Host.Outcome State Fault Refusal :=
  transact (.ordinary false) (ccBody false false false false false) s

/-- clc (R302). -/
def execClc (s : State) : Host.Outcome State Fault Refusal :=
  transact (.ordinary false) (ccBody false false false false true) s

/-- clv (R303). -/
def execClv (s : State) : Host.Outcome State Fault Refusal :=
  transact (.ordinary false) (ccBody false false false true false) s

/-- clz (R304). -/
def execClz (s : State) : Host.Outcome State Fault Refusal :=
  transact (.ordinary false) (ccBody false false true false false) s

/-- cln (R305). -/
def execCln (s : State) : Host.Outcome State Fault Refusal :=
  transact (.ordinary false) (ccBody false true false false false) s

/-- ccc (R299). -/
def execCcc (s : State) : Host.Outcome State Fault Refusal :=
  transact (.ordinary false) (ccBody false true true true true) s

/-- sec (R306). -/
def execSec (s : State) : Host.Outcome State Fault Refusal :=
  transact (.ordinary false) (ccBody true false false false true) s

/-- sev (R307). -/
def execSev (s : State) : Host.Outcome State Fault Refusal :=
  transact (.ordinary false) (ccBody true false false true false) s

/-- sez (R308). -/
def execSez (s : State) : Host.Outcome State Fault Refusal :=
  transact (.ordinary false) (ccBody true false true false false) s

/-- sen (R309). -/
def execSen (s : State) : Host.Outcome State Fault Refusal :=
  transact (.ordinary false) (ccBody true true false false false) s

/-- scc (R298). -/
def execScc (s : State) : Host.Outcome State Fault Refusal :=
  transact (.ordinary false) (ccBody true true true true true) s

end Sys2Proof.Machine
end

