-- ==== Sys2Proof/Machine/Control.lean ====
section
/-! DEFINITION. Subroutine and program control: jmp, jsr, rts, mark, sob
(46_subroutine_and_control.md). -/

namespace Sys2Proof.Machine

/-- The effect of jmp (R283). -/
def jmpBody (dd : Operand) : Exec Unit := do
  let target ← jumpTarget dd
  putReg .pc target

/-- jmp (R283). -/
def execJmp (dd : Operand) (s : State) : Host.Outcome State Fault Refusal :=
  transact (.ordinary (stepsSp dd)) (jmpBody dd) s

/-- The effect of jsr: the target is computed before the push and before the link register changes
(R280). -/
def jsrBody (r : Reg) (dd : Operand) : Exec Unit := do
  let target ← jumpTarget dd
  let link ← getReg r
  push link
  let pc ← getReg .pc
  putReg r pc
  putReg .pc target

/-- jsr (R280). -/
def execJsr (r : Reg) (dd : Operand) (s : State) : Host.Outcome State Fault Refusal :=
  transact (.ordinary true) (jsrBody r dd) s

/-- The effect of rts (R282). -/
def rtsBody (r : Reg) : Exec Unit := do
  let link ← getReg r
  putReg .pc link
  let v ← pop
  putReg r v

/-- rts (R282). -/
def execRts (r : Reg) (s : State) : Host.Outcome State Fault Refusal :=
  transact (.ordinary true) (rtsBody r) s

/-- The effect of mark (R281). -/
def markBody (nn : BitVec 6) : Exec Unit := do
  let pc ← getReg .pc
  putReg .sp (pc + 2 * nn.setWidth 16)
  let link ← getReg .r5
  putReg .pc link
  let v ← pop
  putReg .r5 v

/-- mark (R281). -/
def execMark (nn : BitVec 6) (s : State) : Host.Outcome State Fault Refusal :=
  transact (.ordinary true) (markBody nn) s

/-- The effect of sob: the offset counts words backward and is not sign extended (R284). -/
def sobBody (r : Reg) (offset : BitVec 6) : Exec Unit := do
  let old ← getReg r
  putReg r (old - 1)
  let pc ← getReg .pc
  if old - 1 ≠ 0 then putReg .pc (pc - 2 * offset.setWidth 16) else pure ()

/-- sob (R284). -/
def execSob (r : Reg) (offset : BitVec 6) (s : State) : Host.Outcome State Fault Refusal :=
  transact (.ordinary (decide (r = .sp))) (sobBody r offset) s

end Sys2Proof.Machine
end

