-- ==== Sys2Proof/Machine/DoubleOperand.lean ====
section
/-! DEFINITION. The double operand instructions (44_double_operand.md). -/

namespace Sys2Proof.Machine

/-- mov (R230). -/
def execMov (ss dd : Operand) (s : State) : Host.Outcome State Fault Refusal :=
  transact (.ordinary (stepsSp ss || writesSp dd)) (moveInto .word ss dd) s

/-- movb (R231). -/
def execMovb (ss dd : Operand) (s : State) : Host.Outcome State Fault Refusal :=
  transact (.ordinary (stepsSp ss || writesSp dd)) (moveByteInto ss dd) s

/-- cmp (R234). -/
def execCmp (ss dd : Operand) (s : State) : Host.Outcome State Fault Refusal :=
  transact (.ordinary (stepsSp ss || stepsSp dd)) (compareWith .word ss dd (fun src dst _ => cmpOp src dst)) s

/-- cmpb (R234). -/
def execCmpb (ss dd : Operand) (s : State) : Host.Outcome State Fault Refusal :=
  transact (.ordinary (stepsSp ss || stepsSp dd)) (compareWith .byte ss dd (fun src dst _ => cmpOp src dst)) s

/-- bit (R240). -/
def execBit (ss dd : Operand) (s : State) : Host.Outcome State Fault Refusal :=
  transact (.ordinary (stepsSp ss || stepsSp dd)) (compareWith .word ss dd bitOp) s

/-- bitb (R240). -/
def execBitb (ss dd : Operand) (s : State) : Host.Outcome State Fault Refusal :=
  transact (.ordinary (stepsSp ss || stepsSp dd)) (compareWith .byte ss dd bitOp) s

/-- bic (R241). -/
def execBic (ss dd : Operand) (s : State) : Host.Outcome State Fault Refusal :=
  transact (.ordinary (stepsSp ss || writesSp dd)) (combineInto .word ss dd bicOp) s

/-- bicb (R241). -/
def execBicb (ss dd : Operand) (s : State) : Host.Outcome State Fault Refusal :=
  transact (.ordinary (stepsSp ss || writesSp dd)) (combineInto .byte ss dd bicOp) s

/-- bis (R239). -/
def execBis (ss dd : Operand) (s : State) : Host.Outcome State Fault Refusal :=
  transact (.ordinary (stepsSp ss || writesSp dd)) (combineInto .word ss dd bisOp) s

/-- bisb (R239). -/
def execBisb (ss dd : Operand) (s : State) : Host.Outcome State Fault Refusal :=
  transact (.ordinary (stepsSp ss || writesSp dd)) (combineInto .byte ss dd bisOp) s

/-- add (R232). -/
def execAdd (ss dd : Operand) (s : State) : Host.Outcome State Fault Refusal :=
  transact (.ordinary (stepsSp ss || writesSp dd)) (combineInto .word ss dd (fun src dst _ => addOp src dst)) s

/-- sub (R233). -/
def execSub (ss dd : Operand) (s : State) : Host.Outcome State Fault Refusal :=
  transact (.ordinary (stepsSp ss || writesSp dd)) (combineInto .word ss dd (fun src dst _ => subOp src dst)) s

/-- The effect of mul: an even register takes the high word and the next one the low word, an odd register
the low word (R235). -/
def mulBody (r : Reg) (ss : Operand) : Exec Unit := do
  let src ← sourceValue .word ss
  let a ← getReg r
  let (p, cc) := mulOp a src
  if oddReg r then putReg r (p.extractLsb' 0 16) else putPair r p
  putCc cc

/-- mul (R235). -/
def execMul (r : Reg) (ss : Operand) (s : State) : Host.Outcome State Fault Refusal :=
  transact (.ordinary (stepsSp ss || pairWritesSp r)) (mulBody r ss) s

/-- What div leaves when the quotient overflows: V set, C cleared, N and Z free values; the registers as
they were, or free under `DIV_OVERFLOW_REGS` `any` (R236, U4). -/
def divOverflowBody (r : Reg) : Exec Unit := do
  let draw ← peek State.draw
  let regs ← peek (fun s => s.cfg.divOverflowRegs)
  match regs with
  | .unchanged => pure ()
  | .any => putPair r (Config.divOverflowPair draw)
  let nz := Config.divOverflowFlags draw
  putCc { n := nz.getLsbD 1, z := nz.getLsbD 0, v := true, c := false }

/-- The effect of div. An odd register is an Ill Instruction, found before the operand is evaluated; a
zero divisor traps after it is read (R236, R329). -/
def divBody (r : Reg) (ss : Operand) : Exec Unit :=
  if oddReg r then raiseProgram .illInstruction
  else do
    let d ← sourceValue .word ss
    if d = 0 then raiseProgram .zeroDivide
    else do
      let n ← getPair r
      if divOverflows n d then divOverflowBody r
      else do
        putReg r (BitVec.ofInt 16 (divQuotient n d))
        putReg (pairLow r) (BitVec.ofInt 16 (divRemainder n d))
        putCc (divCc (divQuotient n d))

/-- div (R236). -/
def execDiv (r : Reg) (ss : Operand) (s : State) : Host.Outcome State Fault Refusal :=
  transact (.ordinary (stepsSp ss || pairWritesSp r)) (divBody r ss) s

/-- The effect of xor: the register is read after the destination is evaluated, as the rule's listing
does (R237). -/
def xorBody (r : Reg) (dd : Operand) : Exec Unit := do
  let loc ← operand .word dd
  let dst ← readLoc .word loc
  let src ← getReg r
  let cc ← getCc
  writeLoc .word (xorOp src dst cc).1 loc
  putCc (xorOp src dst cc).2

/-- xor (R237). -/
def execXor (r : Reg) (dd : Operand) (s : State) : Host.Outcome State Fault Refusal :=
  transact (.ordinary (writesSp dd)) (xorBody r dd) s

end Sys2Proof.Machine
end

