-- ==== Sys2Proof/Machine/NewUser.lean ====
section
/-! DEFINITION. The new USER instructions STCK, SYS, INPRG, CSV, CRET, MOVBCK
(41_new_user_instructions.md). None changes a condition code or removes its stack arguments, and all are
executable in both modes (R186). -/

namespace Sys2Proof.Machine

/-- The effect of STCK: one sample of TDCK, the most significant word first (R180, R64). -/
def stckBody : Exec Unit := do
  let addr ← topOfStack
  let t ← peek State.tdck
  memWrite .word addr (t.extractLsb' 16 16)
  memWrite .word (addr + 2) (t.extractLsb' 0 16)

/-- STCK (R180). -/
def execStck (s : State) : Host.Outcome State Fault Refusal :=
  transact (.ordinary false) stckBody s

/-- The effect of SYS: it is the SYS trap, with PC already at the next instruction (R181, R317). -/
def sysBody (number : BitVec 8) : Exec Unit :=
  update (fun s => s.enter sysArea (number.setWidth 16))

/-- SYS (R181). -/
def execSys (number : BitVec 8) (s : State) : Host.Outcome State Fault Refusal :=
  transact .entersTrap (sysBody number) s

/-- The effect of INPRG: the word on top of the stack and PC change places (R182). -/
def inprgBody : Exec Unit := do
  let sp ← getReg .sp
  let target ← memRead .word .read sp
  let pc ← getReg .pc
  memWrite .word sp pc
  putReg .pc target

/-- INPRG (R182). -/
def execInprg (s : State) : Host.Outcome State Fault Refusal :=
  transact (.ordinary false) inprgBody s

/-- The effect of CSV (R183). -/
def csvBody : Exec Unit := do
  let r5 ← getReg .r5
  push r5
  let sp ← getReg .sp
  putReg .r5 sp
  let r4 ← getReg .r4
  push r4
  let r3 ← getReg .r3
  push r3
  let r2 ← getReg .r2
  push r2

/-- CSV (R183). -/
def execCsv (s : State) : Host.Outcome State Fault Refusal :=
  transact (.ordinary true) csvBody s

/-- The effect of CRET (R184). -/
def cretBody : Exec Unit := do
  let r5 ← getReg .r5
  putReg .sp (r5 - 6)
  let v2 ← pop
  putReg .r2 v2
  let v3 ← pop
  putReg .r3 v3
  let v4 ← pop
  putReg .r4 v4
  let v5 ← pop
  putReg .r5 v5
  let target ← pop
  putReg .pc target

/-- CRET (R184). -/
def execCret (s : State) : Host.Outcome State Fault Refusal :=
  transact (.ordinary true) cretBody s

/-- Moves bytes one at a time upward: each is read and then written before the next (R185). -/
def copyBytes (src dst : Word) : Nat → Exec Unit
  | 0 => pure ()
  | n + 1 => do
    let b ← memRead .byte .read src
    memWrite .byte dst b
    copyBytes (src + 1) (dst + 1) n

/-- Reads bytes upward. -/
def readBytes (src : Word) : Nat → Exec (List Byte)
  | 0 => pure []
  | n + 1 => do
    let b ← memRead .byte .read src
    let bs ← readBytes (src + 1) n
    return b :: bs

/-- Writes bytes upward. -/
def writeBytes (dst : Word) : List Byte → Exec Unit
  | [] => pure ()
  | b :: bs => do
    memWrite .byte dst b
    writeBytes (dst + 1) bs

/-- The move of a block: byte by byte upward, or, under the other `MOVBCK_ORDER`, as if through a buffer
(R185, D24). -/
def moveBlock (order : MovbckOrder) (src dst : Word) (n : Nat) : Exec Unit :=
  match order with
  | .ascending => copyBytes src dst n
  | .asIfBuffered => readBytes src n >>= writeBytes dst

/-- The effect of MOVBCK: the size is unsigned, and one above the page size is an Ill Instruction, found
after the three arguments are read (R185). -/
def movbckBody : Exec Unit := do
  let sp ← getReg .sp
  let src ← memRead .word .read sp
  let dst ← memRead .word .read (sp + 2)
  let size ← memRead .word .read (sp + 4)
  let order ← peek (fun s => s.cfg.movbckOrder)
  if 512 < size.toNat then raiseProgram .illInstruction
  else moveBlock order src dst size.toNat

/-- MOVBCK (R185). -/
def execMovbck (s : State) : Host.Outcome State Fault Refusal :=
  transact (.ordinary false) movbckBody s

end Sys2Proof.Machine
end

