-- ==== Sys2Proof/Machine/Privileged.lean ====
section
/-! DEFINITION. The privileged instructions LDST, STST, LDIT, LDIM, LDSTL, HALT
(42_privileged_instructions.md). In USER mode each is Program trap 2, before any operand access (R196). -/

namespace Sys2Proof.Machine

/-- The effect of LDST, the return from a trap or interrupt: twelve words read under the mapping in
force, then the whole Processor State replaced (R190, R325). -/
def ldstBody : Exec Unit := do
  privileged
  let addr ← topOfStack
  let t ← readBlock addr 12
  update (fun s => s.install (fun k => t.getD k 0))

/-- LDST (R190). -/
def execLdst (s : State) : Host.Outcome State Fault Refusal :=
  transact .loadsState ldstBody s

/-- The effect of STST: the PC stored is the address of the next word (R191). -/
def ststBody : Exec Unit := do
  privileged
  let addr ← topOfStack
  let words ← peek (fun s => s.cpu.words s.cfg.ps1Layout)
  writeBlock addr words

/-- STST (R191). -/
def execStst (s : State) : Host.Outcome State Fault Refusal :=
  transact (.ordinary false) ststBody s

/-- The effect of LDIT: both halves are installed together; a pending request stays (R192, D23). -/
def lditBody : Exec Unit := do
  privileged
  let addr ← topOfStack
  let hi ← memRead .word .read addr
  let lo ← memRead .word .read (addr + 2)
  update (fun s => s.setIt (hi ++ lo))

/-- LDIT (R192). -/
def execLdit (s : State) : Host.Outcome State Fault Refusal :=
  transact (.ordinary false) lditBody s

/-- The effect of LDIM (R193). -/
def ldimBody : Exec Unit := do
  privileged
  let a ← topOfStack
  update (fun s => s.setIntmask (a.extractLsb' 0 8))

/-- LDIM (R193). -/
def execLdim (s : State) : Host.Outcome State Fault Refusal :=
  transact (.ordinary false) ldimBody s

/-- The effect of LDSTL (R194). -/
def ldstlBody : Exec Unit := do
  privileged
  let a ← topOfStack
  update (fun s => s.setStl a)

/-- LDSTL (R194). -/
def execLdstl (s : State) : Host.Outcome State Fault Refusal :=
  transact (.ordinary false) ldstlBody s

/-- The effect of HALT: the processor stops with PC at the next word (R195). -/
def haltBody : Exec Unit := do
  privileged
  update (fun s => s.stop .halt)

/-- HALT (R195). -/
def execHalt (s : State) : Host.Outcome State Fault Refusal :=
  transact (.ordinary false) haltBody s

end Sys2Proof.Machine
end

