-- ==== Sys2Proof/Machine/SingleOperand.lean ====
section
/-! DEFINITION. The single operand instructions (43_single_operand.md), with ash and ashc. -/

namespace Sys2Proof.Machine

/-- clr (R200). -/
def execClr (dd : Operand) (s : State) : Host.Outcome State Fault Refusal :=
  transact (.ordinary (writesSp dd)) (overwriteDest .word dd (fun _ => clrOp)) s

/-- clrb (R200). -/
def execClrb (dd : Operand) (s : State) : Host.Outcome State Fault Refusal :=
  transact (.ordinary (writesSp dd)) (overwriteDest .byte dd (fun _ => clrOp)) s

/-- com (R205). -/
def execCom (dd : Operand) (s : State) : Host.Outcome State Fault Refusal :=
  transact (.ordinary (writesSp dd)) (modifyDest .word dd (fun old _ => comOp old)) s

/-- comb (R205). -/
def execComb (dd : Operand) (s : State) : Host.Outcome State Fault Refusal :=
  transact (.ordinary (writesSp dd)) (modifyDest .byte dd (fun old _ => comOp old)) s

/-- inc (R202). -/
def execInc (dd : Operand) (s : State) : Host.Outcome State Fault Refusal :=
  transact (.ordinary (writesSp dd)) (modifyDest .word dd incOp) s

/-- incb (R202). -/
def execIncb (dd : Operand) (s : State) : Host.Outcome State Fault Refusal :=
  transact (.ordinary (writesSp dd)) (modifyDest .byte dd incOp) s

/-- dec (R201). -/
def execDec (dd : Operand) (s : State) : Host.Outcome State Fault Refusal :=
  transact (.ordinary (writesSp dd)) (modifyDest .word dd decOp) s

/-- decb (R201). -/
def execDecb (dd : Operand) (s : State) : Host.Outcome State Fault Refusal :=
  transact (.ordinary (writesSp dd)) (modifyDest .byte dd decOp) s

/-- neg (R203). -/
def execNeg (dd : Operand) (s : State) : Host.Outcome State Fault Refusal :=
  transact (.ordinary (writesSp dd)) (modifyDest .word dd (fun old _ => negOp old)) s

/-- negb (R203). -/
def execNegb (dd : Operand) (s : State) : Host.Outcome State Fault Refusal :=
  transact (.ordinary (writesSp dd)) (modifyDest .byte dd (fun old _ => negOp old)) s

/-- adc (R210). -/
def execAdc (dd : Operand) (s : State) : Host.Outcome State Fault Refusal :=
  transact (.ordinary (writesSp dd)) (modifyDest .word dd adcOp) s

/-- adcb (R210). -/
def execAdcb (dd : Operand) (s : State) : Host.Outcome State Fault Refusal :=
  transact (.ordinary (writesSp dd)) (modifyDest .byte dd adcOp) s

/-- sbc (R211). -/
def execSbc (dd : Operand) (s : State) : Host.Outcome State Fault Refusal :=
  transact (.ordinary (writesSp dd)) (modifyDest .word dd (sbcOp s.cfg.sbcVIgnoresC)) s

/-- sbcb (R211). -/
def execSbcb (dd : Operand) (s : State) : Host.Outcome State Fault Refusal :=
  transact (.ordinary (writesSp dd)) (modifyDest .byte dd (sbcOp s.cfg.sbcVIgnoresC)) s

/-- tst (R204). -/
def execTst (dd : Operand) (s : State) : Host.Outcome State Fault Refusal :=
  transact (.ordinary (stepsSp dd)) (testDest .word dd tstOp) s

/-- tstb (R204). -/
def execTstb (dd : Operand) (s : State) : Host.Outcome State Fault Refusal :=
  transact (.ordinary (stepsSp dd)) (testDest .byte dd tstOp) s

/-- ror (R215). -/
def execRor (dd : Operand) (s : State) : Host.Outcome State Fault Refusal :=
  transact (.ordinary (writesSp dd)) (modifyDest .word dd rorOp) s

/-- rorb (R215). -/
def execRorb (dd : Operand) (s : State) : Host.Outcome State Fault Refusal :=
  transact (.ordinary (writesSp dd)) (modifyDest .byte dd rorOp) s

/-- rol (R214). -/
def execRol (dd : Operand) (s : State) : Host.Outcome State Fault Refusal :=
  transact (.ordinary (writesSp dd)) (modifyDest .word dd rolOp) s

/-- rolb (R214). -/
def execRolb (dd : Operand) (s : State) : Host.Outcome State Fault Refusal :=
  transact (.ordinary (writesSp dd)) (modifyDest .byte dd rolOp) s

/-- asr (R206). -/
def execAsr (dd : Operand) (s : State) : Host.Outcome State Fault Refusal :=
  transact (.ordinary (writesSp dd)) (modifyDest .word dd (fun old _ => asrOp old)) s

/-- asrb (R206). -/
def execAsrb (dd : Operand) (s : State) : Host.Outcome State Fault Refusal :=
  transact (.ordinary (writesSp dd)) (modifyDest .byte dd (fun old _ => asrOp old)) s

/-- asl (R207). -/
def execAsl (dd : Operand) (s : State) : Host.Outcome State Fault Refusal :=
  transact (.ordinary (writesSp dd)) (modifyDest .word dd (fun old _ => aslOp old)) s

/-- aslb (R207). -/
def execAslb (dd : Operand) (s : State) : Host.Outcome State Fault Refusal :=
  transact (.ordinary (writesSp dd)) (modifyDest .byte dd (fun old _ => aslOp old)) s

/-- sxt (R212). -/
def execSxt (dd : Operand) (s : State) : Host.Outcome State Fault Refusal :=
  transact (.ordinary (writesSp dd)) (overwriteDest .word dd sxtOp) s

/-- swab (R216). -/
def execSwab (dd : Operand) (s : State) : Host.Outcome State Fault Refusal :=
  transact (.ordinary (writesSp dd)) (modifyDest .word dd (fun old _ => swabOp old)) s

/-- The effect of ash: the source is read first, then the register (R208). -/
def ashBody (r : Reg) (ss : Operand) : Exec Unit := do
  let src ← sourceValue .word ss
  let old ← getReg r
  let (res, cc) := shiftOp old (src.extractLsb' 0 6)
  putReg r res
  putCc cc

/-- ash (R208). -/
def execAsh (r : Reg) (ss : Operand) (s : State) : Host.Outcome State Fault Refusal :=
  transact (.ordinary (stepsSp ss || decide (r = .sp))) (ashBody r ss) s

/-- The four codes of a free value. -/
def Cc.ofBits (b : BitVec 4) : Cc :=
  { n := b.getLsbD 3, z := b.getLsbD 2, v := b.getLsbD 1, c := b.getLsbD 0 }

/-- The effect of ashc on a register pair; with an odd register the result and the codes are free values,
and nothing else changes (R209, U3). -/
def ashcBody (r : Reg) (ss : Operand) : Exec Unit := do
  let src ← sourceValue .word ss
  if oddReg r then
    let draw ← peek State.draw
    putReg r (Config.ashcOddResult draw)
    putCc (Cc.ofBits (Config.ashcOddFlags draw))
  else
    let old ← getPair r
    let (res, cc) := shiftOp old (src.extractLsb' 0 6)
    putPair r res
    putCc cc

/-- ashc (R209). -/
def execAshc (r : Reg) (ss : Operand) (s : State) : Host.Outcome State Fault Refusal :=
  transact (.ordinary (stepsSp ss || pairWritesSp r)) (ashcBody r ss) s

end Sys2Proof.Machine
end

