-- ==== Sys2Proof/Machine/Dispatch.lean ====
section
/-! DEFINITION. One arm per instruction: its meaning. The state is the one before the instruction, its
PC the address of its first word (R318, R390). -/

namespace Sys2Proof.Machine

def exec (i : Instr) (s : State) : Host.Outcome State Fault Refusal :=
  match i with
  | .halt => Sys2Proof.Machine.execHalt s
  | .ldst => Sys2Proof.Machine.execLdst s
  | .stst => Sys2Proof.Machine.execStst s
  | .ldit => Sys2Proof.Machine.execLdit s
  | .ldim => Sys2Proof.Machine.execLdim s
  | .ldstl => Sys2Proof.Machine.execLdstl s
  | .movbck => Sys2Proof.Machine.execMovbck s
  | .stck => Sys2Proof.Machine.execStck s
  | .inprg => Sys2Proof.Machine.execInprg s
  | .csv => Sys2Proof.Machine.execCsv s
  | .cret => Sys2Proof.Machine.execCret s
  | .sys number => Sys2Proof.Machine.execSys number s
  | .clr dd => Sys2Proof.Machine.execClr dd s
  | .clrb dd => Sys2Proof.Machine.execClrb dd s
  | .com dd => Sys2Proof.Machine.execCom dd s
  | .comb dd => Sys2Proof.Machine.execComb dd s
  | .inc dd => Sys2Proof.Machine.execInc dd s
  | .incb dd => Sys2Proof.Machine.execIncb dd s
  | .dec dd => Sys2Proof.Machine.execDec dd s
  | .decb dd => Sys2Proof.Machine.execDecb dd s
  | .neg dd => Sys2Proof.Machine.execNeg dd s
  | .negb dd => Sys2Proof.Machine.execNegb dd s
  | .adc dd => Sys2Proof.Machine.execAdc dd s
  | .adcb dd => Sys2Proof.Machine.execAdcb dd s
  | .sbc dd => Sys2Proof.Machine.execSbc dd s
  | .sbcb dd => Sys2Proof.Machine.execSbcb dd s
  | .tst dd => Sys2Proof.Machine.execTst dd s
  | .tstb dd => Sys2Proof.Machine.execTstb dd s
  | .ror dd => Sys2Proof.Machine.execRor dd s
  | .rorb dd => Sys2Proof.Machine.execRorb dd s
  | .rol dd => Sys2Proof.Machine.execRol dd s
  | .rolb dd => Sys2Proof.Machine.execRolb dd s
  | .asr dd => Sys2Proof.Machine.execAsr dd s
  | .asrb dd => Sys2Proof.Machine.execAsrb dd s
  | .asl dd => Sys2Proof.Machine.execAsl dd s
  | .aslb dd => Sys2Proof.Machine.execAslb dd s
  | .sxt dd => Sys2Proof.Machine.execSxt dd s
  | .swab dd => Sys2Proof.Machine.execSwab dd s
  | .jmp dd => Sys2Proof.Machine.execJmp dd s
  | .ash r ss => Sys2Proof.Machine.execAsh r ss s
  | .ashc r ss => Sys2Proof.Machine.execAshc r ss s
  | .mul r ss => Sys2Proof.Machine.execMul r ss s
  | .div r ss => Sys2Proof.Machine.execDiv r ss s
  | .xor r dd => Sys2Proof.Machine.execXor r dd s
  | .jsr r dd => Sys2Proof.Machine.execJsr r dd s
  | .mov ss dd => Sys2Proof.Machine.execMov ss dd s
  | .movb ss dd => Sys2Proof.Machine.execMovb ss dd s
  | .cmp ss dd => Sys2Proof.Machine.execCmp ss dd s
  | .cmpb ss dd => Sys2Proof.Machine.execCmpb ss dd s
  | .bit ss dd => Sys2Proof.Machine.execBit ss dd s
  | .bitb ss dd => Sys2Proof.Machine.execBitb ss dd s
  | .bic ss dd => Sys2Proof.Machine.execBic ss dd s
  | .bicb ss dd => Sys2Proof.Machine.execBicb ss dd s
  | .bis ss dd => Sys2Proof.Machine.execBis ss dd s
  | .bisb ss dd => Sys2Proof.Machine.execBisb ss dd s
  | .add ss dd => Sys2Proof.Machine.execAdd ss dd s
  | .sub ss dd => Sys2Proof.Machine.execSub ss dd s
  | .br offset => Sys2Proof.Machine.execBr offset s
  | .bne offset => Sys2Proof.Machine.execBne offset s
  | .beq offset => Sys2Proof.Machine.execBeq offset s
  | .bge offset => Sys2Proof.Machine.execBge offset s
  | .blt offset => Sys2Proof.Machine.execBlt offset s
  | .bgt offset => Sys2Proof.Machine.execBgt offset s
  | .ble offset => Sys2Proof.Machine.execBle offset s
  | .bpl offset => Sys2Proof.Machine.execBpl offset s
  | .bmi offset => Sys2Proof.Machine.execBmi offset s
  | .bhi offset => Sys2Proof.Machine.execBhi offset s
  | .blos offset => Sys2Proof.Machine.execBlos offset s
  | .bvc offset => Sys2Proof.Machine.execBvc offset s
  | .bvs offset => Sys2Proof.Machine.execBvs offset s
  | .bcc offset => Sys2Proof.Machine.execBcc offset s
  | .bcs offset => Sys2Proof.Machine.execBcs offset s
  | .bhis offset => Sys2Proof.Machine.execBhis offset s
  | .blo offset => Sys2Proof.Machine.execBlo offset s
  | .sob r offset => Sys2Proof.Machine.execSob r offset s
  | .rts r => Sys2Proof.Machine.execRts r s
  | .mark nn => Sys2Proof.Machine.execMark nn s
  | .ccop set n z v c => Sys2Proof.Machine.execCcop set n z v c s
  | .nop => Sys2Proof.Machine.execNop s
  | .clc => Sys2Proof.Machine.execClc s
  | .clv => Sys2Proof.Machine.execClv s
  | .clz => Sys2Proof.Machine.execClz s
  | .cln => Sys2Proof.Machine.execCln s
  | .ccc => Sys2Proof.Machine.execCcc s
  | .sec => Sys2Proof.Machine.execSec s
  | .sev => Sys2Proof.Machine.execSev s
  | .sez => Sys2Proof.Machine.execSez s
  | .sen => Sys2Proof.Machine.execSen s
  | .scc => Sys2Proof.Machine.execScc s

end Sys2Proof.Machine
end

