-- ==== Sys2Proof/Machine/Fetch.lean ====
section
/-! DEFINITION. Fetching and decoding the instruction at PC, and one cycle of the machine
(60_exceptions.md R390). -/

namespace Sys2Proof.Machine

/-- The Program trap of a word that is no instruction (30_encoding.md R135, R136). -/
def rejectTrap : Reject → Trap
  | .illegalOpcode => .program .illegalOpcode
  | .unsupported => .program .unsupported
  | .truncated => .program .illegalOpcode

/-- The instruction at PC: its first word is fetched and decoded (R335 steps 1 to 3). -/
def State.fetch (s : State) : Except Abort Instr :=
  match fetchWord s with
  | .error a => .error a
  | .ok (w, t) =>
    match decode s.cfg.unsupported (bytesOfWord w) with
    | .ok (i, _) => .ok i
    | .error r => .error (.trap (rejectTrap r) t.draw)

/-- One instruction, or the trap that there is none (R390). -/
def State.runInstruction (s : State) : Host.Outcome State Fault Refusal :=
  match s.fetch with
  | .ok i => exec i s
  | .error a => .next (s.abandon a)

/-- What follows an instruction in its step. -/
def finishStep : Host.Outcome State Fault Refusal → Host.Outcome State Fault Refusal
  | .next s => .next s.endStep
  | .fault f => .fault f
  | .refused r => .refused r

/-- One step of a running machine, after the controllers have had their share (R390). -/
def State.cpuStep (s : State) : Host.Outcome State Fault Refusal :=
  match s.selectSource with
  | some src => .next (s.interrupt src).tick
  | none =>
    if s.cpu.ps1.w then .next s.waitStep
    else
      let t := s.consoleCheck
      match t.run with
      | .stopped _ => .next t
      | .running => finishStep t.runInstruction

/-- The operator sees the machine as a step leaves it (R423). -/
def shown : Host.Outcome State Fault Refusal → Host.Outcome State Fault Refusal
  | .next s => .next s.refresh
  | .fault f => .fault f
  | .refused r => .refused r

/-- One step of the machine (R390). A stopped machine stands still (R410). -/
def State.cycle (s : State) : Host.Outcome State Fault Refusal :=
  match s.run with
  | .stopped _ => .next s
  | .running => shown s.pollDevices.cpuStep

/-! ### Placing an instruction where it is fetched -/

/-- The physical address the CPU reads an instruction word at a given address from. -/
def State.fetchAddr (s : State) (va : Word) : Option Nat :=
  let pa : Option Nat :=
    if s.cpu.ps1.m then
      match walk s (some .execute) va with
      | .ok (_, pd) => some (frameAddr s.cfg.pdLayout pd va).toNat
      | .error _ => none
    else some va.toNat
  pa.bind (fun a => if a + 1 < s.cfg.memsize then some a else none)

/-- Puts a word where it is fetched from. -/
def State.placeWord (s : State) (va w : Word) : State :=
  match s.fetchAddr va with
  | none => s
  | some pa => { s with mem := s.mem.writeWord pa w }

/-- Puts an instruction of one word, and two extension words of zeros after it, at PC. -/
def State.placeInstruction (s : State) (w : Word) : State :=
  ((s.placeWord s.cpu.pc w).placeWord (s.cpu.pc + 2) 0).placeWord (s.cpu.pc + 4) 0

/-- The machine ready to execute the instruction at PC in its next step: running, as after `run` from a stop
before that instruction, with no ^C, not waiting, and all interrupts masked. -/
def State.ready (s : State) : State :=
  { s with
    run := .running
    console := { s.console with resume := some { addr := s.cpu.pc, passes := true }, stopReq := false }
    cpu := { s.cpu with ps1 := { s.cpu.ps1 with w := false, intmask := 0xFF#8 } } }

end Sys2Proof.Machine
end

