-- ==== Sys2Proof/Machine/Step.lean ====
section
/-! DEFINITION. One step of the machine, and the word that a step will execute. -/

namespace Sys2Proof.Machine

/-- One step (60_exceptions.md R390). It faults in a configuration that no CHIP machine has (D9, R7; log
entry 15). -/
def step (s : State) : Host.Outcome State Fault Refusal :=
  if s.cfg.wf then s.cycle else .fault .badConfiguration

/-- The machine with the instruction whose low `nbits` bits are `w`, and zeros after it, where the next
step fetches its instruction (log entry 14). -/
def State.withFetchWord (s : State) (nbits w : Nat) : State :=
  (s.ready).placeInstruction (BitVec.ofNat 16 (w % 2 ^ nbits))

end Sys2Proof.Machine
end

