-- ==== Sys2Proof/Safety.lean ====
section
/-! DEFINITION. The terms claims are made in: what a step leaves unchanged, how an instruction can end,
the invariant of the machine. -/

namespace Sys2Proof.Machine

/-! ### What stays -/

/-- A transfer into memory is going on, and the byte at the physical address `a` is in its buffer (R112). -/
def State.arriving (s : State) (a : Nat) : Prop :=
  ∃ (d : Dev) (op : DevOp), s.io.ctl[d.slot].busy = some op ∧ op.begun = true ∧
    (d.opKind op.code = some .sectorRead ∨ d.opKind op.code = some .lineRead) ∧
    op.buf.toNat ≤ a ∧ a < op.buf.toNat + s.transferLength d op

/-- A controller but for the bytes its transfer has moved. -/
def DevCtl.unmoved (c : DevCtl) : DevCtl := { c with busy := c.busy.map (fun op => { op with moved := [] }) }

/-- Everything is as before but the general registers, the condition codes, memory and the device
controllers: no other instruction can change more than these, but for those that load or store a special
register (R198). While a transfer is going on, the controllers may put bytes on the media meanwhile, and
counting the instants moves the index of the free values (R107, R112); no transfer begins. -/
structure SystemKept (s t : State) : Prop where
  cfg : t.cfg = s.cfg
  ps1 : t.cpu.ps1 = { s.cpu.ps1 with cc := t.cpu.ps1.cc }
  ps2 : t.cpu.ps2 = s.cpu.ps2
  sta : t.cpu.sta = s.cpu.sta
  stl : t.cpu.stl = s.cpu.stl
  tdck : t.tdck = s.tdck
  it : t.it = s.it
  clockReq : t.clockReq = s.clockReq
  terms : t.io.terms = s.io.terms
  prints : t.io.prints = s.io.prints
  heads : ∀ i : Fin 4, t.io.disks[i].head = s.io.disks[i].head
  run : t.run = s.run
  console : t.console = s.console
  still : t.still = s.still
  since : t.since = s.since
  draw : s.draw ≤ t.draw
  arriving : ∀ a, t.arriving a → s.arriving a
  quiet : s.quiet = true →
    t.quiet = true ∧ t.io.disks = s.io.disks ∧ t.io.drums = s.io.drums ∧ t.draw = s.draw

/-- Every general register but PC and those named is as before. -/
def RegsKept (changed : List Reg) (s t : State) : Prop :=
  ∀ r, r ≠ .pc → r ∉ changed → t.reg r = s.reg r

/-- The registers that evaluating a specifier changes besides PC: the one its mode steps (R155 to
R158). -/
def steppedRegs (o : Operand) : List Reg := if modeSteps o.mode then [o.reg] else []

/-- The registers that writing to a specifier's place changes besides. -/
def destRegs (o : Operand) : List Reg := if o.mode = .register then [o.reg] else steppedRegs o

/-- A word that mapping may have marked as a page descriptor: R set, or R and M (R96). -/
def Marked (l : PdLayout) (old new : Word) : Prop :=
  new = old ∨ new = pdMark l false old ∨ new = pdMark l true old

/-- Memory is as before outside the given addresses and the buffers of the transfers into memory that are
going on (R107, R112): byte for byte with mapping off; with mapping on, an aligned word outside them may have
been marked as a page descriptor (R96). -/
def MemKept (outside : Nat → Prop) (s t : State) : Prop :=
  (s.cpu.ps1.m = false → ∀ a, outside a → ¬ s.arriving a → t.mem.read a = s.mem.read a) ∧
  ∀ a, a % 2 = 0 → outside a → outside (a + 1) → ¬ s.arriving a → ¬ s.arriving (a + 1) →
    Marked s.cfg.pdLayout (s.mem.readWord a) (t.mem.readWord a)

/-! ### How an instruction ends -/

/-- The ends of an instruction: it completes as `P` says; or a trap undoes it, taken from the state before
it; or it completes and the Stack Limit Yellow trap follows; or a suspect stopped the machine before it
(R318, R330, R413). Of an instruction that is undone there stays what the controllers moved meanwhile, which
is nothing where no transfer was going on. -/
def Ends (P : State → Prop) (s t : State) : Prop :=
  P t ∨ (∃ trap draw, t = (s.meanwhile draw).takeTrap trap) ∨
    (∃ u, P u ∧ t = u.takeTrap (.program .stackYellow)) ∨
    ∃ draw, t = (s.meanwhile draw).stopAt .susp true

/-- The stack limit check finds nothing at the end of an instruction that leaves `t` (R330 to R332). -/
def StackClear (role : StackRole) (s t : State) : Prop :=
  stackChecked t.cfg.stackPolicy role s.cpu.sp t.cpu.sp = true →
    t.cpu.stl.toNat + 16 < t.cpu.sp.toNat

/-- The first word of the instruction is fetched, which leaves `s1` (R151). -/
def Fetches (s s1 : State) : Prop := ∃ w, fetchWord s = .ok (w, s1)

/-- The instruction is fetched, its specifier selects `loc`, and `loc` holds `old`, which leaves `s'`
(R220). -/
def ReadsDest (size : Size) (o : Operand) (loc : Loc) (old : BitVec size.bits) (s s' : State) : Prop :=
  ∃ s1 s2, Fetches s s1 ∧ operand size o s1 = .ok (loc, s2) ∧ readLoc size loc s2 = .ok (old, s')

/-- The instruction is fetched and its specifier selects `loc`, which is not read (R200). -/
def SelectsDest (size : Size) (o : Operand) (loc : Loc) (s s' : State) : Prop :=
  ∃ s1, Fetches s s1 ∧ operand size o s1 = .ok (loc, s')

/-- The instruction is fetched and its source operand has the value `src` (R166). -/
def ReadsSource (o : Operand) (src : Word) (s s' : State) : Prop :=
  ∃ s1, Fetches s s1 ∧ sourceValue .word o s1 = .ok (src, s')

/-- The instruction is fetched, its source has the value `src`, and its destination is `loc`, which is not
read (R166, R230). -/
def SourceAndDest (size : Size) (ss dd : Operand) (src : BitVec size.bits) (loc : Loc) (s s' : State) :
    Prop :=
  ∃ s1, Fetches s s1 ∧ sourceThenDest size ss dd s1 = .ok ((src, loc), s')

/-- As `SourceAndDest`, and the destination holds `dst` (R242). -/
def ReadsBoth (size : Size) (ss dd : Operand) (src dst : BitVec size.bits) (loc : Loc)
    (s s' : State) : Prop :=
  ∃ s2, SourceAndDest size ss dd src loc s s2 ∧ readLoc size loc s2 = .ok (dst, s')

/-- A write to `loc` leaves `t` (R165). -/
def Writes (size : Size) (loc : Loc) (v : BitVec size.bits) (s t : State) : Prop :=
  writeLoc size v loc s = .ok ((), t)

/-- No suspect can stop a reference (R413, R423). -/
def Unwatched (s : State) : Prop :=
  s.console.s = false ∨ s.console.passing = true ∨ s.console.suspects = []

/-- An access at a virtual address with mapping off and no transfer going on: nothing watches it, it is
aligned, and the address exists (R81 to R85). -/
structure Direct (s : State) (size : Size) (va : Word) : Prop where
  unmapped : s.cpu.ps1.m = false
  unwatched : Unwatched s
  aligned : misaligned size va = false
  exist : va.toNat < s.cfg.memsize
  quiet : s.quiet = true

/-- The first word of the instruction can be fetched with mapping off, and no transfer is going on
(R151). -/
def DirectFetch (s : State) : Prop :=
  s.cpu.ps1.m = false ∧ s.cpu.pc.getLsbD 0 = false ∧ s.cpu.pc.toNat < s.cfg.memsize ∧ s.quiet = true

/-! ### What an instruction stores to -/

/-- A write of the given size at a virtual address stores to the byte at the physical address `a`
(R85). -/
def StoresTo (size : Size) (va : Word) (s : State) (a : Nat) : Prop :=
  ∃ pa s', resolve size .write va s.race = .ok (pa, s') ∧ pa.toNat ≤ a ∧ a < pa.toNat + size.bits / 8

/-- A write to a location stores to the byte at `a`: none to a register. -/
def LocStores (size : Size) (loc : Loc) (s : State) (a : Nat) : Prop :=
  match loc with
  | .reg _ => False
  | .mem va _ => StoresTo size va s a

/-- Consecutive words written upward from an address store to the byte at `a` (R191). -/
def BlockStores (va : Word) : List Word → State → Nat → Prop
  | [], _, _ => False
  | w :: ws, s, a =>
    StoresTo .word va s a ∨ ∃ s', memWrite .word va w s = .ok ((), s') ∧ BlockStores (va + 2) ws s' a

/-- Pushing the words one after the other stores to the byte at `a` (R183). -/
def PushStores : List Word → State → Nat → Prop
  | [], _, _ => False
  | w :: ws, s, a =>
    StoresTo .word (s.cpu.sp - 2) (s.setReg .sp (s.cpu.sp - 2)) a ∨
      ∃ s', push w s = .ok ((), s') ∧ PushStores ws s' a

/-- Bytes written upward from an address store to the byte at `a`. -/
def BytesStore (va : Word) : List Byte → State → Nat → Prop
  | [], _, _ => False
  | b :: bs, s, a =>
    StoresTo .byte va s a ∨ ∃ s', memWrite .byte va b s = .ok ((), s') ∧ BytesStore (va + 1) bs s' a

/-- Moving bytes one at a time upward stores to the byte at `a` (R185). -/
def CopyStores (src dst : Word) : Nat → State → Nat → Prop
  | 0, _, _ => False
  | n + 1, s, a =>
    ∃ b s1, memRead .byte .read src s = .ok (b, s1) ∧
      (StoresTo .byte dst s1 a ∨
        ∃ s2, memWrite .byte dst b s1 = .ok ((), s2) ∧ CopyStores (src + 1) (dst + 1) n s2 a)

/-- Moving a block stores to the byte at `a`, in either order of MOVBCK (R185, D24). -/
def MoveStores (order : MovbckOrder) (src dst : Word) (n : Nat) (s : State) (a : Nat) : Prop :=
  match order with
  | .ascending => CopyStores src dst n s a
  | .asIfBuffered => ∃ bs s', readBytes src n s = .ok (bs, s') ∧ BytesStore dst bs s' a

/-- What an instruction leaves as it was: the system state (R198); the general registers but PC and those
named; the condition codes as `codes` says; every byte of memory outside those stored to, but for the marks
of mapping (R96); and, unless it stores to an Operation register (R362) or mapping is on, the device
controllers, but for the bytes that transfers going on have moved (R112). -/
structure Frame (changed : List Reg) (codes : Cc → Cc → Prop) (stored : Nat → Prop) (s t : State) :
    Prop where
  system : SystemKept s t
  regs : RegsKept changed s t
  codes : codes s.cpu.ps1.cc t.cpu.ps1.cc
  mem : MemKept (fun a => ¬ stored a) s t
  devices : s.cpu.ps1.m = false → (∀ a, stored a → Dev.operatedBy a = none) →
    (∀ k : Fin 15, (t.io.ctl[k]).unmoved = (s.io.ctl[k]).unmoved) ∧
      (s.quiet = true → t.io.ctl = s.io.ctl)

/-- The frame of an instruction that stores nothing. -/
def NoStore : Nat → Prop := fun _ => False

/-- All four codes may be written. -/
def codesAny : Cc → Cc → Prop := fun _ _ => True

/-- C is kept. -/
def codesKeepC : Cc → Cc → Prop := fun old new => new.c = old.c

/-- N and C are kept. -/
def codesKeepNC : Cc → Cc → Prop := fun old new => new.n = old.n ∧ new.c = old.c

/-- All four codes are kept. -/
def codesSame : Cc → Cc → Prop := fun old new => new = old

/-! ### Shapes of the results -/

/-- The results of a single operand instruction whose destination is read and written: `f` gives the
result and the codes from the configuration, the old value and the old codes (R220). -/
def ModifiesDest (size : Size) (i : Operand → Instr)
    (f : Config → BitVec size.bits → Cc → BitVec size.bits × Cc) : Prop :=
  ∀ dd loc old s s' t,
    ReadsDest size dd loc old s s' →
    Writes size loc (f s.cfg old s.cpu.ps1.cc).1 s' t →
    StackClear (.ordinary (writesSp dd)) s t →
    exec (i dd) s = .next (t.setCc (f s.cfg old s.cpu.ps1.cc).2)

/-- The same of a word instruction and its byte form. -/
def ModifiesBoth (word byte : Operand → Instr)
    (f : {w : Nat} → Config → BitVec w → Cc → BitVec w × Cc) : Prop :=
  ModifiesDest .word word f ∧ ModifiesDest .byte byte f

/-- The results of a single operand instruction whose destination is only written (R200, R212). -/
def OverwritesDest (size : Size) (i : Operand → Instr) (f : Cc → BitVec size.bits × Cc) : Prop :=
  ∀ dd loc s s' t,
    SelectsDest size dd loc s s' →
    Writes size loc (f s.cpu.ps1.cc).1 s' t →
    StackClear (.ordinary (writesSp dd)) s t →
    exec (i dd) s = .next (t.setCc (f s.cpu.ps1.cc).2)

/-- The results of a double operand instruction whose destination is read and written (R242). -/
def CombinesInto (size : Size) (i : Operand → Operand → Instr)
    (f : BitVec size.bits → BitVec size.bits → Cc → BitVec size.bits × Cc) : Prop :=
  ∀ ss dd src dst loc s s' t,
    ReadsBoth size ss dd src dst loc s s' →
    Writes size loc (f src dst s.cpu.ps1.cc).1 s' t →
    StackClear (.ordinary (stepsSp ss || writesSp dd)) s t →
    exec (i ss dd) s = .next (t.setCc (f src dst s.cpu.ps1.cc).2)

/-- The results of a double operand instruction whose operands are only read (R234, R240). -/
def ComparesOperands (size : Size) (i : Operand → Operand → Instr)
    (f : BitVec size.bits → BitVec size.bits → Cc → Cc) : Prop :=
  ∀ ss dd src dst loc s t,
    ReadsBoth size ss dd src dst loc s t →
    StackClear (.ordinary (stepsSp ss || stepsSp dd)) s t →
    exec (i ss dd) s = .next (t.setCc (f src dst s.cpu.ps1.cc))

/-- The result of a branch: taken when the condition holds of the codes, to the address of the next word
plus twice the signed offset (R250). -/
def BranchesWhen (i : BitVec 8 → Instr) (cond : Cc → Bool) : Prop :=
  ∀ offset s s1,
    Fetches s s1 →
    StackClear (.ordinary false) s s1 →
    exec (i offset) s = .next
      (if cond s.cpu.ps1.cc then s1.setReg .pc (s.cpu.pc + 2 + 2 * offset.signExtend 16) else s1)

/-- The result of an instruction that only changes the condition codes (R300). -/
def OnlyCodes (i : Instr) (f : Cc → Cc) : Prop :=
  ∀ s s1,
    Fetches s s1 →
    StackClear (.ordinary false) s s1 →
    exec i s = .next (s1.setCc (f s.cpu.ps1.cc))

/-! ### Tables of the spec that the statements cite

Written from the spec's own tables, apart from the definitions that the machine runs by. -/

/-- The octal ranges of first words that match no row of the Appendix and are PDP-11 instructions. -/
def unsupportedRanges : List (Nat × Nat) :=
  [(0o000001, 0o000006), (0o000230, 0o000237), (0o006500, 0o006677), (0o075000, 0o075037),
   (0o104000, 0o104377), (0o106400, 0o106777), (0o170000, 0o177777)]

/-- The octal ranges of first words that match no row of the Appendix and are no PDP-11 instructions. -/
def illegalRanges : List (Nat × Nat) :=
  [(0o000007, 0o000077), (0o000210, 0o000227), (0o007001, 0o007077), (0o007101, 0o007177),
   (0o007201, 0o007277), (0o007301, 0o007377), (0o007401, 0o007777), (0o075040, 0o076777),
   (0o107001, 0o107077), (0o107101, 0o107177), (0o107201, 0o107277), (0o107301, 0o107377),
   (0o107401, 0o107777)]

/-- The word lies in one of the ranges. -/
def inRanges (ranges : List (Nat × Nat)) (w : Word) : Bool :=
  ranges.any (fun p => decide (p.1 ≤ w.toNat) && decide (w.toNat ≤ p.2))

/-- The interrupt areas and the codes of Table 6 (derived: R341, R342). -/
def interruptTable (src : Source) : Nat × Word :=
  match src with
  | .clock => (0o600, 0o50#16)
  | .device (.terminal i) => (0o220, BitVec.ofNat 16 i.val)
  | .device (.printer i) => (0o300, BitVec.ofNat 16 (0o10 + i.val))
  | .device (.disk i) => (0o360, BitVec.ofNat 16 (0o20 + i.val))
  | .device (.drum i) => (0o440, BitVec.ofNat 16 (0o30 + i.val))

/-- The source's flag is set and its level is enabled. -/
def eligible (s : State) (src : Source) : Prop :=
  src.pending s = true ∧ s.cpu.ps1.intmask.getLsbD src.level = false

/-- The number a Program trap loads in PS2. -/
def programNumber : ProgCode → Word
  | .illegalOpcode => 0#16
  | .unsupported => 1#16
  | .privileged => 2#16
  | .illInstruction => 3#16
  | .oddAddress => 4#16
  | .nonPageAlignment => 5#16
  | .nonexistentMemory => 6#16
  | .stackYellow => 7#16
  | .stackRed => 8#16
  | .zeroDivide => 9#16

/-- The condition a Memory Management trap loads in PS2[15..8]. -/
def mmNumber : MmCode → Nat
  | .accessProtection => 0
  | .pageMissing => 1
  | .invalidPage => 2
  | .segmentMissing => 3

/-- The registers of the two halves of a pair: the register with the next number. -/
def nextReg : Reg → Reg
  | .r0 => .r1
  | .r1 => .r2
  | .r2 => .r3
  | .r3 => .r4
  | .r4 => .r5
  | .r5 => .sp
  | .sp => .pc
  | .pc => .pc

/-- The registers with even numbers. -/
def evenRegs : List Reg := [.r0, .r2, .r4, .sp]

/-- The registers with odd numbers. -/
def oddRegs : List Reg := [.r1, .r3, .r5, .pc]

/-- The codes of a shift by a signed count of an N-bit value, as R208 and R209 write them: the exact value
of a left shift decides V, the last bit shifted out is C. -/
def shiftCodes {w : Nat} (old res : BitVec w) (n : Int) : Cc :=
  { n := res.msb, z := decide (res = 0)
    v := decide (0 < n ∧ (old.toInt * 2 ^ n.toNat < -2 ^ (w - 1) ∨ 2 ^ (w - 1) ≤ old.toInt * 2 ^ n.toNat))
    c := if 0 < n then decide (n ≤ w) && old.getLsbD (w - n.toNat)
      else if n < 0 then (old.signExtend (w + 32)).getLsbD ((-n).toNat - 1) else false }

/-- The value of a shift by a signed count: times 2^n, or the floor of the value over 2^-n. -/
def shiftValue {w : Nat} (old : BitVec w) (n : Int) : BitVec w :=
  if 0 < n then BitVec.ofInt w (old.toInt * 2 ^ n.toNat) else BitVec.ofInt w (old.toInt / 2 ^ (-n).toNat)

/-- The branches. -/
def branches (offset : BitVec 8) : List Instr :=
  [.br offset, .bne offset, .beq offset, .bge offset, .blt offset, .bgt offset, .ble offset, .bpl offset,
   .bmi offset, .bhi offset, .blos offset, .bvc offset, .bvs offset, .bcc offset, .bcs offset, .bhis offset,
   .blo offset]

/-! ### The invariant -/

/-- An operation in progress that will be performed has an argument in range and a buffer within physical
memory (R366). -/
def DevOp.wf (g : Config) (d : Dev) (op : DevOp) : Bool :=
  match op.failure, d.opKind op.code with
  | none, some kind =>
    bufferValid g op.buf (kind.bufferLength g op.arg) && (kind.argumentStatus g d op.arg).isNone
  | _, _ => true

/-- Every operation in progress is of that kind. -/
def State.opsWf (s : State) : Bool :=
  Dev.all.all (fun d => (s.io.ctl[d.slot].busy).all (fun op => op.wf s.cfg d))

/-- The heads of the disks stand on tracks that exist (R370). -/
def State.headsWf (s : State) : Bool := s.io.disks.toList.all (fun d => decide (d.head ≤ s.cfg.uptrack))

/-- What every step keeps: the configuration is one of CHIP's, memory is canonical and lies below MEMSIZE,
transfers lie below MEMSIZE, and the disks' heads stand on their tracks. -/
structure State.Inv (s : State) : Prop where
  cfg : s.cfg.wf = true
  canonical : s.mem.wf = true
  bounded : s.mem.below s.cfg.memsize = true
  ops : s.opsWf = true
  heads : s.headsWf = true

end Sys2Proof.Machine
end

