-- ==== Sys2Proof/Certificates/Slice0/Obligations.lean ====
section
/-! DEFINITION. The statements for the provers. Each docstring names the rule of spec/ its statement
formalises; a statement marked derived rests on rules that the spec marks as its own inference or decision,
or on a part of a rule. Terms such as `ReadsDest`, `Frame` and `Ends` are those of Sys2Proof/Safety.lean. -/

open Sys2Proof Sys2Proof.Machine

/-! ### Encoding (30_encoding.md) -/

/-- Decoding the bytes of a well-formed instruction, whatever follows them, gives it back (derived: R120,
R127, R128). -/
def Obligations.DecodeEncode : Prop :=
  ∀ (set : List (Nat × Nat)) (i : Instr) (rest : List Byte), i.wellFormed = true →
    decode set (encodeBytes i ++ rest) = .ok (i, rest)

/-- A word that decodes is the encoding of the one instruction it decodes to, which is well-formed: each
word has one meaning (derived: R128, R132). -/
def Obligations.EncodeDecode : Prop :=
  ∀ (w : Word) (i : Instr), decodeWord w = some i → i.wellFormed = true ∧ encode i = w

/-- Words written from the bit patterns of the Appendix, one or more of each group (derived: R127). -/
def Obligations.SampleWordsDecode : Prop :=
  decodeWord 0b0000111000000000#16 = some .ldst ∧
  decodeWord 0b1000111011000000#16 = some .csv ∧
  decodeWord 0b1000100100000101#16 = some (.sys 5#8) ∧
  decodeWord 0b1000101010010111#16 = some (.incb ⟨.autoInc, .pc⟩) ∧
  decodeWord 0b0000110111001110#16 = some (.sxt ⟨.deferred, .sp⟩) ∧
  decodeWord 0b0111010001010111#16 = some (.ash .r1 ⟨.autoInc, .pc⟩) ∧
  decodeWord 0b0001010111000011#16 = some (.mov ⟨.autoInc, .pc⟩ ⟨.register, .r3⟩) ∧
  decodeWord 0b1110000001100010#16 = some (.sub ⟨.register, .r1⟩ ⟨.autoDec, .r2⟩) ∧
  decodeWord 0b0111100010101100#16 = some (.xor .r2 ⟨.autoDecDeferred, .r4⟩) ∧
  decodeWord 0b0000001011111110#16 = some (.bne 0xFE#8) ∧
  decodeWord 0b0000100111110111#16 = some (.jsr .pc ⟨.index, .pc⟩) ∧
  decodeWord 0b0111111011000011#16 = some (.sob .r3 3#6) ∧
  decodeWord 0b0000000010110011#16 = some (.ccop true false false true true) ∧
  decodeWord 0b0000000010111111#16 = some .scc

/-- Exactly the words of the ranges the map of R128 gives to no instruction are rejected; executing one is
Program trap 1 if it is a PDP-11 instruction, else Program trap 0, and changes nothing else; what the
controllers moved during the fetch stays (derived: R128, R130, R136, R318, with `UNSUPPORTED_SET` at its
default). -/
def Obligations.RejectedWordsTrap : Prop :=
  (∀ w : Word, decodeWord w = none ↔ (inRanges unsupportedRanges w || inRanges illegalRanges w) = true) ∧
  ∀ (s s1 : State) (w : Word), s.cfg.unsupported = Config.pdp11Unsupported →
    fetchWord s = .ok (w, s1) →
    (inRanges unsupportedRanges w = true →
      s.runInstruction = .next ((s.meanwhile s1.draw).takeTrap (.program .unsupported))) ∧
    (inRanges illegalRanges w = true →
      s.runInstruction = .next ((s.meanwhile s1.draw).takeTrap (.program .illegalOpcode)))

/-! ### The step (60_exceptions.md R390) -/

/-- A step runs the decoded instruction: once the controllers have had their share, if no interrupt is
taken, the CPU does not wait and the console does not stop it, the step is the instruction's meaning at
that state, then time passes, and the operator's display alone may change (derived: R390, R423). -/
def Obligations.StepRunsDecoded : Prop :=
  (∀ (s s1 : State) (w : Word) (i : Instr),
    s.cfg.wf = true → s.run = .running →
    s.pollDevices.selectSource = none → s.pollDevices.cpu.ps1.w = false →
    s.pollDevices.consoleCheck.run = .running →
    fetchWord s.pollDevices.consoleCheck = .ok (w, s1) → decodeWord w = some i →
    step s = shown (finishStep (exec i s.pollDevices.consoleCheck))) ∧
  (∀ s t : State, shown (.next s) = .next t →
    t = { s with console := { s.console with display := t.console.display } })

/-- What follows an instruction in its step: the Processor State, memory and the terminals' and disks'
contents stay; TDCK grows by the microseconds the instruction took, its value past 2^32 being a free value
(log entry 11), IT falls by them down to zero, and the clock requests an interrupt if IT reached zero; the
operations in progress are nearer their ends, and those just started have begun; a machine at pace 0 stops
(derived: R350, R351, R365, R390, R411, R430, with `IT_AFTER_ZERO` at its default `stop`). That the state is SS
only where the instruction left the machine running, so that a HALT shows Halt, is the model's reading of R195
and R410 over the listing of R390: log entry 29, DEDUCED. The microseconds
are a free value (log entry 8) but for this: over any infinite run they grow without bound, which is the last
clause, of any sequence of states whose two counters follow what the passing of time makes of them (R350,
D22). The statement holds for every value of both free values. -/
def Obligations.TimePasses : Prop :=
  (∀ (s t : State), s.cfg.itAfterZero = .stop → s.run ≠ .stopped .susp →
    finishStep (.next s) = .next t →
    t.cfg = s.cfg ∧ t.cpu = s.cpu ∧ t.mem = s.mem ∧ t.io.terms = s.io.terms ∧
    t.io.prints = s.io.prints ∧ t.io.disks = s.io.disks ∧ t.io.drums = s.io.drums ∧
    t.tdck = (if s.tdck.toNat + s.instrTime < 2 ^ 32
      then s.tdck + BitVec.ofNat 32 s.instrTime
      else Config.tdckAfterOverflow s.draw) ∧
    t.it.toNat = s.it.toNat - s.instrTime ∧
    t.clockReq = (s.clockReq || (decide (s.it ≠ 0) && decide (s.it.toNat ≤ s.instrTime))) ∧
    (∀ k : Fin 15, t.io.ctl[k] = { s.io.ctl[k] with busy := (s.io.ctl[k].busy).map (fun op =>
      { op with left := op.left - s.instrTime, begun := true }) }) ∧
    t.run = (if s.console.pace = 0 ∧ s.run = .running then .stopped .ss else s.run) ∧
    t.still = (if s.instrTime = 0 then s.still + 1 else 0) ∧
    t.since = (if s.instrTime = 0 then s.since else s.draw + 1)) ∧
  (∀ σ : Nat → State,
    (∀ k, (σ (k + 1)).still = (if (σ k).instrTime = 0 then (σ k).still + 1 else 0) ∧
      ((σ k).instrTime = 0 → (σ (k + 1)).since = (σ k).since)) →
    ∀ bound, ∃ k, bound ≤ ((List.range k).map (fun i => (σ i).instrTime)).sum)

/-! ### Interrupts and the wait state (60_exceptions.md R340 to R348) -/

/-- The source served is a pending and unmasked one, of the highest level, and among those of its level of
the lowest device number (derived: R344, D10, D39, both parameters at their defaults); none is served
exactly when none is pending and unmasked. -/
def Obligations.InterruptSelection : Prop :=
  ∀ s : State, s.cfg.priorityOrder = .highNumberFirst → s.cfg.sameLevelOrder = .lowestDeviceFirst →
    (∀ src, s.selectSource = some src ↔ eligible s src ∧
      ∀ other, eligible s other →
        other.level < src.level ∨ (other.level = src.level ∧ src.number ≤ other.number)) ∧
    (s.selectSource = none ↔ ∀ src, ¬ eligible s src)

/-- A step that takes an interrupt: the source's flag is cleared and the others stay, the Old region of its
area receives the Processor State with PS2 holding the code of Table 6, the New region is loaded, and the
rest of memory stays. The entry takes time, within which IT may reach zero and the Clock request again: the
Clock's flag is that, or what it was before where a device is served (derived: R342, R343, R347, R350 to R352,
with `W_SAVED` and `IT_AFTER_ZERO` at their defaults). -/
def Obligations.InterruptEntry : Prop :=
  ∀ (s : State) (src : Source), s.cfg.wf = true → s.mem.wf = true → s.run = .running → s.cfg.wSaved = .asIs →
    s.cfg.itAfterZero = .stop → s.pollDevices.selectSource = some src →
    ∃ t, step s = .next t ∧
      (∀ k, k < 12 → t.mem.readWord ((interruptTable src).1 + 2 * k) =
        (({ s.pollDevices.cpu with ps2 := (interruptTable src).2 } : ProcState).words
          s.cfg.ps1Layout).getD k 0) ∧
      t.cpu = ProcState.ofWords s.cfg.ps1Layout
        (fun k => s.pollDevices.mem.readWord ((interruptTable src).1 + 0o30 + 2 * k)) ∧
      (∀ a, a < (interruptTable src).1 ∨ (interruptTable src).1 + 24 ≤ a →
        t.mem.read a = s.pollDevices.mem.read a) ∧
      t.clockReq = ((decide (src ≠ .clock) && s.clockReq) ||
        (decide (s.it ≠ 0) && decide (s.it.toNat ≤ s.instrTime))) ∧
      (∀ d, src = .device d → t.io.ctl[d.slot].pending = false) ∧
      (∀ d, src ≠ .device d → t.io.ctl[d.slot].pending = s.pollDevices.io.ctl[d.slot].pending)

/-- With W set and no unmasked request the CPU executes nothing: registers and memory stay as the
controllers leave them, and the machine stops if no unmasked source can request an interrupt any more,
else it runs on (derived: R346, with `IT_AFTER_ZERO` at its default). -/
def Obligations.WaitState : Prop :=
  ∀ s : State, s.cfg.wf = true → s.run = .running → s.cfg.itAfterZero = .stop →
    s.pollDevices.selectSource = none → s.pollDevices.cpu.ps1.w = true →
    ∃ t, step s = .next t ∧ t.cpu = s.pollDevices.cpu ∧ t.mem = s.pollDevices.mem ∧
      (((s.pollDevices.it ≠ 0 ∧ s.pollDevices.cpu.ps1.intmask.getLsbD 5 = false) ∨
          ∃ d : Dev, (s.pollDevices.io.ctl[d.slot].busy).isSome = true ∧
            s.pollDevices.cpu.ps1.intmask.getLsbD d.level = false) →
        t.run = .running) ∧
      (((s.pollDevices.it = 0 ∨ s.pollDevices.cpu.ps1.intmask.getLsbD 5 = true) ∧
          ∀ d : Dev, (s.pollDevices.io.ctl[d.slot].busy).isSome = true →
            s.pollDevices.cpu.ps1.intmask.getLsbD d.level = true) →
        t.run = .stopped .wait)

/-! ### Traps (60_exceptions.md R311 to R335) -/

/-- The entry sequence: PS2 is loaded with the code, the current Processor State is stored into the Old
region of the area, a new Processor State is loaded from the New region; the rest of memory, the clocks
and the devices stay. A trap enters its category's area: a Program trap area 0 with its number in PS2, a
Memory Management trap area 060 with the condition in the high byte and va[15:9] in the low byte (derived:
R98, R311 to R316, R320 to R322). -/
def Obligations.EntrySequence : Prop :=
  (∀ (s : State) (area : Nat) (code : Word), s.mem.wf = true →
    (∀ k, k < 12 → (s.enter area code).mem.readWord (area + 2 * k) =
      (({ s.cpu with ps2 := code } : ProcState).words s.cfg.ps1Layout).getD k 0) ∧
    (s.enter area code).cpu =
      ProcState.ofWords s.cfg.ps1Layout (fun k => s.mem.readWord (area + 0o30 + 2 * k)) ∧
    (∀ a, a < area ∨ area + 24 ≤ a → (s.enter area code).mem.read a = s.mem.read a) ∧
    s.enter area code =
      { s with cpu := (s.enter area code).cpu, mem := (s.enter area code).mem }) ∧
  (∀ (s : State) trap, s.takeTrap trap = s.enter trap.area (trap.ps2 s.cfg.mmCodeLayout)) ∧
  (∀ c l, (Trap.program c).area = 0 ∧ (Trap.program c).ps2 l = programNumber c) ∧
  (∀ c va, (Trap.mm c va).area = 0o60 ∧
    ((Trap.mm c va).ps2 MmCodeLayout.default).toNat = mmNumber c * 256 + va.toNat / 512)

/-- An odd PC is Program trap 4 whatever the instruction, taken from the state before it, with what the
controllers moved before the fetch (derived: R326 a, R335 step 1, R107). -/
def Obligations.OddPcTraps : Prop :=
  ∀ (i : Instr) (s : State), s.cpu.pc.getLsbD 0 = true →
    exec i s = .next (s.race.takeTrap (.program .oddAddress)) ∧
    s.runInstruction = .next (s.race.takeTrap (.program .oddAddress))

/-- In USER mode a privileged instruction is Program trap 2, taken from the state before it: the stack is
not read and nothing else changes; what the controllers moved during the fetch stays (derived: R196, R318,
R355). -/
def Obligations.PrivilegedInUserMode : Prop :=
  ∀ (i : Instr) (s s1 : State), i ∈ [Instr.ldst, .stst, .ldit, .ldim, .ldstl, .halt] →
    s.cpu.ps1.ku = false → Fetches s s1 →
    exec i s = .next ((s.meanwhile s1.draw).takeTrap (.program .privileged))

/-- The ill-formed instructions are Program trap 3, taken from the state before them: jmp and jsr in
register mode, div with an odd register, MOVBCK of more than 512 bytes; what the controllers moved meanwhile
stays (derived: R137, R185, R236, R280, R283, R318). -/
def Obligations.IllInstructionsTrap : Prop :=
  (∀ r s s1, Fetches s s1 →
    exec (.jmp ⟨.register, r⟩) s = .next ((s.meanwhile s1.draw).takeTrap (.program .illInstruction))) ∧
  (∀ r q s s1, Fetches s s1 →
    exec (.jsr r ⟨.register, q⟩) s = .next ((s.meanwhile s1.draw).takeTrap (.program .illInstruction))) ∧
  (∀ r ss s s1, r ∈ [Reg.r1, .r3, .r5, .pc] → Fetches s s1 →
    exec (.div r ss) s = .next ((s.meanwhile s1.draw).takeTrap (.program .illInstruction))) ∧
  (∀ s s1 s2 s3 s4 src dst size, Fetches s s1 →
    memRead .word .read s1.cpu.sp s1 = .ok (src, s2) →
    memRead .word .read (s1.cpu.sp + 2) s2 = .ok (dst, s3) →
    memRead .word .read (s1.cpu.sp + 4) s3 = .ok (size, s4) →
    512 < size.toNat →
    exec .movbck s = .next ((s.meanwhile s4.draw).takeTrap (.program .illInstruction)))

/-- A word access at an odd address is Program trap 4 before any translation; with mapping off an access
at or beyond MEMSIZE is Program trap 6. An instruction whose operand is such a reference is undone, its
register step included: `mov (Rn)+,Rm` and `mov Rm,-(Rn)`; what the controllers moved up to the access stays
(derived: R66, R75, R107, R326 b, R328, R318). -/
def Obligations.OperandTraps : Prop :=
  (∀ kind va s, va.getLsbD 0 = true →
    memRead .word kind va s = .error (.trap (.program .oddAddress) s.race.draw)) ∧
  (∀ va v s, va.getLsbD 0 = true →
    memWrite .word va v s = .error (.trap (.program .oddAddress) s.race.draw)) ∧
  (∀ size kind va s, s.cpu.ps1.m = false → Unwatched s → misaligned size va = false →
    s.cfg.memsize ≤ va.toNat →
    memRead size kind va s = .error (.trap (.program .nonexistentMemory) s.race.draw)) ∧
  (∀ n m s s1, n ≠ .pc → Fetches s s1 → (s.reg n).getLsbD 0 = true →
    exec (.mov ⟨.autoInc, n⟩ ⟨.register, m⟩) s =
      .next ((s.meanwhile s1.race.draw).takeTrap (.program .oddAddress))) ∧
  (∀ n m s s1, n ≠ .pc → Fetches s s1 → (s.reg n).getLsbD 0 = true →
    exec (.mov ⟨.register, m⟩ ⟨.autoDec, n⟩) s =
      .next ((s.meanwhile s1.race.draw).takeTrap (.program .oddAddress))) ∧
  (∀ n m s s1, n ≠ .pc → Fetches s s1 → s.cpu.ps1.m = false → Unwatched s →
    (s.reg n).getLsbD 0 = false → s.cfg.memsize ≤ (s.reg n).toNat →
    exec (.mov ⟨.autoInc, n⟩ ⟨.register, m⟩) s =
      .next ((s.meanwhile s1.race.draw).takeTrap (.program .nonexistentMemory))) ∧
  (∀ n m s s1, n ≠ .pc → Fetches s s1 → s.cpu.ps1.m = false → Unwatched s →
    (s.reg n).getLsbD 0 = false → s.cfg.memsize ≤ (s.reg n - 2).toNat →
    exec (.mov ⟨.register, m⟩ ⟨.autoDec, n⟩) s =
      .next ((s.meanwhile s1.race.draw).takeTrap (.program .nonexistentMemory)))

/-- The stack limit at the push `mov Rn,-(SP)`, with `STACK_CHECK_POLICY` at its default: at or below
STL + 4 the push is undone and Program trap 8 taken; above that and at or below STL + 16 it is kept and
Program trap 7 taken after it; above that it just happens (derived: R330 to R333). -/
def Obligations.PushAtStackLimit : Prop :=
  ∀ (r : Reg) (s : State),
    r ≠ .sp → r ≠ .pc → s.cfg.stackPolicy = .lowered → DirectFetch s → 2 ≤ s.cpu.sp.toNat →
    Direct s .word (s.cpu.sp - 2) →
    let pushed := ((((s.setReg .pc (s.cpu.pc + 2)).setReg .sp (s.cpu.sp - 2)).store (s.cpu.sp - 2) .word
      (s.reg r)).setCc
        { n := (s.reg r).msb, z := decide (s.reg r = 0), v := false, c := s.cpu.ps1.cc.c })
    exec (.mov ⟨.register, r⟩ ⟨.autoDec, .sp⟩) s = .next
      (if (s.cpu.sp - 2).toNat ≤ s.cpu.stl.toNat + 4 then s.takeTrap (.program .stackRed)
       else if (s.cpu.sp - 2).toNat ≤ s.cpu.stl.toNat + 16 then pushed.takeTrap (.program .stackYellow)
       else pushed)

/-! ### Memory (20_memory.md) -/

/-- The path of an access: an instant in which the controllers may move bytes of transfers, the alignment
check, the suspects of the console, mapping if M is on, then the physical access, which exists below MEMSIZE;
a word's low byte is at its own address. The controllers change memory in the buffers of transfers into memory
that are going on alone, and nothing where none is going on; of a single sector read exactly the bytes whose
instant has come arrive, which is a free value (log entry 10; the statement holds for every value of it)
(derived: R63, R81, R82, R84, R85, R87, R105, R107, R112). -/
def Obligations.MemoryAccess : Prop :=
  (∀ size kind va s, misaligned size va = false → s.suspected size kind va = false →
    s.cpu.ps1.m = false → va.toNat < s.cfg.memsize →
    memRead size kind va s = .ok (s.race.load va size, s.race)) ∧
  (∀ size va v s, misaligned size va = false → s.suspected size .write va = false →
    s.cpu.ps1.m = false → va.toNat < s.cfg.memsize →
    memWrite size va v s = .ok ((), s.race.store va size v)) ∧
  (∀ size kind va s pa s', misaligned size va = false → s.suspected size kind va = false →
    s.cpu.ps1.m = true → translate kind va s.race = .ok (pa, s') →
    memRead size kind va s =
      (if pa.toNat < s.cfg.memsize then .ok (s'.load pa size, s')
       else .error (.trap (.program .nonexistentMemory) s'.draw))) ∧
  (∀ size kind va s e, misaligned size va = false → s.suspected size kind va = false →
    s.cpu.ps1.m = true → translate kind va s.race = .error e → memRead size kind va s = .error e) ∧
  (∀ size va v s pa s', misaligned size va = false → s.suspected size .write va = false →
    s.cpu.ps1.m = true → translate .write va s.race = .ok (pa, s') →
    memWrite size va v s =
      (if pa.toNat < s.cfg.memsize then .ok ((), s'.store pa size v)
       else .error (.trap (.program .nonexistentMemory) s'.draw))) ∧
  (∀ size va v s e, misaligned size va = false → s.suspected size .write va = false →
    s.cpu.ps1.m = true → translate .write va s.race = .error e → memWrite size va v s = .error e) ∧
  (∀ (s : State) (pa : Word), pa ≠ 0xFFFF#16 →
    s.load pa .word = s.load (pa + 1) .byte ++ s.load pa .byte) ∧
  (∀ s : State, s.quiet = true → s.race = s ∧ ∀ n, s.meanwhile n = s) ∧
  (∀ s : State, s.mem.wf = true →
    Frame [] codesSame NoStore s s.race ∧ ∀ n, Frame [] codesSame NoStore s (s.meanwhile n)) ∧
  (∀ (s : State) (d : Dev) (op : DevOp), s.mem.wf = true → s.io.ctl[d.slot].busy = some op →
    op.begun = true → op.failure = none → d.opKind op.code = some .sectorRead → op.moved = [] →
    (∀ (d' : Dev) (op' : DevOp), d' ≠ d → s.io.ctl[d'.slot].busy = some op' → op'.begun = false) →
    ∀ j, j < 512 → s.race.mem.read (op.buf.toNat + j) =
      if Config.movesNow s.draw d.slot.val j then s.sectorByte op.arg.toNat j d
      else s.mem.read (op.buf.toNat + j))

/-- The table walk with the default layouts: the tests in the order of Table 4, the faults of the walk
itself, the physical address, and R and M set in the page descriptor (derived: R92 to R97, R99). -/
def Obligations.TranslationRule : Prop :=
  ∀ (kind : Access) (va : Word) (s : State),
    s.cfg.sdLayout = SdLayout.default → s.cfg.pdLayout = PdLayout.default →
    translate kind va s =
      (let sda := s.cpu.sta + 4 * (va >>> 14)
       let page := (va >>> 9) &&& 0o37#16
       if sda.getLsbD 0 then .error (.trap (.program .oddAddress) s.draw)
       else if s.cfg.memsize ≤ sda.toNat ∨ s.cfg.memsize ≤ (sda + 2).toNat then
         .error (.trap (.program .nonexistentMemory) s.draw)
       else
         let sd1 := s.mem.readWord sda.toNat
         let pta := s.mem.readWord (sda + 2).toNat
         if sd1.getLsbD 7 = false then .error (.trap (.mm .segmentMissing va) s.draw)
         else if sd1 >>> 11 < page then .error (.trap (.mm .invalidPage va) s.draw)
         else if (match kind with
             | .read => sd1.getLsbD 8
             | .write => sd1.getLsbD 9
             | .execute => sd1.getLsbD 10) = false then .error (.trap (.mm .accessProtection va) s.draw)
         else
           let pda := pta + 2 * page
           if pda.getLsbD 0 then .error (.trap (.program .oddAddress) s.draw)
           else if s.cfg.memsize ≤ pda.toNat then .error (.trap (.program .nonexistentMemory) s.draw)
           else
             let pd := s.mem.readWord pda.toNat
             if pd.getLsbD 15 = false then .error (.trap (.mm .pageMissing va) s.draw)
             else .ok (((pd &&& 0o177#16) <<< 9) ||| (va &&& 0o777#16),
               s.store pda .word
                 (if kind = .write then pd ||| 0o60000#16 else pd ||| 0o20000#16)))

/-! ### Operands (40_operand_addressing.md) -/

/-- The eight addressing modes: the place selected, the step of the register, the extension word, and with
mapping off and no transfer going on the word read. A byte operand in a register is its low byte, and writing
one leaves the high byte; an operand in memory is read and written there. A source is evaluated, then read;
then the destination is evaluated (derived: R151 to R161, R164 to R167, with the parameters of M1 and M2 at
the spec's answers). -/
def Obligations.OperandForms : Prop :=
  (∀ (size : Size) (r : Reg) (s : State),
    let delta : Word := if size = .byte ∧ r ≠ .sp ∧ r ≠ .pc then 1 else 2
    let stream : Access := if r = .pc then .execute else .read
    let s1 := s.setReg .pc (s.cpu.pc + 2)
    let x := s.mem.readWord s.cpu.pc.toNat
    operand size ⟨.register, r⟩ s = .ok (.reg r, s) ∧
    operand size ⟨.deferred, r⟩ s = .ok (.mem (s.reg r) .read, s) ∧
    (s.cfg.immediateKind = .execute →
      operand size ⟨.autoInc, r⟩ s = .ok (.mem (s.reg r) stream, s.setReg r (s.reg r + delta))) ∧
    operand size ⟨.autoDec, r⟩ s =
      .ok (.mem (s.reg r - delta) .read, s.setReg r (s.reg r - delta)) ∧
    (Direct s .word (s.reg r) →
      operand size ⟨.autoIncDeferred, r⟩ s =
        .ok (.mem (s.mem.readWord (s.reg r).toNat) .read, s.setReg r (s.reg r + 2))) ∧
    (Direct s .word (s.reg r - 2) →
      operand size ⟨.autoDecDeferred, r⟩ s =
        .ok (.mem (s.mem.readWord (s.reg r - 2).toNat) .read, s.setReg r (s.reg r - 2))) ∧
    (DirectFetch s →
      operand size ⟨.index, r⟩ s = .ok (.mem (s1.reg r + x) .read, s1)) ∧
    (DirectFetch s → Direct s .word (s1.reg r + x) →
      operand size ⟨.indexDeferred, r⟩ s =
        .ok (.mem (s.mem.readWord (s1.reg r + x).toNat) .read, s1))) ∧
  (∀ (size : Size) (r : Reg) (s : State),
    let stream : Access := if r = .pc then .execute else .read
    (∀ p t, memRead .word stream (s.reg r) (s.setReg r (s.reg r + 2)) = .ok (p, t) →
      operand size ⟨.autoIncDeferred, r⟩ s = .ok (.mem p .read, t)) ∧
    (∀ p t, memRead .word .read (s.reg r - 2) (s.setReg r (s.reg r - 2)) = .ok (p, t) →
      operand size ⟨.autoDecDeferred, r⟩ s = .ok (.mem p .read, t)) ∧
    (∀ x t, fetchWord s = .ok (x, t) →
      operand size ⟨.index, r⟩ s = .ok (.mem (t.reg r + x) .read, t)) ∧
    (∀ x t p u, fetchWord s = .ok (x, t) → memRead .word .read (t.reg r + x) t = .ok (p, u) →
      operand size ⟨.indexDeferred, r⟩ s = .ok (.mem p .read, u))) ∧
  (∀ (s t : State) (w : Word), memRead .word .execute s.cpu.pc s = .ok (w, t) →
    fetchWord s = .ok (w, t.setReg .pc (s.cpu.pc + 2))) ∧
  (∀ size a kind (s : State), readLoc size (.mem a kind) s = memRead size kind a s) ∧
  (∀ size v a kind (s : State), writeLoc size v (.mem a kind) s = memWrite size a v s) ∧
  (∀ size o (s : State), sourceValue size o s =
    match operand size o s with
    | .error e => .error e
    | .ok (loc, s1) => readLoc size loc s1) ∧
  (∀ size ss dd (s : State), s.cfg.steppedSource = false → s.cfg.latePcSource = false →
    sourceThenDest size ss dd s =
      match operand size ss s with
      | .error e => .error e
      | .ok (sloc, s1) =>
        match readLoc size sloc s1 with
        | .error e => .error e
        | .ok (src, s2) =>
          match operand size dd s2 with
          | .error e => .error e
          | .ok (dloc, s3) => .ok ((src, dloc), s3)) ∧
  (∀ r (s : State), readLoc .word (.reg r) s = .ok (s.reg r, s)) ∧
  (∀ r (s : State), readLoc .byte (.reg r) s = .ok ((s.reg r).extractLsb' 0 8, s)) ∧
  (∀ r (s : State) (v : Word), writeLoc .word v (.reg r) s = .ok ((), s.setReg r v)) ∧
  (∀ r (s : State) (v : Byte), writeLoc .byte v (.reg r) s =
    .ok ((), s.setReg r ((s.reg r &&& 0xFF00#16) ||| v.setWidth 16))) ∧
  (∀ r q (s : State) v, (s.setReg r v).reg q = if q = r then v else s.reg q)

/-! ### Single operand instructions (43_single_operand.md) -/

/-- The results and codes of com, inc, dec, neg, adc, sbc and their byte forms: with W the width, MAXPOS is
2^(W-1) - 1, SIGN is 2^(W-1) and MASK is 2^W - 1 (derived: R201 to R203, R205, R210, R211; V of sbc by M5's
parameter). -/
def Obligations.SingleOperandArithmetic : Prop :=
  ModifiesBoth .com .comb (fun _ old _ =>
    (~~~old, { n := (~~~old).msb, z := decide (~~~old = 0), v := false, c := true })) ∧
  ModifiesBoth .inc .incb (fun {w} _ old cc =>
    (old + 1, { n := (old + 1).msb, z := decide (old + 1 = 0)
                v := decide (old.toNat = 2 ^ (w - 1) - 1), c := cc.c })) ∧
  ModifiesBoth .dec .decb (fun {w} _ old cc =>
    (old - 1, { n := (old - 1).msb, z := decide (old - 1 = 0)
                v := decide (old.toNat = 2 ^ (w - 1)), c := cc.c })) ∧
  ModifiesBoth .neg .negb (fun {w} _ old _ =>
    (0 - old, { n := (0 - old).msb, z := decide (0 - old = 0)
                v := decide ((0 - old).toNat = 2 ^ (w - 1)), c := decide (0 - old ≠ 0) })) ∧
  ModifiesBoth .adc .adcb (fun {w} _ old cc =>
    let res := if cc.c then old + 1 else old
    (res, { n := res.msb, z := decide (res = 0)
            v := decide (old.toNat = 2 ^ (w - 1) - 1 ∧ cc.c = true)
            c := decide (old.toNat = 2 ^ w - 1 ∧ cc.c = true) })) ∧
  ModifiesBoth .sbc .sbcb (fun {w} g old cc =>
    let res := if cc.c then old - 1 else old
    (res, { n := res.msb, z := decide (res = 0)
            v := decide (old.toNat = 2 ^ (w - 1) ∧ (cc.c = true ∨ g.sbcVIgnoresC = true))
            c := decide (old = 0 ∧ cc.c = true) }))

/-- The results and codes of the shifts and rotates by one place and of swab: asr is the floor of half the
signed value, the rotates go through C, V is N xor C, and swab's N and Z are those of the low byte of the
result (derived: R206, R207, R214 to R216). -/
def Obligations.ShiftsAndRotates : Prop :=
  ModifiesBoth .asr .asrb (fun {w} _ old _ =>
    let res := BitVec.ofInt w (old.toInt / 2)
    (res, { n := res.msb, z := decide (res = 0), v := res.msb ^^ old.getLsbD 0, c := old.getLsbD 0 })) ∧
  ModifiesBoth .asl .aslb (fun _ old _ =>
    let res := old + old
    (res, { n := res.msb, z := decide (res = 0), v := res.msb ^^ old.msb, c := old.msb })) ∧
  ModifiesBoth .rol .rolb (fun {w} _ old cc =>
    let res := (old.concat cc.c).setWidth w
    (res, { n := res.msb, z := decide (res = 0), v := res.msb ^^ old.msb, c := old.msb })) ∧
  ModifiesBoth .ror .rorb (fun {w} _ old cc =>
    let res := (BitVec.cons cc.c old).extractLsb' 1 w
    (res, { n := res.msb, z := decide (res = 0), v := res.msb ^^ old.getLsbD 0, c := old.getLsbD 0 })) ∧
  ModifiesDest .word .swab (fun _ old _ =>
    let res : Word := old.rotateLeft 8
    (res, { n := res.getLsbD 7, z := decide (res &&& 0o377#16 = 0), v := false, c := false }))

/-- clr and clrb store zero and do not read the destination, sxt stores N in every bit; tst and tstb only
read (derived: R200, R204, R212). -/
def Obligations.ClearSignExtendTest : Prop :=
  OverwritesDest .word .clr (fun _ => (0, { n := false, z := true, v := false, c := false })) ∧
  OverwritesDest .byte .clrb (fun _ => (0, { n := false, z := true, v := false, c := false })) ∧
  OverwritesDest .word .sxt (fun cc =>
    (if cc.n then 0o177777#16 else 0#16, { n := cc.n, z := !cc.n, v := false, c := cc.c })) ∧
  (∀ dd loc (old : Word) s t, ReadsDest .word dd loc old s t →
    StackClear (.ordinary (stepsSp dd)) s t →
    exec (.tst dd) s = .next (t.setCc
      { n := old.msb, z := decide (old = 0), v := false, c := false })) ∧
  (∀ dd loc (old : Byte) s t, ReadsDest .byte dd loc old s t →
    StackClear (.ordinary (stepsSp dd)) s t →
    exec (.tstb dd) s = .next (t.setCc
      { n := old.msb, z := decide (old = 0), v := false, c := false }))

/-- ash shifts a register by the low six bits of the source, taken as a signed count; ashc shifts a register
pair likewise; with an odd register R[r] and the codes are free values and nothing else changes (derived:
R208, R209, U3; the free values are log entry 12, and the statement holds for every value of them). -/
def Obligations.ArithmeticShifts : Prop :=
  (∀ r ss (src : Word) s s',
    ReadsSource ss src s s' →
    let n := (src.setWidth 6).toInt
    let old := s'.reg r
    let t := (s'.setReg r (shiftValue old n)).setCc (shiftCodes old (shiftValue old n) n)
    StackClear (.ordinary (stepsSp ss || decide (r = .sp))) s t →
    exec (.ash r ss) s = .next t) ∧
  (∀ r ss (src : Word) s s', r ∈ evenRegs →
    ReadsSource ss src s s' →
    let n := (src.setWidth 6).toInt
    let old : DWord := s'.reg r ++ s'.reg (nextReg r)
    let res := shiftValue old n
    let t := ((s'.setReg r (res.extractLsb' 16 16)).setReg (nextReg r) (res.extractLsb' 0 16)).setCc
      (shiftCodes old res n)
    StackClear (.ordinary (stepsSp ss || decide (r = .sp))) s t →
    exec (.ashc r ss) s = .next t) ∧
  (∀ r ss (src : Word) s s', r ∈ oddRegs →
    ReadsSource ss src s s' →
    StackClear (.ordinary (stepsSp ss)) s s' →
    ∃ v cc, exec (.ashc r ss) s = .next ((s'.setReg r v).setCc cc))

/-! ### Double operand instructions (44_double_operand.md) -/

/-- mov and movb write the source; movb to a register writes all sixteen bits, sign-extended; C is kept
(derived: R230, R231). -/
def Obligations.Moves : Prop :=
  (∀ ss dd (src : Word) loc s s' t,
    SourceAndDest .word ss dd src loc s s' → Writes .word loc src s' t →
    StackClear (.ordinary (stepsSp ss || writesSp dd)) s t →
    exec (.mov ss dd) s = .next (t.setCc
      { n := src.msb, z := decide (src = 0), v := false, c := s.cpu.ps1.cc.c })) ∧
  (∀ ss dd (src : Byte) a kind s s' t,
    SourceAndDest .byte ss dd src (.mem a kind) s s' → memWrite .byte a src s' = .ok ((), t) →
    StackClear (.ordinary (stepsSp ss || writesSp dd)) s t →
    exec (.movb ss dd) s = .next (t.setCc
      { n := src.msb, z := decide (src = 0), v := false, c := s.cpu.ps1.cc.c })) ∧
  (∀ ss dd (src : Byte) r s s',
    SourceAndDest .byte ss dd src (.reg r) s s' →
    StackClear (.ordinary (stepsSp ss || writesSp dd)) s (s'.setReg r (src.signExtend 16)) →
    exec (.movb ss dd) s = .next ((s'.setReg r (src.signExtend 16)).setCc
      { n := src.msb, z := decide (src = 0), v := false, c := s.cpu.ps1.cc.c }))

/-- cmp and cmpb set the codes from source minus destination: V is the signed overflow, C the borrow; bit
and bitb from the conjunction, C kept; nothing is written (derived: R234, R240, R245). -/
def Obligations.Compares : Prop :=
  ComparesOperands .word .cmp (fun src dst _ =>
    { n := (src - dst).msb, z := decide (src - dst = 0)
      v := decide (src.toInt - dst.toInt < -2 ^ 15 ∨ 2 ^ 15 ≤ src.toInt - dst.toInt)
      c := decide (src.toNat < dst.toNat) }) ∧
  ComparesOperands .byte .cmpb (fun src dst _ =>
    { n := (src - dst).msb, z := decide (src - dst = 0)
      v := decide (src.toInt - dst.toInt < -2 ^ 7 ∨ 2 ^ 7 ≤ src.toInt - dst.toInt)
      c := decide (src.toNat < dst.toNat) }) ∧
  ComparesOperands .word .bit (fun src dst cc =>
    { n := (src &&& dst).msb, z := decide (src &&& dst = 0), v := false, c := cc.c }) ∧
  ComparesOperands .byte .bitb (fun src dst cc =>
    { n := (src &&& dst).msb, z := decide (src &&& dst = 0), v := false, c := cc.c })

/-- bis, bic with their byte forms, and xor, whose source is a register read after its destination: N and Z
from the result, V cleared, C kept (derived: R237, R239, R241). -/
def Obligations.LogicalOperations : Prop :=
  CombinesInto .word .bis (fun src dst cc =>
    (dst ||| src, { n := (dst ||| src).msb, z := decide (dst ||| src = 0), v := false, c := cc.c })) ∧
  CombinesInto .byte .bisb (fun src dst cc =>
    (dst ||| src, { n := (dst ||| src).msb, z := decide (dst ||| src = 0), v := false, c := cc.c })) ∧
  CombinesInto .word .bic (fun src dst cc =>
    (dst &&& ~~~src,
      { n := (dst &&& ~~~src).msb, z := decide (dst &&& ~~~src = 0), v := false, c := cc.c })) ∧
  CombinesInto .byte .bicb (fun src dst cc =>
    (dst &&& ~~~src,
      { n := (dst &&& ~~~src).msb, z := decide (dst &&& ~~~src = 0), v := false, c := cc.c })) ∧
  (∀ r dd loc (dst : Word) s s' t,
    ReadsDest .word dd loc dst s s' → Writes .word loc (dst ^^^ s'.reg r) s' t →
    StackClear (.ordinary (writesSp dd)) s t →
    exec (.xor r dd) s = .next (t.setCc
      { n := (dst ^^^ s'.reg r).msb, z := decide (dst = s'.reg r), v := false, c := s.cpu.ps1.cc.c }))

/-- add and sub: V is the signed overflow, C the carry or the borrow (derived: R232, R233, R245). -/
def Obligations.AddAndSubtract : Prop :=
  CombinesInto .word .add (fun (src : Word) (dst : Word) _ =>
    (dst + src, { n := (dst + src).msb, z := decide (dst + src = 0)
                  v := decide (dst.toInt + src.toInt < -2 ^ 15 ∨ 2 ^ 15 ≤ dst.toInt + src.toInt)
                  c := decide (2 ^ 16 ≤ dst.toNat + src.toNat) })) ∧
  CombinesInto .word .sub (fun (src : Word) (dst : Word) _ =>
    (dst - src, { n := (dst - src).msb, z := decide (dst - src = 0)
                  v := decide (dst.toInt - src.toInt < -2 ^ 15 ∨ 2 ^ 15 ≤ dst.toInt - src.toInt)
                  c := decide (dst.toNat < src.toNat) }))

/-- mul: the signed product, its high word in an even register and its low word in the next, or the low
word alone in an odd one; C says that it does not fit in sixteen bits (derived: R235). -/
def Obligations.Multiply : Prop :=
  ∀ r ss (src : Word) s s',
    ReadsSource ss src s s' →
    let p := (s'.reg r).toInt * src.toInt
    let cc : Cc := { n := decide (p < 0), z := decide (p = 0), v := false
                     c := decide (p < -2 ^ 15 ∨ 2 ^ 15 ≤ p) }
    let even := ((s'.setReg r (BitVec.ofInt 16 (p / 2 ^ 16))).setReg (nextReg r)
      (BitVec.ofInt 16 p)).setCc cc
    let odd := (s'.setReg r (BitVec.ofInt 16 p)).setCc cc
    (r ∈ evenRegs → StackClear (.ordinary (stepsSp ss || decide (r = .sp))) s even →
      exec (.mul r ss) s = .next even) ∧
    (r ∈ oddRegs → StackClear (.ordinary (stepsSp ss)) s odd →
      exec (.mul r ss) s = .next odd)

/-- div with an even register: the quotient truncated toward zero and the remainder with the dividend's
sign; a quotient that does not fit sets V and clears C, leaves the registers, and N and Z are free values; a
zero divisor is Program trap 9 and undoes the instruction, but for what the controllers moved (derived: R236,
U4, with `DIV_OVERFLOW_REGS` at its default; the free values are log entry 13, and the statement holds for every
value of them). That overflow is what the listing of R236 tests, not what the sentence after it counts, is the
model's choice: log entry 46, DESIGN CHOICE. -/
def Obligations.Divide : Prop :=
  ∀ r ss (src : Word) s s', r ∈ evenRegs →
    ReadsSource ss src s s' →
    let dividend : DWord := s'.reg r ++ s'.reg (nextReg r)
    let q := dividend.toInt.tdiv src.toInt
    let t := ((s'.setReg r (BitVec.ofInt 16 q)).setReg (nextReg r)
      (BitVec.ofInt 16 (dividend.toInt.tmod src.toInt))).setCc
        { n := decide (q < 0), z := decide (q = 0), v := false, c := false }
    (src ≠ 0 → -2 ^ 15 ≤ q → q < 2 ^ 15 →
      StackClear (.ordinary (stepsSp ss || decide (r = .sp))) s t →
      exec (.div r ss) s = .next t) ∧
    (src ≠ 0 → (q < -2 ^ 15 ∨ 2 ^ 15 ≤ q) → s.cfg.divOverflowRegs = .unchanged →
      StackClear (.ordinary (stepsSp ss || decide (r = .sp))) s s' →
      ∃ n z, exec (.div r ss) s = .next (s'.setCc { n := n, z := z, v := true, c := false })) ∧
    (src = 0 → exec (.div r ss) s = .next ((s.meanwhile s'.draw).takeTrap (.program .zeroDivide)))

/-! ### Branches (45_branches.md) and condition code operators (47_condition_code_operators.md) -/

/-- Each branch is taken exactly when its condition holds of N, Z, V, C, to the address of the next word plus
twice its signed offset, and changes nothing else (derived: R250 to R268). -/
def Obligations.Branches : Prop :=
  BranchesWhen .br (fun _ => true) ∧
  BranchesWhen .bne (fun cc => !cc.z) ∧
  BranchesWhen .beq (fun cc => cc.z) ∧
  BranchesWhen .bge (fun cc => cc.n == cc.v) ∧
  BranchesWhen .blt (fun cc => cc.n != cc.v) ∧
  BranchesWhen .bgt (fun cc => !cc.z && cc.n == cc.v) ∧
  BranchesWhen .ble (fun cc => cc.z || cc.n != cc.v) ∧
  BranchesWhen .bpl (fun cc => !cc.n) ∧
  BranchesWhen .bmi (fun cc => cc.n) ∧
  BranchesWhen .bhi (fun cc => !cc.c && !cc.z) ∧
  BranchesWhen .blos (fun cc => cc.c || cc.z) ∧
  BranchesWhen .bvc (fun cc => !cc.v) ∧
  BranchesWhen .bvs (fun cc => cc.v) ∧
  BranchesWhen .bcc (fun cc => !cc.c) ∧
  BranchesWhen .bcs (fun cc => cc.c) ∧
  BranchesWhen .bhis (fun cc => !cc.c) ∧
  BranchesWhen .blo (fun cc => cc.c)

/-- The named operators that clear: their words, and that they clear the codes their names say and change
nothing else (R299, R302 to R305). -/
def Obligations.ClearingOperators : Prop :=
  (encode .clc = 0o000241#16 ∧ OnlyCodes .clc (fun cc => { cc with c := false })) ∧
  (encode .clv = 0o000242#16 ∧ OnlyCodes .clv (fun cc => { cc with v := false })) ∧
  (encode .clz = 0o000244#16 ∧ OnlyCodes .clz (fun cc => { cc with z := false })) ∧
  (encode .cln = 0o000250#16 ∧ OnlyCodes .cln (fun cc => { cc with n := false })) ∧
  (encode .ccc = 0o000257#16 ∧
    OnlyCodes .ccc (fun _ => { n := false, z := false, v := false, c := false }))

/-- The named operators that set: their words, and that they set the codes their names say and change
nothing else (R298, R306 to R309). -/
def Obligations.SettingOperators : Prop :=
  (encode .sec = 0o000261#16 ∧ OnlyCodes .sec (fun cc => { cc with c := true })) ∧
  (encode .sev = 0o000262#16 ∧ OnlyCodes .sev (fun cc => { cc with v := true })) ∧
  (encode .sez = 0o000264#16 ∧ OnlyCodes .sez (fun cc => { cc with z := true })) ∧
  (encode .sen = 0o000270#16 ∧ OnlyCodes .sen (fun cc => { cc with n := true })) ∧
  (encode .scc = 0o000277#16 ∧
    OnlyCodes .scc (fun _ => { n := true, z := true, v := true, c := true }))

/-- The general operator sets or clears the codes its mask selects, the others stay; nop changes nothing
(derived: R300, R301). -/
def Obligations.GeneralOperator : Prop :=
  (∀ set n z v c, OnlyCodes (.ccop set n z v c) (fun cc =>
    { n := (n && set) || (!n && cc.n), z := (z && set) || (!z && cc.z)
      v := (v && set) || (!v && cc.v), c := (c && set) || (!c && cc.c) })) ∧
  OnlyCodes .nop (fun cc => cc)

/-! ### Subroutines and program control (46_subroutine_and_control.md) -/

/-- jmp goes to the address its specifier selects, which is not read; sob decrements a register and branches
backward while it is not zero; jsr pushes the link register and puts the return address in it; rts undoes
that; mark takes the stack from its own place, the link from R5 and pops R5 (derived: R280 to R284, with
M3's parameter at the spec's answer). -/
def Obligations.JumpsAndSubroutines : Prop :=
  (∀ dd a kind s s', s.cfg.jumpStepFirst = false →
    SelectsDest .word dd (.mem a kind) s s' →
    StackClear (.ordinary (stepsSp dd)) s s' →
    exec (.jmp dd) s = .next (s'.setReg .pc a)) ∧
  (∀ r (offset : BitVec 6) s s1, Fetches s s1 →
    let u := s1.setReg r (s1.reg r - 1)
    StackClear (.ordinary (decide (r = .sp))) s u →
    exec (.sob r offset) s = .next
      (if u.reg r = 0 then u else u.setReg .pc (u.cpu.pc - 2 * offset.setWidth 16))) ∧
  (∀ r dd a kind s s' u, s.cfg.jumpStepFirst = false →
    SelectsDest .word dd (.mem a kind) s s' → push (s'.reg r) s' = .ok ((), u) →
    StackClear (.ordinary true) s ((u.setReg r u.cpu.pc).setReg .pc a) →
    exec (.jsr r dd) s = .next ((u.setReg r u.cpu.pc).setReg .pc a)) ∧
  (∀ r v s s1 u, Fetches s s1 → pop (s1.setReg .pc (s1.reg r)) = .ok (v, u) →
    StackClear (.ordinary true) s (u.setReg r v) →
    exec (.rts r) s = .next (u.setReg r v)) ∧
  (∀ (nn : BitVec 6) v s s1 u, Fetches s s1 →
    pop ((s1.setReg .sp (s.cpu.pc + 2 + 2 * nn.setWidth 16)).setReg .pc (s1.reg .r5)) = .ok (v, u) →
    StackClear (.ordinary true) s (u.setReg .r5 v) →
    exec (.mark nn) s = .next (u.setReg .r5 v))

/-! ### The new USER instructions (41_new_user_instructions.md) -/

/-- STCK stores one sample of TDCK in the double word the top of the stack points to, the most significant
word first; the second clause says it byte for byte with mapping off (derived: R180, R186). -/
def Obligations.StoreClock : Prop :=
  (∀ addr s s1 s2 u t, Fetches s s1 → memRead .word .read s1.cpu.sp s1 = .ok (addr, s2) →
    memWrite .word addr (s.tdck.extractLsb' 16 16) s2 = .ok ((), u) →
    memWrite .word (addr + 2) (s.tdck.extractLsb' 0 16) u = .ok ((), t) →
    StackClear (.ordinary false) s t →
    exec .stck s = .next t) ∧
  (∀ s, s.mem.wf = true → DirectFetch s → Direct s .word s.cpu.sp →
    let addr := s.mem.readWord s.cpu.sp.toNat
    Direct s .word addr → Direct s .word (addr + 2) → StackClear (.ordinary false) s s →
    ∃ t, exec .stck s = .next t ∧ t.cpu = (s.setReg .pc (s.cpu.pc + 2)).cpu ∧
      t.mem.readWord addr.toNat ++ t.mem.readWord (addr + 2).toNat = s.tdck ∧
      ∀ a, a ≠ addr.toNat → a ≠ addr.toNat + 1 → a ≠ (addr + 2).toNat → a ≠ (addr + 2).toNat + 1 →
        t.mem.read a = s.mem.read a)

/-- SYS is the SYS trap: PS2 gets the number, the state with PC at the next word goes to the Old region of
area 0140, and the New region is loaded; in either mode. INPRG exchanges the word on top of the stack with
PC; SP and the codes stay (derived: R181, R182, R186, R314, R317). -/
def Obligations.SystemCallAndInitialize : Prop :=
  (∀ (number : BitVec 8) (s s1 : State), Fetches s s1 →
    s1.cpu.pc = s.cpu.pc + 2 ∧
    exec (.sys number) s = .next (s1.enter 0o140 (number.setWidth 16))) ∧
  (∀ target s s1 s2 t, Fetches s s1 → memRead .word .read s1.cpu.sp s1 = .ok (target, s2) →
    memWrite .word s1.cpu.sp (s.cpu.pc + 2) s2 = .ok ((), t) →
    StackClear (.ordinary false) s t →
    exec .inprg s = .next (t.setReg .pc target))

/-- CSV pushes R5, points R5 at it, and pushes R4, R3, R2. With mapping off: SP is lower by 8, R5 is the old
SP less 2, and the four words hold the old R5, R4, R3, R2 (derived: R183, R186). -/
def Obligations.FunctionPrologue : Prop :=
  (∀ s s1 u1 u2 u3 t, Fetches s s1 → push s.cpu.r5 s1 = .ok ((), u1) →
    push s.cpu.r4 (u1.setReg .r5 u1.cpu.sp) = .ok ((), u2) → push s.cpu.r3 u2 = .ok ((), u3) →
    push s.cpu.r2 u3 = .ok ((), t) → StackClear (.ordinary true) s t →
    exec .csv s = .next t) ∧
  (∀ s, s.mem.wf = true → DirectFetch s → Direct s .word (s.cpu.sp - 2) → Direct s .word (s.cpu.sp - 4) →
    Direct s .word (s.cpu.sp - 6) → Direct s .word (s.cpu.sp - 8) →
    s.cpu.stl.toNat + 16 < (s.cpu.sp - 8).toNat →
    ∃ t, exec .csv s = .next t ∧
      t.cpu = { s.cpu with sp := s.cpu.sp - 8, r5 := s.cpu.sp - 2, pc := s.cpu.pc + 2 } ∧
      t.mem.readWord (s.cpu.sp - 2).toNat = s.cpu.r5 ∧
      t.mem.readWord (s.cpu.sp - 4).toNat = s.cpu.r4 ∧
      t.mem.readWord (s.cpu.sp - 6).toNat = s.cpu.r3 ∧
      t.mem.readWord (s.cpu.sp - 8).toNat = s.cpu.r2)

/-- CRET takes SP from R5 - 6 and pops R2, R3, R4, R5 and PC. With mapping off: SP is the old R5 plus 4 and
nothing but these registers changes (derived: R184, R186). -/
def Obligations.FunctionEpilogue : Prop :=
  (∀ v2 v3 v4 v5 target s s1 u2 u3 u4 u5 t, Fetches s s1 →
    pop (s1.setReg .sp (s.cpu.r5 - 6)) = .ok (v2, u2) → pop (u2.setReg .r2 v2) = .ok (v3, u3) →
    pop (u3.setReg .r3 v3) = .ok (v4, u4) → pop (u4.setReg .r4 v4) = .ok (v5, u5) →
    pop (u5.setReg .r5 v5) = .ok (target, t) → StackClear (.ordinary true) s (t.setReg .pc target) →
    exec .cret s = .next (t.setReg .pc target)) ∧
  (∀ s, DirectFetch s → Direct s .word (s.cpu.r5 - 6) → Direct s .word (s.cpu.r5 - 4) →
    Direct s .word (s.cpu.r5 - 2) → Direct s .word s.cpu.r5 → Direct s .word (s.cpu.r5 + 2) →
    s.cpu.stl.toNat + 16 < (s.cpu.r5 + 4).toNat →
    exec .cret s = .next { s with cpu := { s.cpu with
      r2 := s.mem.readWord (s.cpu.r5 - 6).toNat, r3 := s.mem.readWord (s.cpu.r5 - 4).toNat
      r4 := s.mem.readWord (s.cpu.r5 - 2).toNat, r5 := s.mem.readWord s.cpu.r5.toNat
      pc := s.mem.readWord (s.cpu.r5 + 2).toNat, sp := s.cpu.r5 + 4 } })

/-- MOVBCK moves up to 512 bytes from the address on top of the stack to the one above it. With mapping off
and `MOVBCK_ORDER` at its default: byte after byte upward, each read before the next is written; registers
and codes stay (derived: R185, R186). -/
def Obligations.MoveBlock : Prop :=
  (∀ src dst size s s1 s2 s3 s4 t, Fetches s s1 →
    memRead .word .read s1.cpu.sp s1 = .ok (src, s2) →
    memRead .word .read (s1.cpu.sp + 2) s2 = .ok (dst, s3) →
    memRead .word .read (s1.cpu.sp + 4) s3 = .ok (size, s4) → size.toNat ≤ 512 →
    moveBlock s.cfg.movbckOrder src dst size.toNat s4 = .ok ((), t) →
    StackClear (.ordinary false) s t →
    exec .movbck s = .next t) ∧
  (∀ s, s.cfg.movbckOrder = .ascending → DirectFetch s → Direct s .word s.cpu.sp →
    Direct s .word (s.cpu.sp + 2) → Direct s .word (s.cpu.sp + 4) →
    let src := s.mem.readWord s.cpu.sp.toNat
    let dst := s.mem.readWord (s.cpu.sp + 2).toNat
    let size := (s.mem.readWord (s.cpu.sp + 4).toNat).toNat
    size ≤ 512 →
    (∀ i, i < size → (src + BitVec.ofNat 16 i).toNat < s.cfg.memsize ∧
      (dst + BitVec.ofNat 16 i).toNat < s.cfg.memsize) →
    StackClear (.ordinary false) s s →
    ∃ t, exec .movbck s = .next t ∧ t.cpu = (s.setReg .pc (s.cpu.pc + 2)).cpu ∧
      t.mem = (List.range size).foldl (fun m i =>
        m.write (dst + BitVec.ofNat 16 i).toNat (m.read (src + BitVec.ofNat 16 i).toNat)) s.mem)

/-! ### The privileged instructions in KERNEL mode (42_privileged_instructions.md) -/

/-- LDST replaces the whole Processor State by the twelve words the top of the stack points to, read under
the mapping in force before it; the second clause says it with mapping off (derived: R190, R325, R34). -/
def Obligations.LoadState : Prop :=
  (∀ addr words s s1 s2 s3, s.cpu.ps1.ku = true → Fetches s s1 →
    memRead .word .read s1.cpu.sp s1 = .ok (addr, s2) → readBlock addr 12 s2 = .ok (words, s3) →
    let t : State := { s3 with cpu := ProcState.ofWords s.cfg.ps1Layout (fun k => words.getD k 0) }
    StackClear .loadsState s t →
    exec .ldst s = .next t) ∧
  (∀ s, s.cpu.ps1.ku = true → DirectFetch s → Direct s .word s.cpu.sp →
    let addr := s.mem.readWord s.cpu.sp.toNat
    (∀ k, k < 12 → Direct s .word (addr + BitVec.ofNat 16 (2 * k))) →
    let block := fun k => s.mem.readWord (addr + BitVec.ofNat 16 (2 * k)).toNat
    let t : State := { s with cpu := ProcState.ofWords s.cfg.ps1Layout block }
    StackClear .loadsState s t →
    exec .ldst s = .next t)

/-- STST stores the Processor State, PC being the address of the next word, in the twelve words the top of
the stack points to; the second clause says it with mapping off, of a block that does not wrap (derived:
R191, R197, R34). -/
def Obligations.StoreState : Prop :=
  (∀ addr s s1 s2 t, s.cpu.ps1.ku = true → Fetches s s1 →
    memRead .word .read s1.cpu.sp s1 = .ok (addr, s2) →
    writeBlock addr (({ s.cpu with pc := s.cpu.pc + 2 } : ProcState).words s.cfg.ps1Layout) s2 =
      .ok ((), t) →
    StackClear (.ordinary false) s t →
    exec .stst s = .next t) ∧
  (∀ s, s.mem.wf = true → s.cpu.ps1.ku = true → DirectFetch s → Direct s .word s.cpu.sp →
    let addr := s.mem.readWord s.cpu.sp.toNat
    addr.getLsbD 0 = false → addr.toNat + 24 ≤ s.cfg.memsize → s.cfg.memsize ≤ 2 ^ 16 →
    StackClear (.ordinary false) s s →
    ∃ t, exec .stst s = .next t ∧ t.cpu = { s.cpu with pc := s.cpu.pc + 2 } ∧
      (∀ k, k < 12 → t.mem.readWord (addr.toNat + 2 * k) =
        (t.cpu.words s.cfg.ps1Layout).getD k 0) ∧
      ∀ a, a < addr.toNat ∨ addr.toNat + 24 ≤ a → t.mem.read a = s.mem.read a)

/-- LDIT loads IT with the double word the top of the stack points to, LDIM loads INTMASK with the low byte
of the top of the stack, LDSTL loads STL with it; nothing else changes, a pending Clock request included
(derived: R192 to R194, R197). -/
def Obligations.LoadTimerMaskLimit : Prop :=
  (∀ addr hi lo s s1 s2 s3 t, s.cpu.ps1.ku = true → Fetches s s1 →
    memRead .word .read s1.cpu.sp s1 = .ok (addr, s2) → memRead .word .read addr s2 = .ok (hi, s3) →
    memRead .word .read (addr + 2) s3 = .ok (lo, t) → StackClear (.ordinary false) s t →
    exec .ldit s = .next { t with it := hi ++ lo }) ∧
  (∀ v s s1 t, s.cpu.ps1.ku = true → Fetches s s1 →
    memRead .word .read s1.cpu.sp s1 = .ok (v, t) → StackClear (.ordinary false) s t →
    let mask : BitVec 8 := v.extractLsb' 0 8
    exec .ldim s = .next
      { t with cpu := { t.cpu with ps1 := { t.cpu.ps1 with intmask := mask } } }) ∧
  (∀ v s s1 t, s.cpu.ps1.ku = true → Fetches s s1 →
    memRead .word .read s1.cpu.sp s1 = .ok (v, t) →
    StackClear (.ordinary false) s { t with cpu := { t.cpu with stl := v } } →
    exec .ldstl s = .next { t with cpu := { t.cpu with stl := v } })

/-- HALT stops the processor with PC at the next word and changes nothing else; a stopped machine's step changes
nothing, time included (derived: R195, R350, R390, R410). -/
def Obligations.HaltStops : Prop :=
  (∀ s s1, s.cpu.ps1.ku = true → Fetches s s1 → StackClear (.ordinary false) s s1 →
    s1.cpu.pc = s.cpu.pc + 2 ∧ exec .halt s = .next { s1 with run := .stopped .halt }) ∧
  (∀ (s : State) (why : StopReason), s.cfg.wf = true → s.run = .stopped why → step s = .next s)

/-! ### Frames -/

/-- What the single operand instructions leave as it was: of registers, all but the one the mode steps and
the destination; of memory, all but the bytes of the destination, which for a specifier that selects memory
are those a write at the selected address, after the operand is read, stores to; of the codes, C for inc and
dec, N and C for sxt; tst stores nothing (derived: R198, R220, R223, R96). -/
def Obligations.SingleOperandFrame : Prop :=
  ∀ (dd : Operand) (s t : State), s.mem.wf = true →
    let word := fun a => ∃ loc old u, ReadsDest .word dd loc old s u ∧ LocStores .word loc u a
    let byte := fun a => ∃ loc old u, ReadsDest .byte dd loc old s u ∧ LocStores .byte loc u a
    let wordOnly := fun a => ∃ loc u, SelectsDest .word dd loc s u ∧ LocStores .word loc u a
    let byteOnly := fun a => ∃ loc u, SelectsDest .byte dd loc s u ∧ LocStores .byte loc u a
    (∀ i ∈ [Instr.com dd, .neg dd, .adc dd, .sbc dd, .ror dd, .rol dd, .asr dd, .asl dd, .swab dd],
      exec i s = .next t → Ends (Frame (destRegs dd) codesAny word s) s t) ∧
    (∀ i ∈ [Instr.comb dd, .negb dd, .adcb dd, .sbcb dd, .rorb dd, .rolb dd, .asrb dd, .aslb dd],
      exec i s = .next t → Ends (Frame (destRegs dd) codesAny byte s) s t) ∧
    (∀ i ∈ [Instr.inc dd, .dec dd],
      exec i s = .next t → Ends (Frame (destRegs dd) codesKeepC word s) s t) ∧
    (∀ i ∈ [Instr.incb dd, .decb dd],
      exec i s = .next t → Ends (Frame (destRegs dd) codesKeepC byte s) s t) ∧
    (exec (.clr dd) s = .next t → Ends (Frame (destRegs dd) codesAny wordOnly s) s t) ∧
    (exec (.clrb dd) s = .next t → Ends (Frame (destRegs dd) codesAny byteOnly s) s t) ∧
    (exec (.sxt dd) s = .next t → Ends (Frame (destRegs dd) codesKeepNC wordOnly s) s t) ∧
    (∀ i ∈ [Instr.tst dd, .tstb dd],
      exec i s = .next t → Ends (Frame (steppedRegs dd) codesAny NoStore s) s t)

/-- What the double operand instructions leave as it was: of registers, all but those the modes step and the
destination; of memory, all but the bytes of the destination, at the address selected after the source has
been read; C but for add, sub and cmp; cmp and bit store nothing (derived: R198, R242, R245, R96). -/
def Obligations.DoubleOperandFrame : Prop :=
  ∀ (ss dd : Operand) (s t : State), s.mem.wf = true →
    let word := fun a => ∃ src dst loc u, ReadsBoth .word ss dd src dst loc s u ∧ LocStores .word loc u a
    let byte := fun a => ∃ src dst loc u, ReadsBoth .byte ss dd src dst loc s u ∧ LocStores .byte loc u a
    let wordOnly := fun a => ∃ src loc u, SourceAndDest .word ss dd src loc s u ∧ LocStores .word loc u a
    let byteOnly := fun a => ∃ src loc u, SourceAndDest .byte ss dd src loc s u ∧ LocStores .byte loc u a
    let xorStored := fun a => ∃ loc old u, ReadsDest .word dd loc old s u ∧ LocStores .word loc u a
    let regs := steppedRegs ss ++ destRegs dd
    (exec (.mov ss dd) s = .next t → Ends (Frame regs codesKeepC wordOnly s) s t) ∧
    (exec (.movb ss dd) s = .next t → Ends (Frame regs codesKeepC byteOnly s) s t) ∧
    (∀ i ∈ [Instr.bis ss dd, .bic ss dd],
      exec i s = .next t → Ends (Frame regs codesKeepC word s) s t) ∧
    (∀ i ∈ [Instr.bisb ss dd, .bicb ss dd],
      exec i s = .next t → Ends (Frame regs codesKeepC byte s) s t) ∧
    (∀ i ∈ [Instr.add ss dd, .sub ss dd],
      exec i s = .next t → Ends (Frame regs codesAny word s) s t) ∧
    (∀ i ∈ [Instr.bit ss dd, .bitb ss dd],
      exec i s = .next t → Ends (Frame (steppedRegs ss ++ steppedRegs dd) codesKeepC NoStore s) s t) ∧
    (∀ i ∈ [Instr.cmp ss dd, .cmpb ss dd],
      exec i s = .next t → Ends (Frame (steppedRegs ss ++ steppedRegs dd) codesAny NoStore s) s t) ∧
    (∀ r, exec (.xor r dd) s = .next t → Ends (Frame (destRegs dd) codesKeepC xorStored s) s t)

/-- What the register and operand instructions leave as it was: memory whole, and every register but the one
the source mode steps and the destination register or pair (derived: R198, R208, R209, R235, R236). -/
def Obligations.RegisterOperandFrame : Prop :=
  ∀ (r : Reg) (ss : Operand) (s t : State), s.mem.wf = true →
    (exec (.ash r ss) s = .next t → Ends (Frame (r :: steppedRegs ss) codesAny NoStore s) s t) ∧
    (∀ i ∈ [Instr.ashc r ss, .mul r ss, .div r ss], r ∈ evenRegs →
      exec i s = .next t → Ends (Frame (r :: nextReg r :: steppedRegs ss) codesAny NoStore s) s t) ∧
    (∀ i ∈ [Instr.ashc r ss, .mul r ss, .div r ss], r ∈ oddRegs →
      exec i s = .next t → Ends (Frame (r :: steppedRegs ss) codesAny NoStore s) s t)

/-- What control transfers and condition code operators leave as it was: the codes but for the operators,
all of memory but the word jsr and INPRG store, and every register but the link registers and SP (derived:
R186, R198, R250, R280 to R284, R300). -/
def Obligations.ControlFrame : Prop :=
  ∀ s t : State, s.mem.wf = true →
    (∀ offset, ∀ i ∈ branches offset, exec i s = .next t → Ends (Frame [] codesSame NoStore s) s t) ∧
    (∀ set n z v c, exec (.ccop set n z v c) s = .next t → Ends (Frame [] codesAny NoStore s) s t) ∧
    (∀ i ∈ [Instr.clc, .clv, .clz, .cln, .ccc, .sec, .sev, .sez, .sen, .scc],
      exec i s = .next t → Ends (Frame [] codesAny NoStore s) s t) ∧
    (exec .nop s = .next t → Ends (Frame [] codesSame NoStore s) s t) ∧
    (∀ dd, exec (.jmp dd) s = .next t → Ends (Frame (steppedRegs dd) codesSame NoStore s) s t) ∧
    (∀ r offset, exec (.sob r offset) s = .next t → Ends (Frame [r] codesSame NoStore s) s t) ∧
    (∀ r, exec (.rts r) s = .next t → Ends (Frame [r, .sp] codesSame NoStore s) s t) ∧
    (∀ nn, exec (.mark nn) s = .next t → Ends (Frame [.r5, .sp] codesSame NoStore s) s t) ∧
    (∀ r dd, exec (.jsr r dd) s = .next t →
      Ends (Frame (r :: .sp :: steppedRegs dd) codesSame
        (fun a => ∃ loc u, SelectsDest .word dd loc s u ∧ PushStores [u.reg r] u a) s) s t) ∧
    (exec .inprg s = .next t →
      Ends (Frame [] codesSame
        (fun a => ∃ s1 v u, Fetches s s1 ∧ memRead .word .read s1.cpu.sp s1 = .ok (v, u) ∧
          StoresTo .word s1.cpu.sp u a) s) s t)

/-- What the instructions that store blocks, and CRET, leave as it was: the codes, every register but those
CSV and CRET name, and every byte of memory but those they store to (derived: R180, R183 to R186, R191,
R198). -/
def Obligations.BlockFrame : Prop :=
  ∀ s t : State, s.mem.wf = true →
    (exec .stck s = .next t →
      Ends (Frame [] codesSame
        (fun a => ∃ s1 addr u, Fetches s s1 ∧ memRead .word .read s1.cpu.sp s1 = .ok (addr, u) ∧
          BlockStores addr [s.tdck.extractLsb' 16 16, s.tdck.extractLsb' 0 16] u a) s) s t) ∧
    (exec .stst s = .next t →
      Ends (Frame [] codesSame
        (fun a => ∃ s1 addr u, Fetches s s1 ∧ memRead .word .read s1.cpu.sp s1 = .ok (addr, u) ∧
          BlockStores addr (u.cpu.words s.cfg.ps1Layout) u a) s) s t) ∧
    (exec .csv s = .next t →
      Ends (Frame [.r5, .sp] codesSame
        (fun a => ∃ s1, Fetches s s1 ∧
          PushStores [s.cpu.r5, s.cpu.r4, s.cpu.r3, s.cpu.r2] s1 a) s) s t) ∧
    (exec .cret s = .next t →
      Ends (Frame [.r2, .r3, .r4, .r5, .sp] codesSame NoStore s) s t) ∧
    (exec .movbck s = .next t →
      Ends (Frame [] codesSame
        (fun a => ∃ s1 s2 s3 s4 src dst size, Fetches s s1 ∧
          memRead .word .read s1.cpu.sp s1 = .ok (src, s2) ∧
          memRead .word .read (s1.cpu.sp + 2) s2 = .ok (dst, s3) ∧
          memRead .word .read (s1.cpu.sp + 4) s3 = .ok (size, s4) ∧
          MoveStores s.cfg.movbckOrder src dst size.toNat s4 a) s) s t)

/-- What the privileged instructions that load a special register, and HALT, leave as it was: all of memory
but the marks of mapping, every general register but PC, the codes, and every part of the system state but
the one the instruction loads (derived: R192 to R195, R197, R198). -/
def Obligations.PrivilegedFrame : Prop :=
  ∀ s t : State, s.mem.wf = true →
    (exec .ldit s = .next t →
      Ends (fun u => Frame [] codesSame NoStore s { u with it := s.it }) s t) ∧
    (exec .ldim s = .next t →
      Ends (fun u => Frame [] codesSame NoStore s (u.setIntmask s.cpu.ps1.intmask)) s t) ∧
    (exec .ldstl s = .next t → Ends (fun u => Frame [] codesSame NoStore s (u.setStl s.cpu.stl)) s t) ∧
    (exec .halt s = .next t → Ends (fun u => Frame [] codesSame NoStore s { u with run := s.run }) s t) ∧
    (exec .ldst s = .next t → Ends (fun u => Frame [.r0, .r1, .r2, .r3, .r4, .r5, .sp] codesSame NoStore s
      { u with cpu := s.cpu }) s t)

/-! ### Invariants and protection -/

/-- Every step keeps the invariant: the configuration, memory in canonical form and below MEMSIZE, the
operations in progress within memory and range, the disks' heads on their tracks (derived: R60, R321, R366,
R370). -/
def Obligations.StepKeepsInvariant : Prop :=
  ∀ s t : State, s.Inv → step s = .next t → t.Inv

/-- The invariant holds after reset (derived: R40). -/
def Obligations.ResetInvariant : Prop := State.reset.Inv

/-- The values after Initial Program Load that the source states: PC, SP, STL, the masked interrupts, no
mapping, KERNEL mode, every other register zero, and the machine stopped in state IPL. In the model's
configuration MEMSIZE is the example's 020000 (log entry 1) (R40). -/
def Obligations.ResetValues : Prop :=
  State.reset.cpu.pc = 0o2000#16 ∧
  State.reset.cpu.sp.toNat = State.reset.cfg.memsize ∧
  State.reset.cpu.stl.toNat = State.reset.cfg.memsize - 512 ∧
  State.reset.cpu.ps1.intmask = 0b11111111#8 ∧
  State.reset.cpu.ps1.m = false ∧ State.reset.cpu.ps1.ku = true ∧ State.reset.cpu.ps1.w = false ∧
  State.reset.cpu.ps1.cc = { n := false, z := false, v := false, c := false } ∧
  (∀ r ∈ [Reg.r0, .r1, .r2, .r3, .r4, .r5], State.reset.reg r = 0) ∧
  State.reset.cpu.ps2 = 0 ∧ State.reset.cpu.sta = 0 ∧ State.reset.tdck = 0 ∧ State.reset.it = 0 ∧
  State.reset.run = .stopped .ipl

/-- In USER mode no instruction changes more than its registers, the condition codes, memory and what a
store to an Operation register starts: the mode, the mapping, the mask, PS2, STA, STL, IT, TDCK and the run
state stay, but for a trap or SYS (derived: R196, R198, R356). -/
def Obligations.UserModeConfined : Prop :=
  ∀ (i : Instr) (s t : State), s.cpu.ps1.ku = false → exec i s = .next t →
    Ends (fun u => SystemKept s u ∨
      ∃ number s1, i = .sys number ∧ Fetches s s1 ∧ u = s1.enter 0o140 (number.setWidth 16)) s t

/-- What software can write, in either mode: no instruction writes TDCK; KU, M, W, STA and PS2 are written
only by LDST and entries, INTMASK by those and LDIM, STL by those and LDSTL, IT only by LDIT (derived:
R198). -/
def Obligations.WhoWritesWhat : Prop :=
  ∀ (i : Instr) (s t : State), exec i s = .next t → (∀ number, i ≠ .sys number) →
    Ends (fun u =>
      u.tdck = s.tdck ∧
      (i ≠ .ldst → u.cpu.ps1.ku = s.cpu.ps1.ku ∧ u.cpu.ps1.m = s.cpu.ps1.m ∧ u.cpu.ps1.w = s.cpu.ps1.w ∧
        u.cpu.sta = s.cpu.sta ∧ u.cpu.ps2 = s.cpu.ps2) ∧
      (i ≠ .ldst → i ≠ .ldim → u.cpu.ps1.intmask = s.cpu.ps1.intmask) ∧
      (i ≠ .ldst → i ≠ .ldstl → u.cpu.stl = s.cpu.stl) ∧
      (i ≠ .ldit → u.it = s.it)) s t

/-- The only way from USER to KERNEL mode is a trap, a system call or an interrupt: a step that leaves USER
mode has entered an area from a USER state `u` of that very step. That is the state after the controllers'
share with the served source's flag cleared, the area and the code being those of the source; or the state
after the fetch of a SYS, with its number; or the state before an instruction that was undone, with what the
controllers moved meanwhile, for its trap; or the state an instruction leaves that meets the yellow zone
(derived: R198, R314, R318, R330, R347, R356). -/
def Obligations.LeavingUserMode : Prop :=
  ∀ s t : State, step s = .next t → s.cpu.ps1.ku = false → t.cpu.ps1.ku = true →
    let p := s.pollDevices
    let c := p.consoleCheck
    ∃ (u : State) (area : Nat) (code : Word),
      t.cpu = (u.enter area code).cpu ∧ t.mem = (u.enter area code).mem ∧
      u.cfg = s.cfg ∧ u.cpu.ps1.ku = false ∧
      ((∃ src, p.selectSource = some src ∧ u = (p.clearPending src).settleW ∧
          (area, code) = interruptTable src) ∨
        p.selectSource = none ∧ c.cpu = s.cpu ∧ c.mem = p.mem ∧
          ((∃ number, c.fetch = .ok (.sys number) ∧ Fetches c u ∧
              area = 0o140 ∧ code = number.setWidth 16) ∨
            (∃ trap draw, c.runInstruction = .next (u.takeTrap trap) ∧ u = c.meanwhile draw ∧
              area = trap.area ∧ code = trap.ps2 s.cfg.mmCodeLayout) ∨
            (∃ i, c.fetch = .ok i ∧ exec i c = .next (u.takeTrap (.program .stackYellow)) ∧
              SystemKept c u ∧ area = 0 ∧ code = 7)))

/-! ### Devices (60_exceptions.md R358 to R382) -/

/-- A store starts the device whose Operation word it touches: the parameters are sampled as memory stands
after the store and checked, whatever was in progress is abandoned, the operation begins at the end of the
instruction, and neither the pending request nor another device changes; a store elsewhere touches no device
(derived: R82, R360 to R363, R366, R430, D30, D40). -/
def Obligations.StoreStartsDevice : Prop :=
  ∀ (s : State) (pa : Word) (size : Size) (v : BitVec size.bits),
    misaligned size pa = false →
    (s.store pa size v).mem = (s.storeMem pa size v).mem ∧ (s.store pa size v).cpu = s.cpu ∧
    (∀ k : Fin 15, (pa.toNat = 0o1400 + 0o20 * k.val ∨ pa.toNat = 0o1401 + 0o20 * k.val) →
      ∃ op, (s.store pa size v).io.ctl[k].busy = some op ∧
        op.code = (s.store pa size v).mem.readWord (0o1400 + 0o20 * k.val) ∧
        op.arg = (s.store pa size v).mem.readWord (0o1402 + 0o20 * k.val) ∧
        op.buf = (s.store pa size v).mem.readWord (0o1404 + 0o20 * k.val) ∧
        op.failure = requestStatus s.cfg s.io (Dev.ofSlot k) s.io.ctl[k].requests op.code op.arg op.buf ∧
        op.moved = [] ∧ 0 < op.left ∧ op.begun = false ∧
        (s.store pa size v).io.ctl[k].requests = s.io.ctl[k].requests + 1 ∧
        (s.store pa size v).io.ctl[k].pending = s.io.ctl[k].pending) ∧
    (∀ k : Fin 15, pa.toNat ≠ 0o1400 + 0o20 * k.val → pa.toNat ≠ 0o1401 + 0o20 * k.val →
      (s.store pa size v).io.ctl[k] = s.io.ctl[k])

/-- The failing status of a disk's, a drum's, a printer's and a terminal's request, with
`DEVICE_CHECK_ORDER` at its default and no hardware failure: 8, then 2, then 5 or 6 or 4, then 3, then 9
(derived: R366, R367, R371, R372, R375, R378, R381). That a terminal read tests 3 before 9 is the model's choice
between two rules, the order of R366 and D37 over the listing of R382, which tests 9 first: log entry 37,
DEDUCED. -/
def Obligations.RequestChecks : Prop :=
  ∀ (g : Config) (io : Io) (n : Nat) (code arg buf : Word),
    g.deviceCheckOrder = Config.checkOrderDefault → g.hwFailures = [] →
    (∀ i : Fin 4, requestStatus g io (.disk i) n code arg buf =
      if g.ndisk ≤ i.val then some 8
      else if 2 < code.toNat then some 2
      else if code = 2 then (if g.uptrack < arg.toNat then some 5 else none)
      else if g.upsector < arg.toNat then some 6
      else if g.memsize < buf.toNat + 512 then some 3
      else none) ∧
    (∀ i : Fin 4, requestStatus g io (.drum i) n code arg buf =
      if g.ndrum ≤ i.val then some 8
      else if 1 < code.toNat then some 2
      else if g.updrumsec < arg.toNat then some 6
      else if g.memsize < buf.toNat + 512 then some 3
      else none) ∧
    (∀ i : Fin 2, requestStatus g io (.printer i) n code arg buf =
      if g.nprint ≤ i.val then some 8
      else if code ≠ 1 then some 2
      else if g.upamount < arg.toNat then some 4
      else if arg ≠ 0 ∧ g.memsize < buf.toNat + arg.toNat then some 3
      else if io.prints[i].ready = false then some 9
      else none) ∧
    (∀ i : Fin 5, requestStatus g io (.terminal i) n code arg buf =
      if g.nterm ≤ i.val then some 8
      else if 1 < code.toNat then some 2
      else if code = 1 then
        if g.upamount < arg.toNat then some 4
        else if arg ≠ 0 ∧ g.memsize < buf.toNat + arg.toNat then some 3
        else if io.terms[i].ready = false then some 9
        else none
      else if g.upamount ≠ 0 ∧ g.memsize < buf.toNat + g.upamount then some 3
      else if io.terms[i].input = none then some 9
      else none)

/-- A controller whose time has come completes: the Status register gets the status of a failing request,
and nothing is transferred; a seek moves the head and stores status 0. The request for an interrupt is made,
the operation is over, and other controllers, other disks, the other media and the CPU stay (derived: R365,
R366, R371). -/
def Obligations.DeviceCompletes : Prop :=
  (∀ (s : State) (d : Dev) (op : DevOp) (status : Nat),
    s.io.ctl[d.slot].busy = some op → op.left = 0 → op.failure = some status →
    (s.pollDevice d).mem = s.mem.writeWord d.statusAddr (BitVec.ofNat 16 status) ∧
    (s.pollDevice d).cpu = s.cpu ∧ (s.pollDevice d).io.disks = s.io.disks ∧
    (s.pollDevice d).io.drums = s.io.drums ∧ (s.pollDevice d).io.terms = s.io.terms ∧
    (s.pollDevice d).io.prints = s.io.prints ∧
    (s.pollDevice d).io.ctl[d.slot].busy = none ∧ (s.pollDevice d).io.ctl[d.slot].pending = true ∧
    ∀ k : Fin 15, k ≠ d.slot → (s.pollDevice d).io.ctl[k] = s.io.ctl[k]) ∧
  (∀ (s : State) (i : Fin 4) (op : DevOp),
    s.io.ctl[(Dev.disk i).slot].busy = some op → op.left = 0 → op.failure = none → op.code = 2 →
    (s.pollDevice (.disk i)).io.disks[i].head = op.arg.toNat ∧
    (s.pollDevice (.disk i)).io.disks[i].data = s.io.disks[i].data ∧
    (∀ j : Fin 4, j ≠ i → (s.pollDevice (.disk i)).io.disks[j] = s.io.disks[j]) ∧
    (s.pollDevice (.disk i)).mem = s.mem.writeWord (Dev.disk i).statusAddr 0 ∧
    (s.pollDevice (.disk i)).cpu = s.cpu ∧ (s.pollDevice (.disk i)).io.drums = s.io.drums ∧
    (s.pollDevice (.disk i)).io.terms = s.io.terms ∧ (s.pollDevice (.disk i)).io.prints = s.io.prints ∧
    (s.pollDevice (.disk i)).io.ctl[(Dev.disk i).slot].busy = none ∧
    (s.pollDevice (.disk i)).io.ctl[(Dev.disk i).slot].pending = true ∧
    ∀ k : Fin 15, k ≠ (Dev.disk i).slot → (s.pollDevice (.disk i)).io.ctl[k] = s.io.ctl[k])

/-- A disk read whose time has come has put the sector of the current track in the buffer, byte for byte,
and a disk write has put the buffer on the sector, whose other sectors stay; the head does not move. Status
is 0, the request for an interrupt is made and the operation is over. No byte has been moved before, and the
buffer lies apart from the disk's Status register (derived: R365, R372, R112). That a buffer over an Operation
register starts no device is the model's choice: log entry 45, DESIGN CHOICE. -/
def Obligations.SectorTransfers : Prop :=
  ∀ (s : State) (i : Fin 4) (op : DevOp), s.mem.wf = true →
    s.io.ctl[(Dev.disk i).slot].busy = some op → op.left = 0 → op.failure = none → op.moved = [] →
    (op.buf.toNat + 512 ≤ (Dev.disk i).statusAddr ∨ (Dev.disk i).statusAddr + 2 ≤ op.buf.toNat) →
    let t := s.pollDevice (.disk i)
    (op.code = 0 →
      (∀ j, j < 512 → t.mem.read (op.buf.toNat + j) = s.sectorByte op.arg.toNat j (.disk i)) ∧
      (∀ a, (a < op.buf.toNat ∨ op.buf.toNat + 512 ≤ a) → a ≠ (Dev.disk i).statusAddr →
        a ≠ (Dev.disk i).statusAddr + 1 → t.mem.read a = s.mem.read a) ∧
      t.io.disks = s.io.disks) ∧
    (op.code = 1 →
      (∀ j, j < 512 → t.sectorByte op.arg.toNat j (.disk i) = s.mem.read (op.buf.toNat + j)) ∧
      (∀ sector j, sector ≠ op.arg.toNat → j < 512 →
        t.sectorByte sector j (.disk i) = s.sectorByte sector j (.disk i)) ∧
      t.io.disks[i].head = s.io.disks[i].head ∧
      (∀ j : Fin 4, j ≠ i → t.io.disks[j] = s.io.disks[j]) ∧
      t.mem = s.mem.writeWord (Dev.disk i).statusAddr 0) ∧
    (op.code = 0 ∨ op.code = 1 →
      t.mem.readWord (Dev.disk i).statusAddr = 0 ∧ t.cpu = s.cpu ∧
      t.io.ctl[(Dev.disk i).slot].busy = none ∧ t.io.ctl[(Dev.disk i).slot].pending = true)

/-- The same of a drum's transfers, of a printed line, and of a terminal read, each with its time come and no
byte moved before. A print puts out the bytes of the buffer and a New Line; a terminal read puts the line in
the buffer, its length in the Length register and its status in the Status register, and moves the input's
position. Other controllers stay: that a buffer over an Operation register starts no device is the model's
choice, log entry 45, DESIGN CHOICE. The buffers of transfers into memory lie apart from the device's registers
(derived: R112, R365, R375, R378, R381, R382). -/
def Obligations.TransfersComplete : Prop :=
  ∀ (s : State) (d : Dev) (op : DevOp), s.mem.wf = true →
    s.io.ctl[d.slot].busy = some op → op.left = 0 → op.failure = none → op.moved = [] →
    let t := s.pollDevice d
    let line := (List.range op.arg.toNat).map (fun j => s.mem.read (op.buf.toNat + j))
    (∀ i, d = .drum i → op.code = 0 →
      (op.buf.toNat + 512 ≤ d.base ∨ d.base + 8 ≤ op.buf.toNat) →
      (∀ j, j < 512 → t.mem.read (op.buf.toNat + j) = s.sectorByte op.arg.toNat j d) ∧
      (∀ a, (a < op.buf.toNat ∨ op.buf.toNat + 512 ≤ a) → a ≠ d.statusAddr → a ≠ d.statusAddr + 1 →
        t.mem.read a = s.mem.read a) ∧
      t.io.drums = s.io.drums ∧ t.mem.readWord d.statusAddr = 0) ∧
    (∀ i, d = .drum i → op.code = 1 →
      (∀ j, j < 512 → t.sectorByte op.arg.toNat j d = s.mem.read (op.buf.toNat + j)) ∧
      (∀ sector j, sector ≠ op.arg.toNat → j < 512 → t.sectorByte sector j d = s.sectorByte sector j d) ∧
      t.mem = s.mem.writeWord d.statusAddr 0) ∧
    (∀ i, d = .printer i → op.code = 1 →
      t.io.prints[i] = { s.io.prints[i] with output := s.io.prints[i].output ++ line ++ [0o12#8] } ∧
      t.mem = s.mem.writeWord d.statusAddr 0) ∧
    (∀ i, d = .terminal i → op.code = 1 →
      t.io.terms[i] = { s.io.terms[i] with output := s.io.terms[i].output ++ line ++ [0o12#8] } ∧
      t.mem = s.mem.writeWord d.statusAddr 0) ∧
    (∀ i input, d = .terminal i → op.code = 0 → s.io.terms[i].input = some input →
      let r := lineRead s.cfg input s.io.terms[i].pos
      (op.buf.toNat + r.bytes.length ≤ d.base ∨ d.base + 8 ≤ op.buf.toNat) →
      (∀ j (h : j < r.bytes.length), t.mem.read (op.buf.toNat + j) = r.bytes[j]) ∧
      t.mem.readWord (d.base + 2) = BitVec.ofNat 16 r.bytes.length ∧
      t.mem.readWord (d.base + 6) = BitVec.ofNat 16 r.status ∧
      (∀ a, (a < op.buf.toNat ∨ op.buf.toNat + r.bytes.length ≤ a) → a / 2 ≠ d.base / 2 + 1 →
        a / 2 ≠ d.base / 2 + 3 → t.mem.read a = s.mem.read a) ∧
      t.io.terms[i] = { s.io.terms[i] with pos := r.pos }) ∧
    t.cpu = s.cpu ∧ t.io.ctl[d.slot].busy = none ∧ t.io.ctl[d.slot].pending = true ∧
    ∀ k : Fin 15, k ≠ d.slot → t.io.ctl[k] = s.io.ctl[k]

/-- One terminal read, with `TERM_LONG_LINE` and `EOI_TIMING` at their defaults: the bytes up to the first
New Line or UPAMOUNT of them; the New Line is consumed when the read reaches it; status 7 exactly when the
input is exhausted (derived: R382, D41, D42). -/
def Obligations.TerminalRead : Prop :=
  ∀ (g : Config) (input : List Byte) (pos : Nat),
    g.termLongLine = .leaveRest → g.eoiTiming = .exhaustingRead → pos ≤ input.length →
    let r := lineRead g input pos
    r.bytes.length ≤ g.upamount ∧ (0o12#8 : Byte) ∉ r.bytes ∧
    r.bytes = (input.drop pos).take r.bytes.length ∧
    (r.bytes.length = g.upamount → r.pos = pos + r.bytes.length) ∧
    (r.bytes.length < g.upamount → pos + r.bytes.length = input.length → r.pos = input.length) ∧
    (r.bytes.length < g.upamount → pos + r.bytes.length < input.length →
      input[pos + r.bytes.length]? = some 0o12#8 ∧ r.pos = pos + r.bytes.length + 1) ∧
    (r.status = 7 ↔ r.pos = input.length) ∧ (r.status = 0 ↔ r.pos < input.length)
end

