-- ==== Sys2Proof/Laws/Memory.lean ====
section
/-! SUPPORT. Laws of memory: reading after writing, and the canonical form. -/

namespace Sys2Proof.Machine

@[simp] theorem Memory.read_nil (a : Nat) : Memory.read [] a = Memory.unwritten := rfl

/-- Reading where a byte was stored gives it; every other address reads as before. -/
theorem Memory.read_write (m : Memory) (a b : Nat) (v : Byte) :
    (h : m.wf = true) → (m.write a v).read b = if b = a then v else m.read b := by
  induction m with
  | nil =>
    intro _
    by_cases hv : v = Memory.unwritten <;> by_cases hb : b = a <;> simp [Memory.write, Memory.read, hv, hb]
  | cons c rest ih =>
    obtain ⟨k, x⟩ := c
    intro h
    simp only [Memory.wf, Bool.and_eq_true, List.all_eq_true, decide_eq_true_eq] at h
    obtain ⟨⟨hx, hlt⟩, hrest⟩ := h
    have below : ∀ y, y ≤ k → Memory.read rest y = Memory.unwritten := by
      intro y hy
      cases rest with
      | nil => rfl
      | cons d rest' =>
        have := hlt d (by simp)
        rw [Memory.read, if_neg (by omega), if_pos (by omega)]
    rcases Nat.lt_trichotomy a k with hak | hak | hak
    · by_cases hv : v = Memory.unwritten
      · rw [Memory.write, if_pos hak, if_pos hv]
        by_cases hb : b = a
        · rw [if_pos hb, Memory.read, if_neg (by omega), if_pos (by omega), hv]
        · rw [if_neg hb]
      · rw [Memory.write, if_pos hak, if_neg hv, Memory.read]
        by_cases hb : b = a
        · rw [if_pos hb, if_pos hb]
        · rw [if_neg hb, if_neg hb]
          by_cases hlt' : b < a
          · rw [if_pos hlt', Memory.read, if_neg (by omega), if_pos (by omega)]
          · rw [if_neg hlt']
    · subst hak
      by_cases hv : v = Memory.unwritten
      · rw [Memory.write, if_neg (by omega), if_pos rfl, if_pos hv]
        by_cases hb : b = a
        · rw [if_pos hb, below b (by omega), hv]
        · rw [if_neg hb, Memory.read, if_neg hb]
          by_cases hlt' : b < a
          · rw [if_pos hlt', below b (by omega)]
          · rw [if_neg hlt']
      · rw [Memory.write, if_neg (by omega), if_pos rfl, if_neg hv]
        by_cases hb : b = a <;> simp [Memory.read, hb]
    · rw [Memory.write, if_neg (by omega), if_neg (by omega), Memory.read, ih hrest, Memory.read]
      by_cases hb : b = k
      · rw [if_pos hb, if_neg (by omega), if_pos hb]
      · by_cases hba : b = a
        · rw [if_neg hb, if_neg (by omega), if_pos hba, if_pos hba]
        · simp [hb, hba]

/-- A store keeps the keys' lower bound. -/
theorem Memory.write_above (m : Memory) (a : Nat) (v : Byte) (k : Nat)
    (h : ∀ c ∈ m, k < c.1) (ha : k < a) : ∀ c ∈ m.write a v, k < c.1 := by
  induction m with
  | nil => intro c hc; simp only [Memory.write] at hc; split at hc <;> simp_all
  | cons d rest ih =>
    obtain ⟨j, x⟩ := d
    have hr : ∀ c ∈ rest, k < c.1 := fun c hc => h c (by simp [hc])
    have hj : k < j := h (j, x) (by simp)
    intro c hc
    simp only [Memory.write] at hc
    split at hc
    · split at hc
      · exact h c hc
      · rcases List.mem_cons.1 hc with rfl | hc
        · exact ha
        · exact h c hc
    · split at hc
      · split at hc
        · exact hr c hc
        · rcases List.mem_cons.1 hc with rfl | hc
          · exact ha
          · exact hr c hc
      · rcases List.mem_cons.1 hc with rfl | hc
        · exact hj
        · exact ih hr c hc

/-- A store keeps the canonical form. -/
theorem Memory.write_wf (m : Memory) (a : Nat) (v : Byte) (h : m.wf = true) :
    (m.write a v).wf = true := by
  induction m with
  | nil => by_cases hv : v = Memory.unwritten <;> simp [Memory.write, Memory.wf, hv]
  | cons c rest ih =>
    obtain ⟨k, x⟩ := c
    simp only [Memory.wf, Bool.and_eq_true, List.all_eq_true, decide_eq_true_eq] at h
    obtain ⟨⟨hx, hlt⟩, hrest⟩ := h
    simp only [Memory.write]
    split
    · split
      · simp only [Memory.wf, Bool.and_eq_true, List.all_eq_true, decide_eq_true_eq]
        exact ⟨⟨hx, hlt⟩, hrest⟩
      · rename_i hak hv
        simp only [Memory.wf, Bool.and_eq_true, List.all_eq_true, decide_eq_true_eq]
        refine ⟨⟨hv, ?_⟩, ⟨hx, hlt⟩, hrest⟩
        intro d hd
        rcases List.mem_cons.1 hd with rfl | hd
        · exact hak
        · exact Nat.lt_trans hak (hlt d hd)
    · split
      · split
        · exact hrest
        · rename_i _ hak hv
          simp only [Memory.wf, Bool.and_eq_true, List.all_eq_true, decide_eq_true_eq]
          exact ⟨⟨hv, fun d hd => hak ▸ hlt d hd⟩, hrest⟩
      · rename_i h1 h2
        simp only [Memory.wf, Bool.and_eq_true, List.all_eq_true, decide_eq_true_eq]
        exact ⟨⟨hx, Memory.write_above rest a v k hlt (by omega)⟩, ih hrest⟩

/-- A store below a bound keeps memory below it. -/
theorem Memory.write_below (m : Memory) (a : Nat) (v : Byte) (n : Nat)
    (h : m.below n = true) (ha : a < n) : (m.write a v).below n = true := by
  simp only [Memory.below, List.all_eq_true, decide_eq_true_eq] at *
  induction m with
  | nil => intro c hc; simp only [Memory.write] at hc; split at hc <;> simp_all
  | cons d rest ih =>
    obtain ⟨j, x⟩ := d
    have hr : ∀ c ∈ rest, c.1 < n := fun c hc => h c (by simp [hc])
    have hj : j < n := h (j, x) (by simp)
    intro c hc
    simp only [Memory.write] at hc
    split at hc
    · split at hc
      · exact h c hc
      · rcases List.mem_cons.1 hc with rfl | hc
        · exact ha
        · exact h c hc
    · split at hc
      · split at hc
        · exact hr c hc
        · rcases List.mem_cons.1 hc with rfl | hc
          · exact ha
          · exact hr c hc
      · rcases List.mem_cons.1 hc with rfl | hc
        · exact hj
        · exact ih hr c hc

theorem Memory.writeWord_wf (m : Memory) (a : Nat) (v : Word) (h : m.wf = true) :
    (m.writeWord a v).wf = true :=
  Memory.write_wf _ _ _ (Memory.write_wf _ _ _ h)

theorem Memory.writeWord_below (m : Memory) (a : Nat) (v : Word) (n : Nat)
    (h : m.below n = true) (ha : a + 1 < n) : (m.writeWord a v).below n = true :=
  Memory.write_below _ _ _ _ (Memory.write_below _ _ _ _ h (by omega)) ha

theorem Memory.writeWords_wf (vs : List Word) : ∀ (m : Memory) (a : Nat), m.wf = true →
    (m.writeWords a vs).wf = true := by
  induction vs with
  | nil => exact fun _ _ h => h
  | cons v vs ih => exact fun m a h => ih _ _ (Memory.writeWord_wf m a v h)

theorem Memory.writeWords_below (vs : List Word) (n : Nat) : ∀ (m : Memory) (a : Nat),
    m.below n = true → a + 2 * vs.length ≤ n → (m.writeWords a vs).below n = true := by
  induction vs with
  | nil => exact fun _ _ h _ => h
  | cons v vs ih =>
    intro m a h hn
    simp only [List.length_cons] at hn
    exact ih _ _ (Memory.writeWord_below m a v n h (by omega)) (by omega)

theorem Memory.writeBytes_wf (vs : List Byte) : ∀ (m : Memory) (a : Nat), m.wf = true →
    (m.writeBytes a vs).wf = true := by
  induction vs with
  | nil => exact fun _ _ h => h
  | cons v vs ih => exact fun m a h => ih _ _ (Memory.write_wf m a v h)

/-- One byte after a word is stored. -/
theorem Memory.read_writeWord (m : Memory) (a b : Nat) (v : Word) (h : m.wf = true) :
    (m.writeWord a v).read b =
      if b = a then v.extractLsb' 0 8 else if b = a + 1 then v.extractLsb' 8 8 else m.read b := by
  rw [Memory.writeWord, Memory.read_write _ _ _ _ (Memory.write_wf _ _ _ h), Memory.read_write _ _ _ _ h]
  by_cases h1 : b = a
  · simp [h1]
  · by_cases h2 : b = a + 1 <;> simp [h2, h1]

/-- A word put together from its two bytes. -/
theorem wordOfBytes_extract (v : Word) : wordOfBytes (v.extractLsb' 0 8) (v.extractLsb' 8 8) = v := by
  apply BitVec.eq_of_getLsbD_eq
  intro i hi
  simp only [wordOfBytes, BitVec.getLsbD_append, BitVec.getLsbD_extractLsb']
  by_cases h : i < 8
  · simp [h]
  · simp [h]; grind

/-- A word read where one was stored. -/
theorem Memory.readWord_writeWord (m : Memory) (a : Nat) (v : Word) (h : m.wf = true) :
    (m.writeWord a v).readWord a = v := by
  rw [Memory.readWord, Memory.read_writeWord _ _ _ _ h, Memory.read_writeWord _ _ _ _ h]
  simp [wordOfBytes_extract]

/-- A word read apart from a stored one. -/
theorem Memory.readWord_writeWord_apart (m : Memory) (a b : Nat) (v : Word) (h : m.wf = true)
    (hab : a + 1 < b ∨ b + 1 < a) : (m.writeWord a v).readWord b = m.readWord b := by
  rw [Memory.readWord, Memory.read_writeWord _ _ _ _ h, Memory.read_writeWord _ _ _ _ h, Memory.readWord]
  rw [if_neg (by omega), if_neg (by omega), if_neg (by omega), if_neg (by omega)]

/-- A word read apart from a block of stored words. -/
theorem Memory.readWord_writeWords_apart (vs : List Word) : ∀ (m : Memory) (a b : Nat), m.wf = true →
    (a + 2 * vs.length ≤ b ∨ b + 1 < a) → (m.writeWords a vs).readWord b = m.readWord b := by
  induction vs with
  | nil => exact fun _ _ _ _ _ => rfl
  | cons v vs ih =>
    intro m a b h hab
    simp only [List.length_cons] at hab
    rw [Memory.writeWords, ih _ _ _ (Memory.writeWord_wf m a v h) (by omega),
      Memory.readWord_writeWord_apart m a b v h (by omega)]

/-- The word of index `k` of a stored block. -/
theorem Memory.readWord_writeWords (vs : List Word) : ∀ (m : Memory) (a k : Nat) (_ : m.wf = true)
    (hk : k < vs.length), (m.writeWords a vs).readWord (a + 2 * k) = vs[k] := by
  induction vs with
  | nil => intro _ _ k _ hk; simp at hk
  | cons v vs ih =>
    intro m a k h hk
    cases k with
    | zero =>
      rw [Memory.writeWords, Memory.readWord_writeWords_apart _ _ _ _ (Memory.writeWord_wf m a v h)
        (by omega)]
      exact Memory.readWord_writeWord m a v h
    | succ k =>
      have := ih (m.writeWord a v) (a + 2) k (Memory.writeWord_wf m a v h) (by simpa using hk)
      rw [Memory.writeWords, show a + 2 * (k + 1) = a + 2 + 2 * k by omega, this]
      rfl

/-- Two canonical memories that read alike are the same. -/
theorem Memory.read_unlisted (m : Memory) (a : Nat) (h : ∀ c ∈ m, c.1 ≠ a) :
    m.read a = Memory.unwritten := by
  induction m with
  | nil => rfl
  | cons c rest ih =>
    obtain ⟨k, x⟩ := c
    have hk : k ≠ a := h (k, x) (by simp)
    rw [Memory.read, if_neg (fun e => hk e.symm)]
    split
    · rfl
    · exact ih (fun c hc => h c (by simp [hc]))

/-- Nothing is stored at or beyond a bound that memory lies below. -/
theorem Memory.read_beyond (m : Memory) (n a : Nat) (h : m.below n = true) (ha : n ≤ a) :
    m.read a = Memory.unwritten := by
  apply Memory.read_unlisted
  intro c hc
  simp only [Memory.below, List.all_eq_true, decide_eq_true_eq] at h
  have := h c hc
  omega

/-- No listed byte of a canonical memory reads as an unlisted one. -/
theorem Memory.read_listed (m : Memory) (a : Nat) (b : Byte) (h : m.wf = true) (hm : (a, b) ∈ m) :
    m.read a ≠ Memory.unwritten := by
  induction m with
  | nil => cases hm
  | cons c rest ih =>
    obtain ⟨k, x⟩ := c
    simp only [Memory.wf, Bool.and_eq_true, decide_eq_true_eq, List.all_eq_true] at h
    rw [Memory.read]
    rcases List.mem_cons.1 hm with e | hr
    · obtain ⟨rfl, rfl⟩ := Prod.mk.injEq .. ▸ e
      rw [if_pos rfl]; exact h.1.1
    · have hk := h.1.2 _ hr
      rw [if_neg (by omega), if_neg (by omega)]
      exact ih h.2 hr

end Sys2Proof.Machine
end

