-- ==== Sys2Proof/Laws/State.lean ====
section
/-! SUPPORT. One lemma per field per update of State, and what the registers read after a register is
written. -/

namespace Sys2Proof.Machine

/-! ### setReg -/

@[simp] theorem State.setReg_cfg (s : State) (r : Reg) (v : Word) :
    (s.setReg r v).cfg = s.cfg := rfl

@[simp] theorem State.setReg_tdck (s : State) (r : Reg) (v : Word) :
    (s.setReg r v).tdck = s.tdck := rfl

@[simp] theorem State.setReg_it (s : State) (r : Reg) (v : Word) :
    (s.setReg r v).it = s.it := rfl

@[simp] theorem State.setReg_clockReq (s : State) (r : Reg) (v : Word) :
    (s.setReg r v).clockReq = s.clockReq := rfl

@[simp] theorem State.setReg_mem (s : State) (r : Reg) (v : Word) :
    (s.setReg r v).mem = s.mem := rfl

@[simp] theorem State.setReg_io (s : State) (r : Reg) (v : Word) :
    (s.setReg r v).io = s.io := rfl

@[simp] theorem State.setReg_run (s : State) (r : Reg) (v : Word) :
    (s.setReg r v).run = s.run := rfl

@[simp] theorem State.setReg_console (s : State) (r : Reg) (v : Word) :
    (s.setReg r v).console = s.console := rfl

@[simp] theorem State.setReg_draw (s : State) (r : Reg) (v : Word) :
    (s.setReg r v).draw = s.draw := rfl

@[simp] theorem State.setReg_still (s : State) (r : Reg) (v : Word) :
    (s.setReg r v).still = s.still := rfl

@[simp] theorem State.setReg_since (s : State) (r : Reg) (v : Word) :
    (s.setReg r v).since = s.since := rfl

@[simp] theorem State.setReg_ps1 (s : State) (r : Reg) (v : Word) :
    (s.setReg r v).cpu.ps1 = s.cpu.ps1 := by
  cases r <;> rfl

@[simp] theorem State.setReg_ps2 (s : State) (r : Reg) (v : Word) :
    (s.setReg r v).cpu.ps2 = s.cpu.ps2 := by
  cases r <;> rfl

@[simp] theorem State.setReg_sta (s : State) (r : Reg) (v : Word) :
    (s.setReg r v).cpu.sta = s.cpu.sta := by
  cases r <;> rfl

@[simp] theorem State.setReg_stl (s : State) (r : Reg) (v : Word) :
    (s.setReg r v).cpu.stl = s.cpu.stl := by
  cases r <;> rfl

@[simp] theorem ProcState.reg_setReg_same (p : ProcState) (r : Reg) (v : Word) :
    (p.setReg v r).reg r = v := by
  cases r <;> rfl

theorem ProcState.reg_setReg (p : ProcState) (r q : Reg) (v : Word) :
    (p.setReg v r).reg q = if q = r then v else p.reg q := by
  cases r <;> cases q <;> rfl

@[simp] theorem State.reg_setReg_same (s : State) (r : Reg) (v : Word) : (s.setReg r v).reg r = v :=
  ProcState.reg_setReg_same s.cpu r v

theorem State.reg_setReg (s : State) (r q : Reg) (v : Word) :
    (s.setReg r v).reg q = if q = r then v else s.reg q :=
  ProcState.reg_setReg s.cpu r q v

theorem State.reg_setReg_other (s : State) (r q : Reg) (v : Word) (h : q ≠ r) :
    (s.setReg r v).reg q = s.reg q := by
  rw [State.reg_setReg, if_neg h]

@[simp] theorem State.setReg_setReg (s : State) (r : Reg) (v w : Word) :
    (s.setReg r v).setReg r w = s.setReg r w := by
  cases r <;> rfl

@[simp] theorem State.reg_sp (s : State) : s.reg .sp = s.cpu.sp := rfl

@[simp] theorem State.reg_pc (s : State) : s.reg .pc = s.cpu.pc := rfl

/-! ### setCc -/

@[simp] theorem State.setCc_cfg (s : State) (cc : Cc) :
    (s.setCc cc).cfg = s.cfg := rfl

@[simp] theorem State.setCc_tdck (s : State) (cc : Cc) :
    (s.setCc cc).tdck = s.tdck := rfl

@[simp] theorem State.setCc_it (s : State) (cc : Cc) :
    (s.setCc cc).it = s.it := rfl

@[simp] theorem State.setCc_clockReq (s : State) (cc : Cc) :
    (s.setCc cc).clockReq = s.clockReq := rfl

@[simp] theorem State.setCc_mem (s : State) (cc : Cc) :
    (s.setCc cc).mem = s.mem := rfl

@[simp] theorem State.setCc_io (s : State) (cc : Cc) :
    (s.setCc cc).io = s.io := rfl

@[simp] theorem State.setCc_run (s : State) (cc : Cc) :
    (s.setCc cc).run = s.run := rfl

@[simp] theorem State.setCc_console (s : State) (cc : Cc) :
    (s.setCc cc).console = s.console := rfl

@[simp] theorem State.setCc_draw (s : State) (cc : Cc) :
    (s.setCc cc).draw = s.draw := rfl

@[simp] theorem State.setCc_still (s : State) (cc : Cc) :
    (s.setCc cc).still = s.still := rfl

@[simp] theorem State.setCc_since (s : State) (cc : Cc) :
    (s.setCc cc).since = s.since := rfl

@[simp] theorem State.setCc_r0 (s : State) (cc : Cc) :
    (s.setCc cc).cpu.r0 = s.cpu.r0 := rfl

@[simp] theorem State.setCc_r1 (s : State) (cc : Cc) :
    (s.setCc cc).cpu.r1 = s.cpu.r1 := rfl

@[simp] theorem State.setCc_r2 (s : State) (cc : Cc) :
    (s.setCc cc).cpu.r2 = s.cpu.r2 := rfl

@[simp] theorem State.setCc_r3 (s : State) (cc : Cc) :
    (s.setCc cc).cpu.r3 = s.cpu.r3 := rfl

@[simp] theorem State.setCc_r4 (s : State) (cc : Cc) :
    (s.setCc cc).cpu.r4 = s.cpu.r4 := rfl

@[simp] theorem State.setCc_r5 (s : State) (cc : Cc) :
    (s.setCc cc).cpu.r5 = s.cpu.r5 := rfl

@[simp] theorem State.setCc_sp (s : State) (cc : Cc) :
    (s.setCc cc).cpu.sp = s.cpu.sp := rfl

@[simp] theorem State.setCc_pc (s : State) (cc : Cc) :
    (s.setCc cc).cpu.pc = s.cpu.pc := rfl

@[simp] theorem State.setCc_ps2 (s : State) (cc : Cc) :
    (s.setCc cc).cpu.ps2 = s.cpu.ps2 := rfl

@[simp] theorem State.setCc_sta (s : State) (cc : Cc) :
    (s.setCc cc).cpu.sta = s.cpu.sta := rfl

@[simp] theorem State.setCc_stl (s : State) (cc : Cc) :
    (s.setCc cc).cpu.stl = s.cpu.stl := rfl

@[simp] theorem State.setCc_cpu_ps1 (s : State) (cc : Cc) :
    (s.setCc cc).cpu.ps1 = { s.cpu.ps1 with cc := cc } := rfl

/-! ### setIntmask -/

@[simp] theorem State.setIntmask_cfg (s : State) (mask : BitVec 8) :
    (s.setIntmask mask).cfg = s.cfg := rfl

@[simp] theorem State.setIntmask_tdck (s : State) (mask : BitVec 8) :
    (s.setIntmask mask).tdck = s.tdck := rfl

@[simp] theorem State.setIntmask_it (s : State) (mask : BitVec 8) :
    (s.setIntmask mask).it = s.it := rfl

@[simp] theorem State.setIntmask_clockReq (s : State) (mask : BitVec 8) :
    (s.setIntmask mask).clockReq = s.clockReq := rfl

@[simp] theorem State.setIntmask_mem (s : State) (mask : BitVec 8) :
    (s.setIntmask mask).mem = s.mem := rfl

@[simp] theorem State.setIntmask_io (s : State) (mask : BitVec 8) :
    (s.setIntmask mask).io = s.io := rfl

@[simp] theorem State.setIntmask_run (s : State) (mask : BitVec 8) :
    (s.setIntmask mask).run = s.run := rfl

@[simp] theorem State.setIntmask_console (s : State) (mask : BitVec 8) :
    (s.setIntmask mask).console = s.console := rfl

@[simp] theorem State.setIntmask_draw (s : State) (mask : BitVec 8) :
    (s.setIntmask mask).draw = s.draw := rfl

@[simp] theorem State.setIntmask_still (s : State) (mask : BitVec 8) :
    (s.setIntmask mask).still = s.still := rfl

@[simp] theorem State.setIntmask_since (s : State) (mask : BitVec 8) :
    (s.setIntmask mask).since = s.since := rfl

@[simp] theorem State.setIntmask_r0 (s : State) (mask : BitVec 8) :
    (s.setIntmask mask).cpu.r0 = s.cpu.r0 := rfl

@[simp] theorem State.setIntmask_r1 (s : State) (mask : BitVec 8) :
    (s.setIntmask mask).cpu.r1 = s.cpu.r1 := rfl

@[simp] theorem State.setIntmask_r2 (s : State) (mask : BitVec 8) :
    (s.setIntmask mask).cpu.r2 = s.cpu.r2 := rfl

@[simp] theorem State.setIntmask_r3 (s : State) (mask : BitVec 8) :
    (s.setIntmask mask).cpu.r3 = s.cpu.r3 := rfl

@[simp] theorem State.setIntmask_r4 (s : State) (mask : BitVec 8) :
    (s.setIntmask mask).cpu.r4 = s.cpu.r4 := rfl

@[simp] theorem State.setIntmask_r5 (s : State) (mask : BitVec 8) :
    (s.setIntmask mask).cpu.r5 = s.cpu.r5 := rfl

@[simp] theorem State.setIntmask_sp (s : State) (mask : BitVec 8) :
    (s.setIntmask mask).cpu.sp = s.cpu.sp := rfl

@[simp] theorem State.setIntmask_pc (s : State) (mask : BitVec 8) :
    (s.setIntmask mask).cpu.pc = s.cpu.pc := rfl

@[simp] theorem State.setIntmask_ps2 (s : State) (mask : BitVec 8) :
    (s.setIntmask mask).cpu.ps2 = s.cpu.ps2 := rfl

@[simp] theorem State.setIntmask_sta (s : State) (mask : BitVec 8) :
    (s.setIntmask mask).cpu.sta = s.cpu.sta := rfl

@[simp] theorem State.setIntmask_stl (s : State) (mask : BitVec 8) :
    (s.setIntmask mask).cpu.stl = s.cpu.stl := rfl

@[simp] theorem State.setIntmask_cpu_ps1 (s : State) (mask : BitVec 8) :
    (s.setIntmask mask).cpu.ps1 = { s.cpu.ps1 with intmask := mask } := rfl

/-! ### setStl -/

@[simp] theorem State.setStl_cfg (s : State) (v : Word) :
    (s.setStl v).cfg = s.cfg := rfl

@[simp] theorem State.setStl_tdck (s : State) (v : Word) :
    (s.setStl v).tdck = s.tdck := rfl

@[simp] theorem State.setStl_it (s : State) (v : Word) :
    (s.setStl v).it = s.it := rfl

@[simp] theorem State.setStl_clockReq (s : State) (v : Word) :
    (s.setStl v).clockReq = s.clockReq := rfl

@[simp] theorem State.setStl_mem (s : State) (v : Word) :
    (s.setStl v).mem = s.mem := rfl

@[simp] theorem State.setStl_io (s : State) (v : Word) :
    (s.setStl v).io = s.io := rfl

@[simp] theorem State.setStl_run (s : State) (v : Word) :
    (s.setStl v).run = s.run := rfl

@[simp] theorem State.setStl_console (s : State) (v : Word) :
    (s.setStl v).console = s.console := rfl

@[simp] theorem State.setStl_draw (s : State) (v : Word) :
    (s.setStl v).draw = s.draw := rfl

@[simp] theorem State.setStl_still (s : State) (v : Word) :
    (s.setStl v).still = s.still := rfl

@[simp] theorem State.setStl_since (s : State) (v : Word) :
    (s.setStl v).since = s.since := rfl

@[simp] theorem State.setStl_r0 (s : State) (v : Word) :
    (s.setStl v).cpu.r0 = s.cpu.r0 := rfl

@[simp] theorem State.setStl_r1 (s : State) (v : Word) :
    (s.setStl v).cpu.r1 = s.cpu.r1 := rfl

@[simp] theorem State.setStl_r2 (s : State) (v : Word) :
    (s.setStl v).cpu.r2 = s.cpu.r2 := rfl

@[simp] theorem State.setStl_r3 (s : State) (v : Word) :
    (s.setStl v).cpu.r3 = s.cpu.r3 := rfl

@[simp] theorem State.setStl_r4 (s : State) (v : Word) :
    (s.setStl v).cpu.r4 = s.cpu.r4 := rfl

@[simp] theorem State.setStl_r5 (s : State) (v : Word) :
    (s.setStl v).cpu.r5 = s.cpu.r5 := rfl

@[simp] theorem State.setStl_sp (s : State) (v : Word) :
    (s.setStl v).cpu.sp = s.cpu.sp := rfl

@[simp] theorem State.setStl_pc (s : State) (v : Word) :
    (s.setStl v).cpu.pc = s.cpu.pc := rfl

@[simp] theorem State.setStl_ps1 (s : State) (v : Word) :
    (s.setStl v).cpu.ps1 = s.cpu.ps1 := rfl

@[simp] theorem State.setStl_ps2 (s : State) (v : Word) :
    (s.setStl v).cpu.ps2 = s.cpu.ps2 := rfl

@[simp] theorem State.setStl_sta (s : State) (v : Word) :
    (s.setStl v).cpu.sta = s.cpu.sta := rfl

@[simp] theorem State.setStl_cpu_stl (s : State) (v : Word) :
    (s.setStl v).cpu.stl = v := rfl

/-! ### setIt -/

@[simp] theorem State.setIt_cfg (s : State) (v : DWord) :
    (s.setIt v).cfg = s.cfg := rfl

@[simp] theorem State.setIt_tdck (s : State) (v : DWord) :
    (s.setIt v).tdck = s.tdck := rfl

@[simp] theorem State.setIt_clockReq (s : State) (v : DWord) :
    (s.setIt v).clockReq = s.clockReq := rfl

@[simp] theorem State.setIt_mem (s : State) (v : DWord) :
    (s.setIt v).mem = s.mem := rfl

@[simp] theorem State.setIt_io (s : State) (v : DWord) :
    (s.setIt v).io = s.io := rfl

@[simp] theorem State.setIt_run (s : State) (v : DWord) :
    (s.setIt v).run = s.run := rfl

@[simp] theorem State.setIt_console (s : State) (v : DWord) :
    (s.setIt v).console = s.console := rfl

@[simp] theorem State.setIt_draw (s : State) (v : DWord) :
    (s.setIt v).draw = s.draw := rfl

@[simp] theorem State.setIt_still (s : State) (v : DWord) :
    (s.setIt v).still = s.still := rfl

@[simp] theorem State.setIt_since (s : State) (v : DWord) :
    (s.setIt v).since = s.since := rfl

@[simp] theorem State.setIt_cpu (s : State) (v : DWord) :
    (s.setIt v).cpu = s.cpu := rfl

@[simp] theorem State.setIt_it (s : State) (v : DWord) :
    (s.setIt v).it = v := rfl

/-! ### stop -/

@[simp] theorem State.stop_cfg (s : State) (why : StopReason) :
    (s.stop why).cfg = s.cfg := rfl

@[simp] theorem State.stop_tdck (s : State) (why : StopReason) :
    (s.stop why).tdck = s.tdck := rfl

@[simp] theorem State.stop_it (s : State) (why : StopReason) :
    (s.stop why).it = s.it := rfl

@[simp] theorem State.stop_clockReq (s : State) (why : StopReason) :
    (s.stop why).clockReq = s.clockReq := rfl

@[simp] theorem State.stop_mem (s : State) (why : StopReason) :
    (s.stop why).mem = s.mem := rfl

@[simp] theorem State.stop_io (s : State) (why : StopReason) :
    (s.stop why).io = s.io := rfl

@[simp] theorem State.stop_console (s : State) (why : StopReason) :
    (s.stop why).console = s.console := rfl

@[simp] theorem State.stop_draw (s : State) (why : StopReason) :
    (s.stop why).draw = s.draw := rfl

@[simp] theorem State.stop_still (s : State) (why : StopReason) :
    (s.stop why).still = s.still := rfl

@[simp] theorem State.stop_since (s : State) (why : StopReason) :
    (s.stop why).since = s.since := rfl

@[simp] theorem State.stop_cpu (s : State) (why : StopReason) :
    (s.stop why).cpu = s.cpu := rfl

@[simp] theorem State.stop_run (s : State) (why : StopReason) :
    (s.stop why).run = .stopped why := rfl

/-! ### stopAt -/

@[simp] theorem State.stopAt_cfg (s : State) (why : StopReason) (passes : Bool) :
    (s.stopAt why passes).cfg = s.cfg := rfl

@[simp] theorem State.stopAt_tdck (s : State) (why : StopReason) (passes : Bool) :
    (s.stopAt why passes).tdck = s.tdck := rfl

@[simp] theorem State.stopAt_it (s : State) (why : StopReason) (passes : Bool) :
    (s.stopAt why passes).it = s.it := rfl

@[simp] theorem State.stopAt_clockReq (s : State) (why : StopReason) (passes : Bool) :
    (s.stopAt why passes).clockReq = s.clockReq := rfl

@[simp] theorem State.stopAt_mem (s : State) (why : StopReason) (passes : Bool) :
    (s.stopAt why passes).mem = s.mem := rfl

@[simp] theorem State.stopAt_io (s : State) (why : StopReason) (passes : Bool) :
    (s.stopAt why passes).io = s.io := rfl

@[simp] theorem State.stopAt_draw (s : State) (why : StopReason) (passes : Bool) :
    (s.stopAt why passes).draw = s.draw := rfl

@[simp] theorem State.stopAt_still (s : State) (why : StopReason) (passes : Bool) :
    (s.stopAt why passes).still = s.still := rfl

@[simp] theorem State.stopAt_since (s : State) (why : StopReason) (passes : Bool) :
    (s.stopAt why passes).since = s.since := rfl

@[simp] theorem State.stopAt_cpu (s : State) (why : StopReason) (passes : Bool) :
    (s.stopAt why passes).cpu = s.cpu := rfl

@[simp] theorem State.stopAt_run (s : State) (why : StopReason) (passes : Bool) :
    (s.stopAt why passes).run = .stopped why := rfl

/-! ### storeMem -/

@[simp] theorem State.storeMem_cfg (s : State) (pa : Word) (size : Size) (v : BitVec size.bits) :
    (s.storeMem pa size v).cfg = s.cfg := by
  cases size <;> rfl

@[simp] theorem State.storeMem_tdck (s : State) (pa : Word) (size : Size) (v : BitVec size.bits) :
    (s.storeMem pa size v).tdck = s.tdck := by
  cases size <;> rfl

@[simp] theorem State.storeMem_it (s : State) (pa : Word) (size : Size) (v : BitVec size.bits) :
    (s.storeMem pa size v).it = s.it := by
  cases size <;> rfl

@[simp] theorem State.storeMem_clockReq (s : State) (pa : Word) (size : Size) (v : BitVec size.bits) :
    (s.storeMem pa size v).clockReq = s.clockReq := by
  cases size <;> rfl

@[simp] theorem State.storeMem_io (s : State) (pa : Word) (size : Size) (v : BitVec size.bits) :
    (s.storeMem pa size v).io = s.io := by
  cases size <;> rfl

@[simp] theorem State.storeMem_run (s : State) (pa : Word) (size : Size) (v : BitVec size.bits) :
    (s.storeMem pa size v).run = s.run := by
  cases size <;> rfl

@[simp] theorem State.storeMem_console (s : State) (pa : Word) (size : Size) (v : BitVec size.bits) :
    (s.storeMem pa size v).console = s.console := by
  cases size <;> rfl

@[simp] theorem State.storeMem_draw (s : State) (pa : Word) (size : Size) (v : BitVec size.bits) :
    (s.storeMem pa size v).draw = s.draw := by
  cases size <;> rfl

@[simp] theorem State.storeMem_still (s : State) (pa : Word) (size : Size) (v : BitVec size.bits) :
    (s.storeMem pa size v).still = s.still := by
  cases size <;> rfl

@[simp] theorem State.storeMem_since (s : State) (pa : Word) (size : Size) (v : BitVec size.bits) :
    (s.storeMem pa size v).since = s.since := by
  cases size <;> rfl

@[simp] theorem State.storeMem_cpu (s : State) (pa : Word) (size : Size) (v : BitVec size.bits) :
    (s.storeMem pa size v).cpu = s.cpu := by
  cases size <;> rfl

/-! ### startDevice -/

@[simp] theorem State.startDevice_cfg (s : State) (d : Dev) :
    (s.startDevice d).cfg = s.cfg := rfl

@[simp] theorem State.startDevice_tdck (s : State) (d : Dev) :
    (s.startDevice d).tdck = s.tdck := rfl

@[simp] theorem State.startDevice_it (s : State) (d : Dev) :
    (s.startDevice d).it = s.it := rfl

@[simp] theorem State.startDevice_clockReq (s : State) (d : Dev) :
    (s.startDevice d).clockReq = s.clockReq := rfl

@[simp] theorem State.startDevice_mem (s : State) (d : Dev) :
    (s.startDevice d).mem = s.mem := rfl

@[simp] theorem State.startDevice_run (s : State) (d : Dev) :
    (s.startDevice d).run = s.run := rfl

@[simp] theorem State.startDevice_console (s : State) (d : Dev) :
    (s.startDevice d).console = s.console := rfl

@[simp] theorem State.startDevice_draw (s : State) (d : Dev) :
    (s.startDevice d).draw = s.draw := rfl

@[simp] theorem State.startDevice_still (s : State) (d : Dev) :
    (s.startDevice d).still = s.still := rfl

@[simp] theorem State.startDevice_since (s : State) (d : Dev) :
    (s.startDevice d).since = s.since := rfl

@[simp] theorem State.startDevice_cpu (s : State) (d : Dev) :
    (s.startDevice d).cpu = s.cpu := rfl

@[simp] theorem State.startDevice_io_terms (s : State) (d : Dev) :
    (s.startDevice d).io.terms = s.io.terms := rfl

@[simp] theorem State.startDevice_io_prints (s : State) (d : Dev) :
    (s.startDevice d).io.prints = s.io.prints := rfl

@[simp] theorem State.startDevice_io_disks (s : State) (d : Dev) :
    (s.startDevice d).io.disks = s.io.disks := rfl

@[simp] theorem State.startDevice_io_drums (s : State) (d : Dev) :
    (s.startDevice d).io.drums = s.io.drums := rfl

/-! ### setCtl -/

@[simp] theorem State.setCtl_cfg (s : State) (d : Dev) (c : DevCtl) :
    (s.setCtl d c).cfg = s.cfg := rfl

@[simp] theorem State.setCtl_tdck (s : State) (d : Dev) (c : DevCtl) :
    (s.setCtl d c).tdck = s.tdck := rfl

@[simp] theorem State.setCtl_it (s : State) (d : Dev) (c : DevCtl) :
    (s.setCtl d c).it = s.it := rfl

@[simp] theorem State.setCtl_clockReq (s : State) (d : Dev) (c : DevCtl) :
    (s.setCtl d c).clockReq = s.clockReq := rfl

@[simp] theorem State.setCtl_mem (s : State) (d : Dev) (c : DevCtl) :
    (s.setCtl d c).mem = s.mem := rfl

@[simp] theorem State.setCtl_run (s : State) (d : Dev) (c : DevCtl) :
    (s.setCtl d c).run = s.run := rfl

@[simp] theorem State.setCtl_console (s : State) (d : Dev) (c : DevCtl) :
    (s.setCtl d c).console = s.console := rfl

@[simp] theorem State.setCtl_draw (s : State) (d : Dev) (c : DevCtl) :
    (s.setCtl d c).draw = s.draw := rfl

@[simp] theorem State.setCtl_still (s : State) (d : Dev) (c : DevCtl) :
    (s.setCtl d c).still = s.still := rfl

@[simp] theorem State.setCtl_since (s : State) (d : Dev) (c : DevCtl) :
    (s.setCtl d c).since = s.since := rfl

@[simp] theorem State.setCtl_cpu (s : State) (d : Dev) (c : DevCtl) :
    (s.setCtl d c).cpu = s.cpu := rfl

@[simp] theorem State.setCtl_io_terms (s : State) (d : Dev) (c : DevCtl) :
    (s.setCtl d c).io.terms = s.io.terms := rfl

@[simp] theorem State.setCtl_io_prints (s : State) (d : Dev) (c : DevCtl) :
    (s.setCtl d c).io.prints = s.io.prints := rfl

@[simp] theorem State.setCtl_io_disks (s : State) (d : Dev) (c : DevCtl) :
    (s.setCtl d c).io.disks = s.io.disks := rfl

@[simp] theorem State.setCtl_io_drums (s : State) (d : Dev) (c : DevCtl) :
    (s.setCtl d c).io.drums = s.io.drums := rfl

/-! ### store -/

@[simp] theorem State.store_cfg (s : State) (pa : Word) (size : Size) (v : BitVec size.bits) :
    (s.store pa size v).cfg = s.cfg := by
  unfold State.store
  split <;> simp

@[simp] theorem State.store_tdck (s : State) (pa : Word) (size : Size) (v : BitVec size.bits) :
    (s.store pa size v).tdck = s.tdck := by
  unfold State.store
  split <;> simp

@[simp] theorem State.store_it (s : State) (pa : Word) (size : Size) (v : BitVec size.bits) :
    (s.store pa size v).it = s.it := by
  unfold State.store
  split <;> simp

@[simp] theorem State.store_clockReq (s : State) (pa : Word) (size : Size) (v : BitVec size.bits) :
    (s.store pa size v).clockReq = s.clockReq := by
  unfold State.store
  split <;> simp

@[simp] theorem State.store_run (s : State) (pa : Word) (size : Size) (v : BitVec size.bits) :
    (s.store pa size v).run = s.run := by
  unfold State.store
  split <;> simp

@[simp] theorem State.store_console (s : State) (pa : Word) (size : Size) (v : BitVec size.bits) :
    (s.store pa size v).console = s.console := by
  unfold State.store
  split <;> simp

@[simp] theorem State.store_draw (s : State) (pa : Word) (size : Size) (v : BitVec size.bits) :
    (s.store pa size v).draw = s.draw := by
  unfold State.store
  split <;> simp

@[simp] theorem State.store_still (s : State) (pa : Word) (size : Size) (v : BitVec size.bits) :
    (s.store pa size v).still = s.still := by
  unfold State.store
  split <;> simp

@[simp] theorem State.store_since (s : State) (pa : Word) (size : Size) (v : BitVec size.bits) :
    (s.store pa size v).since = s.since := by
  unfold State.store
  split <;> simp

@[simp] theorem State.store_cpu (s : State) (pa : Word) (size : Size) (v : BitVec size.bits) :
    (s.store pa size v).cpu = s.cpu := by
  unfold State.store
  split <;> simp

@[simp] theorem State.store_io_terms (s : State) (pa : Word) (size : Size) (v : BitVec size.bits) :
    (s.store pa size v).io.terms = s.io.terms := by
  unfold State.store
  split <;> simp

@[simp] theorem State.store_io_prints (s : State) (pa : Word) (size : Size) (v : BitVec size.bits) :
    (s.store pa size v).io.prints = s.io.prints := by
  unfold State.store
  split <;> simp

@[simp] theorem State.store_io_disks (s : State) (pa : Word) (size : Size) (v : BitVec size.bits) :
    (s.store pa size v).io.disks = s.io.disks := by
  unfold State.store
  split <;> simp

@[simp] theorem State.store_io_drums (s : State) (pa : Word) (size : Size) (v : BitVec size.bits) :
    (s.store pa size v).io.drums = s.io.drums := by
  unfold State.store
  split <;> simp

@[simp] theorem State.store_mem (s : State) (pa : Word) (size : Size) (v : BitVec size.bits) :
    (s.store pa size v).mem = (s.storeMem pa size v).mem := by
  unfold State.store
  split <;> simp

/-! ### install -/

@[simp] theorem State.install_cfg (s : State) (t : Nat → Word) :
    (s.install t).cfg = s.cfg := rfl

@[simp] theorem State.install_tdck (s : State) (t : Nat → Word) :
    (s.install t).tdck = s.tdck := rfl

@[simp] theorem State.install_it (s : State) (t : Nat → Word) :
    (s.install t).it = s.it := rfl

@[simp] theorem State.install_clockReq (s : State) (t : Nat → Word) :
    (s.install t).clockReq = s.clockReq := rfl

@[simp] theorem State.install_mem (s : State) (t : Nat → Word) :
    (s.install t).mem = s.mem := rfl

@[simp] theorem State.install_io (s : State) (t : Nat → Word) :
    (s.install t).io = s.io := rfl

@[simp] theorem State.install_run (s : State) (t : Nat → Word) :
    (s.install t).run = s.run := rfl

@[simp] theorem State.install_console (s : State) (t : Nat → Word) :
    (s.install t).console = s.console := rfl

@[simp] theorem State.install_draw (s : State) (t : Nat → Word) :
    (s.install t).draw = s.draw := rfl

@[simp] theorem State.install_still (s : State) (t : Nat → Word) :
    (s.install t).still = s.still := rfl

@[simp] theorem State.install_since (s : State) (t : Nat → Word) :
    (s.install t).since = s.since := rfl

@[simp] theorem State.install_cpu (s : State) (t : Nat → Word) :
    (s.install t).cpu = ProcState.ofWords s.cfg.ps1Layout t := rfl

/-! ### storeState -/

@[simp] theorem State.storeState_cfg (s : State) (a : Nat) :
    (s.storeState a).cfg = s.cfg := by
  simp only [State.storeState]

@[simp] theorem State.storeState_tdck (s : State) (a : Nat) :
    (s.storeState a).tdck = s.tdck := by
  simp only [State.storeState]

@[simp] theorem State.storeState_it (s : State) (a : Nat) :
    (s.storeState a).it = s.it := by
  simp only [State.storeState]

@[simp] theorem State.storeState_clockReq (s : State) (a : Nat) :
    (s.storeState a).clockReq = s.clockReq := by
  simp only [State.storeState]

@[simp] theorem State.storeState_io (s : State) (a : Nat) :
    (s.storeState a).io = s.io := by
  simp only [State.storeState]

@[simp] theorem State.storeState_run (s : State) (a : Nat) :
    (s.storeState a).run = s.run := by
  simp only [State.storeState]

@[simp] theorem State.storeState_console (s : State) (a : Nat) :
    (s.storeState a).console = s.console := by
  simp only [State.storeState]

@[simp] theorem State.storeState_draw (s : State) (a : Nat) :
    (s.storeState a).draw = s.draw := by
  simp only [State.storeState]

@[simp] theorem State.storeState_still (s : State) (a : Nat) :
    (s.storeState a).still = s.still := by
  simp only [State.storeState]

@[simp] theorem State.storeState_since (s : State) (a : Nat) :
    (s.storeState a).since = s.since := by
  simp only [State.storeState]

@[simp] theorem State.storeState_cpu (s : State) (a : Nat) :
    (s.storeState a).cpu = s.cpu := by
  simp only [State.storeState]

@[simp] theorem State.storeState_mem (s : State) (a : Nat) :
    (s.storeState a).mem = s.mem.writeWords a (s.cpu.words s.cfg.ps1Layout) := by
  simp only [State.storeState]

/-! ### enter -/

@[simp] theorem State.enter_cfg (s : State) (area : Nat) (code : Word) :
    (s.enter area code).cfg = s.cfg := rfl

@[simp] theorem State.enter_tdck (s : State) (area : Nat) (code : Word) :
    (s.enter area code).tdck = s.tdck := rfl

@[simp] theorem State.enter_it (s : State) (area : Nat) (code : Word) :
    (s.enter area code).it = s.it := rfl

@[simp] theorem State.enter_clockReq (s : State) (area : Nat) (code : Word) :
    (s.enter area code).clockReq = s.clockReq := rfl

@[simp] theorem State.enter_io (s : State) (area : Nat) (code : Word) :
    (s.enter area code).io = s.io := rfl

@[simp] theorem State.enter_run (s : State) (area : Nat) (code : Word) :
    (s.enter area code).run = s.run := rfl

@[simp] theorem State.enter_console (s : State) (area : Nat) (code : Word) :
    (s.enter area code).console = s.console := rfl

@[simp] theorem State.enter_draw (s : State) (area : Nat) (code : Word) :
    (s.enter area code).draw = s.draw := rfl

@[simp] theorem State.enter_still (s : State) (area : Nat) (code : Word) :
    (s.enter area code).still = s.still := rfl

@[simp] theorem State.enter_since (s : State) (area : Nat) (code : Word) :
    (s.enter area code).since = s.since := rfl

/-! ### takeTrap -/

@[simp] theorem State.takeTrap_cfg (s : State) (t : Trap) :
    (s.takeTrap t).cfg = s.cfg := rfl

@[simp] theorem State.takeTrap_tdck (s : State) (t : Trap) :
    (s.takeTrap t).tdck = s.tdck := rfl

@[simp] theorem State.takeTrap_it (s : State) (t : Trap) :
    (s.takeTrap t).it = s.it := rfl

@[simp] theorem State.takeTrap_clockReq (s : State) (t : Trap) :
    (s.takeTrap t).clockReq = s.clockReq := rfl

@[simp] theorem State.takeTrap_io (s : State) (t : Trap) :
    (s.takeTrap t).io = s.io := rfl

@[simp] theorem State.takeTrap_run (s : State) (t : Trap) :
    (s.takeTrap t).run = s.run := rfl

@[simp] theorem State.takeTrap_console (s : State) (t : Trap) :
    (s.takeTrap t).console = s.console := rfl

@[simp] theorem State.takeTrap_draw (s : State) (t : Trap) :
    (s.takeTrap t).draw = s.draw := rfl

@[simp] theorem State.takeTrap_still (s : State) (t : Trap) :
    (s.takeTrap t).still = s.still := rfl

@[simp] theorem State.takeTrap_since (s : State) (t : Trap) :
    (s.takeTrap t).since = s.since := rfl

/-! ### nextDraw -/

@[simp] theorem State.nextDraw_cfg (s : State) :
    (s.nextDraw).cfg = s.cfg := rfl

@[simp] theorem State.nextDraw_tdck (s : State) :
    (s.nextDraw).tdck = s.tdck := rfl

@[simp] theorem State.nextDraw_it (s : State) :
    (s.nextDraw).it = s.it := rfl

@[simp] theorem State.nextDraw_clockReq (s : State) :
    (s.nextDraw).clockReq = s.clockReq := rfl

@[simp] theorem State.nextDraw_mem (s : State) :
    (s.nextDraw).mem = s.mem := rfl

@[simp] theorem State.nextDraw_io (s : State) :
    (s.nextDraw).io = s.io := rfl

@[simp] theorem State.nextDraw_run (s : State) :
    (s.nextDraw).run = s.run := rfl

@[simp] theorem State.nextDraw_console (s : State) :
    (s.nextDraw).console = s.console := rfl

@[simp] theorem State.nextDraw_still (s : State) :
    (s.nextDraw).still = s.still := rfl

@[simp] theorem State.nextDraw_since (s : State) :
    (s.nextDraw).since = s.since := rfl

@[simp] theorem State.nextDraw_cpu (s : State) :
    (s.nextDraw).cpu = s.cpu := rfl

@[simp] theorem State.nextDraw_draw (s : State) :
    (s.nextDraw).draw = s.draw + 1 := rfl

/-! ### advance -/

@[simp] theorem State.advance_cfg (s : State) (dt : Nat) :
    (s.advance dt).cfg = s.cfg := rfl

@[simp] theorem State.advance_mem (s : State) (dt : Nat) :
    (s.advance dt).mem = s.mem := rfl

@[simp] theorem State.advance_run (s : State) (dt : Nat) :
    (s.advance dt).run = s.run := rfl

@[simp] theorem State.advance_console (s : State) (dt : Nat) :
    (s.advance dt).console = s.console := rfl

@[simp] theorem State.advance_draw (s : State) (dt : Nat) :
    (s.advance dt).draw = s.draw := rfl

@[simp] theorem State.advance_still (s : State) (dt : Nat) :
    (s.advance dt).still = s.still := rfl

@[simp] theorem State.advance_since (s : State) (dt : Nat) :
    (s.advance dt).since = s.since := rfl

@[simp] theorem State.advance_cpu (s : State) (dt : Nat) :
    (s.advance dt).cpu = s.cpu := rfl

@[simp] theorem State.advance_io_terms (s : State) (dt : Nat) :
    (s.advance dt).io.terms = s.io.terms := rfl

@[simp] theorem State.advance_io_prints (s : State) (dt : Nat) :
    (s.advance dt).io.prints = s.io.prints := rfl

@[simp] theorem State.advance_io_disks (s : State) (dt : Nat) :
    (s.advance dt).io.disks = s.io.disks := rfl

@[simp] theorem State.advance_io_drums (s : State) (dt : Nat) :
    (s.advance dt).io.drums = s.io.drums := rfl

/-! ### tick -/

@[simp] theorem State.tick_cfg (s : State) :
    (s.tick).cfg = s.cfg := rfl

@[simp] theorem State.tick_mem (s : State) :
    (s.tick).mem = s.mem := rfl

@[simp] theorem State.tick_run (s : State) :
    (s.tick).run = s.run := rfl

@[simp] theorem State.tick_console (s : State) :
    (s.tick).console = s.console := rfl

@[simp] theorem State.tick_cpu (s : State) :
    (s.tick).cpu = s.cpu := rfl

@[simp] theorem State.tick_draw (s : State) :
    (s.tick).draw = s.draw + 1 := rfl

@[simp] theorem State.tick_io_terms (s : State) :
    (s.tick).io.terms = s.io.terms := rfl

@[simp] theorem State.tick_io_prints (s : State) :
    (s.tick).io.prints = s.io.prints := rfl

@[simp] theorem State.tick_io_disks (s : State) :
    (s.tick).io.disks = s.io.disks := rfl

@[simp] theorem State.tick_io_drums (s : State) :
    (s.tick).io.drums = s.io.drums := rfl

/-! ### refresh -/

@[simp] theorem State.refresh_cfg (s : State) :
    (s.refresh).cfg = s.cfg := rfl

@[simp] theorem State.refresh_tdck (s : State) :
    (s.refresh).tdck = s.tdck := rfl

@[simp] theorem State.refresh_it (s : State) :
    (s.refresh).it = s.it := rfl

@[simp] theorem State.refresh_clockReq (s : State) :
    (s.refresh).clockReq = s.clockReq := rfl

@[simp] theorem State.refresh_mem (s : State) :
    (s.refresh).mem = s.mem := rfl

@[simp] theorem State.refresh_io (s : State) :
    (s.refresh).io = s.io := rfl

@[simp] theorem State.refresh_run (s : State) :
    (s.refresh).run = s.run := rfl

@[simp] theorem State.refresh_draw (s : State) :
    (s.refresh).draw = s.draw := rfl

@[simp] theorem State.refresh_still (s : State) :
    (s.refresh).still = s.still := rfl

@[simp] theorem State.refresh_since (s : State) :
    (s.refresh).since = s.since := rfl

@[simp] theorem State.refresh_cpu (s : State) :
    (s.refresh).cpu = s.cpu := rfl

/-! ### ready -/

@[simp] theorem State.ready_cfg (s : State) :
    (s.ready).cfg = s.cfg := rfl

@[simp] theorem State.ready_tdck (s : State) :
    (s.ready).tdck = s.tdck := rfl

@[simp] theorem State.ready_it (s : State) :
    (s.ready).it = s.it := rfl

@[simp] theorem State.ready_clockReq (s : State) :
    (s.ready).clockReq = s.clockReq := rfl

@[simp] theorem State.ready_mem (s : State) :
    (s.ready).mem = s.mem := rfl

@[simp] theorem State.ready_io (s : State) :
    (s.ready).io = s.io := rfl

@[simp] theorem State.ready_draw (s : State) :
    (s.ready).draw = s.draw := rfl

@[simp] theorem State.ready_still (s : State) :
    (s.ready).still = s.still := rfl

@[simp] theorem State.ready_since (s : State) :
    (s.ready).since = s.since := rfl

@[simp] theorem State.ready_run (s : State) :
    (s.ready).run = .running := rfl

@[simp] theorem State.setCc_reg (s : State) (cc : Cc) (r : Reg) : (s.setCc cc).reg r = s.reg r := by
  cases r <;> rfl

@[simp] theorem State.setIntmask_reg (s : State) (mask : BitVec 8) (r : Reg) :
    (s.setIntmask mask).reg r = s.reg r := by
  cases r <;> rfl

@[simp] theorem State.setStl_reg (s : State) (v : Word) (r : Reg) : (s.setStl v).reg r = s.reg r := by
  cases r <;> rfl

@[simp] theorem State.setIt_reg (s : State) (v : DWord) (r : Reg) : (s.setIt v).reg r = s.reg r := rfl

@[simp] theorem State.store_reg (s : State) (pa : Word) (size : Size) (v : BitVec size.bits) (r : Reg) :
    (s.store pa size v).reg r = s.reg r := by
  simp [State.reg]

@[simp] theorem State.setReg_store (s : State) (r : Reg) (w : Word) (pa : Word) (size : Size)
    (v : BitVec size.bits) : ((s.setReg r w).store pa size v) = (s.store pa size v).setReg r w := by
  unfold State.store
  split <;> cases size <;> rfl

@[simp] theorem State.storeMem_byte (s : State) (pa : Word) (v : Byte) :
    (s.storeMem pa .byte v).mem = s.mem.write pa.toNat v := rfl

@[simp] theorem State.storeMem_word (s : State) (pa v : Word) :
    (s.storeMem pa .word v).mem = s.mem.writeWord pa.toNat v := rfl

end Sys2Proof.Machine
end

