-- ==== Sys2Proof/Laws/Devices.lean ====
section
/-! SUPPORT. What the controllers' share of a step leaves: everything but memory and the devices, and
memory's canonical form. -/

namespace Sys2Proof.Machine

/-- The states agree on all but memory and the devices, and memory stays canonical. -/
structure DevicesOnly (s t : State) : Prop where
  cfg : t.cfg = s.cfg
  cpu : t.cpu = s.cpu
  tdck : t.tdck = s.tdck
  it : t.it = s.it
  clockReq : t.clockReq = s.clockReq
  run : t.run = s.run
  console : t.console = s.console
  draw : t.draw = s.draw
  still : t.still = s.still
  since : t.since = s.since
  wf : s.mem.wf = true → t.mem.wf = true

theorem DevicesOnly.refl (s : State) : DevicesOnly s s := ⟨rfl, rfl, rfl, rfl, rfl, rfl, rfl, rfl, rfl, rfl, id⟩

theorem DevicesOnly.trans {s t u : State} (h : DevicesOnly s t) (k : DevicesOnly t u) :
    DevicesOnly s u :=
  ⟨k.cfg.trans h.cfg, k.cpu.trans h.cpu, k.tdck.trans h.tdck, k.it.trans h.it,
    k.clockReq.trans h.clockReq, k.run.trans h.run, k.console.trans h.console, k.draw.trans h.draw,
    k.still.trans h.still, k.since.trans h.since, fun hw => k.wf (h.wf hw)⟩

/-- Replacing the devices. -/
theorem DevicesOnly.setIo (s : State) (io : Io) : DevicesOnly s { s with io := io } :=
  ⟨rfl, rfl, rfl, rfl, rfl, rfl, rfl, rfl, rfl, rfl, id⟩

/-- Replacing memory by another canonical one. -/
theorem DevicesOnly.setMem (s : State) (m : Memory) (h : s.mem.wf = true → m.wf = true) :
    DevicesOnly s { s with mem := m } := ⟨rfl, rfl, rfl, rfl, rfl, rfl, rfl, rfl, rfl, rfl, h⟩

theorem DevicesOnly.setCtl (s : State) (d : Dev) (c : DevCtl) : DevicesOnly s (s.setCtl d c) :=
  .setIo s _

theorem DevicesOnly.writeSector (s : State) (sector j : Nat) (b : Byte) (d : Dev) :
    DevicesOnly s (s.writeSector sector j b d) := by
  cases d
  · exact .refl s
  · exact .refl s
  · exact .setIo s _
  · exact .setIo s _

theorem DevicesOnly.placeByte (s : State) (d : Dev) (op : DevOp) (j : Nat) (b : Byte) :
    DevicesOnly s (s.placeByte d op j b) := by
  unfold State.placeByte
  split
  · exact .setMem s _ (Memory.write_wf _ _ _)
  · exact .setMem s _ (Memory.write_wf _ _ _)
  · exact .writeSector s _ _ _ _
  · exact .refl s

theorem DevicesOnly.moveByte (s : State) (d : Dev) (j : Nat) : DevicesOnly s (s.moveByte d j) := by
  unfold State.moveByte
  split
  · exact .refl s
  · split
    · exact .refl s
    · exact (DevicesOnly.placeByte s d _ j _).trans (.setCtl _ _ _)

theorem DevicesOnly.moveBytes (s : State) (d : Dev) (now : Nat → Bool) (n : Nat) :
    DevicesOnly s (s.moveBytes d now n) := by
  induction n with
  | zero => exact .refl s
  | succ n ih =>
    simp only [State.moveBytes]
    split
    · exact ih.trans (.moveByte _ _ _)
    · exact ih

theorem DevicesOnly.emit (s : State) (bytes : List Byte) (d : Dev) : DevicesOnly s (s.emit bytes d) := by
  cases d
  · exact .setIo s _
  · exact .setIo s _
  · exact .refl s
  · exact .refl s

theorem DevicesOnly.setInputPos (s : State) (pos : Nat) (d : Dev) :
    DevicesOnly s (s.setInputPos pos d) := by
  cases d
  · exact .setIo s _
  · exact .refl s
  · exact .refl s
  · exact .refl s

theorem DevicesOnly.setHead (s : State) (track : Nat) (d : Dev) : DevicesOnly s (s.setHead track d) := by
  cases d
  · exact .refl s
  · exact .refl s
  · exact .setIo s _
  · exact .refl s

theorem DevicesOnly.finishOp (s : State) (d : Dev) (op : DevOp) : DevicesOnly s (s.finishOp d op).1 := by
  unfold State.finishOp
  split
  · exact .refl s
  · split
    · exact .setHead s _ _
    · exact .emit s _ _
    · exact (DevicesOnly.setMem s _ (Memory.writeWord_wf _ _ _)).trans (.setInputPos _ _ _)
    · exact .refl s

theorem DevicesOnly.completeOp (s : State) (d : Dev) : DevicesOnly s (s.completeOp d) := by
  unfold State.completeOp
  split
  · exact .refl s
  · exact (((DevicesOnly.moveBytes s d _ _).trans (.finishOp _ d _)).trans
      (.setMem _ _ (Memory.writeWord_wf _ _ _))).trans (.setCtl _ _ _)

theorem DevicesOnly.moveSome (draw : Nat) (s : State) (d : Dev) : DevicesOnly s (s.moveSome draw d) := by
  unfold State.moveSome
  split
  · exact .refl s
  · split
    · exact .moveBytes s d _ _
    · exact .refl s

theorem DevicesOnly.pollDevice (s : State) (d : Dev) : DevicesOnly s (s.pollDevice d) := by
  unfold State.pollDevice
  split
  · exact .refl s
  · split
    · exact .completeOp s d
    · exact .moveSome s.draw s d

/-- The controllers' share of a step touches memory and the devices alone (R358). -/
theorem DevicesOnly.pollDevices (s : State) : DevicesOnly s s.pollDevices := by
  unfold State.pollDevices
  generalize Dev.all = ds
  induction ds generalizing s with
  | nil => exact .refl s
  | cons d ds ih => exact (DevicesOnly.pollDevice s d).trans (ih _)

@[simp] theorem State.pollDevices_cfg (s : State) : s.pollDevices.cfg = s.cfg :=
  (DevicesOnly.pollDevices s).cfg

@[simp] theorem State.pollDevices_cpu (s : State) : s.pollDevices.cpu = s.cpu :=
  (DevicesOnly.pollDevices s).cpu

@[simp] theorem State.pollDevices_tdck (s : State) : s.pollDevices.tdck = s.tdck :=
  (DevicesOnly.pollDevices s).tdck

@[simp] theorem State.pollDevices_it (s : State) : s.pollDevices.it = s.it :=
  (DevicesOnly.pollDevices s).it

@[simp] theorem State.pollDevices_clockReq (s : State) : s.pollDevices.clockReq = s.clockReq :=
  (DevicesOnly.pollDevices s).clockReq

@[simp] theorem State.pollDevices_run (s : State) : s.pollDevices.run = s.run :=
  (DevicesOnly.pollDevices s).run

@[simp] theorem State.pollDevices_console (s : State) : s.pollDevices.console = s.console :=
  (DevicesOnly.pollDevices s).console

@[simp] theorem State.pollDevices_draw (s : State) : s.pollDevices.draw = s.draw :=
  (DevicesOnly.pollDevices s).draw

@[simp] theorem State.pollDevices_still (s : State) : s.pollDevices.still = s.still :=
  (DevicesOnly.pollDevices s).still

@[simp] theorem State.pollDevices_since (s : State) : s.pollDevices.since = s.since :=
  (DevicesOnly.pollDevices s).since

/-- A valid buffer is empty or lies below MEMSIZE (R366). -/
theorem bufferValid_iff (g : Config) (buf : Word) (len : Nat) :
    bufferValid g buf len = true ↔ len = 0 ∨ buf.toNat + len ≤ g.memsize := by
  simp [bufferValid]

/-! ### Entries -/

/-- The Old region is what an entry writes. -/
theorem State.enter_mem (s : State) (area : Nat) (code : Word) :
    (s.enter area code).mem =
      s.mem.writeWords area (({ s.cpu with ps2 := code } : ProcState).words s.cfg.ps1Layout) := by
  simp only [State.enter, State.loadState, State.install_mem, State.storeState_mem]

/-- An entry keeps memory canonical. -/
theorem enter_wf (s : State) (area : Nat) (code : Word) (h : s.mem.wf = true) :
    (s.enter area code).mem.wf = true := by
  rw [State.enter_mem]; exact Memory.writeWords_wf _ _ _ h

theorem takeTrap_wf (s : State) (trap : Trap) (h : s.mem.wf = true) : (s.takeTrap trap).mem.wf = true := by
  rw [State.takeTrap]; exact enter_wf s _ _ h

/-- An entry keeps memory below a bound that lies above the area. -/
theorem enter_below (s : State) (area : Nat) (code : Word) (n : Nat) (h : s.mem.below n = true)
    (ha : area + 24 ≤ n) : (s.enter area code).mem.below n = true := by
  rw [State.enter_mem]
  exact Memory.writeWords_below _ n s.mem area h (by simpa [ProcState.words] using ha)

/-- Memory after reset is canonical: nothing is listed. -/
theorem State.reset_mem_wf : State.reset.mem.wf = true := rfl

end Sys2Proof.Machine
end

