-- ==== Sys2Proof/Laws/Moves.lean ====
section
/-! SUPPORT. What the controllers do between two accesses of an instruction: they move bytes of transfers
that are going on, and change nothing else. -/

namespace Sys2Proof.Machine

/-- What moving bytes of transfers can do: memory changes in the buffers of transfers into memory alone,
sectors change but no head moves, and the controllers record the bytes moved. -/
structure Moves (s t : State) : Prop where
  cfg : t.cfg = s.cfg
  cpu : t.cpu = s.cpu
  tdck : t.tdck = s.tdck
  it : t.it = s.it
  clockReq : t.clockReq = s.clockReq
  run : t.run = s.run
  console : t.console = s.console
  still : t.still = s.still
  since : t.since = s.since
  draw : s.draw ≤ t.draw
  terms : t.io.terms = s.io.terms
  prints : t.io.prints = s.io.prints
  heads : ∀ i : Fin 4, t.io.disks[i].head = s.io.disks[i].head
  unmoved : ∀ k : Fin 15, (t.io.ctl[k]).unmoved = (s.io.ctl[k]).unmoved
  wf : s.mem.wf = true → t.mem.wf = true
  mem : s.mem.wf = true → ∀ a, ¬ s.arriving a → t.mem.read a = s.mem.read a

/-! ### What depends on the controllers but for the bytes moved -/

/-- The operations of controllers that agree but for the bytes moved agree but for them. -/
theorem DevCtl.busy_of_unmoved {c c' : DevCtl} {op' : DevOp} (h : c'.unmoved = c.unmoved)
    (hb : c'.busy = some op') : ∃ op, c.busy = some op ∧ op' = { op with moved := op'.moved } := by
  simp only [DevCtl.unmoved, DevCtl.mk.injEq, hb, Option.map_some] at h
  obtain ⟨h, _, _⟩ := h
  obtain ⟨op, ho, he⟩ := Option.map_eq_some_iff.1 h.symm
  refine ⟨op, ho, ?_⟩
  cases op; cases op'
  simp only [DevOp.mk.injEq] at he ⊢
  obtain ⟨h1, h2, h3, h4, h5, h6, -⟩ := he
  exact ⟨h1.symm, h2.symm, h3.symm, h4.symm, h5.symm, h6.symm, trivial⟩

theorem State.lineOf_congr {s t : State} (hc : t.cfg = s.cfg) (ht : t.io.terms = s.io.terms) (d : Dev) :
    t.lineOf d = s.lineOf d := by
  cases d <;> simp only [State.lineOf, hc, ht]

theorem State.transferLength_congr {s t : State} (hc : t.cfg = s.cfg) (ht : t.io.terms = s.io.terms)
    (d : Dev) (op op' : DevOp) (ho : op' = { op with moved := op'.moved }) :
    t.transferLength d op' = s.transferLength d op := by
  rw [ho]
  simp only [State.transferLength, State.lineOf_congr hc ht]

/-- States whose controllers agree but for the bytes moved have the same transfers into memory. -/
theorem State.arriving_congr {s t : State} (hc : t.cfg = s.cfg) (ht : t.io.terms = s.io.terms)
    (hu : ∀ k : Fin 15, (t.io.ctl[k]).unmoved = (s.io.ctl[k]).unmoved) {a : Nat} (h : t.arriving a) :
    s.arriving a := by
  obtain ⟨d, op', hb, hg, hk, hlo, hhi⟩ := h
  obtain ⟨op, ho, he⟩ := DevCtl.busy_of_unmoved (hu d.slot) hb
  refine ⟨d, op, ho, ?_, ?_, ?_, ?_⟩
  · rw [he] at hg; exact hg
  · rw [he] at hk; exact hk
  · rw [he] at hlo; exact hlo
  · rw [State.transferLength_congr hc ht d op op' he, he] at hhi; exact hhi

theorem Dev.mem_all (d : Dev) : d ∈ Dev.all := by
  cases d with
  | terminal i => revert i; decide
  | printer i => revert i; decide
  | disk i => revert i; decide
  | drum i => revert i; decide

theorem State.quiet_iff (s : State) :
    s.quiet = true ↔ ∀ (d : Dev) (op : DevOp), s.io.ctl[d.slot].busy = some op → op.begun = false := by
  simp only [State.quiet, List.all_eq_true, Bool.not_eq_true', Option.any_eq_false]
  constructor
  · intro h d op ho
    simpa using h d d.mem_all op ho
  · intro h d _ op ho
    simpa using h d op ho

theorem State.quiet_congr {s t : State}
    (hu : ∀ k : Fin 15, (t.io.ctl[k]).unmoved = (s.io.ctl[k]).unmoved) (h : s.quiet = true) :
    t.quiet = true := by
  rw [State.quiet_iff] at h ⊢
  intro d op' hb
  obtain ⟨op, ho, he⟩ := DevCtl.busy_of_unmoved (hu d.slot) hb
  rw [he]; exact h d op ho

/-! ### Composition -/

theorem Moves.refl (s : State) : Moves s s where
  cfg := rfl
  cpu := rfl
  tdck := rfl
  it := rfl
  clockReq := rfl
  run := rfl
  console := rfl
  still := rfl
  since := rfl
  draw := Nat.le_refl _
  terms := rfl
  prints := rfl
  heads _ := rfl
  unmoved _ := rfl
  wf := id
  mem _ _ _ := rfl

theorem Moves.arriving {s t : State} (h : Moves s t) {a : Nat} (ha : t.arriving a) : s.arriving a :=
  State.arriving_congr h.cfg h.terms h.unmoved ha

theorem Moves.trans {s t u : State} (h : Moves s t) (k : Moves t u) : Moves s u where
  cfg := k.cfg.trans h.cfg
  cpu := k.cpu.trans h.cpu
  tdck := k.tdck.trans h.tdck
  it := k.it.trans h.it
  clockReq := k.clockReq.trans h.clockReq
  run := k.run.trans h.run
  console := k.console.trans h.console
  still := k.still.trans h.still
  since := k.since.trans h.since
  draw := Nat.le_trans h.draw k.draw
  terms := k.terms.trans h.terms
  prints := k.prints.trans h.prints
  heads i := (k.heads i).trans (h.heads i)
  unmoved i := (k.unmoved i).trans (h.unmoved i)
  wf hw := k.wf (h.wf hw)
  mem hw a ha := (k.mem (h.wf hw) a (fun hr => ha (h.arriving hr))).trans (h.mem hw a ha)

theorem Moves.of_devices {s t : State} (h : DevicesOnly s t) (ht : t.io.terms = s.io.terms)
    (hp : t.io.prints = s.io.prints) (hh : ∀ i : Fin 4, t.io.disks[i].head = s.io.disks[i].head)
    (hu : ∀ k : Fin 15, (t.io.ctl[k]).unmoved = (s.io.ctl[k]).unmoved)
    (hm : s.mem.wf = true → ∀ a, ¬ s.arriving a → t.mem.read a = s.mem.read a) : Moves s t :=
  ⟨h.cfg, h.cpu, h.tdck, h.it, h.clockReq, h.run, h.console, h.still, h.since, Nat.le_of_eq h.draw.symm,
    ht, hp, hh, hu, h.wf, hm⟩

/-! ### Moving bytes -/

/-- What putting down a byte leaves of the devices. -/
theorem State.placeByte_io (s : State) (d : Dev) (op : DevOp) (j : Nat) (b : Byte) :
    (s.placeByte d op j b).io.terms = s.io.terms ∧ (s.placeByte d op j b).io.prints = s.io.prints ∧
      (s.placeByte d op j b).io.ctl = s.io.ctl ∧
      ∀ i : Fin 4, (s.placeByte d op j b).io.disks[i].head = s.io.disks[i].head := by
  unfold State.placeByte
  split
  · exact ⟨rfl, rfl, rfl, fun _ => rfl⟩
  · exact ⟨rfl, rfl, rfl, fun _ => rfl⟩
  · cases d with
    | disk k =>
      refine ⟨rfl, rfl, rfl, fun i => ?_⟩
      simp only [State.writeSector, Fin.getElem_fin, Vector.getElem_set]
      split
      · rename_i h; simp only [h]
      · rfl
    | _ => exact ⟨rfl, rfl, rfl, fun _ => rfl⟩
  · exact ⟨rfl, rfl, rfl, fun _ => rfl⟩

/-- Replacing a controller by one that agrees with it but for the bytes moved. -/
theorem State.setCtl_unmoved (s : State) (d : Dev) (c : DevCtl) (h : c.unmoved = (s.io.ctl[d.slot]).unmoved)
    (k : Fin 15) : ((s.setCtl d c).io.ctl[k]).unmoved = (s.io.ctl[k]).unmoved := by
  simp only [State.setCtl, Fin.getElem_fin, Vector.getElem_set]
  split
  · rename_i e; simp only [← e]; exact h
  · rfl

/-- Moving one byte of a transfer that is going on. -/
theorem Moves.moveByte {s : State} {d : Dev} {op : DevOp} {j : Nat} (hb : s.io.ctl[d.slot].busy = some op)
    (hg : op.begun = true) (hj : j < s.transferLength d op) : Moves s (s.moveByte d j) := by
  unfold State.moveByte
  rw [hb]
  dsimp only
  split
  · exact .refl s
  · obtain ⟨h1, h2, h3, h4⟩ := State.placeByte_io s d op j (s.transferByte d op j)
    refine .of_devices ((DevicesOnly.placeByte s d op j _).trans (.setCtl _ _ _)) h1 h2 h4 ?_ ?_
    · intro k
      rw [State.setCtl_unmoved _ _ _ _ k, h3]
      rw [h3]
      simp only [DevCtl.unmoved, hb, Option.map_some]
    · intro hw a ha
      change (s.placeByte d op j _).mem.read a = _
      unfold State.placeByte
      split
      · rename_i hk
        change (s.mem.write _ _).read a = _
        rw [Memory.read_write _ _ _ _ hw, if_neg]
        rintro rfl
        exact ha ⟨d, op, hb, hg, .inl hk, Nat.le_add_right _ _, Nat.add_lt_add_left hj _⟩
      · rename_i hk
        change (s.mem.write _ _).read a = _
        rw [Memory.read_write _ _ _ _ hw, if_neg]
        rintro rfl
        exact ha ⟨d, op, hb, hg, .inr hk, Nat.le_add_right _ _, Nat.add_lt_add_left hj _⟩
      · cases d <;> rfl
      · rfl

/-- Moving bytes of one transfer that is going on. -/
theorem Moves.moveBytes {s : State} {d : Dev} {op : DevOp} (hb : s.io.ctl[d.slot].busy = some op)
    (hg : op.begun = true) (now : Nat → Bool) (n : Nat) (hn : n ≤ s.transferLength d op) :
    Moves s (s.moveBytes d now n) := by
  induction n with
  | zero => exact .refl s
  | succ n ih =>
    have h := ih (by omega)
    simp only [State.moveBytes]
    split
    · obtain ⟨op', ho, he⟩ := DevCtl.busy_of_unmoved (h.unmoved d.slot).symm hb
      refine h.trans (Moves.moveByte ho ?_ ?_)
      · rw [he] at hg; exact hg
      · rw [← State.transferLength_congr h.cfg.symm h.terms.symm d op' op he]; omega
    · exact h

/-- Moving the bytes of one controller whose instant has come (R112). -/
theorem Moves.moveSome (draw : Nat) (s : State) (d : Dev) : Moves s (s.moveSome draw d) := by
  unfold State.moveSome
  split
  · exact .refl s
  · rename_i op hb
    split
    · rename_i hg; exact Moves.moveBytes hb hg _ _ (Nat.le_refl _)
    · exact .refl s

/-- With no transfer going on nothing happens between two accesses. -/
theorem State.race_quiet {s : State} (h : s.quiet = true) : s.race = s := by
  unfold State.race; rw [if_pos h]

/-- The instant between two accesses moves bytes of transfers that are going on (R107). -/
theorem Moves.race (s : State) : Moves s s.race := by
  unfold State.race
  split
  · exact .refl s
  · have h : ∀ (ds : List Dev) (u : State), Moves u (ds.foldl (State.moveSome s.draw) u) ∧
        (ds.foldl (State.moveSome s.draw) u).draw = u.draw := by
      intro ds
      induction ds with
      | nil => exact fun u => ⟨.refl u, rfl⟩
      | cons d ds ih =>
        exact fun u => ⟨(Moves.moveSome s.draw u d).trans (ih _).1,
          ((ih _).2).trans (DevicesOnly.moveSome s.draw u d).draw⟩
    obtain ⟨h, _⟩ := h Dev.all s
    generalize Dev.all.foldl (State.moveSome s.draw) s = u at h
    exact ⟨h.cfg, h.cpu, h.tdck, h.it, h.clockReq, h.run, h.console, h.still, h.since, Nat.le_succ _,
      h.terms, h.prints, h.heads, h.unmoved, h.wf, h.mem⟩

theorem Moves.races (n : Nat) : ∀ s : State, Moves s (s.races n) := by
  induction n with
  | zero => exact .refl
  | succ n ih => exact fun s => (Moves.race s).trans (ih _)

/-- What the controllers move while an instruction runs that is then undone. -/
theorem Moves.meanwhile (s : State) (draw : Nat) : Moves s (s.meanwhile draw) := .races _ s

theorem State.races_quiet {s : State} (h : s.quiet = true) (n : Nat) : s.races n = s := by
  induction n with
  | zero => rfl
  | succ n ih => rw [State.races, State.race_quiet h, ih]

/-- With no transfer going on an instruction that is undone leaves no trace. -/
theorem State.meanwhile_quiet {s : State} (h : s.quiet = true) (draw : Nat) : s.meanwhile draw = s :=
  State.races_quiet h _

@[simp] theorem State.race_cfg (s : State) : s.race.cfg = s.cfg := (Moves.race s).cfg

@[simp] theorem State.race_cpu (s : State) : s.race.cpu = s.cpu := (Moves.race s).cpu

@[simp] theorem State.race_reg (s : State) (r : Reg) : s.race.reg r = s.reg r := by
  simp only [State.reg, State.race_cpu]

@[simp] theorem State.race_tdck (s : State) : s.race.tdck = s.tdck := (Moves.race s).tdck

@[simp] theorem State.race_it (s : State) : s.race.it = s.it := (Moves.race s).it

@[simp] theorem State.race_run (s : State) : s.race.run = s.run := (Moves.race s).run

@[simp] theorem State.race_console (s : State) : s.race.console = s.console := (Moves.race s).console

@[simp] theorem State.race_suspected (s : State) (size : Size) (kind : Access) (va : Word) :
    s.race.suspected size kind va = s.suspected size kind va := by
  simp only [State.suspected, State.race_console]

@[simp] theorem State.meanwhile_cfg (s : State) (n : Nat) : (s.meanwhile n).cfg = s.cfg :=
  (Moves.meanwhile s n).cfg

@[simp] theorem State.meanwhile_cpu (s : State) (n : Nat) : (s.meanwhile n).cpu = s.cpu :=
  (Moves.meanwhile s n).cpu

@[simp] theorem State.meanwhile_self (s : State) : s.meanwhile s.draw = s := by
  simp [State.meanwhile, State.races]

/-! ### The registers play no part -/

/-- The machine with another Processor State. -/
def State.withCpu (s : State) (p : ProcState) : State := { s with cpu := p }

theorem State.placeByte_withCpu (s : State) (p : ProcState) (d : Dev) (op : DevOp) (j : Nat) (b : Byte) :
    (s.withCpu p).placeByte d op j b = (s.placeByte d op j b).withCpu p := by
  unfold State.placeByte
  split
  · rfl
  · rfl
  · cases d <;> rfl
  · rfl

theorem State.moveByte_withCpu (s : State) (p : ProcState) (d : Dev) (j : Nat) :
    (s.withCpu p).moveByte d j = (s.moveByte d j).withCpu p := by
  unfold State.moveByte
  change (match s.io.ctl[d.slot].busy with
    | none => s.withCpu p
    | some op => _) = _
  cases hb : s.io.ctl[d.slot].busy with
  | none => rfl
  | some op =>
    dsimp only
    split
    · rfl
    · rw [State.placeByte_withCpu]; rfl

theorem State.moveBytes_withCpu (s : State) (p : ProcState) (d : Dev) (now : Nat → Bool) (n : Nat) :
    (s.withCpu p).moveBytes d now n = (s.moveBytes d now n).withCpu p := by
  induction n with
  | zero => rfl
  | succ n ih =>
    simp only [State.moveBytes, ih]
    split
    · exact State.moveByte_withCpu _ _ _ _
    · rfl

theorem State.moveSome_withCpu (draw : Nat) (s : State) (p : ProcState) (d : Dev) :
    (s.withCpu p).moveSome draw d = (s.moveSome draw d).withCpu p := by
  unfold State.moveSome
  change (match s.io.ctl[d.slot].busy with
    | none => s.withCpu p
    | some op => _) = _
  cases hb : s.io.ctl[d.slot].busy with
  | none => rfl
  | some op =>
    dsimp only
    split
    · exact State.moveBytes_withCpu _ _ _ _ _
    · rfl

/-- The controllers move the same bytes whatever the registers hold. -/
theorem State.race_withCpu (s : State) (p : ProcState) : (s.withCpu p).race = s.race.withCpu p := by
  have h : ∀ (ds : List Dev) (u : State), ds.foldl (State.moveSome s.draw) (u.withCpu p) =
      (ds.foldl (State.moveSome s.draw) u).withCpu p := by
    intro ds
    induction ds with
    | nil => exact fun _ => rfl
    | cons d ds ih =>
      intro u
      rw [List.foldl_cons, State.moveSome_withCpu, ih]
      rfl
  unfold State.race
  change (if s.quiet = true then _ else _) = _
  split
  · rfl
  · change { Dev.all.foldl (State.moveSome s.draw) (s.withCpu p) with draw := s.draw + 1 } = _
    rw [h Dev.all s]
    rfl

theorem State.setReg_eq_withCpu (s : State) (r : Reg) (v : Word) :
    s.setReg r v = s.withCpu (s.cpu.setReg v r) := rfl

theorem State.race_setReg (s : State) (r : Reg) (v : Word) : (s.setReg r v).race = s.race.setReg r v := by
  rw [State.setReg_eq_withCpu, State.race_withCpu, State.setReg_eq_withCpu, State.race_cpu]

/-- A transfer into memory whose operation was checked lies in existing memory (R366). -/
theorem State.transfer_fits {s : State} {d : Dev} {op : DevOp}
    (hk : d.opKind op.code = some .sectorRead ∨ d.opKind op.code = some .lineRead)
    (hw : op.wf s.cfg d = true) :
    s.transferLength d op = 0 ∨ op.buf.toNat + s.transferLength d op ≤ s.cfg.memsize := by
  unfold DevOp.wf at hw
  unfold State.transferLength
  cases hf : op.failure with
  | some _ => exact .inl rfl
  | none =>
    rcases hk with hk | hk <;>
      simp only [hf, hk, bufferValid, OpKind.bufferLength, Bool.and_eq_true, Bool.or_eq_true] at hw ⊢ <;>
      rcases hw.1 with h | h <;> have h := of_decide_eq_true h
    · omega
    · exact .inr h
    all_goals
      have hl : (s.lineOf d).bytes.length ≤ s.cfg.upamount := by
        cases d with
        | terminal i => simp only [State.lineOf, lineRead, List.length_take]; omega
        | _ => simp [State.lineOf]
      omega

/-- What the controllers moved before one access. -/
@[simp] theorem State.meanwhile_race (s : State) : s.meanwhile s.race.draw = s.race := by
  unfold State.meanwhile
  by_cases h : s.quiet = true
  · rw [State.race_quiet h, State.races_quiet h]
  · have : s.race.draw = s.draw + 1 := by unfold State.race; rw [if_neg h]
    rw [this, show s.draw + 1 - s.draw = 1 by omega]
    rfl

/-- Moving bytes keeps what every step keeps. -/
theorem Moves.inv {s t : State} (h : Moves s t) (hi : s.Inv) : t.Inv where
  cfg := by rw [h.cfg]; exact hi.cfg
  canonical := h.wf hi.canonical
  bounded := by
    have hin : ∀ a, s.arriving a → a < s.cfg.memsize := by
      rintro a ⟨d, op, hb, _, hk, hlo, hhi⟩
      have hop := hi.ops
      simp only [State.opsWf, List.all_eq_true] at hop
      have hw := hop d d.mem_all
      rw [hb] at hw
      rcases State.transfer_fits hk hw with h0 | h1 <;> omega
    rw [h.cfg]
    simp only [Memory.below, List.all_eq_true, decide_eq_true_eq]
    intro c hc
    obtain ⟨k, b⟩ := c
    by_cases hlt : k < s.cfg.memsize
    · exact hlt
    · exfalso
      have hread := h.mem hi.canonical k (fun ha => hlt (hin k ha))
      rw [Memory.read_beyond s.mem s.cfg.memsize k hi.bounded (by omega)] at hread
      exact Memory.read_listed t.mem k b (h.wf hi.canonical) hc hread
  ops := by
    have hop := hi.ops
    simp only [State.opsWf, List.all_eq_true] at hop ⊢
    intro d hd
    cases hb : t.io.ctl[d.slot].busy with
    | none => rfl
    | some op' =>
      obtain ⟨op, ho, he⟩ := DevCtl.busy_of_unmoved (h.unmoved d.slot) hb
      have := hop d hd
      rw [ho] at this
      simp only [Option.all_some] at this ⊢
      rw [he, h.cfg]; exact this
  heads := by
    have hh := hi.heads
    simp only [State.headsWf, List.all_eq_true, decide_eq_true_eq] at hh ⊢
    intro d hd
    obtain ⟨i, hi', rfl⟩ := List.mem_iff_getElem.1 hd
    simp only [Vector.length_toList] at hi'
    have := h.heads ⟨i, hi'⟩
    simp only [Fin.getElem_fin] at this
    simp only [Vector.getElem_toList, this, h.cfg]
    exact hh _ (by simp)

end Sys2Proof.Machine
end

