-- ==== Sys2Proof/Laws/Exec.lean ====
section
/-! SUPPORT. The parts of an instruction: how they chain, what each primitive answers, and for each shared
operation one lemma that says all it can do when it answers. -/

namespace Sys2Proof.Machine

variable {α β : Type}

/-! ### Chaining -/

/-- A chain answers when both parts do. -/
theorem bind_ok {x : Exec α} {f : α → Exec β} {s t : State} {b : β} :
    (x >>= f) s = .ok (b, t) ↔ ∃ a u, x s = .ok (a, u) ∧ f a u = .ok (b, t) := by
  change (StateT.bind x f) s = _ ↔ _
  unfold StateT.bind
  cases h : x s with
  | error e => simp [bind, Except.bind]
  | ok p => obtain ⟨a, u⟩ := p; simp [bind, Except.bind]

/-- A chain whose first part answers goes on with the second. -/
theorem bind_of_ok {x : Exec α} {f : α → Exec β} {s u : State} {a : α} (h : x s = .ok (a, u)) :
    (x >>= f) s = f a u := by
  change (StateT.bind x f) s = _
  simp [StateT.bind, h, bind, Except.bind]

/-- A chain whose first part gives up gives up. -/
theorem bind_of_error {x : Exec α} {f : α → Exec β} {s : State} {e : Abort} (h : x s = .error e) :
    (x >>= f) s = .error e := by
  change (StateT.bind x f) s = _
  simp [StateT.bind, h, bind, Except.bind]

@[simp] theorem pure_apply (a : α) (s : State) : (pure a : Exec α) s = .ok (a, s) := rfl

@[simp] theorem peek_apply (f : State → α) (s : State) : peek f s = .ok (f s, s) := rfl

@[simp] theorem update_apply (f : State → State) (s : State) : update f s = .ok ((), f s) := rfl

@[simp] theorem getReg_apply (r : Reg) (s : State) : getReg r s = .ok (s.reg r, s) := rfl

@[simp] theorem putReg_apply (r : Reg) (v : Word) (s : State) :
    putReg r v s = .ok ((), s.setReg r v) := rfl

@[simp] theorem putCc_apply (cc : Cc) (s : State) : putCc cc s = .ok ((), s.setCc cc) := rfl

@[simp] theorem getCc_apply (s : State) : getCc s = .ok (s.cpu.ps1.cc, s) := rfl

@[simp] theorem raise_apply (t : Trap) (s : State) : (raise t : Exec α) s = .error (.trap t s.draw) :=
  rfl

@[simp] theorem raiseProgram_apply (c : ProgCode) (s : State) :
    (raiseProgram c : Exec α) s = .error (.trap (.program c) s.draw) := rfl

@[simp] theorem getPair_apply (r : Reg) (s : State) :
    getPair r s = .ok (s.reg r ++ s.reg (pairLow r), s) := rfl

@[simp] theorem putPair_apply (r : Reg) (v : DWord) (s : State) :
    putPair r v s =
      .ok ((), (s.setReg r (v.extractLsb' 16 16)).setReg (pairLow r) (v.extractLsb' 0 16)) := rfl

/-! ### Memory -/

/-- `physRead` answers what is stored, where memory exists, and changes nothing (R81). -/
theorem physRead_ok {size : Size} {pa : Word} {s t : State} {v : BitVec size.bits} :
    physRead size pa s = .ok (v, t) ↔ pa.toNat < s.cfg.memsize ∧ v = s.load pa size ∧ t = s := by
  unfold physRead
  split
  · rename_i h
    simp only [Except.ok.injEq, Prod.mk.injEq, h, true_and]
    exact ⟨fun ⟨a, b⟩ => ⟨a.symm, b.symm⟩, fun ⟨a, b⟩ => ⟨a.symm, b.symm⟩⟩
  · simp_all

/-- `physWrite` stores where memory exists (R82). -/
theorem physWrite_ok {size : Size} {pa : Word} {v : BitVec size.bits} {s t : State} :
    physWrite size pa v s = .ok ((), t) ↔ pa.toNat < s.cfg.memsize ∧ t = s.store pa size v := by
  unfold physWrite
  split
  · rename_i h
    simp only [Except.ok.injEq, Prod.mk.injEq, h, true_and]
    exact ⟨fun a => a.symm, fun a => a.symm⟩
  · simp_all

/-- `translate` answers the address in the page frame and marks the page descriptor (R95, R96). -/
theorem translate_ok {kind : Access} {va pa : Word} {s t : State} :
    translate kind va s = .ok (pa, t) ↔ ∃ pda pd, walk s (some kind) va = .ok (pda, pd) ∧
      pa = frameAddr s.cfg.pdLayout pd va ∧
      t = s.store pda .word (pdMark s.cfg.pdLayout (decide (kind = .write)) pd) := by
  unfold translate
  split
  · rename_i h; simp [h]
  · rename_i pda pd h
    simp only [Except.ok.injEq, Prod.mk.injEq, h, Except.ok.injEq]
    constructor
    · rintro ⟨rfl, rfl⟩; exact ⟨pda, pd, ⟨rfl, rfl⟩, rfl, rfl⟩
    · rintro ⟨_, _, ⟨rfl, rfl⟩, rfl, rfl⟩; exact ⟨rfl, rfl⟩

/-- What a walk that answers has found: a present page of a present segment that permits the access, its
descriptor at an even address of existing memory (R97). -/
theorem walk_ok {kind : Option Access} {va pda pd : Word} {s : State}
    (h : walk s kind va = .ok (pda, pd)) :
    pda.getLsbD 0 = false ∧ pda.toNat < s.cfg.memsize ∧ pd = s.mem.readWord pda.toNat ∧
      pdPresent s.cfg.pdLayout pd = true := by
  simp only [walk] at h
  split at h
  · cases h
  · split at h
    · cases h
    · split at h
      · cases h
      · split at h
        · cases h
        · split at h
          · cases h
          · split at h
            · cases h
            · split at h
              · cases h
              · split at h
                · cases h
                · cases h
                  simp_all

/-- `resolve` answers an aligned address that no suspect stops: the address itself with mapping off, the
translated one with mapping on (R84, R85). -/
theorem resolve_ok {size : Size} {kind : Access} {va pa : Word} {s t : State} :
    resolve size kind va s = .ok (pa, t) ↔ misaligned size va = false ∧ s.suspected size kind va = false ∧
      ((s.cpu.ps1.m = true ∧ translate kind va s = .ok (pa, t)) ∨
        (s.cpu.ps1.m = false ∧ pa = va ∧ t = s)) := by
  unfold resolve
  cases h1 : misaligned size va <;> cases h2 : s.suspected size kind va <;>
    cases h3 : s.cpu.ps1.m <;> simp
  exact ⟨fun ⟨a, b⟩ => ⟨a.symm, b.symm⟩, fun ⟨a, b⟩ => ⟨a.symm, b.symm⟩⟩

/-- An instant passes, and the access goes on from there. -/
theorem instant_bind {f : Unit → Exec α} (s : State) : (instant >>= f) s = f () s.race := rfl

/-- `memRead` answers the byte or word at the resolved address, after an instant for the controllers. -/
theorem memRead_ok {size : Size} {kind : Access} {va : Word} {s t : State} {v : BitVec size.bits} :
    memRead size kind va s = .ok (v, t) ↔ ∃ pa, resolve size kind va s.race = .ok (pa, t) ∧
      pa.toNat < t.cfg.memsize ∧ v = t.load pa size := by
  unfold memRead
  rw [instant_bind, bind_ok]
  constructor
  · rintro ⟨pa, u, h, hp⟩
    obtain ⟨h1, h2, rfl⟩ := physRead_ok.1 hp
    exact ⟨pa, h, h1, h2⟩
  · rintro ⟨pa, h, h1, h2⟩
    exact ⟨pa, t, h, physRead_ok.2 ⟨h1, h2, rfl⟩⟩

/-- `memWrite` stores at the resolved address, after an instant for the controllers. -/
theorem memWrite_ok {size : Size} {va : Word} {v : BitVec size.bits} {s t : State} :
    memWrite size va v s = .ok ((), t) ↔ ∃ pa u, resolve size .write va s.race = .ok (pa, u) ∧
      pa.toNat < u.cfg.memsize ∧ t = u.store pa size v := by
  unfold memWrite
  rw [instant_bind, bind_ok]
  simp only [physWrite_ok]

/-- A resolution changes no register. -/
theorem resolve_cpu {size : Size} {kind : Access} {va pa : Word} {s t : State}
    (h : resolve size kind va s = .ok (pa, t)) : t.cpu = s.cpu := by
  obtain ⟨_, _, ⟨_, ht⟩ | ⟨_, _, rfl⟩⟩ := resolve_ok.1 h
  · obtain ⟨_, _, _, _, rfl⟩ := translate_ok.1 ht
    simp
  · rfl

/-- A read changes no register. -/
theorem memRead_cpu {size : Size} {kind : Access} {va : Word} {s t : State} {v : BitVec size.bits}
    (h : memRead size kind va s = .ok (v, t)) : t.cpu = s.cpu := by
  obtain ⟨pa, hr, _, _⟩ := memRead_ok.1 h
  rw [resolve_cpu hr, State.race_cpu]

/-- A write changes no register. -/
theorem memWrite_cpu {size : Size} {va : Word} {v : BitVec size.bits} {s t : State}
    (h : memWrite size va v s = .ok ((), t)) : t.cpu = s.cpu := by
  obtain ⟨pa, u, hr, _, rfl⟩ := memWrite_ok.1 h
  rw [State.store_cpu, resolve_cpu hr, State.race_cpu]

/-! ### With mapping off -/

/-- An access with mapping off, no suspect in its way and no transfer going on, at an address that exists
and is aligned. -/
structure Plain (s : State) (size : Size) (kind : Access) (va : Word) : Prop where
  unmapped : s.cpu.ps1.m = false
  unsuspected : s.suspected size kind va = false
  aligned : misaligned size va = false
  exist : va.toNat < s.cfg.memsize
  quiet : s.quiet = true

theorem resolve_plain {size : Size} {kind : Access} {va : Word} {s : State} (h : Plain s size kind va) :
    resolve size kind va s = .ok (va, s) :=
  resolve_ok.2 ⟨h.aligned, h.unsuspected, .inr ⟨h.unmapped, rfl, rfl⟩⟩

theorem memRead_plain {size : Size} {kind : Access} {va : Word} {s : State} (h : Plain s size kind va) :
    memRead size kind va s = .ok (s.load va size, s) :=
  memRead_ok.2 ⟨va, by rw [State.race_quiet h.quiet]; exact resolve_plain h, h.exist, rfl⟩

theorem memWrite_plain {size : Size} {va : Word} {v : BitVec size.bits} {s : State}
    (h : Plain s size .write va) : memWrite size va v s = .ok ((), s.store va size v) :=
  memWrite_ok.2 ⟨va, s, by rw [State.race_quiet h.quiet]; exact resolve_plain h, h.exist, rfl⟩

/-- With mapping off a read changes nothing but what the controllers move. -/
theorem memRead_unmapped {size : Size} {kind : Access} {va : Word} {s t : State} {v : BitVec size.bits}
    (hm : s.cpu.ps1.m = false) (h : memRead size kind va s = .ok (v, t)) :
    t = s.race ∧ va.toNat < s.cfg.memsize ∧ v = s.race.load va size := by
  obtain ⟨pa, hr, hlt, hv⟩ := memRead_ok.1 h
  obtain ⟨_, _, ⟨hm', _⟩ | ⟨_, rfl, rfl⟩⟩ := resolve_ok.1 hr
  · rw [State.race_cpu, hm] at hm'; cases hm'
  · exact ⟨rfl, by simpa using hlt, hv⟩

/-- With mapping off a write stores at its address. -/
theorem memWrite_unmapped {size : Size} {va : Word} {v : BitVec size.bits} {s t : State}
    (hm : s.cpu.ps1.m = false) (h : memWrite size va v s = .ok ((), t)) :
    va.toNat < s.cfg.memsize ∧ t = s.race.store va size v := by
  obtain ⟨pa, u, hr, hlt, ht⟩ := memWrite_ok.1 h
  obtain ⟨_, _, ⟨hm', _⟩ | ⟨_, rfl, rfl⟩⟩ := resolve_ok.1 hr
  · rw [State.race_cpu, hm] at hm'; cases hm'
  · exact ⟨by simpa using hlt, ht⟩

/-! ### Fetch and the stack -/

/-- `fetchWord` reads at PC and steps it (R151). -/
theorem fetchWord_ok {s t : State} {w : Word} :
    fetchWord s = .ok (w, t) ↔ ∃ u, memRead .word .execute s.cpu.pc s = .ok (w, u) ∧
      t = u.setReg .pc (s.cpu.pc + 2) := by
  unfold fetchWord
  rw [bind_of_ok (getReg_apply .pc s), bind_ok]
  constructor
  · rintro ⟨a, u, h1, h2⟩
    rw [bind_of_ok (putReg_apply _ _ _), pure_apply] at h2
    cases h2
    exact ⟨u, h1, rfl⟩
  · rintro ⟨u, h1, rfl⟩
    exact ⟨w, u, h1, by rw [bind_of_ok (putReg_apply _ _ _)]; rfl⟩

/-- `push` lowers SP by two and stores there (R183). -/
theorem push_ok {v : Word} {s t : State} :
    push v s = .ok ((), t) ↔
      memWrite .word (s.cpu.sp - 2) v (s.setReg .sp (s.cpu.sp - 2)) = .ok ((), t) := by
  unfold push
  rw [bind_of_ok (getReg_apply .sp s), bind_of_ok (putReg_apply _ _ _)]
  rfl

/-- `pop` reads at SP and raises it by two (R184). -/
theorem pop_ok {s t : State} {w : Word} :
    pop s = .ok (w, t) ↔ ∃ u, memRead .word .read s.cpu.sp s = .ok (w, u) ∧
      t = u.setReg .sp (s.cpu.sp + 2) := by
  unfold pop
  rw [bind_of_ok (getReg_apply .sp s), bind_ok]
  constructor
  · rintro ⟨a, u, h1, h2⟩
    rw [bind_of_ok (putReg_apply _ _ _), pure_apply] at h2
    cases h2
    exact ⟨u, h1, rfl⟩
  · rintro ⟨u, h1, rfl⟩
    exact ⟨w, u, h1, by rw [bind_of_ok (putReg_apply _ _ _)]; rfl⟩

/-- `topOfStack` reads at SP and leaves it. -/
theorem topOfStack_apply (s : State) : topOfStack s = memRead .word .read s.cpu.sp s :=
  bind_of_ok (getReg_apply .sp s)

/-- The privilege check passes in KERNEL mode and changes nothing (R196). -/
theorem privileged_kernel {s : State} (h : s.cpu.ps1.ku = true) : privileged s = .ok ((), s) := by
  simp [privileged, h]

theorem privileged_user {s : State} (h : s.cpu.ps1.ku = false) :
    privileged s = .error (.trap (.program .privileged) s.draw) := by
  simp [privileged, h]

/-! ### The transaction (R318) -/

/-- The ends of an instruction: what its body leaves, after the stack check; a trap taken from the state
before it; or a stop at a suspect. -/
theorem transact_cases (role : StackRole) (body : Exec Unit) (s : State) :
    (∃ s1 w s', fetchWord s = .ok (w, s1) ∧ body s1 = .ok ((), s') ∧
      transact role body s = .next (commit role s s')) ∨
    (∃ t n, transact role body s = .next ((s.meanwhile n).takeTrap t)) ∨
    ∃ n, transact role body s = .next ((s.meanwhile n).stopAt .susp true) := by
  unfold transact
  cases h : (fetchWord >>= fun _ => body) s with
  | ok p =>
    obtain ⟨u, s'⟩ := p
    obtain ⟨w, s1, h1, h2⟩ := bind_ok.1 h
    exact .inl ⟨s1, w, s', h1, h2, rfl⟩
  | error e =>
    cases e with
    | trap t n => exact .inr (.inl ⟨t, n, rfl⟩)
    | suspect n => exact .inr (.inr ⟨n, rfl⟩)

/-- An instruction whose fetch and body answer. -/
theorem transact_of_ok {role : StackRole} {body : Exec Unit} {s s1 s' : State} {w : Word}
    (hf : fetchWord s = .ok (w, s1)) (hb : body s1 = .ok ((), s')) :
    transact role body s = .next (commit role s s') := by
  unfold transact
  rw [bind_of_ok hf, hb]

/-- An instruction whose body is given up. -/
theorem transact_of_error {role : StackRole} {body : Exec Unit} {s s1 : State} {w : Word} {a : Abort}
    (hf : fetchWord s = .ok (w, s1)) (hb : body s1 = .error a) :
    transact role body s = .next (s.abandon a) := by
  unfold transact
  rw [bind_of_ok hf, hb]

/-- An instruction whose fetch is given up. -/
theorem transact_of_fetch_error {role : StackRole} {body : Exec Unit} {s : State} {a : Abort}
    (hf : fetchWord s = .error a) : transact role body s = .next (s.abandon a) := by
  unfold transact
  rw [bind_of_error hf]

/-- Where the stack check finds nothing, the end is what the body left (R332). -/
theorem commit_clear {role : StackRole} {s t : State} (h : StackClear role s t) :
    commit role s t = t := by
  unfold commit
  split
  · rename_i hc
    have := h hc
    rw [if_neg (by simp only [inRedZone, decide_eq_true_eq]; omega),
      if_neg (by simp only [inYellowZone, decide_eq_true_eq]; omega)]
  · rfl

/-- What the stack check makes of an end (R330, R331). -/
theorem commit_cases (role : StackRole) (s t : State) :
    commit role s t = t ∨ commit role s t = (s.meanwhile t.draw).takeTrap (.program .stackRed) ∨
      commit role s t = t.takeTrap (.program .stackYellow) := by
  unfold commit
  split
  · split
    · exact .inr (.inl rfl)
    · split
      · exact .inr (.inr rfl)
      · exact .inl rfl
  · exact .inl rfl

/-- An instruction whose fetch and body answer and whose stack is clear completes. -/
theorem transact_completes {role : StackRole} {body : Exec Unit} {s s1 s' : State}
    (hf : Fetches s s1) (hb : body s1 = .ok ((), s')) (hc : StackClear role s s') :
    transact role body s = .next s' := by
  obtain ⟨w, hf⟩ := hf
  rw [transact_of_ok hf hb, commit_clear hc]

/-- Whatever a body that answers establishes holds at the end, but for a trap or a suspect. -/
theorem transact_ends {role : StackRole} {body : Exec Unit} {s t : State} {P : State → Prop}
    (hp : ∀ s1 w s', fetchWord s = .ok (w, s1) → body s1 = .ok ((), s') → P s')
    (h : transact role body s = .next t) : Ends P s t := by
  rcases transact_cases role body s with ⟨s1, w, s', hf, hb, he⟩ | ⟨tr, n, he⟩ | ⟨n, he⟩
  · rw [he] at h
    cases h
    have hP := hp s1 w s' hf hb
    rcases commit_cases role s s' with hc | hc | hc <;> rw [hc]
    · exact .inl hP
    · exact .inr (.inl ⟨_, _, rfl⟩)
    · exact .inr (.inr (.inl ⟨s', hP, rfl⟩))
  · rw [he] at h; cases h; exact .inr (.inl ⟨tr, n, rfl⟩)
  · rw [he] at h; cases h; exact .inr (.inr (.inr ⟨n, rfl⟩))

/-- An instruction always answers a next state. -/
theorem transact_next (role : StackRole) (body : Exec Unit) (s : State) :
    ∃ t, transact role body s = .next t := by
  rcases transact_cases role body s with ⟨_, _, _, _, _, h⟩ | ⟨_, _, h⟩ | ⟨_, h⟩ <;>
    exact ⟨_, h⟩

end Sys2Proof.Machine
end

