-- ==== Sys2Proof/Laws/Reading.lean ====
section
/-! SUPPORT. What the reading parts of an instruction can change: the registers their modes step, PC, the
marks of the page descriptors used, and what the controllers move meanwhile. A relation that these stay within
holds of every reading part. -/

namespace Sys2Proof.Machine

variable {α β : Type}

/-- Whenever the part answers, its states are in the relation. -/
def Preserves (R : State → State → Prop) (m : Exec α) : Prop := ∀ s a t, m s = .ok (a, t) → R s t

/-- A relation that contains writing the registers named, marking a page descriptor that a translation uses,
and the instants between accesses. -/
structure Reading (regs : Reg → Prop) (R : State → State → Prop) : Prop where
  refl : ∀ s, R s s
  trans : ∀ {s t u}, R s t → R t u → R s u
  setReg : ∀ s r v, regs r → R s (s.setReg r v)
  race : ∀ s, R s s.race
  mark : ∀ s kind va pda pd, s.cpu.ps1.m = true → walk s (some kind) va = .ok (pda, pd) →
    R s (s.store pda .word (pdMark s.cfg.pdLayout (decide (kind = .write)) pd))

variable {regs : Reg → Prop} {R : State → State → Prop}

theorem Reading.pure (hR : Reading regs R) (a : α) : Preserves R (pure a : Exec α) := by
  intro s b t h; cases h; exact hR.refl s

theorem Reading.peek (hR : Reading regs R) (f : State → α) : Preserves R (peek f) := by
  intro s b t h; cases h; exact hR.refl s

theorem Reading.getReg (hR : Reading regs R) (r : Reg) : Preserves R (getReg r) := hR.peek _

theorem Reading.getCc (hR : Reading regs R) : Preserves R getCc := hR.peek _

theorem Reading.getPair (hR : Reading regs R) (r : Reg) : Preserves R (getPair r) := hR.peek _

theorem Reading.putReg (hR : Reading regs R) {r : Reg} (h : regs r) (v : Word) :
    Preserves R (putReg r v) := by
  intro s b t e; cases e; exact hR.setReg s r v h

theorem Preserves.raise (tr : Trap) : Preserves R (raise tr : Exec α) := by intro s b t h; cases h

theorem Reading.bind (hR : Reading regs R) {m : Exec α} {f : α → Exec β} (hm : Preserves R m)
    (hf : ∀ a, Preserves R (f a)) : Preserves R (m >>= f) := by
  intro s b t h
  obtain ⟨a, u, h1, h2⟩ := bind_ok.1 h
  exact hR.trans (hm s a u h1) (hf a u b t h2)

theorem Preserves.ite {c : Prop} [Decidable c] {m n : Exec α} (hm : Preserves R m)
    (hn : Preserves R n) : Preserves R (if c then m else n) := by
  split <;> assumption

theorem Reading.privileged (hR : Reading regs R) : Preserves R privileged := by
  intro s a t h
  unfold Machine.privileged at h
  split at h
  · cases h; exact hR.refl s
  · cases h

theorem Reading.resolve (hR : Reading regs R) (size : Size) (kind : Access) (va : Word) :
    Preserves R (resolve size kind va) := by
  intro s pa t h
  obtain ⟨_, _, ⟨hm, ht⟩ | ⟨_, _, rfl⟩⟩ := resolve_ok.1 h
  · obtain ⟨pda, pd, hw, _, rfl⟩ := translate_ok.1 ht
    exact hR.mark s kind va pda pd hm hw
  · exact hR.refl _

theorem Reading.memRead (hR : Reading regs R) (size : Size) (kind : Access) (va : Word) :
    Preserves R (memRead size kind va) := by
  intro s v t h
  obtain ⟨pa, hr, _, _⟩ := memRead_ok.1 h
  exact hR.trans (hR.race s) (hR.resolve size kind va _ pa t hr)

theorem Reading.fetchWord (hR : Reading regs R) (hpc : regs .pc) : Preserves R fetchWord :=
  hR.bind (hR.getReg _) (fun _ => hR.bind (hR.memRead _ _ _) (fun _ => hR.bind (hR.putReg hpc _)
    (fun _ => hR.pure _)))

theorem Reading.pop (hR : Reading regs R) (hsp : regs .sp) : Preserves R pop :=
  hR.bind (hR.getReg _) (fun _ => hR.bind (hR.memRead _ _ _) (fun _ => hR.bind (hR.putReg hsp _)
    (fun _ => hR.pure _)))

theorem Reading.topOfStack (hR : Reading regs R) : Preserves R topOfStack :=
  hR.bind (hR.getReg _) (fun _ => hR.memRead _ _ _)

theorem Reading.readBlock (hR : Reading regs R) (n : Nat) : ∀ a, Preserves R (readBlock a n) := by
  induction n with
  | zero => exact fun _ => hR.pure _
  | succ n ih =>
    exact fun a => hR.bind (hR.memRead _ _ _) (fun _ => hR.bind (ih _) (fun _ => hR.pure _))

theorem Reading.operand (hR : Reading regs R) (hpc : regs .pc) (size : Size) (o : Operand)
    (ho : ∀ r ∈ steppedRegs o, regs r) : Preserves R (operand size o) := by
  unfold Machine.operand
  obtain ⟨mode, reg⟩ := o
  cases mode
  · exact hR.pure _
  · exact hR.bind (hR.getReg _) (fun _ => hR.pure _)
  · exact hR.bind (hR.getReg _) (fun _ => hR.bind (hR.putReg (ho reg (by simp [steppedRegs, modeSteps])) _)
      (fun _ => hR.bind (hR.peek _) (fun _ => hR.pure _)))
  · exact hR.bind (hR.getReg _) (fun _ => hR.bind (hR.putReg (ho reg (by simp [steppedRegs, modeSteps])) _)
      (fun _ => hR.bind (hR.memRead _ _ _) (fun _ => hR.pure _)))
  · exact hR.bind (hR.getReg _) (fun _ => hR.bind (hR.putReg (ho reg (by simp [steppedRegs, modeSteps])) _)
      (fun _ => hR.pure _))
  · exact hR.bind (hR.getReg _) (fun _ => hR.bind (hR.putReg (ho reg (by simp [steppedRegs, modeSteps])) _)
      (fun _ => hR.bind (hR.memRead _ _ _) (fun _ => hR.pure _)))
  · exact hR.bind (hR.fetchWord hpc) (fun _ => hR.bind (hR.getReg _) (fun _ => hR.pure _))
  · exact hR.bind (hR.fetchWord hpc) (fun _ => hR.bind (hR.getReg _) (fun _ => hR.bind (hR.memRead _ _ _)
      (fun _ => hR.pure _)))

theorem Reading.readLoc (hR : Reading regs R) (size : Size) (l : Loc) : Preserves R (readLoc size l) := by
  cases l
  · exact hR.peek _
  · exact hR.memRead _ _ _

theorem Reading.sourceValue (hR : Reading regs R) (hpc : regs .pc) (size : Size) (o : Operand)
    (ho : ∀ r ∈ steppedRegs o, regs r) : Preserves R (sourceValue size o) :=
  hR.bind (hR.operand hpc _ _ ho) (fun _ => hR.readLoc _ _)

theorem Reading.sourceThenDest (hR : Reading regs R) (hpc : regs .pc) (size : Size) (ss dd : Operand)
    (hs : ∀ r ∈ steppedRegs ss, regs r) (hd : ∀ r ∈ steppedRegs dd, regs r) :
    Preserves R (sourceThenDest size ss dd) :=
  hR.bind (hR.operand hpc _ _ hs) (fun _ => hR.bind (hR.readLoc _ _) (fun _ =>
    hR.bind (hR.operand hpc _ _ hd) (fun _ => hR.bind (hR.peek _) (fun _ => Preserves.ite
      (hR.bind (hR.readLoc _ _) (fun _ => hR.pure _)) (hR.pure _)))))

theorem Reading.jumpTarget (hR : Reading regs R) (hpc : regs .pc) (dd : Operand)
    (hd : ∀ r ∈ steppedRegs dd, regs r) : Preserves R (jumpTarget dd) :=
  hR.bind (hR.operand hpc _ _ hd) (fun l => by
    cases l
    · exact Preserves.raise _
    · exact hR.bind (hR.getReg _) (fun _ => hR.bind (hR.peek _) (fun _ => hR.pure _)))

/-! ### What reading keeps -/

/-- Everything but the general registers, memory and the controllers stays: the condition codes too. -/
structure ReadKept (s t : State) : Prop where
  system : SystemKept s t
  codes : t.cpu.ps1.cc = s.cpu.ps1.cc

/-- States with the same system state, clocks, devices and console. -/
theorem SystemKept.of_same {s t : State} (hg : t.cfg = s.cfg)
    (hp : t.cpu.ps1 = { s.cpu.ps1 with cc := t.cpu.ps1.cc }) (h2 : t.cpu.ps2 = s.cpu.ps2)
    (ha : t.cpu.sta = s.cpu.sta) (hl : t.cpu.stl = s.cpu.stl) (ht : t.tdck = s.tdck) (hi : t.it = s.it)
    (hc : t.clockReq = s.clockReq) (ho : t.io = s.io) (hr : t.run = s.run) (hk : t.console = s.console)
    (hd : t.draw = s.draw) (hs : t.still = s.still) (hn : t.since = s.since) : SystemKept s t :=
  ⟨hg, hp, h2, ha, hl, ht, hi, hc, by rw [ho], by rw [ho], fun _ => by rw [ho], hr, hk, hs, hn,
    Nat.le_of_eq hd.symm, fun _ h => State.arriving_congr hg (by rw [ho]) (fun _ => by rw [ho]) h,
    fun h => ⟨State.quiet_congr (fun _ => by rw [ho]) h, by rw [ho], by rw [ho], hd⟩⟩

theorem SystemKept.refl (s : State) : SystemKept s s :=
  .of_same rfl rfl rfl rfl rfl rfl rfl rfl rfl rfl rfl rfl rfl rfl

theorem SystemKept.trans {s t u : State} (h : SystemKept s t) (k : SystemKept t u) : SystemKept s u :=
  { cfg := k.cfg.trans h.cfg
    ps1 := by rw [k.ps1, h.ps1]
    ps2 := k.ps2.trans h.ps2
    sta := k.sta.trans h.sta
    stl := k.stl.trans h.stl
    tdck := k.tdck.trans h.tdck
    it := k.it.trans h.it
    clockReq := k.clockReq.trans h.clockReq
    terms := k.terms.trans h.terms
    prints := k.prints.trans h.prints
    heads := fun i => (k.heads i).trans (h.heads i)
    run := k.run.trans h.run
    console := k.console.trans h.console
    still := k.still.trans h.still
    since := k.since.trans h.since
    draw := Nat.le_trans h.draw k.draw
    arriving := fun a ha => h.arriving a (k.arriving a ha)
    quiet := fun hq => by
      obtain ⟨h1, h2, h3, h4⟩ := h.quiet hq
      obtain ⟨k1, k2, k3, k4⟩ := k.quiet h1
      exact ⟨k1, k2.trans h2, k3.trans h3, k4.trans h4⟩ }

theorem SystemKept.setReg (s : State) (r : Reg) (v : Word) : SystemKept s (s.setReg r v) := by
  apply SystemKept.of_same <;> simp

theorem SystemKept.setCc (s : State) (cc : Cc) : SystemKept s (s.setCc cc) := by
  apply SystemKept.of_same <;> simp [State.setCc]

/-- Moving bytes of transfers. -/
theorem SystemKept.race (s : State) : SystemKept s s.race :=
  have h := Moves.race s
  { cfg := h.cfg
    ps1 := by rw [h.cpu]
    ps2 := by rw [h.cpu]
    sta := by rw [h.cpu]
    stl := by rw [h.cpu]
    tdck := h.tdck
    it := h.it
    clockReq := h.clockReq
    terms := h.terms
    prints := h.prints
    heads := h.heads
    run := h.run
    console := h.console
    still := h.still
    since := h.since
    draw := h.draw
    arriving := fun _ => h.arriving
    quiet := fun hq => by rw [State.race_quiet hq]; exact ⟨hq, rfl, rfl, rfl⟩ }

/-- The controllers after a store: as they were, or started with an operation that has not begun (R362,
R430). -/
theorem State.store_ctl (s : State) (pa : Word) (size : Size) (v : BitVec size.bits) (k : Fin 15) :
    (s.store pa size v).io.ctl[k] = s.io.ctl[k] ∨
      ∃ op, (s.store pa size v).io.ctl[k].busy = some op ∧ op.begun = false := by
  unfold State.store
  split
  · exact .inl (by simp)
  · rename_i d _
    by_cases hk : k = d.slot
    · subst hk
      exact .inr (by simp [State.startDevice, DevCtl.start])
    · refine .inl ?_
      simp only [State.startDevice, State.storeMem_io, Fin.getElem_fin, Vector.getElem_set]
      rw [if_neg (fun e => hk (Fin.ext e.symm))]

theorem SystemKept.store (s : State) (pa : Word) (size : Size) (v : BitVec size.bits) :
    SystemKept s (s.store pa size v) :=
  { cfg := by simp
    ps1 := by simp
    ps2 := by simp
    sta := by simp
    stl := by simp
    tdck := by simp
    it := by simp
    clockReq := by simp
    terms := by simp
    prints := by simp
    heads := fun _ => by simp
    run := by simp
    console := by simp
    still := by simp
    since := by simp
    draw := by simp
    arriving := by
      rintro a ⟨d, op, hb, hg, hk, hlo, hhi⟩
      rcases State.store_ctl s pa size v d.slot with h | ⟨op', ho, hn⟩
      · rw [h] at hb
        refine ⟨d, op, hb, hg, hk, hlo, ?_⟩
        rwa [State.transferLength_congr (s := s) (by simp) (by simp) d op op rfl] at hhi
      · rw [hb] at ho; cases ho; rw [hg] at hn; cases hn
    quiet := fun hq => by
      refine ⟨?_, by simp, by simp, by simp⟩
      rw [State.quiet_iff] at hq ⊢
      intro d op hb
      rcases State.store_ctl s pa size v d.slot with h | ⟨op', ho, hn⟩
      · rw [h] at hb; exact hq d op hb
      · rw [hb] at ho; cases ho; exact hn }

theorem ReadKept.reading : Reading (fun _ => True) ReadKept where
  refl s := ⟨.refl s, rfl⟩
  trans h k := ⟨h.system.trans k.system, k.codes.trans h.codes⟩
  setReg s r v _ := ⟨.setReg s r v, by simp⟩
  race s := ⟨.race s, by simp⟩
  mark s _ _ _ _ _ _ := ⟨.store _ _ _ _, by simp⟩

/-- The fetch keeps all but PC, memory's marks and the controllers. -/
theorem Fetches.kept {s s1 : State} (h : Fetches s s1) : ReadKept s s1 := by
  obtain ⟨w, h⟩ := h
  exact ReadKept.reading.fetchWord trivial s w s1 h

theorem operand_kept {size : Size} {o : Operand} {loc : Loc} {s t : State}
    (h : operand size o s = .ok (loc, t)) : ReadKept s t :=
  ReadKept.reading.operand trivial size o (fun _ _ => trivial) s loc t h

theorem readLoc_kept {size : Size} {loc : Loc} {v : BitVec size.bits} {s t : State}
    (h : readLoc size loc s = .ok (v, t)) : ReadKept s t :=
  ReadKept.reading.readLoc size loc s v t h

theorem memRead_kept {size : Size} {kind : Access} {va : Word} {v : BitVec size.bits} {s t : State}
    (h : memRead size kind va s = .ok (v, t)) : ReadKept s t :=
  ReadKept.reading.memRead size kind va s v t h

theorem SelectsDest.kept {size : Size} {o : Operand} {loc : Loc} {s t : State}
    (h : SelectsDest size o loc s t) : ReadKept s t := by
  obtain ⟨s1, hf, ho⟩ := h
  exact ReadKept.reading.trans hf.kept (operand_kept ho)

theorem ReadsDest.kept {size : Size} {o : Operand} {loc : Loc} {old : BitVec size.bits} {s t : State}
    (h : ReadsDest size o loc old s t) : ReadKept s t := by
  obtain ⟨s1, s2, hf, ho, hr⟩ := h
  exact ReadKept.reading.trans (ReadKept.reading.trans hf.kept (operand_kept ho)) (readLoc_kept hr)

theorem ReadsSource.kept {o : Operand} {src : Word} {s t : State} (h : ReadsSource o src s t) :
    ReadKept s t := by
  obtain ⟨s1, hf, hv⟩ := h
  exact ReadKept.reading.trans hf.kept
    (ReadKept.reading.sourceValue trivial .word o (fun _ _ => trivial) s1 src t hv)

theorem SourceAndDest.kept {size : Size} {ss dd : Operand} {src : BitVec size.bits} {loc : Loc}
    {s t : State} (h : SourceAndDest size ss dd src loc s t) : ReadKept s t := by
  obtain ⟨s1, hf, hv⟩ := h
  exact ReadKept.reading.trans hf.kept (ReadKept.reading.sourceThenDest trivial size ss dd
    (fun _ _ => trivial) (fun _ _ => trivial) s1 _ t hv)

theorem ReadsBoth.kept {size : Size} {ss dd : Operand} {src dst : BitVec size.bits} {loc : Loc}
    {s t : State} (h : ReadsBoth size ss dd src dst loc s t) : ReadKept s t := by
  obtain ⟨s2, h1, h2⟩ := h
  exact ReadKept.reading.trans h1.kept (readLoc_kept h2)

/-! ### What the common shapes leave -/

theorem modifyDest_of {size : Size} {dd : Operand}
    {f : BitVec size.bits → Cc → BitVec size.bits × Cc} {loc : Loc} {old : BitVec size.bits}
    {role : StackRole} {s s' t : State} (hr : ReadsDest size dd loc old s s')
    (hw : Writes size loc (f old s.cpu.ps1.cc).1 s' t) (hc : StackClear role s t) :
    transact role (modifyDest size dd f) s = .next (t.setCc (f old s.cpu.ps1.cc).2) := by
  have hk := hr.kept.codes
  obtain ⟨s1, s2, hf, ho, hv⟩ := hr
  refine transact_completes hf ?_ hc
  unfold modifyDest
  rw [bind_of_ok ho, bind_of_ok hv, bind_of_ok (getCc_apply s'), hk]
  exact (bind_of_ok hw).trans rfl

theorem overwriteDest_of {size : Size} {dd : Operand} {f : Cc → BitVec size.bits × Cc} {loc : Loc}
    {role : StackRole} {s s' t : State} (hr : SelectsDest size dd loc s s')
    (hw : Writes size loc (f s.cpu.ps1.cc).1 s' t) (hc : StackClear role s t) :
    transact role (overwriteDest size dd f) s = .next (t.setCc (f s.cpu.ps1.cc).2) := by
  have hk := hr.kept.codes
  obtain ⟨s1, hf, ho⟩ := hr
  refine transact_completes hf ?_ hc
  unfold overwriteDest
  rw [bind_of_ok ho, bind_of_ok (getCc_apply s'), hk]
  exact (bind_of_ok hw).trans rfl

theorem testDest_of {size : Size} {dd : Operand} {f : BitVec size.bits → Cc} {loc : Loc}
    {old : BitVec size.bits} {role : StackRole} {s t : State} (hr : ReadsDest size dd loc old s t)
    (hc : StackClear role s t) : transact role (testDest size dd f) s = .next (t.setCc (f old)) := by
  obtain ⟨s1, s2, hf, ho, hv⟩ := hr
  refine transact_completes hf ?_ hc
  unfold testDest
  rw [bind_of_ok ho, bind_of_ok hv]
  rfl

theorem combineInto_of {size : Size} {ss dd : Operand}
    {f : BitVec size.bits → BitVec size.bits → Cc → BitVec size.bits × Cc} {loc : Loc}
    {src dst : BitVec size.bits} {role : StackRole} {s s' t : State}
    (hr : ReadsBoth size ss dd src dst loc s s')
    (hw : Writes size loc (f src dst s.cpu.ps1.cc).1 s' t) (hc : StackClear role s t) :
    transact role (combineInto size ss dd f) s = .next (t.setCc (f src dst s.cpu.ps1.cc).2) := by
  have hk := hr.kept.codes
  obtain ⟨s2, ⟨s1, hf, ho⟩, hv⟩ := hr
  refine transact_completes hf ?_ hc
  unfold combineInto
  rw [bind_of_ok ho]
  simp only
  rw [bind_of_ok hv, bind_of_ok (getCc_apply s'), hk]
  exact (bind_of_ok hw).trans rfl

theorem compareWith_of {size : Size} {ss dd : Operand}
    {f : BitVec size.bits → BitVec size.bits → Cc → Cc} {loc : Loc} {src dst : BitVec size.bits}
    {role : StackRole} {s t : State} (hr : ReadsBoth size ss dd src dst loc s t)
    (hc : StackClear role s t) :
    transact role (compareWith size ss dd f) s = .next (t.setCc (f src dst s.cpu.ps1.cc)) := by
  have hk := hr.kept.codes
  obtain ⟨s2, ⟨s1, hf, ho⟩, hv⟩ := hr
  refine transact_completes hf ?_ hc
  unfold compareWith
  rw [bind_of_ok ho]
  simp only
  rw [bind_of_ok hv, bind_of_ok (getCc_apply t), hk]
  rfl

theorem moveInto_of {size : Size} {ss dd : Operand} {loc : Loc} {src : BitVec size.bits}
    {role : StackRole} {s s' t : State} (hr : SourceAndDest size ss dd src loc s s')
    (hw : Writes size loc src s' t) (hc : StackClear role s t) :
    transact role (moveInto size ss dd) s = .next (t.setCc (logicCc src s.cpu.ps1.cc)) := by
  have hk := hr.kept.codes
  obtain ⟨s1, hf, ho⟩ := hr
  refine transact_completes hf ?_ hc
  unfold moveInto
  rw [bind_of_ok ho]
  simp only
  rw [bind_of_ok (getCc_apply s'), hk]
  exact (bind_of_ok hw).trans rfl

theorem branchIf_of {cond : Cond} {offset : BitVec 8} {role : StackRole} {s s1 : State}
    (hf : Fetches s s1) (hc : StackClear role s s1) :
    transact role (branchIf cond offset) s =
      .next (if cond.holds s.cpu.ps1.cc then s1.setReg .pc (s1.cpu.pc + 2 * offset.signExtend 16)
        else s1) := by
  have hk := hf.kept.codes
  cases hb : cond.holds s.cpu.ps1.cc
  · refine transact_completes hf ?_ hc
    unfold branchIf
    rw [bind_of_ok (getCc_apply s1), bind_of_ok (getReg_apply _ _), hk, hb]
    rfl
  · refine transact_completes hf ?_ (by
      intro h; exact hc h)
    unfold branchIf
    rw [bind_of_ok (getCc_apply s1), bind_of_ok (getReg_apply _ _), hk, hb]
    rfl

theorem ccBody_of {set n z v c : Bool} {role : StackRole} {s s1 : State}
    (hf : Fetches s s1) (hc : StackClear role s s1) :
    transact role (ccBody set n z v c) s = .next (s1.setCc (s.cpu.ps1.cc.operate set n z v c)) := by
  have hk := hf.kept.codes
  refine transact_completes hf ?_ hc
  unfold ccBody
  rw [bind_of_ok (getCc_apply s1), hk]
  rfl

/-- The fetch leaves PC at the next word. -/
theorem Fetches.pc {s s1 : State} (h : Fetches s s1) : s1.cpu.pc = s.cpu.pc + 2 := by
  obtain ⟨w, h⟩ := h
  obtain ⟨u, _, rfl⟩ := fetchWord_ok.1 h
  exact State.reg_setReg_same u .pc _

end Sys2Proof.Machine
end

