-- ==== Sys2Proof/Laws/Closed.lean ====
section
/-! SUPPORT. Relations closed under what an ordinary instruction can do: write a general register, write the
condition codes, store at an aligned address of existing memory, and let the controllers move bytes between
its accesses. Every part of an ordinary instruction stays within such a relation, so that a frame or an
invariant is proved once for the four primitives. -/

namespace Sys2Proof.Machine

variable {α β : Type}

/-- A relation of states that the primitive effects of ordinary instructions stay within. -/
structure Closed (R : State → State → Prop) : Prop where
  refl : ∀ s, R s s
  trans : ∀ {s t u}, R s t → R t u → R s u
  setReg : ∀ s r v, R s (s.setReg r v)
  setCc : ∀ s cc, R s (s.setCc cc)
  race : ∀ s, R s s.race
  store : ∀ s pa size v, pa.toNat < s.cfg.memsize → misaligned size pa = false → R s (s.store pa size v)

variable {R : State → State → Prop}

/-- Reading stays within it. -/
theorem Closed.reading (hR : Closed R) : Reading (fun _ => True) R where
  refl := hR.refl
  trans := hR.trans
  setReg s r v _ := hR.setReg s r v
  race := hR.race
  mark s _ _ pda _ _ hw := hR.store s pda .word _ (walk_ok hw).2.1 (walk_ok hw).1

theorem Closed.pure (hR : Closed R) (a : α) : Preserves R (pure a : Exec α) := hR.reading.pure a

theorem Closed.peek (hR : Closed R) (f : State → α) : Preserves R (peek f) := hR.reading.peek f

theorem Closed.getReg (hR : Closed R) (r : Reg) : Preserves R (getReg r) := hR.peek _

theorem Closed.getCc (hR : Closed R) : Preserves R getCc := hR.peek _

theorem Closed.getPair (hR : Closed R) (r : Reg) : Preserves R (getPair r) := hR.peek _

theorem Closed.putReg (hR : Closed R) (r : Reg) (v : Word) : Preserves R (putReg r v) :=
  hR.reading.putReg trivial v

theorem Closed.putCc (hR : Closed R) (cc : Cc) : Preserves R (putCc cc) := by
  intro s b t h; cases h; exact hR.setCc s cc

theorem Closed.raise (tr : Trap) : Preserves R (raise tr : Exec α) := Preserves.raise tr

theorem Closed.bind (hR : Closed R) {m : Exec α} {f : α → Exec β} (hm : Preserves R m)
    (hf : ∀ a, Preserves R (f a)) : Preserves R (m >>= f) := hR.reading.bind hm hf

theorem Closed.ite {c : Prop} [Decidable c] {m n : Exec α} (hm : Preserves R m) (hn : Preserves R n) :
    Preserves R (if c then m else n) := Preserves.ite hm hn

theorem Closed.putPair (hR : Closed R) (r : Reg) (v : DWord) : Preserves R (putPair r v) :=
  hR.bind (hR.putReg _ _) (fun _ => hR.putReg _ _)

/-! ### Memory access -/

/-- The page frame keeps the parity of the address (R66). -/
theorem frameAddr_bit0 (l : PdLayout) (pd va : Word) :
    (frameAddr l pd va).getLsbD 0 = va.getLsbD 0 := by
  rw [frameAddr, BitVec.getLsbD_append, vaOffset, BitVec.getLsbD_extractLsb']
  rfl

/-- A resolved address is as aligned as the access asks. -/
theorem resolve_aligned {size : Size} {kind : Access} {va pa : Word} {s t : State}
    (h : resolve size kind va s = .ok (pa, t)) : misaligned size pa = false := by
  obtain ⟨ha, _, ⟨_, ht⟩ | ⟨_, rfl, _⟩⟩ := resolve_ok.1 h
  · obtain ⟨pda, pd, _, rfl, _⟩ := translate_ok.1 ht
    cases size
    · rfl
    · simpa only [misaligned, frameAddr_bit0] using ha
  · exact ha

theorem Closed.resolve (hR : Closed R) (size : Size) (kind : Access) (va : Word) :
    Preserves R (resolve size kind va) := hR.reading.resolve size kind va

theorem Closed.memRead (hR : Closed R) (size : Size) (kind : Access) (va : Word) :
    Preserves R (memRead size kind va) := hR.reading.memRead size kind va

theorem Closed.memWrite (hR : Closed R) (size : Size) (va : Word) (v : BitVec size.bits) :
    Preserves R (memWrite size va v) := by
  intro s u t h
  obtain ⟨pa, u, hr, hlt, rfl⟩ := memWrite_ok.1 h
  exact hR.trans (hR.trans (hR.race s) (hR.resolve size .write va _ pa u hr))
    (hR.store u pa size v hlt (resolve_aligned hr))

theorem Closed.fetchWord (hR : Closed R) : Preserves R fetchWord := hR.reading.fetchWord trivial

theorem Closed.push (hR : Closed R) (v : Word) : Preserves R (push v) :=
  hR.bind (hR.getReg _) (fun _ => hR.bind (hR.putReg _ _) (fun _ => hR.memWrite _ _ _))

theorem Closed.pop (hR : Closed R) : Preserves R pop := hR.reading.pop trivial

theorem Closed.topOfStack (hR : Closed R) : Preserves R topOfStack := hR.reading.topOfStack

theorem Closed.readBlock (hR : Closed R) (n : Nat) (a : Word) : Preserves R (readBlock a n) :=
  hR.reading.readBlock n a

theorem Closed.writeBlock (hR : Closed R) (ws : List Word) : ∀ a, Preserves R (writeBlock a ws) := by
  induction ws with
  | nil => exact fun _ => hR.pure _
  | cons w ws ih => exact fun a => hR.bind (hR.memWrite _ _ _) (fun _ => ih _)

/-! ### Operands and shapes -/

theorem Closed.operand (hR : Closed R) (size : Size) (o : Operand) : Preserves R (operand size o) :=
  hR.reading.operand trivial size o (fun _ _ => trivial)

theorem Closed.readLoc (hR : Closed R) (size : Size) (l : Loc) : Preserves R (readLoc size l) :=
  hR.reading.readLoc size l

theorem Closed.writeLoc (hR : Closed R) (size : Size) (v : BitVec size.bits) (l : Loc) :
    Preserves R (writeLoc size v l) := by
  cases l
  · intro s a t h; cases h; exact hR.setReg _ _ _
  · exact hR.memWrite _ _ _

theorem Closed.sourceValue (hR : Closed R) (size : Size) (o : Operand) :
    Preserves R (sourceValue size o) := hR.reading.sourceValue trivial size o (fun _ _ => trivial)

theorem Closed.sourceThenDest (hR : Closed R) (size : Size) (ss dd : Operand) :
    Preserves R (sourceThenDest size ss dd) :=
  hR.reading.sourceThenDest trivial size ss dd (fun _ _ => trivial) (fun _ _ => trivial)

theorem Closed.jumpTarget (hR : Closed R) (dd : Operand) : Preserves R (jumpTarget dd) :=
  hR.reading.jumpTarget trivial dd (fun _ _ => trivial)

theorem Closed.modifyDest (hR : Closed R) (size : Size) (dd : Operand)
    (f : BitVec size.bits → Cc → BitVec size.bits × Cc) : Preserves R (modifyDest size dd f) :=
  hR.bind (hR.operand _ _) (fun _ => hR.bind (hR.readLoc _ _) (fun _ => hR.bind hR.getCc
    (fun _ => hR.bind (hR.writeLoc _ _ _) (fun _ => hR.putCc _))))

theorem Closed.overwriteDest (hR : Closed R) (size : Size) (dd : Operand)
    (f : Cc → BitVec size.bits × Cc) : Preserves R (overwriteDest size dd f) :=
  hR.bind (hR.operand _ _) (fun _ => hR.bind hR.getCc (fun _ => hR.bind (hR.writeLoc _ _ _)
    (fun _ => hR.putCc _)))

theorem Closed.testDest (hR : Closed R) (size : Size) (dd : Operand) (f : BitVec size.bits → Cc) :
    Preserves R (testDest size dd f) :=
  hR.bind (hR.operand _ _) (fun _ => hR.bind (hR.readLoc _ _) (fun _ => hR.putCc _))

theorem Closed.combineInto (hR : Closed R) (size : Size) (ss dd : Operand)
    (f : BitVec size.bits → BitVec size.bits → Cc → BitVec size.bits × Cc) :
    Preserves R (combineInto size ss dd f) :=
  hR.bind (hR.sourceThenDest _ _ _) (fun _ => hR.bind (hR.readLoc _ _) (fun _ => hR.bind hR.getCc
    (fun _ => hR.bind (hR.writeLoc _ _ _) (fun _ => hR.putCc _))))

theorem Closed.compareWith (hR : Closed R) (size : Size) (ss dd : Operand)
    (f : BitVec size.bits → BitVec size.bits → Cc → Cc) : Preserves R (compareWith size ss dd f) :=
  hR.bind (hR.sourceThenDest _ _ _) (fun _ => hR.bind (hR.readLoc _ _) (fun _ => hR.bind hR.getCc
    (fun _ => hR.putCc _)))

theorem Closed.moveInto (hR : Closed R) (size : Size) (ss dd : Operand) :
    Preserves R (moveInto size ss dd) :=
  hR.bind (hR.sourceThenDest _ _ _) (fun _ => hR.bind hR.getCc (fun _ => hR.bind (hR.writeLoc _ _ _)
    (fun _ => hR.putCc _)))

theorem Closed.moveByteInto (hR : Closed R) (ss dd : Operand) : Preserves R (moveByteInto ss dd) :=
  hR.bind (hR.sourceThenDest _ _ _) (fun p => hR.bind hR.getCc (fun _ => by
    obtain ⟨src, loc⟩ := p
    cases loc
    · exact hR.bind (hR.putReg _ _) (fun _ => hR.putCc _)
    · exact hR.bind (hR.memWrite _ _ _) (fun _ => hR.putCc _)))

theorem Closed.branchIf (hR : Closed R) (cond : Cond) (offset : BitVec 8) :
    Preserves R (branchIf cond offset) :=
  hR.bind hR.getCc (fun _ => hR.bind (hR.getReg _) (fun _ => Closed.ite (hR.putReg _ _) (hR.pure _)))

/-! ### The bodies of the instructions -/

theorem Closed.ashBody (hR : Closed R) (r : Reg) (ss : Operand) : Preserves R (ashBody r ss) :=
  hR.bind (hR.sourceValue _ _) (fun _ => hR.bind (hR.getReg _) (fun _ => hR.bind (hR.putReg _ _)
    (fun _ => hR.putCc _)))

theorem Closed.ashcBody (hR : Closed R) (r : Reg) (ss : Operand) : Preserves R (ashcBody r ss) :=
  hR.bind (hR.sourceValue _ _) (fun _ => Closed.ite
    (hR.bind (hR.peek _) (fun _ => hR.bind (hR.putReg _ _) (fun _ => hR.putCc _)))
    (hR.bind (hR.getPair _) (fun _ => hR.bind (hR.putPair _ _) (fun _ => hR.putCc _))))

theorem Closed.mulBody (hR : Closed R) (r : Reg) (ss : Operand) : Preserves R (mulBody r ss) := by
  unfold Machine.mulBody
  refine hR.bind (hR.sourceValue _ _) (fun _ => hR.bind (hR.getReg _) (fun _ => ?_))
  split
  exact Closed.ite (hR.bind (hR.putReg _ _) (fun _ => hR.putCc _))
    (hR.bind (hR.putPair _ _) (fun _ => hR.putCc _))

theorem Closed.divOverflowBody (hR : Closed R) (r : Reg) : Preserves R (divOverflowBody r) :=
  hR.bind (hR.peek _) (fun _ => hR.bind (hR.peek _) (fun regs => by
    cases regs
    · exact hR.bind (hR.pure _) (fun _ => hR.putCc _)
    · exact hR.bind (hR.putPair _ _) (fun _ => hR.putCc _)))

theorem Closed.divBody (hR : Closed R) (r : Reg) (ss : Operand) : Preserves R (divBody r ss) :=
  Closed.ite (Closed.raise _) (hR.bind (hR.sourceValue _ _) (fun _ => Closed.ite (Closed.raise _)
    (hR.bind (hR.getPair _) (fun _ => Closed.ite (hR.divOverflowBody _)
      (hR.bind (hR.putReg _ _) (fun _ => hR.bind (hR.putReg _ _) (fun _ => hR.putCc _)))))))

theorem Closed.xorBody (hR : Closed R) (r : Reg) (dd : Operand) : Preserves R (xorBody r dd) :=
  hR.bind (hR.operand _ _) (fun _ => hR.bind (hR.readLoc _ _) (fun _ => hR.bind (hR.getReg _)
    (fun _ => hR.bind hR.getCc (fun _ => hR.bind (hR.writeLoc _ _ _) (fun _ => hR.putCc _)))))

theorem Closed.ccBody (hR : Closed R) (set n z v c : Bool) : Preserves R (ccBody set n z v c) :=
  hR.bind hR.getCc (fun _ => hR.putCc _)

theorem Closed.jmpBody (hR : Closed R) (dd : Operand) : Preserves R (jmpBody dd) :=
  hR.bind (hR.jumpTarget _) (fun _ => hR.putReg _ _)

theorem Closed.jsrBody (hR : Closed R) (r : Reg) (dd : Operand) : Preserves R (jsrBody r dd) :=
  hR.bind (hR.jumpTarget _) (fun _ => hR.bind (hR.getReg _) (fun _ => hR.bind (hR.push _)
    (fun _ => hR.bind (hR.getReg _) (fun _ => hR.bind (hR.putReg _ _) (fun _ => hR.putReg _ _)))))

theorem Closed.rtsBody (hR : Closed R) (r : Reg) : Preserves R (rtsBody r) :=
  hR.bind (hR.getReg _) (fun _ => hR.bind (hR.putReg _ _) (fun _ => hR.bind hR.pop
    (fun _ => hR.putReg _ _)))

theorem Closed.markBody (hR : Closed R) (nn : BitVec 6) : Preserves R (markBody nn) :=
  hR.bind (hR.getReg _) (fun _ => hR.bind (hR.putReg _ _) (fun _ => hR.bind (hR.getReg _)
    (fun _ => hR.bind (hR.putReg _ _) (fun _ => hR.bind hR.pop (fun _ => hR.putReg _ _)))))

theorem Closed.sobBody (hR : Closed R) (r : Reg) (offset : BitVec 6) : Preserves R (sobBody r offset) :=
  hR.bind (hR.getReg _) (fun _ => hR.bind (hR.putReg _ _) (fun _ => hR.bind (hR.getReg _)
    (fun _ => Closed.ite (hR.putReg _ _) (hR.pure _))))

theorem Closed.stckBody (hR : Closed R) : Preserves R stckBody :=
  hR.bind hR.topOfStack (fun _ => hR.bind (hR.peek _) (fun _ => hR.bind (hR.memWrite _ _ _)
    (fun _ => hR.memWrite _ _ _)))

theorem Closed.inprgBody (hR : Closed R) : Preserves R inprgBody :=
  hR.bind (hR.getReg _) (fun _ => hR.bind (hR.memRead _ _ _) (fun _ => hR.bind (hR.getReg _)
    (fun _ => hR.bind (hR.memWrite _ _ _) (fun _ => hR.putReg _ _))))

theorem Closed.csvBody (hR : Closed R) : Preserves R csvBody :=
  hR.bind (hR.getReg _) (fun _ => hR.bind (hR.push _) (fun _ => hR.bind (hR.getReg _) (fun _ =>
    hR.bind (hR.putReg _ _) (fun _ => hR.bind (hR.getReg _) (fun _ => hR.bind (hR.push _) (fun _ =>
    hR.bind (hR.getReg _) (fun _ => hR.bind (hR.push _) (fun _ => hR.bind (hR.getReg _)
    (fun _ => hR.push _)))))))))

theorem Closed.cretBody (hR : Closed R) : Preserves R cretBody :=
  hR.bind (hR.getReg _) (fun _ => hR.bind (hR.putReg _ _) (fun _ =>
    hR.bind hR.pop (fun _ => hR.bind (hR.putReg _ _) (fun _ =>
    hR.bind hR.pop (fun _ => hR.bind (hR.putReg _ _) (fun _ =>
    hR.bind hR.pop (fun _ => hR.bind (hR.putReg _ _) (fun _ =>
    hR.bind hR.pop (fun _ => hR.bind (hR.putReg _ _) (fun _ =>
    hR.bind hR.pop (fun _ => hR.putReg _ _)))))))))))

theorem Closed.copyBytes (hR : Closed R) (n : Nat) : ∀ src dst, Preserves R (copyBytes src dst n) := by
  induction n with
  | zero => exact fun _ _ => hR.pure _
  | succ n ih =>
    exact fun _ _ => hR.bind (hR.memRead _ _ _) (fun _ => hR.bind (hR.memWrite _ _ _) (fun _ => ih _ _))

theorem Closed.readBytes (hR : Closed R) (n : Nat) : ∀ src, Preserves R (readBytes src n) := by
  induction n with
  | zero => exact fun _ => hR.pure _
  | succ n ih =>
    exact fun _ => hR.bind (hR.memRead _ _ _) (fun _ => hR.bind (ih _) (fun _ => hR.pure _))

theorem Closed.writeBytes (hR : Closed R) (bs : List Byte) : ∀ dst, Preserves R (writeBytes dst bs) := by
  induction bs with
  | nil => exact fun _ => hR.pure _
  | cons b bs ih => exact fun _ => hR.bind (hR.memWrite _ _ _) (fun _ => ih _)

theorem Closed.moveBlock (hR : Closed R) (order : MovbckOrder) (src dst : Word) (n : Nat) :
    Preserves R (moveBlock order src dst n) := by
  cases order
  · exact hR.copyBytes n src dst
  · exact hR.bind (hR.readBytes n src) (fun bs => hR.writeBytes bs dst)

theorem Closed.movbckBody (hR : Closed R) : Preserves R movbckBody :=
  hR.bind (hR.getReg _) (fun _ => hR.bind (hR.memRead _ _ _) (fun _ => hR.bind (hR.memRead _ _ _)
    (fun _ => hR.bind (hR.memRead _ _ _) (fun _ => hR.bind (hR.peek _) (fun _ =>
    Closed.ite (Closed.raise _) (hR.moveBlock _ _ _ _))))))

theorem Closed.privileged (hR : Closed R) : Preserves R privileged := hR.reading.privileged

theorem Closed.ststBody (hR : Closed R) : Preserves R ststBody :=
  hR.bind hR.privileged (fun _ => hR.bind hR.topOfStack (fun _ => hR.bind (hR.peek _)
    (fun _ => hR.writeBlock _ _)))

/-! ### All instructions at once -/

/-- Every instruction answers a next state, from every state: none faults, none is refused. -/
theorem exec_next (i : Instr) (s : State) : ∃ t, Machine.exec i s = .next t := by
  cases i <;> exact transact_next _ _ _

/-- The fetch and an ordinary body together stay within the relation. -/
theorem Closed.transact (hR : Closed R) {role : StackRole} {body : Exec Unit} (hb : Preserves R body)
    {s t : State} (h : Machine.transact role body s = .next t) : Ends (R s) s t :=
  transact_ends (fun s1 w s' hf h' => hR.trans (hR.fetchWord s w s1 hf) (hb s1 () s' h')) h

/-- The instructions whose own effect is on general registers, condition codes and memory only: all but
those that load a special register, stop the processor, or enter a trap. -/
def ordinary : Instr → Bool
  | .halt | .ldst | .ldit | .ldim | .ldstl | .sys _ => false
  | _ => true

/-- An ordinary instruction stays within the relation up to its end. -/
theorem Closed.exec (hR : Closed R) {i : Instr} {s t : State} (hi : ordinary i = true)
    (h : exec i s = .next t) : Ends (R s) s t := by
  cases i with
  | halt => cases hi
  | ldst => cases hi
  | stst => exact hR.transact hR.ststBody h
  | ldit => cases hi
  | ldim => cases hi
  | ldstl => cases hi
  | movbck => exact hR.transact hR.movbckBody h
  | stck => exact hR.transact hR.stckBody h
  | inprg => exact hR.transact hR.inprgBody h
  | csv => exact hR.transact hR.csvBody h
  | cret => exact hR.transact hR.cretBody h
  | sys _ => cases hi
  | clr _ => exact hR.transact (hR.overwriteDest _ _ _) h
  | clrb _ => exact hR.transact (hR.overwriteDest _ _ _) h
  | com _ => exact hR.transact (hR.modifyDest _ _ _) h
  | comb _ => exact hR.transact (hR.modifyDest _ _ _) h
  | inc _ => exact hR.transact (hR.modifyDest _ _ _) h
  | incb _ => exact hR.transact (hR.modifyDest _ _ _) h
  | dec _ => exact hR.transact (hR.modifyDest _ _ _) h
  | decb _ => exact hR.transact (hR.modifyDest _ _ _) h
  | neg _ => exact hR.transact (hR.modifyDest _ _ _) h
  | negb _ => exact hR.transact (hR.modifyDest _ _ _) h
  | adc _ => exact hR.transact (hR.modifyDest _ _ _) h
  | adcb _ => exact hR.transact (hR.modifyDest _ _ _) h
  | sbc _ => exact hR.transact (hR.modifyDest _ _ _) h
  | sbcb _ => exact hR.transact (hR.modifyDest _ _ _) h
  | tst _ => exact hR.transact (hR.testDest _ _ _) h
  | tstb _ => exact hR.transact (hR.testDest _ _ _) h
  | ror _ => exact hR.transact (hR.modifyDest _ _ _) h
  | rorb _ => exact hR.transact (hR.modifyDest _ _ _) h
  | rol _ => exact hR.transact (hR.modifyDest _ _ _) h
  | rolb _ => exact hR.transact (hR.modifyDest _ _ _) h
  | asr _ => exact hR.transact (hR.modifyDest _ _ _) h
  | asrb _ => exact hR.transact (hR.modifyDest _ _ _) h
  | asl _ => exact hR.transact (hR.modifyDest _ _ _) h
  | aslb _ => exact hR.transact (hR.modifyDest _ _ _) h
  | sxt _ => exact hR.transact (hR.overwriteDest _ _ _) h
  | swab _ => exact hR.transact (hR.modifyDest _ _ _) h
  | jmp _ => exact hR.transact (hR.jmpBody _) h
  | ash _ _ => exact hR.transact (hR.ashBody _ _) h
  | ashc _ _ => exact hR.transact (hR.ashcBody _ _) h
  | mul _ _ => exact hR.transact (hR.mulBody _ _) h
  | div _ _ => exact hR.transact (hR.divBody _ _) h
  | xor _ _ => exact hR.transact (hR.xorBody _ _) h
  | jsr _ _ => exact hR.transact (hR.jsrBody _ _) h
  | mov _ _ => exact hR.transact (hR.moveInto _ _ _) h
  | movb _ _ => exact hR.transact (hR.moveByteInto _ _) h
  | cmp _ _ => exact hR.transact (hR.compareWith _ _ _ _) h
  | cmpb _ _ => exact hR.transact (hR.compareWith _ _ _ _) h
  | bit _ _ => exact hR.transact (hR.compareWith _ _ _ _) h
  | bitb _ _ => exact hR.transact (hR.compareWith _ _ _ _) h
  | bic _ _ => exact hR.transact (hR.combineInto _ _ _ _) h
  | bicb _ _ => exact hR.transact (hR.combineInto _ _ _ _) h
  | bis _ _ => exact hR.transact (hR.combineInto _ _ _ _) h
  | bisb _ _ => exact hR.transact (hR.combineInto _ _ _ _) h
  | add _ _ => exact hR.transact (hR.combineInto _ _ _ _) h
  | sub _ _ => exact hR.transact (hR.combineInto _ _ _ _) h
  | br _ => exact hR.transact (hR.branchIf _ _) h
  | bne _ => exact hR.transact (hR.branchIf _ _) h
  | beq _ => exact hR.transact (hR.branchIf _ _) h
  | bge _ => exact hR.transact (hR.branchIf _ _) h
  | blt _ => exact hR.transact (hR.branchIf _ _) h
  | bgt _ => exact hR.transact (hR.branchIf _ _) h
  | ble _ => exact hR.transact (hR.branchIf _ _) h
  | bpl _ => exact hR.transact (hR.branchIf _ _) h
  | bmi _ => exact hR.transact (hR.branchIf _ _) h
  | bhi _ => exact hR.transact (hR.branchIf _ _) h
  | blos _ => exact hR.transact (hR.branchIf _ _) h
  | bvc _ => exact hR.transact (hR.branchIf _ _) h
  | bvs _ => exact hR.transact (hR.branchIf _ _) h
  | bcc _ => exact hR.transact (hR.branchIf _ _) h
  | bcs _ => exact hR.transact (hR.branchIf _ _) h
  | bhis _ => exact hR.transact (hR.branchIf _ _) h
  | blo _ => exact hR.transact (hR.branchIf _ _) h
  | sob _ _ => exact hR.transact (hR.sobBody _ _) h
  | rts _ => exact hR.transact (hR.rtsBody _) h
  | mark _ => exact hR.transact (hR.markBody _) h
  | ccop _ _ _ _ _ => exact hR.transact (hR.ccBody _ _ _ _ _) h
  | nop => exact hR.transact (hR.ccBody _ _ _ _ _) h
  | clc => exact hR.transact (hR.ccBody _ _ _ _ _) h
  | clv => exact hR.transact (hR.ccBody _ _ _ _ _) h
  | clz => exact hR.transact (hR.ccBody _ _ _ _ _) h
  | cln => exact hR.transact (hR.ccBody _ _ _ _ _) h
  | ccc => exact hR.transact (hR.ccBody _ _ _ _ _) h
  | sec => exact hR.transact (hR.ccBody _ _ _ _ _) h
  | sev => exact hR.transact (hR.ccBody _ _ _ _ _) h
  | sez => exact hR.transact (hR.ccBody _ _ _ _ _) h
  | sen => exact hR.transact (hR.ccBody _ _ _ _ _) h
  | scc => exact hR.transact (hR.ccBody _ _ _ _ _) h

end Sys2Proof.Machine
end

