-- ==== Sys2Proof/Laws/Direct.lean ====
section
/-! SUPPORT. Accesses with mapping off and no transfer going on: each read and write answers what is in
memory, and a write changes memory at its address alone. -/

namespace Sys2Proof.Machine

theorem Unwatched.suspected {s : State} (h : Unwatched s) (size : Size) (kind : Access) (va : Word) :
    s.suspected size kind va = false := by
  unfold State.suspected
  rcases h with h | h | h <;> simp [h]

theorem Direct.plain {s : State} {size : Size} {va : Word} (h : Direct s size va) (kind : Access) :
    Plain s size kind va :=
  ⟨h.unmapped, h.unwatched.suspected size kind va, h.aligned, h.exist, h.quiet⟩

/-- A state with the same configuration, console and mapping bit, and no transfer going on, has the same
direct accesses. -/
theorem Direct.of_same {s t : State} {size : Size} {va : Word} (h : Direct s size va)
    (hm : t.cpu.ps1.m = s.cpu.ps1.m) (hc : t.cfg = s.cfg) (hk : t.console = s.console)
    (hq : s.quiet = true → t.quiet = true) : Direct t size va :=
  ⟨hm.trans h.unmapped, by have := h.unwatched; unfold Unwatched at *; rwa [hk], h.aligned,
    by rw [hc]; exact h.exist, hq h.quiet⟩

theorem Direct.setReg {s : State} {size : Size} {va : Word} (h : Direct s size va) (r : Reg) (v : Word) :
    Direct (s.setReg r v) size va :=
  h.of_same (by simp) (by simp) (by simp) (fun hq => ((SystemKept.setReg s r v).quiet hq).1)

theorem Direct.store {s : State} {size : Size} {va : Word} (h : Direct s size va) (pa : Word) (z : Size)
    (v : BitVec z.bits) : Direct (s.store pa z v) size va :=
  h.of_same (by simp) (by simp) (by simp) (fun hq => ((SystemKept.store s pa z v).quiet hq).1)

theorem memRead_direct {s : State} {size : Size} {kind : Access} {va : Word} (h : Direct s size va) :
    memRead size kind va s = .ok (s.load va size, s) := memRead_plain (h.plain kind)

theorem memWrite_direct {s : State} {size : Size} {va : Word} (h : Direct s size va)
    (v : BitVec size.bits) : memWrite size va v s = .ok ((), s.store va size v) :=
  memWrite_plain (h.plain .write)

/-- The fetch with mapping off reads the word at PC; a suspect does not stop it (R413). -/
theorem fetchWord_direct {s : State} (h : DirectFetch s) :
    fetchWord s = .ok (s.mem.readWord s.cpu.pc.toNat, s.setReg .pc (s.cpu.pc + 2)) := by
  obtain ⟨hm, ha, he, hq⟩ := h
  refine fetchWord_ok.2 ⟨s, memRead_plain ⟨hm, ?_, ha, he, hq⟩, rfl⟩
  simp [State.suspected, Suspect.stops]

theorem DirectFetch.fetches {s : State} (h : DirectFetch s) : Fetches s (s.setReg .pc (s.cpu.pc + 2)) :=
  ⟨_, fetchWord_direct h⟩

theorem push_direct {s : State} (h : Direct s .word (s.cpu.sp - 2)) (v : Word) :
    push v s = .ok ((), (s.setReg .sp (s.cpu.sp - 2)).store (s.cpu.sp - 2) .word v) :=
  push_ok.2 (memWrite_direct (h.setReg _ _) v)

theorem pop_direct {s : State} (h : Direct s .word s.cpu.sp) :
    pop s = .ok (s.mem.readWord s.cpu.sp.toNat, s.setReg .sp (s.cpu.sp + 2)) :=
  pop_ok.2 ⟨s, memRead_direct h, rfl⟩

/-! ### Memory after a store -/

theorem storeMem_wf (s : State) (pa : Word) (size : Size) (v : BitVec size.bits) (h : s.mem.wf = true) :
    (s.storeMem pa size v).mem.wf = true := by
  cases size
  · exact Memory.write_wf _ _ _ h
  · exact Memory.writeWord_wf _ _ _ h

theorem store_wf (s : State) (pa : Word) (size : Size) (v : BitVec size.bits) (h : s.mem.wf = true) :
    (s.store pa size v).mem.wf = true := by
  rw [State.store_mem]; exact storeMem_wf s pa size v h

/-- A store leaves every byte outside its own. -/
theorem store_read_outside (s : State) (pa : Word) (size : Size) (v : BitVec size.bits) (a : Nat)
    (h : s.mem.wf = true) (ha : a < pa.toNat ∨ pa.toNat + size.bits / 8 ≤ a) :
    (s.store pa size v).mem.read a = s.mem.read a := by
  rw [State.store_mem]
  cases size
  · have hn : a ≠ pa.toNat := by simp only [Size.bits] at ha; omega
    change (s.mem.write pa.toNat v).read a = _
    rw [Memory.read_write _ _ _ _ h, if_neg hn]
  · have hn : a ≠ pa.toNat ∧ a ≠ pa.toNat + 1 := by simp only [Size.bits] at ha; omega
    change (s.mem.writeWord pa.toNat v).read a = _
    rw [Memory.read_writeWord _ _ _ _ h, if_neg hn.1, if_neg hn.2]

/-- A stored word reads back. -/
theorem store_readWord (s : State) (pa : Word) (v : Word) (h : s.mem.wf = true) :
    (s.store pa .word v).mem.readWord pa.toNat = v := by
  rw [State.store_mem]; exact Memory.readWord_writeWord _ _ _ h

/-- A word apart from a stored one stays. -/
theorem store_readWord_apart (s : State) (pa : Word) (v : Word) (a : Nat) (h : s.mem.wf = true)
    (ha : a + 2 ≤ pa.toNat ∨ pa.toNat + 2 ≤ a) :
    (s.store pa .word v).mem.readWord a = s.mem.readWord a := by
  unfold Memory.readWord
  rw [store_read_outside s pa .word v a h (by simp only [Size.bits]; omega),
    store_read_outside s pa .word v (a + 1) h (by simp only [Size.bits]; omega)]

end Sys2Proof.Machine
end

