-- ==== Sys2Proof/Laws/Frames.lean ====
section
/-! SUPPORT. How frames compose: each part of an instruction has one, and a chain has their union. -/

namespace Sys2Proof.Machine

variable {α β : Type}

/-! ### Marks -/

theorem Marked.refl (l : PdLayout) (w : Word) : Marked l w w := .inl rfl

theorem pdMark_pdMark (l : PdLayout) (a b : Bool) (pd : Word) :
    pdMark l b (pdMark l a pd) = pdMark l (a || b) pd := by
  cases a <;> cases b <;> simp only [pdMark, Bool.false_eq_true, if_true, if_false, Bool.or_false,
    Bool.or_true] <;> ext i hi <;>
    simp only [BitVec.getElem_or] <;> cases pd[i] <;> cases (bitAt l.r true)[i] <;>
    cases (bitAt l.m true)[i] <;> rfl

theorem Marked.trans {l : PdLayout} {x y z : Word} (h : Marked l x y) (k : Marked l y z) :
    Marked l x z := by
  rcases h with rfl | rfl | rfl
  · exact k
  · rcases k with rfl | rfl | rfl
    · exact .inr (.inl rfl)
    · exact .inr (.inl (by rw [pdMark_pdMark]; rfl))
    · exact .inr (.inr (by rw [pdMark_pdMark]; rfl))
  · rcases k with rfl | rfl | rfl
    · exact .inr (.inr rfl)
    · exact .inr (.inr (by rw [pdMark_pdMark]; rfl))
    · exact .inr (.inr (by rw [pdMark_pdMark]; rfl))

/-! ### Frames of one part -/

/-- The frame of a part of an instruction that keeps the condition codes. -/
abbrev Part (changed : List Reg) (stored : Nat → Prop) (s t : State) : Prop :=
  Frame changed codesSame stored s t

theorem Frame.mono {c d : List Reg} {k j : Cc → Cc → Prop} {p q : Nat → Prop} {s t : State}
    (h : Frame c k p s t) (hc : ∀ r ∈ c, r ∈ d) (hk : ∀ x y, k x y → j x y) (hp : ∀ a, p a → q a) :
    Frame d j q s t where
  system := h.system
  regs r hr hd := h.regs r hr (fun hm => hd (hc r hm))
  codes := hk _ _ h.codes
  mem := ⟨fun hm a ha => h.mem.1 hm a (fun hp' => ha (hp a hp')),
    fun a he ha hb => h.mem.2 a he (fun hp' => ha (hp a hp')) (fun hp' => hb (hp _ hp'))⟩
  devices hm hq := h.devices hm (fun a ha => hq a (hp a ha))

theorem Frame.refl (s : State) : Part [] NoStore s s :=
  ⟨.refl s, fun _ _ _ => rfl, rfl, ⟨fun _ _ _ _ => rfl, fun _ _ _ _ _ _ => .refl _ _⟩,
    fun _ _ => ⟨fun _ => rfl, fun _ => rfl⟩⟩

/-- A chain has the union of the frames. -/
theorem Frame.trans {c : List Reg} {k : Cc → Cc → Prop} {p q : Nat → Prop} {s t u : State}
    (h : Part c p s t) (g : Frame c k q t u) : Frame c k (fun a => p a ∨ q a) s u where
  system := h.system.trans g.system
  regs r hr hc := (g.regs r hr hc).trans (h.regs r hr hc)
  codes := by have := h.codes; rw [codesSame] at this; rw [← this]; exact g.codes
  mem := by
    have hm : t.cpu.ps1.m = s.cpu.ps1.m := by rw [h.system.ps1]
    refine ⟨fun h0 a ha hr => ?_, fun a he ha hb hr hr' => ?_⟩
    · rw [g.mem.1 (hm.trans h0) a (fun hq => ha (.inr hq)) (fun hq => hr (h.system.arriving a hq)),
        h.mem.1 h0 a (fun hp => ha (.inl hp)) hr]
    · have h2 := g.mem.2 a he (fun hq => ha (.inr hq)) (fun hq => hb (.inr hq))
        (fun hq => hr (h.system.arriving _ hq)) (fun hq => hr' (h.system.arriving _ hq))
      rw [h.system.cfg] at h2
      exact (h.mem.2 a he (fun hp => ha (.inl hp)) (fun hp => hb (.inl hp)) hr hr').trans h2
  devices h0 hall := by
    have hm : t.cpu.ps1.m = s.cpu.ps1.m := by rw [h.system.ps1]
    obtain ⟨g1, g2⟩ := g.devices (hm.trans h0) (fun a ha => hall a (.inr ha))
    obtain ⟨h1, h2⟩ := h.devices h0 (fun a ha => hall a (.inl ha))
    exact ⟨fun k => (g1 k).trans (h1 k), fun hq => (g2 (h.system.quiet hq).1).trans (h2 hq)⟩

/-- What the controllers do in the instant between two accesses (R107). -/
theorem Frame.race {s : State} (hw : s.mem.wf = true) : Part [] NoStore s s.race where
  system := .race s
  regs q _ _ := by simp
  codes := by simp [codesSame]
  mem := by
    have h := (Moves.race s).mem hw
    refine ⟨fun _ a _ hr => h a hr, fun a _ _ _ hr hr' => ?_⟩
    simp only [Memory.readWord, h a hr, h (a + 1) hr']
    exact .refl _ _
  devices _ _ := ⟨(Moves.race s).unmoved, fun hq => by rw [State.race_quiet hq]⟩

theorem Frame.setReg (s : State) (r : Reg) (v : Word) {c : List Reg} (h : r = .pc ∨ r ∈ c) :
    Part c NoStore s (s.setReg r v) where
  system := .setReg s r v
  regs q hq hc := State.reg_setReg_other s r q v (by
    rintro rfl
    rcases h with h | h
    · exact hq h
    · exact hc h)
  codes := by simp [codesSame]
  mem := ⟨fun _ _ _ _ => rfl, fun _ _ _ _ _ _ => .refl _ _⟩
  devices _ _ := ⟨fun _ => rfl, fun _ => rfl⟩

theorem Frame.setCc (s : State) (cc : Cc) {k : Cc → Cc → Prop} (h : k s.cpu.ps1.cc cc) :
    Frame [] k NoStore s (s.setCc cc) where
  system := .setCc s cc
  regs q _ _ := by cases q <;> rfl
  codes := h
  mem := ⟨fun _ _ _ _ => rfl, fun _ _ _ _ _ _ => .refl _ _⟩
  devices _ _ := ⟨fun _ => rfl, fun _ => rfl⟩

/-- Marking the page descriptor a translation uses. -/
theorem Frame.mark {s : State} {kind : Access} {va pda pd : Word} (hw : s.mem.wf = true)
    (hm : s.cpu.ps1.m = true) (h : walk s (some kind) va = .ok (pda, pd)) :
    Part [] NoStore s (s.store pda .word (pdMark s.cfg.pdLayout (decide (kind = .write)) pd)) where
  system := .store _ _ _ _
  regs q _ _ := by simp [State.reg]
  codes := by simp [codesSame]
  mem := by
    refine ⟨fun h0 => absurd (hm.symm.trans h0) (by simp), fun a he _ _ _ _ => ?_⟩
    obtain ⟨hodd, _, hpd, _⟩ := walk_ok h
    have hev : pda.toNat % 2 = 0 := by
      rw [BitVec.getLsbD] at hodd
      simpa [Nat.testBit_zero] using hodd
    by_cases ha : a = pda.toNat
    · subst ha
      rw [store_readWord _ _ _ hw, ← hpd]
      cases hk : decide (kind = .write)
      · exact .inr (.inl rfl)
      · exact .inr (.inr rfl)
    · rw [store_readWord_apart _ _ _ _ hw (by omega)]
      exact .refl _ _
  devices h0 := by rw [hm] at h0; cases h0

/-- Storing at an aligned address. -/
theorem Frame.store {s : State} {pa : Word} {size : Size} (v : BitVec size.bits) (hw : s.mem.wf = true) :
    Part [] (fun a => pa.toNat ≤ a ∧ a < pa.toNat + size.bits / 8) s (s.store pa size v) where
  system := .store _ _ _ _
  regs q _ _ := by simp [State.reg]
  codes := by simp [codesSame]
  mem := by
    have hout : ∀ a, ¬ (pa.toNat ≤ a ∧ a < pa.toNat + size.bits / 8) →
        (s.store pa size v).mem.read a = s.mem.read a :=
      fun a ha => store_read_outside s pa size v a hw (by omega)
    refine ⟨fun _ a ha _ => hout a ha, fun a _ ha hb _ _ => ?_⟩
    simp only [Memory.readWord, hout a ha, hout (a + 1) hb]
    exact .refl _ _
  devices _ h := by
    have hd := h pa.toNat ⟨Nat.le_refl _, by cases size <;> simp [Size.bits]⟩
    have he : (s.store pa size v).io.ctl = s.io.ctl := by simp only [State.store, hd, State.storeMem_io]
    exact ⟨fun k => by rw [he], fun _ => he⟩

/-! ### Frames of reading -/

/-- The relation of the reading parts: the frame, and memory stays canonical. -/
def ReadPart (changed : List Reg) (s t : State) : Prop :=
  s.mem.wf = true → Part changed NoStore s t ∧ t.mem.wf = true

theorem NoStore.or : (fun a => NoStore a ∨ NoStore a) = NoStore := by
  funext a; simp [NoStore]

theorem ReadPart.reading (c : List Reg) : Reading (fun r => r = .pc ∨ r ∈ c) (ReadPart c) where
  refl s hw := ⟨(Frame.refl s).mono (by simp) (fun _ _ h => h) (fun _ h => h), hw⟩
  trans h g hw := by
    obtain ⟨h1, h2⟩ := h hw
    obtain ⟨g1, g2⟩ := g h2
    exact ⟨NoStore.or ▸ h1.trans g1, g2⟩
  setReg s r v hr hw := ⟨Frame.setReg s r v hr, by simpa using hw⟩
  race s hw := ⟨(Frame.race hw).mono (by simp) (fun _ _ h => h) (fun _ h => h), (Moves.race s).wf hw⟩
  mark s kind va pda pd hm hwalk hw :=
    ⟨(Frame.mark hw hm hwalk).mono (by simp) (fun _ _ h => h) (fun _ h => h), store_wf _ _ _ _ hw⟩

/-- A reading part's frame. -/
theorem ReadPart.of {c : List Reg} {m : Exec α} (h : Preserves (ReadPart c) m) {s t : State} {a : α}
    (hm : m s = .ok (a, t)) (hw : s.mem.wf = true) : Part c NoStore s t ∧ t.mem.wf = true := h s a t hm hw

/-- A write's frame: it stores where `StoresTo` says. -/
theorem memWrite_frame {size : Size} {va : Word} {v : BitVec size.bits} {s t : State}
    (h : memWrite size va v s = .ok ((), t)) (hw : s.mem.wf = true) :
    Part [] (StoresTo size va s) s t ∧ t.mem.wf = true := by
  obtain ⟨pa, u, hr, _, rfl⟩ := memWrite_ok.1 h
  obtain ⟨h0, w0⟩ := (ReadPart.reading []).race s hw
  obtain ⟨h1, h2⟩ := ReadPart.of ((ReadPart.reading []).resolve size .write va) hr w0
  refine ⟨((NoStore.or ▸ h0.trans h1 : Part [] NoStore s u).trans (Frame.store v h2)).mono
    (fun _ h => h) (fun _ _ h => h) ?_, store_wf _ _ _ _ h2⟩
  rintro a (ha | ⟨ha, hb⟩)
  · exact ha.elim
  · exact ⟨pa, u, hr, ha, hb⟩

/-- Writing to a location's frame. -/
theorem writeLoc_frame {size : Size} {v : BitVec size.bits} {loc : Loc} {s t : State} {c : List Reg}
    (h : writeLoc size v loc s = .ok ((), t)) (hw : s.mem.wf = true)
    (hc : ∀ r, loc = .reg r → r ∈ c) : Part c (LocStores size loc s) s t ∧ t.mem.wf = true := by
  cases loc with
  | reg r => cases h; exact ⟨Frame.setReg _ _ _ (.inr (hc r rfl)), hw⟩
  | mem a kind =>
    obtain ⟨h1, h2⟩ := memWrite_frame h hw
    exact ⟨h1.mono (by simp) (fun _ _ h => h) (fun _ h => h), h2⟩

/-- A push's frame. -/
theorem push_frame {v : Word} {s t : State} (h : push v s = .ok ((), t)) (hw : s.mem.wf = true) :
    Part [.sp] (PushStores [v] s) s t ∧ t.mem.wf = true := by
  have h' := push_ok.1 h
  obtain ⟨h1, h2⟩ := memWrite_frame h' (by simpa using hw)
  have := (Frame.setReg s .sp (s.cpu.sp - 2) (c := [.sp]) (.inr (by simp))).trans
    (h1.mono (d := [.sp]) (by simp) (fun _ _ h => h) (fun _ h => h))
  refine ⟨this.mono (fun _ h => h) (fun _ _ h => h) ?_, h2⟩
  rintro a (ha | ha)
  · exact ha.elim
  · exact .inl ha

/-- A specifier in register mode selects its register, every other mode selects memory. -/
theorem operand_loc {size : Size} {o : Operand} {loc : Loc} {s t : State} {r : Reg}
    (h : operand size o s = .ok (loc, t)) (hl : loc = .reg r) : o.mode = .register ∧ r = o.reg := by
  subst hl
  obtain ⟨mode, reg⟩ := o
  unfold operand at h
  cases mode
  · cases h; exact ⟨rfl, rfl⟩
  all_goals
    exfalso
    simp only [bind_ok, pure_apply] at h
    simp at h

end Sys2Proof.Machine
end

