-- ==== Sys2Proof/Laws/Layouts.lean ====
section
/-! SUPPORT. Words made of fields: which bit of a word a gathered field takes each of its bits from, and the
fields of the default layouts. -/

namespace Sys2Proof.Machine

/-- Bit `j` of a gathered field is the bit at its place (R26, R92, R94). -/
theorem getLsbD_gather {m n : Nat} (places : List Nat) : ∀ (i : Nat) (w : BitVec m) (j : Nat),
    (gather places i w : BitVec n).getLsbD j =
      (decide (j < n) && decide (i ≤ j) && (places[j - i]?).any (fun p => w.getLsbD p)) := by
  induction places with
  | nil => intro i w j; simp [gather]
  | cons p ps ih =>
    intro i w j
    rw [gather, BitVec.getLsbD_or, ih]
    simp only [BitVec.getLsbD_shiftLeft, BitVec.getLsbD_setWidth, BitVec.getLsbD_ofBool]
    by_cases h : j < n
    · rcases Nat.lt_trichotomy j i with h1 | h1 | h1
      · simp [h, h1, show ¬ i ≤ j by omega, show ¬ i + 1 ≤ j by omega]
      · subst h1
        simp [h, show 0 < n by omega]
      · obtain ⟨k, hk⟩ := Nat.exists_eq_add_of_lt h1
        have e : j - i = (j - (i + 1)) + 1 := by omega
        simp [h, e, show ¬ j < i by omega, show i ≤ j by omega, show i + 1 ≤ j by omega]
    · simp [h]

/-- The page frame of the default layout (R94). -/
theorem pdFrame_default (pd : Word) : pdFrame PdLayout.default pd = pd.extractLsb' 0 7 := by
  apply BitVec.eq_of_getLsbD_eq
  intro i hi
  rw [pdFrame, getLsbD_gather]
  rcases i with _ | _ | _ | _ | _ | _ | _ | i <;>
    first
      | omega
      | simp [PdLayout.default]

/-- The fields of a segment descriptor of the default layout (R92). -/
theorem SegDesc.ofWords_default (sd1 sd2 : Word) :
    SegDesc.ofWords SdLayout.default sd1 sd2 =
      { len := sd1.extractLsb' 11 5, e := sd1.getLsbD 10, w := sd1.getLsbD 9, r := sd1.getLsbD 8
        p := sd1.getLsbD 7, pta := sd2 } := by
  have low : ∀ i, i < 16 → (sd2 ++ sd1 : DWord).getLsbD i = sd1.getLsbD i := by
    intro i hi
    rw [BitVec.getLsbD_append, if_pos hi]
  simp only [SegDesc.ofWords, SegDesc.mk.injEq]
  refine ⟨?_, low 10 (by decide), low 9 (by decide), low 8 (by decide), low 7 (by decide), ?_⟩
  · apply BitVec.eq_of_getLsbD_eq
    intro i hi
    rw [getLsbD_gather]
    rcases i with _ | _ | _ | _ | _ | i <;>
      first
        | omega
        | simpa [SdLayout.default] using low 11 (by decide)
        | simpa [SdLayout.default] using low 12 (by decide)
        | simpa [SdLayout.default] using low 13 (by decide)
        | simpa [SdLayout.default] using low 14 (by decide)
        | simpa [SdLayout.default] using low 15 (by decide)
  · have places : ∀ i : Fin 16, SdLayout.default.pta[i.val]? = some (16 + i.val) := by decide
    apply BitVec.eq_of_getLsbD_eq
    intro i hi
    rw [getLsbD_gather, Nat.sub_zero, places ⟨i, hi⟩, Option.any_some, BitVec.getLsbD_append,
      if_neg (by simp), Nat.add_sub_cancel_left]
    simp [hi]

end Sys2Proof.Machine
end

