-- ==== Sys2Proof/Laws/PerInstr.lean ====
section
/-! SUPPORT. One lemma per constructor of `Instr`: its encoding has the bits of its row of the opcode
table. -/

namespace Sys2Proof.Laws

/-- Masking a word made of an opcode and fields keeps the opcode. -/
theorem append_mask {n m : Nat} (op : BitVec n) (fields : BitVec m) :
    (op ++ fields) &&& (BitVec.allOnes n ++ 0#m) = op ++ 0#m := by
  apply BitVec.eq_of_getLsbD_eq
  intro i hi
  simp only [BitVec.getLsbD_and, BitVec.getLsbD_append, BitVec.getLsbD_zero, BitVec.getLsbD_allOnes]
  by_cases h : i < m
  · simp [h]
  · simp only [h, if_false]
    cases hb : op.getLsbD (i - m)
    · rfl
    · simp; omega

/-- The mask and the match of an instruction's row of the opcode table (R127). -/
def row : Instr → Word × Word
  | .halt => (0o177777#16, 0o000000#16)
  | .ldst => (0o177777#16, 0o007000#16)
  | .stst => (0o177777#16, 0o007100#16)
  | .ldit => (0o177777#16, 0o007200#16)
  | .ldim => (0o177777#16, 0o007300#16)
  | .ldstl => (0o177777#16, 0o007400#16)
  | .movbck => (0o177777#16, 0o107000#16)
  | .stck => (0o177777#16, 0o107100#16)
  | .inprg => (0o177777#16, 0o107200#16)
  | .csv => (0o177777#16, 0o107300#16)
  | .cret => (0o177777#16, 0o107400#16)
  | .sys _ => (0o177400#16, 0o104400#16)
  | .clr _ => (0o177700#16, 0o005000#16)
  | .clrb _ => (0o177700#16, 0o105000#16)
  | .com _ => (0o177700#16, 0o005100#16)
  | .comb _ => (0o177700#16, 0o105100#16)
  | .inc _ => (0o177700#16, 0o005200#16)
  | .incb _ => (0o177700#16, 0o105200#16)
  | .dec _ => (0o177700#16, 0o005300#16)
  | .decb _ => (0o177700#16, 0o105300#16)
  | .neg _ => (0o177700#16, 0o005400#16)
  | .negb _ => (0o177700#16, 0o105400#16)
  | .adc _ => (0o177700#16, 0o005500#16)
  | .adcb _ => (0o177700#16, 0o105500#16)
  | .sbc _ => (0o177700#16, 0o005600#16)
  | .sbcb _ => (0o177700#16, 0o105600#16)
  | .tst _ => (0o177700#16, 0o005700#16)
  | .tstb _ => (0o177700#16, 0o105700#16)
  | .ror _ => (0o177700#16, 0o006000#16)
  | .rorb _ => (0o177700#16, 0o106000#16)
  | .rol _ => (0o177700#16, 0o006100#16)
  | .rolb _ => (0o177700#16, 0o106100#16)
  | .asr _ => (0o177700#16, 0o006200#16)
  | .asrb _ => (0o177700#16, 0o106200#16)
  | .asl _ => (0o177700#16, 0o006300#16)
  | .aslb _ => (0o177700#16, 0o106300#16)
  | .sxt _ => (0o177700#16, 0o006700#16)
  | .swab _ => (0o177700#16, 0o000300#16)
  | .jmp _ => (0o177700#16, 0o000100#16)
  | .ash _ _ => (0o177000#16, 0o072000#16)
  | .ashc _ _ => (0o177000#16, 0o073000#16)
  | .mul _ _ => (0o177000#16, 0o070000#16)
  | .div _ _ => (0o177000#16, 0o071000#16)
  | .xor _ _ => (0o177000#16, 0o074000#16)
  | .jsr _ _ => (0o177000#16, 0o004000#16)
  | .mov _ _ => (0o170000#16, 0o010000#16)
  | .movb _ _ => (0o170000#16, 0o110000#16)
  | .cmp _ _ => (0o170000#16, 0o020000#16)
  | .cmpb _ _ => (0o170000#16, 0o120000#16)
  | .bit _ _ => (0o170000#16, 0o030000#16)
  | .bitb _ _ => (0o170000#16, 0o130000#16)
  | .bic _ _ => (0o170000#16, 0o040000#16)
  | .bicb _ _ => (0o170000#16, 0o140000#16)
  | .bis _ _ => (0o170000#16, 0o050000#16)
  | .bisb _ _ => (0o170000#16, 0o150000#16)
  | .add _ _ => (0o170000#16, 0o060000#16)
  | .sub _ _ => (0o170000#16, 0o160000#16)
  | .br _ => (0o177400#16, 0o000400#16)
  | .bne _ => (0o177400#16, 0o001000#16)
  | .beq _ => (0o177400#16, 0o001400#16)
  | .bge _ => (0o177400#16, 0o002000#16)
  | .blt _ => (0o177400#16, 0o002400#16)
  | .bgt _ => (0o177400#16, 0o003000#16)
  | .ble _ => (0o177400#16, 0o003400#16)
  | .bpl _ => (0o177400#16, 0o100000#16)
  | .bmi _ => (0o177400#16, 0o100400#16)
  | .bhi _ => (0o177400#16, 0o101000#16)
  | .blos _ => (0o177400#16, 0o101400#16)
  | .bvc _ => (0o177400#16, 0o102000#16)
  | .bvs _ => (0o177400#16, 0o102400#16)
  | .bcc _ => (0o177400#16, 0o103000#16)
  | .bcs _ => (0o177400#16, 0o103400#16)
  | .bhis _ => (0o177400#16, 0o103000#16)
  | .blo _ => (0o177400#16, 0o103400#16)
  | .sob _ _ => (0o177000#16, 0o077000#16)
  | .rts _ => (0o177770#16, 0o000200#16)
  | .mark _ => (0o177700#16, 0o006400#16)
  | .ccop _ _ _ _ _ => (0o177740#16, 0o000240#16)
  | .nop => (0o177777#16, 0o000240#16)
  | .clc => (0o177777#16, 0o000241#16)
  | .clv => (0o177777#16, 0o000242#16)
  | .clz => (0o177777#16, 0o000244#16)
  | .cln => (0o177777#16, 0o000250#16)
  | .ccc => (0o177777#16, 0o000257#16)
  | .sec => (0o177777#16, 0o000261#16)
  | .sev => (0o177777#16, 0o000262#16)
  | .sez => (0o177777#16, 0o000264#16)
  | .sen => (0o177777#16, 0o000270#16)
  | .scc => (0o177777#16, 0o000277#16)

/-- The encoding agrees with the row: the bits of the mask are those of the match. -/
def EncodingMatchesRow.Statement (i : Instr) : Prop := encode i &&& (row i).1 = (row i).2

theorem EncodingMatchesRow.halt : EncodingMatchesRow.Statement .halt := rfl

theorem EncodingMatchesRow.ldst : EncodingMatchesRow.Statement .ldst := rfl

theorem EncodingMatchesRow.stst : EncodingMatchesRow.Statement .stst := rfl

theorem EncodingMatchesRow.ldit : EncodingMatchesRow.Statement .ldit := rfl

theorem EncodingMatchesRow.ldim : EncodingMatchesRow.Statement .ldim := rfl

theorem EncodingMatchesRow.ldstl : EncodingMatchesRow.Statement .ldstl := rfl

theorem EncodingMatchesRow.movbck : EncodingMatchesRow.Statement .movbck := rfl

theorem EncodingMatchesRow.stck : EncodingMatchesRow.Statement .stck := rfl

theorem EncodingMatchesRow.inprg : EncodingMatchesRow.Statement .inprg := rfl

theorem EncodingMatchesRow.csv : EncodingMatchesRow.Statement .csv := rfl

theorem EncodingMatchesRow.cret : EncodingMatchesRow.Statement .cret := rfl

theorem EncodingMatchesRow.sys (number : BitVec 8) :
    EncodingMatchesRow.Statement (.sys number) := append_mask _ _

theorem EncodingMatchesRow.clr (dd : Operand) : EncodingMatchesRow.Statement (.clr dd) := append_mask _ _

theorem EncodingMatchesRow.clrb (dd : Operand) :
    EncodingMatchesRow.Statement (.clrb dd) := append_mask _ _

theorem EncodingMatchesRow.com (dd : Operand) : EncodingMatchesRow.Statement (.com dd) := append_mask _ _

theorem EncodingMatchesRow.comb (dd : Operand) :
    EncodingMatchesRow.Statement (.comb dd) := append_mask _ _

theorem EncodingMatchesRow.inc (dd : Operand) : EncodingMatchesRow.Statement (.inc dd) := append_mask _ _

theorem EncodingMatchesRow.incb (dd : Operand) :
    EncodingMatchesRow.Statement (.incb dd) := append_mask _ _

theorem EncodingMatchesRow.dec (dd : Operand) : EncodingMatchesRow.Statement (.dec dd) := append_mask _ _

theorem EncodingMatchesRow.decb (dd : Operand) :
    EncodingMatchesRow.Statement (.decb dd) := append_mask _ _

theorem EncodingMatchesRow.neg (dd : Operand) : EncodingMatchesRow.Statement (.neg dd) := append_mask _ _

theorem EncodingMatchesRow.negb (dd : Operand) :
    EncodingMatchesRow.Statement (.negb dd) := append_mask _ _

theorem EncodingMatchesRow.adc (dd : Operand) : EncodingMatchesRow.Statement (.adc dd) := append_mask _ _

theorem EncodingMatchesRow.adcb (dd : Operand) :
    EncodingMatchesRow.Statement (.adcb dd) := append_mask _ _

theorem EncodingMatchesRow.sbc (dd : Operand) : EncodingMatchesRow.Statement (.sbc dd) := append_mask _ _

theorem EncodingMatchesRow.sbcb (dd : Operand) :
    EncodingMatchesRow.Statement (.sbcb dd) := append_mask _ _

theorem EncodingMatchesRow.tst (dd : Operand) : EncodingMatchesRow.Statement (.tst dd) := append_mask _ _

theorem EncodingMatchesRow.tstb (dd : Operand) :
    EncodingMatchesRow.Statement (.tstb dd) := append_mask _ _

theorem EncodingMatchesRow.ror (dd : Operand) : EncodingMatchesRow.Statement (.ror dd) := append_mask _ _

theorem EncodingMatchesRow.rorb (dd : Operand) :
    EncodingMatchesRow.Statement (.rorb dd) := append_mask _ _

theorem EncodingMatchesRow.rol (dd : Operand) : EncodingMatchesRow.Statement (.rol dd) := append_mask _ _

theorem EncodingMatchesRow.rolb (dd : Operand) :
    EncodingMatchesRow.Statement (.rolb dd) := append_mask _ _

theorem EncodingMatchesRow.asr (dd : Operand) : EncodingMatchesRow.Statement (.asr dd) := append_mask _ _

theorem EncodingMatchesRow.asrb (dd : Operand) :
    EncodingMatchesRow.Statement (.asrb dd) := append_mask _ _

theorem EncodingMatchesRow.asl (dd : Operand) : EncodingMatchesRow.Statement (.asl dd) := append_mask _ _

theorem EncodingMatchesRow.aslb (dd : Operand) :
    EncodingMatchesRow.Statement (.aslb dd) := append_mask _ _

theorem EncodingMatchesRow.sxt (dd : Operand) : EncodingMatchesRow.Statement (.sxt dd) := append_mask _ _

theorem EncodingMatchesRow.swab (dd : Operand) :
    EncodingMatchesRow.Statement (.swab dd) := append_mask _ _

theorem EncodingMatchesRow.jmp (dd : Operand) : EncodingMatchesRow.Statement (.jmp dd) := append_mask _ _

theorem EncodingMatchesRow.ash (r : Reg) (ss : Operand) :
    EncodingMatchesRow.Statement (.ash r ss) := append_mask _ _

theorem EncodingMatchesRow.ashc (r : Reg) (ss : Operand) :
    EncodingMatchesRow.Statement (.ashc r ss) := append_mask _ _

theorem EncodingMatchesRow.mul (r : Reg) (ss : Operand) :
    EncodingMatchesRow.Statement (.mul r ss) := append_mask _ _

theorem EncodingMatchesRow.div (r : Reg) (ss : Operand) :
    EncodingMatchesRow.Statement (.div r ss) := append_mask _ _

theorem EncodingMatchesRow.xor (r : Reg) (dd : Operand) :
    EncodingMatchesRow.Statement (.xor r dd) := append_mask _ _

theorem EncodingMatchesRow.jsr (r : Reg) (dd : Operand) :
    EncodingMatchesRow.Statement (.jsr r dd) := append_mask _ _

theorem EncodingMatchesRow.mov (ss dd : Operand) :
    EncodingMatchesRow.Statement (.mov ss dd) := append_mask _ _

theorem EncodingMatchesRow.movb (ss dd : Operand) :
    EncodingMatchesRow.Statement (.movb ss dd) := append_mask _ _

theorem EncodingMatchesRow.cmp (ss dd : Operand) :
    EncodingMatchesRow.Statement (.cmp ss dd) := append_mask _ _

theorem EncodingMatchesRow.cmpb (ss dd : Operand) :
    EncodingMatchesRow.Statement (.cmpb ss dd) := append_mask _ _

theorem EncodingMatchesRow.bit (ss dd : Operand) :
    EncodingMatchesRow.Statement (.bit ss dd) := append_mask _ _

theorem EncodingMatchesRow.bitb (ss dd : Operand) :
    EncodingMatchesRow.Statement (.bitb ss dd) := append_mask _ _

theorem EncodingMatchesRow.bic (ss dd : Operand) :
    EncodingMatchesRow.Statement (.bic ss dd) := append_mask _ _

theorem EncodingMatchesRow.bicb (ss dd : Operand) :
    EncodingMatchesRow.Statement (.bicb ss dd) := append_mask _ _

theorem EncodingMatchesRow.bis (ss dd : Operand) :
    EncodingMatchesRow.Statement (.bis ss dd) := append_mask _ _

theorem EncodingMatchesRow.bisb (ss dd : Operand) :
    EncodingMatchesRow.Statement (.bisb ss dd) := append_mask _ _

theorem EncodingMatchesRow.add (ss dd : Operand) :
    EncodingMatchesRow.Statement (.add ss dd) := append_mask _ _

theorem EncodingMatchesRow.sub (ss dd : Operand) :
    EncodingMatchesRow.Statement (.sub ss dd) := append_mask _ _

theorem EncodingMatchesRow.br (offset : BitVec 8) :
    EncodingMatchesRow.Statement (.br offset) := append_mask _ _

theorem EncodingMatchesRow.bne (offset : BitVec 8) :
    EncodingMatchesRow.Statement (.bne offset) := append_mask _ _

theorem EncodingMatchesRow.beq (offset : BitVec 8) :
    EncodingMatchesRow.Statement (.beq offset) := append_mask _ _

theorem EncodingMatchesRow.bge (offset : BitVec 8) :
    EncodingMatchesRow.Statement (.bge offset) := append_mask _ _

theorem EncodingMatchesRow.blt (offset : BitVec 8) :
    EncodingMatchesRow.Statement (.blt offset) := append_mask _ _

theorem EncodingMatchesRow.bgt (offset : BitVec 8) :
    EncodingMatchesRow.Statement (.bgt offset) := append_mask _ _

theorem EncodingMatchesRow.ble (offset : BitVec 8) :
    EncodingMatchesRow.Statement (.ble offset) := append_mask _ _

theorem EncodingMatchesRow.bpl (offset : BitVec 8) :
    EncodingMatchesRow.Statement (.bpl offset) := append_mask _ _

theorem EncodingMatchesRow.bmi (offset : BitVec 8) :
    EncodingMatchesRow.Statement (.bmi offset) := append_mask _ _

theorem EncodingMatchesRow.bhi (offset : BitVec 8) :
    EncodingMatchesRow.Statement (.bhi offset) := append_mask _ _

theorem EncodingMatchesRow.blos (offset : BitVec 8) :
    EncodingMatchesRow.Statement (.blos offset) := append_mask _ _

theorem EncodingMatchesRow.bvc (offset : BitVec 8) :
    EncodingMatchesRow.Statement (.bvc offset) := append_mask _ _

theorem EncodingMatchesRow.bvs (offset : BitVec 8) :
    EncodingMatchesRow.Statement (.bvs offset) := append_mask _ _

theorem EncodingMatchesRow.bcc (offset : BitVec 8) :
    EncodingMatchesRow.Statement (.bcc offset) := append_mask _ _

theorem EncodingMatchesRow.bcs (offset : BitVec 8) :
    EncodingMatchesRow.Statement (.bcs offset) := append_mask _ _

theorem EncodingMatchesRow.bhis (offset : BitVec 8) :
    EncodingMatchesRow.Statement (.bhis offset) := append_mask _ _

theorem EncodingMatchesRow.blo (offset : BitVec 8) :
    EncodingMatchesRow.Statement (.blo offset) := append_mask _ _

theorem EncodingMatchesRow.sob (r : Reg) (offset : BitVec 6) :
    EncodingMatchesRow.Statement (.sob r offset) := append_mask _ _

theorem EncodingMatchesRow.rts (r : Reg) : EncodingMatchesRow.Statement (.rts r) := append_mask _ _

theorem EncodingMatchesRow.mark (nn : BitVec 6) :
    EncodingMatchesRow.Statement (.mark nn) := append_mask _ _

theorem EncodingMatchesRow.ccop (s n z v c : Bool) :
    EncodingMatchesRow.Statement (.ccop s n z v c) := append_mask _ _

theorem EncodingMatchesRow.nop : EncodingMatchesRow.Statement .nop := rfl

theorem EncodingMatchesRow.clc : EncodingMatchesRow.Statement .clc := rfl

theorem EncodingMatchesRow.clv : EncodingMatchesRow.Statement .clv := rfl

theorem EncodingMatchesRow.clz : EncodingMatchesRow.Statement .clz := rfl

theorem EncodingMatchesRow.cln : EncodingMatchesRow.Statement .cln := rfl

theorem EncodingMatchesRow.ccc : EncodingMatchesRow.Statement .ccc := rfl

theorem EncodingMatchesRow.sec : EncodingMatchesRow.Statement .sec := rfl

theorem EncodingMatchesRow.sev : EncodingMatchesRow.Statement .sev := rfl

theorem EncodingMatchesRow.sez : EncodingMatchesRow.Statement .sez := rfl

theorem EncodingMatchesRow.sen : EncodingMatchesRow.Statement .sen := rfl

theorem EncodingMatchesRow.scc : EncodingMatchesRow.Statement .scc := rfl

end Sys2Proof.Laws
end

