-- ==== Sys2Proof/Laws/Shapes.lean ====
section
/-! SUPPORT. For each shape of instruction one lemma that says what it leaves unchanged, and for each block
operation the bytes it stores to. -/

namespace Sys2Proof.Machine

/-! ### Codes written last -/

/-- A part followed by writing the condition codes. -/
theorem Part.setCc {c : List Reg} {k : Cc → Cc → Prop} {p : Nat → Prop} {s t : State} {cc : Cc}
    (h : Part c p s t) (hk : k s.cpu.ps1.cc cc) : Frame c k p s (t.setCc cc) := by
  have e : t.cpu.ps1.cc = s.cpu.ps1.cc := h.codes
  have g : Frame c k NoStore t (t.setCc cc) :=
    (Frame.setCc t cc (k := k) (by rw [e]; exact hk)).mono (by simp) (fun _ _ h => h) (fun _ h => h)
  exact (h.trans g).mono (fun _ h => h) (fun _ _ h => h) (fun a ha => ha.elim id (fun h => h.elim))

/-- A chain of two parts of which the first stores nothing. -/
theorem Part.after {c : List Reg} {p : Nat → Prop} {s t u : State} (h : Part c NoStore s t)
    (g : Part c p t u) : Part c p s u :=
  (h.trans g).mono (fun _ h => h) (fun _ _ h => h) (fun _ ha => ha.elim (fun h => h.elim) id)

/-- More registers and more bytes may change. -/
theorem Part.widen {c d : List Reg} {p : Nat → Prop} {s t : State} (h : Part c p s t)
    (hc : ∀ r ∈ c, r ∈ d) : Part d p s t := h.mono hc (fun _ _ h => h) (fun _ h => h)

/-! ### Registers of a destination -/

theorem operand_dest {size : Size} {dd : Operand} {loc : Loc} {s t : State}
    (h : operand size dd s = .ok (loc, t)) : ∀ r, loc = .reg r → r ∈ destRegs dd := by
  intro r hr
  obtain ⟨h1, h2⟩ := operand_loc h hr
  simp [destRegs, h1, h2]

theorem steppedRegs_dest (dd : Operand) : ∀ r ∈ steppedRegs dd, r ∈ destRegs dd := by
  intro r hr
  unfold destRegs
  split
  · rename_i h; simp [steppedRegs, h, modeSteps] at hr
  · exact hr

/-! ### Frames of reading the operands -/

theorem ReadsDest.frame {size : Size} {dd : Operand} {loc : Loc} {old : BitVec size.bits} {s u : State}
    {c : List Reg} (h : ReadsDest size dd loc old s u) (hw : s.mem.wf = true)
    (hc : ∀ r ∈ steppedRegs dd, r ∈ c) : Part c NoStore s u ∧ u.mem.wf = true := by
  obtain ⟨s1, s2, ⟨w, hf⟩, ho, hr⟩ := h
  have R := ReadPart.reading c
  exact ReadPart.of (R.bind (R.fetchWord (.inl rfl)) (fun _ => R.bind
    (R.operand (.inl rfl) size dd (fun r hr => .inr (hc r hr))) (fun l => R.readLoc size l)))
    ((bind_of_ok hf).trans ((bind_of_ok ho).trans hr)) hw

theorem SelectsDest.frame {size : Size} {dd : Operand} {loc : Loc} {s u : State} {c : List Reg}
    (h : SelectsDest size dd loc s u) (hw : s.mem.wf = true) (hc : ∀ r ∈ steppedRegs dd, r ∈ c) :
    Part c NoStore s u ∧ u.mem.wf = true := by
  obtain ⟨s1, ⟨w, hf⟩, ho⟩ := h
  have R := ReadPart.reading c
  exact ReadPart.of (R.bind (R.fetchWord (.inl rfl)) (fun _ =>
    R.operand (.inl rfl) size dd (fun r hr => .inr (hc r hr)))) ((bind_of_ok hf).trans ho) hw

theorem SourceAndDest.frame {size : Size} {ss dd : Operand} {src : BitVec size.bits} {loc : Loc}
    {s u : State} {c : List Reg} (h : SourceAndDest size ss dd src loc s u) (hw : s.mem.wf = true)
    (hs : ∀ r ∈ steppedRegs ss, r ∈ c) (hd : ∀ r ∈ steppedRegs dd, r ∈ c) :
    Part c NoStore s u ∧ u.mem.wf = true := by
  obtain ⟨s1, ⟨w, hf⟩, h⟩ := h
  have R := ReadPart.reading c
  exact ReadPart.of (R.bind (R.fetchWord (.inl rfl)) (fun _ => R.sourceThenDest (.inl rfl) size ss dd
    (fun r hr => .inr (hs r hr)) (fun r hr => .inr (hd r hr)))) ((bind_of_ok hf).trans h) hw

theorem ReadsBoth.frame {size : Size} {ss dd : Operand} {src dst : BitVec size.bits} {loc : Loc}
    {s u : State} {c : List Reg} (h : ReadsBoth size ss dd src dst loc s u) (hw : s.mem.wf = true)
    (hs : ∀ r ∈ steppedRegs ss, r ∈ c) (hd : ∀ r ∈ steppedRegs dd, r ∈ c) :
    Part c NoStore s u ∧ u.mem.wf = true := by
  obtain ⟨s2, h, hr⟩ := h
  obtain ⟨g1, w1⟩ := h.frame hw hs hd
  obtain ⟨g2, w2⟩ := ReadPart.of ((ReadPart.reading c).readLoc size loc) hr w1
  exact ⟨g1.after g2, w2⟩

/-- Where the destination is a register it is the specifier's. -/
theorem SourceAndDest.loc {size : Size} {ss dd : Operand} {src : BitVec size.bits} {loc : Loc}
    {s u : State} (h : SourceAndDest size ss dd src loc s u) : ∀ r, loc = .reg r → r ∈ destRegs dd := by
  intro r hl
  obtain ⟨s1, hf, h⟩ := h
  unfold sourceThenDest at h
  obtain ⟨sl, s2, h1, h⟩ := bind_ok.1 h
  obtain ⟨sv, s3, h2, h⟩ := bind_ok.1 h
  obtain ⟨dl, s4, h3, h⟩ := bind_ok.1 h
  rw [bind_of_ok (peek_apply _ _)] at h
  have : dl = loc := by
    split at h
    · obtain ⟨_, _, _, h⟩ := bind_ok.1 h
      cases h; rfl
    · cases h; rfl
  subst this
  exact operand_dest h3 r hl

/-! ### Frames of the shapes -/

/-- What an instruction leaves that reads and writes its destination. -/
theorem modifyDest_frame {size : Size} {dd : Operand}
    {f : BitVec size.bits → Cc → BitVec size.bits × Cc} {k : Cc → Cc → Prop} {role : StackRole}
    {s t : State} (hw : s.mem.wf = true) (hk : ∀ old, k s.cpu.ps1.cc (f old s.cpu.ps1.cc).2)
    (h : transact role (modifyDest size dd f) s = .next t) :
    Ends (Frame (destRegs dd) k
      (fun a => ∃ loc old u, ReadsDest size dd loc old s u ∧ LocStores size loc u a) s) s t := by
  refine transact_ends ?_ h
  intro s1 w s' hf hb
  unfold modifyDest at hb
  obtain ⟨loc, s2, ho, hb⟩ := bind_ok.1 hb
  obtain ⟨old, s3, hr, hb⟩ := bind_ok.1 hb
  rw [bind_of_ok (getCc_apply _)] at hb
  obtain ⟨_, s4, hwr, hb⟩ := bind_ok.1 hb
  cases hb
  have hrd : ReadsDest size dd loc old s s3 := ⟨s1, s2, ⟨w, hf⟩, ho, hr⟩
  obtain ⟨g1, w1⟩ := hrd.frame hw (steppedRegs_dest dd)
  obtain ⟨g2, _⟩ := writeLoc_frame hwr w1 (operand_dest ho)
  refine Part.setCc ((g1.after g2).mono (fun _ h => h) (fun _ _ h => h)
    (fun a ha => ⟨loc, old, s3, hrd, ha⟩)) ?_
  rw [hrd.kept.codes]
  exact hk old

/-- What an instruction leaves that only writes its destination. -/
theorem overwriteDest_frame {size : Size} {dd : Operand} {f : Cc → BitVec size.bits × Cc}
    {k : Cc → Cc → Prop} {role : StackRole} {s t : State} (hw : s.mem.wf = true)
    (hk : k s.cpu.ps1.cc (f s.cpu.ps1.cc).2) (h : transact role (overwriteDest size dd f) s = .next t) :
    Ends (Frame (destRegs dd) k
      (fun a => ∃ loc u, SelectsDest size dd loc s u ∧ LocStores size loc u a) s) s t := by
  refine transact_ends ?_ h
  intro s1 w s' hf hb
  unfold overwriteDest at hb
  obtain ⟨loc, s2, ho, hb⟩ := bind_ok.1 hb
  rw [bind_of_ok (getCc_apply _)] at hb
  obtain ⟨_, s4, hwr, hb⟩ := bind_ok.1 hb
  cases hb
  have hrd : SelectsDest size dd loc s s2 := ⟨s1, ⟨w, hf⟩, ho⟩
  obtain ⟨g1, w1⟩ := hrd.frame hw (steppedRegs_dest dd)
  obtain ⟨g2, _⟩ := writeLoc_frame hwr w1 (operand_dest ho)
  refine Part.setCc ((g1.after g2).mono (fun _ h => h) (fun _ _ h => h)
    (fun a ha => ⟨loc, s2, hrd, ha⟩)) ?_
  rw [hrd.kept.codes]
  exact hk

/-- What an instruction leaves that only reads its destination. -/
theorem testDest_frame {size : Size} {dd : Operand} {f : BitVec size.bits → Cc} {k : Cc → Cc → Prop}
    {role : StackRole} {s t : State} (hw : s.mem.wf = true) (hk : ∀ old, k s.cpu.ps1.cc (f old))
    (h : transact role (testDest size dd f) s = .next t) :
    Ends (Frame (steppedRegs dd) k NoStore s) s t := by
  refine transact_ends ?_ h
  intro s1 w s' hf hb
  unfold testDest at hb
  obtain ⟨loc, s2, ho, hb⟩ := bind_ok.1 hb
  obtain ⟨old, s3, hr, hb⟩ := bind_ok.1 hb
  cases hb
  have hrd : ReadsDest size dd loc old s s3 := ⟨s1, s2, ⟨w, hf⟩, ho, hr⟩
  exact Part.setCc (hrd.frame hw (fun _ h => h)).1 (hk old)

/-- What an instruction leaves that combines its source into its destination. -/
theorem combineInto_frame {size : Size} {ss dd : Operand}
    {f : BitVec size.bits → BitVec size.bits → Cc → BitVec size.bits × Cc} {k : Cc → Cc → Prop}
    {role : StackRole} {s t : State} (hw : s.mem.wf = true)
    (hk : ∀ src old, k s.cpu.ps1.cc (f src old s.cpu.ps1.cc).2)
    (h : transact role (combineInto size ss dd f) s = .next t) :
    Ends (Frame (steppedRegs ss ++ destRegs dd) k
      (fun a => ∃ src dst loc u, ReadsBoth size ss dd src dst loc s u ∧ LocStores size loc u a) s) s t := by
  refine transact_ends ?_ h
  intro s1 w s' hf hb
  unfold combineInto at hb
  obtain ⟨⟨src, loc⟩, s2, ho, hb⟩ := bind_ok.1 hb
  obtain ⟨old, s3, hr, hb⟩ := bind_ok.1 hb
  rw [bind_of_ok (getCc_apply _)] at hb
  obtain ⟨_, s4, hwr, hb⟩ := bind_ok.1 hb
  cases hb
  have hsd : SourceAndDest size ss dd src loc s s2 := ⟨s1, ⟨w, hf⟩, ho⟩
  have hrd : ReadsBoth size ss dd src old loc s s3 := ⟨s2, hsd, hr⟩
  obtain ⟨g1, w1⟩ := hrd.frame hw (c := steppedRegs ss ++ destRegs dd)
    (fun r hr => List.mem_append_left _ hr)
    (fun r hr => List.mem_append_right _ (steppedRegs_dest dd r hr))
  obtain ⟨g2, _⟩ := writeLoc_frame hwr w1 (c := steppedRegs ss ++ destRegs dd)
    (fun r hl => List.mem_append_right _ (hsd.loc r hl))
  refine Part.setCc ((g1.after g2).mono (fun _ h => h) (fun _ _ h => h)
    (fun a ha => ⟨src, old, loc, s3, hrd, ha⟩)) ?_
  rw [hrd.kept.codes]
  exact hk _ old

/-- What an instruction leaves that only reads its operands. -/
theorem compareWith_frame {size : Size} {ss dd : Operand}
    {f : BitVec size.bits → BitVec size.bits → Cc → Cc} {k : Cc → Cc → Prop} {role : StackRole}
    {s t : State} (hw : s.mem.wf = true) (hk : ∀ src old, k s.cpu.ps1.cc (f src old s.cpu.ps1.cc))
    (h : transact role (compareWith size ss dd f) s = .next t) :
    Ends (Frame (steppedRegs ss ++ steppedRegs dd) k NoStore s) s t := by
  refine transact_ends ?_ h
  intro s1 w s' hf hb
  unfold compareWith at hb
  obtain ⟨⟨src, loc⟩, s2, ho, hb⟩ := bind_ok.1 hb
  obtain ⟨old, s3, hr, hb⟩ := bind_ok.1 hb
  rw [bind_of_ok (getCc_apply _)] at hb
  cases hb
  have hrd : ReadsBoth size ss dd src old loc s s3 := ⟨s2, ⟨s1, ⟨w, hf⟩, ho⟩, hr⟩
  refine Part.setCc (hrd.frame hw (fun r hr => List.mem_append_left _ hr)
    (fun r hr => List.mem_append_right _ hr)).1 ?_
  rw [hrd.kept.codes]
  exact hk _ old

/-- What a move leaves. -/
theorem moveInto_frame {size : Size} {ss dd : Operand} {role : StackRole} {s t : State}
    (hw : s.mem.wf = true) (h : transact role (moveInto size ss dd) s = .next t) :
    Ends (Frame (steppedRegs ss ++ destRegs dd) codesKeepC
      (fun a => ∃ src loc u, SourceAndDest size ss dd src loc s u ∧ LocStores size loc u a) s) s t := by
  refine transact_ends ?_ h
  intro s1 w s' hf hb
  unfold moveInto at hb
  obtain ⟨⟨src, loc⟩, s2, ho, hb⟩ := bind_ok.1 hb
  dsimp only at hb
  rw [bind_of_ok (getCc_apply _)] at hb
  obtain ⟨_, s4, hwr, hb⟩ := bind_ok.1 hb
  cases hb
  have hsd : SourceAndDest size ss dd src loc s s2 := ⟨s1, ⟨w, hf⟩, ho⟩
  obtain ⟨g1, w1⟩ := hsd.frame hw (c := steppedRegs ss ++ destRegs dd)
    (fun r hr => List.mem_append_left _ hr)
    (fun r hr => List.mem_append_right _ (steppedRegs_dest dd r hr))
  obtain ⟨g2, _⟩ := writeLoc_frame hwr w1 (c := steppedRegs ss ++ destRegs dd)
    (fun r hl => List.mem_append_right _ (hsd.loc r hl))
  refine Part.setCc ((g1.after g2).mono (fun _ h => h) (fun _ _ h => h)
    (fun a ha => ⟨src, loc, s2, hsd, ha⟩)) ?_
  rw [hsd.kept.codes]
  rfl

/-- What `movb` leaves. -/
theorem moveByteInto_frame {ss dd : Operand} {role : StackRole} {s t : State}
    (hw : s.mem.wf = true) (h : transact role (moveByteInto ss dd) s = .next t) :
    Ends (Frame (steppedRegs ss ++ destRegs dd) codesKeepC
      (fun a => ∃ src loc u, SourceAndDest .byte ss dd src loc s u ∧ LocStores .byte loc u a) s) s t := by
  refine transact_ends ?_ h
  intro s1 w s' hf hb
  unfold moveByteInto at hb
  obtain ⟨⟨src, loc⟩, s2, ho, hb⟩ := bind_ok.1 hb
  dsimp only at hb
  rw [bind_of_ok (getCc_apply _)] at hb
  have hsd : SourceAndDest .byte ss dd src loc s s2 := ⟨s1, ⟨w, hf⟩, ho⟩
  obtain ⟨g1, w1⟩ := hsd.frame hw (c := steppedRegs ss ++ destRegs dd)
    (fun r hr => List.mem_append_left _ hr)
    (fun r hr => List.mem_append_right _ (steppedRegs_dest dd r hr))
  have hcc := hsd.kept.codes
  cases loc with
  | reg r =>
    cases hb
    have g2 := Frame.setReg s2 r (src.signExtend 16) (c := steppedRegs ss ++ destRegs dd)
      (.inr (List.mem_append_right _ (hsd.loc r rfl)))
    refine Part.setCc ((g1.after g2).mono (fun _ h => h) (fun _ _ h => h) (fun a ha => ha.elim)) ?_
    rw [hcc]; rfl
  | mem m k =>
    obtain ⟨_, s4, hwr, hb⟩ := bind_ok.1 hb
    cases hb
    have g2 := (memWrite_frame hwr w1).1.widen (d := steppedRegs ss ++ destRegs dd) (by simp)
    refine Part.setCc ((g1.after g2).mono (fun _ h => h) (fun _ _ h => h)
      (fun a ha => ⟨src, _, s2, hsd, ha⟩)) ?_
    rw [hcc]; rfl

/-! ### Bodies that store nothing -/

/-- An instruction whose body only reads, apart from registers: the codes and all of memory stay. -/
theorem ReadPart.transact {c : List Reg} {role : StackRole} {body : Exec Unit} {s t : State}
    (hw : s.mem.wf = true) (hb : Preserves (ReadPart c) body)
    (h : Machine.transact role body s = .next t) : Ends (Frame c codesSame NoStore s) s t :=
  transact_ends (fun s1 w s' hf h' => ((ReadPart.reading c).trans
    ((ReadPart.reading c).fetchWord (.inl rfl) s w s1 hf) (hb s1 () s' h') hw).1) h

/-- The relation of the parts that store nothing and may write the codes. -/
def CodesPart (changed : List Reg) (s t : State) : Prop :=
  s.mem.wf = true → Frame changed codesAny NoStore s t ∧ t.mem.wf = true

theorem CodesPart.of_read {c : List Reg} {s t : State} (h : ReadPart c s t) : CodesPart c s t :=
  fun hw => ⟨(h hw).1.mono (fun _ h => h) (fun _ _ _ => trivial) (fun _ h => h), (h hw).2⟩

theorem CodesPart.reading (c : List Reg) : Reading (fun r => r = .pc ∨ r ∈ c) (CodesPart c) where
  refl s := .of_read ((ReadPart.reading c).refl s)
  trans {s t u} h g hw := by
    obtain ⟨h1, h2⟩ := h hw
    obtain ⟨g1, g2⟩ := g h2
    have hm : t.cpu.ps1.m = s.cpu.ps1.m := by rw [h1.system.ps1]
    refine ⟨⟨h1.system.trans g1.system, fun r hr hc => (g1.regs r hr hc).trans (h1.regs r hr hc), trivial,
      ⟨fun h0 a ha hr => (g1.mem.1 (hm.trans h0) a ha (fun hq => hr (h1.system.arriving _ hq))).trans
        (h1.mem.1 h0 a ha hr), fun a he ha hb hr hr' => ?_⟩, fun h0 hall => ?_⟩, g2⟩
    · have h3 := g1.mem.2 a he ha hb (fun hq => hr (h1.system.arriving _ hq))
        (fun hq => hr' (h1.system.arriving _ hq))
      rw [h1.system.cfg] at h3
      exact (h1.mem.2 a he ha hb hr hr').trans h3
    · obtain ⟨d1, d2⟩ := g1.devices (hm.trans h0) hall
      obtain ⟨e1, e2⟩ := h1.devices h0 hall
      exact ⟨fun k => (d1 k).trans (e1 k), fun hq => (d2 (h1.system.quiet hq).1).trans (e2 hq)⟩
  setReg s r v hr := .of_read ((ReadPart.reading c).setReg s r v hr)
  race s := .of_read ((ReadPart.reading c).race s)
  mark s kind va pda pd hm hwalk := .of_read ((ReadPart.reading c).mark s kind va pda pd hm hwalk)

theorem CodesPart.putCc (c : List Reg) (cc : Cc) : Preserves (CodesPart c) (putCc cc) := by
  intro s a t h
  cases h
  exact fun hw => ⟨(Frame.setCc s cc (k := codesAny) trivial).mono (by simp) (fun _ _ _ => trivial)
    (fun _ h => h), by simpa using hw⟩

/-- An instruction whose body stores nothing. -/
theorem CodesPart.transact {c : List Reg} {role : StackRole} {body : Exec Unit} {s t : State}
    (hw : s.mem.wf = true) (hb : Preserves (CodesPart c) body)
    (h : Machine.transact role body s = .next t) : Ends (Frame c codesAny NoStore s) s t :=
  transact_ends (fun s1 w s' hf h' => ((CodesPart.reading c).trans
    ((CodesPart.reading c).fetchWord (.inl rfl) s w s1 hf) (hb s1 () s' h') hw).1) h

/-! ### Blocks -/

theorem writeBlock_frame (ws : List Word) : ∀ {va : Word} {s t : State},
    writeBlock va ws s = .ok ((), t) → s.mem.wf = true →
    Part [] (BlockStores va ws s) s t ∧ t.mem.wf = true := by
  induction ws with
  | nil => intro va s t h hw; cases h; exact ⟨Frame.refl s, hw⟩
  | cons w ws ih =>
    intro va s t h hw
    obtain ⟨_, u, h1, h2⟩ := bind_ok.1 h
    obtain ⟨g1, w1⟩ := memWrite_frame h1 hw
    obtain ⟨g2, w2⟩ := ih h2 w1
    refine ⟨(g1.trans g2).mono (fun _ h => h) (fun _ _ h => h) ?_, w2⟩
    rintro a (h | h)
    · exact .inl h
    · exact .inr ⟨u, h1, h⟩

theorem writeBytes_frame (bs : List Byte) : ∀ {va : Word} {s t : State},
    writeBytes va bs s = .ok ((), t) → s.mem.wf = true →
    Part [] (BytesStore va bs s) s t ∧ t.mem.wf = true := by
  induction bs with
  | nil => intro va s t h hw; cases h; exact ⟨Frame.refl s, hw⟩
  | cons w ws ih =>
    intro va s t h hw
    obtain ⟨_, u, h1, h2⟩ := bind_ok.1 h
    obtain ⟨g1, w1⟩ := memWrite_frame h1 hw
    obtain ⟨g2, w2⟩ := ih h2 w1
    refine ⟨(g1.trans g2).mono (fun _ h => h) (fun _ _ h => h) ?_, w2⟩
    rintro a (h | h)
    · exact .inl h
    · exact .inr ⟨u, h1, h⟩

theorem copyBytes_frame (n : Nat) : ∀ {src dst : Word} {s t : State},
    copyBytes src dst n s = .ok ((), t) → s.mem.wf = true →
    Part [] (CopyStores src dst n s) s t ∧ t.mem.wf = true := by
  induction n with
  | zero => intro src dst s t h hw; cases h; exact ⟨Frame.refl s, hw⟩
  | succ n ih =>
    intro src dst s t h hw
    obtain ⟨b, u, h1, h⟩ := bind_ok.1 h
    obtain ⟨_, v, h2, h3⟩ := bind_ok.1 h
    obtain ⟨g1, w1⟩ := ReadPart.of ((ReadPart.reading []).memRead .byte .read src) h1 hw
    obtain ⟨g2, w2⟩ := memWrite_frame h2 w1
    obtain ⟨g3, w3⟩ := ih h3 w2
    refine ⟨(g1.after (g2.trans g3)).mono (fun _ h => h) (fun _ _ h => h) ?_, w3⟩
    rintro a (h | h)
    · exact ⟨b, u, h1, .inl h⟩
    · exact ⟨b, u, h1, .inr ⟨v, h2, h⟩⟩

/-! ### Registers that play no part -/

/-- The walk looks at no general register. -/
theorem walk_setReg (s : State) (kind : Option Access) (va v : Word) (r : Reg) :
    walk (s.setReg r v) kind va = walk s kind va := by
  simp only [walk, State.setReg_cfg, State.setReg_mem, State.setReg_sta]

/-- A resolution looks at no general register. -/
theorem resolve_setReg {size : Size} {kind : Access} {va pa v : Word} {r : Reg} {s t : State}
    (h : resolve size kind va s = .ok (pa, t)) :
    resolve size kind va (s.setReg r v) = .ok (pa, t.setReg r v) := by
  obtain ⟨ha, hs, ⟨hm, ht⟩ | ⟨hm, rfl, rfl⟩⟩ := resolve_ok.1 h
  · obtain ⟨pda, pd, hw, rfl, rfl⟩ := translate_ok.1 ht
    refine resolve_ok.2 ⟨ha, hs, .inl ⟨by simpa using hm, translate_ok.2 ⟨pda, pd, ?_, rfl, ?_⟩⟩⟩
    · rw [walk_setReg, hw]
    · rw [State.setReg_store]; rfl
  · exact resolve_ok.2 ⟨ha, hs, .inr ⟨by simpa using hm, rfl, rfl⟩⟩

/-- A write looks at no general register. -/
theorem memWrite_setReg {size : Size} {va v : Word} {b : BitVec size.bits} {r : Reg} {s t : State}
    (h : memWrite size va b s = .ok ((), t)) :
    memWrite size va b (s.setReg r v) = .ok ((), t.setReg r v) := by
  obtain ⟨pa, u, hr, hlt, rfl⟩ := memWrite_ok.1 h
  exact memWrite_ok.2 ⟨pa, u.setReg r v, by rw [State.race_setReg]; exact resolve_setReg hr, hlt,
    by rw [State.setReg_store]⟩

/-- The bytes a write stores to depend on no general register. -/
theorem StoresTo.setReg {size : Size} {va v : Word} {r : Reg} {s : State} {a : Nat}
    (h : StoresTo size va s a) : StoresTo size va (s.setReg r v) a := by
  obtain ⟨pa, t, hr, h1, h2⟩ := h
  exact ⟨pa, _, by rw [State.race_setReg]; exact resolve_setReg hr, h1, h2⟩

end Sys2Proof.Machine
end

