-- ==== Sys2Proof/Tests/Slice0.lean ====
section
/-! SUPPORT. Tests of the model: the smoke test of well-formedness, a word for every constructor written
from the bit patterns of 30_encoding.md, one step of each instruction with the results of the vectors of
95_test_vectors.md, and a witness for every obligation that has hypotheses. Expected results come from the
spec, not from the model. -/

namespace Sys2Proof.Tests

open Sys2Proof.Machine

/-! ### Well-formedness: each check refuses a term -/

theorem test_wellFormed_refuses_bhis : (Instr.bhis 5#8).wellFormed = false := by decide

theorem test_wellFormed_refuses_blo : (Instr.blo 5#8).wellFormed = false := by decide

theorem test_wellFormed_refuses_named_operators :
    (Instr.ccop false false false false false).wellFormed = false ∧
    (Instr.ccop false true false false false).wellFormed = false ∧
    (Instr.ccop true false true false false).wellFormed = false ∧
    (Instr.ccop false false false true false).wellFormed = false ∧
    (Instr.ccop true false false false true).wellFormed = false ∧
    (Instr.ccop true true true true true).wellFormed = false := by decide

theorem test_wellFormed_admits_unnamed_operators :
    (Instr.ccop true false false false false).wellFormed = true ∧
    (Instr.ccop false false false true true).wellFormed = true := by decide

theorem test_wellFormed_admits_register_jmp :
    (Instr.jmp ⟨.register, .r1⟩).wellFormed = true := by decide

/-! ### Decoding: words written out from the patterns of R127 -/

theorem test_decode_privileged :
    decodeWord 0b0000000000000000#16 = some .halt ∧ decodeWord 0b0000111000000000#16 = some .ldst ∧
    decodeWord 0b0000111001000000#16 = some .stst ∧ decodeWord 0b0000111010000000#16 = some .ldit ∧
    decodeWord 0b0000111011000000#16 = some .ldim ∧ decodeWord 0b0000111100000000#16 = some .ldstl := by
  decide

theorem test_decode_new_user :
    decodeWord 0b1000111000000000#16 = some .movbck ∧ decodeWord 0b1000111001000000#16 = some .stck ∧
    decodeWord 0b1000111010000000#16 = some .inprg ∧ decodeWord 0b1000111011000000#16 = some .csv ∧
    decodeWord 0b1000111100000000#16 = some .cret ∧
    decodeWord 0b1000100111111111#16 = some (.sys 0xFF#8) := by decide

theorem test_decode_single_operand :
    decodeWord 0b0000101000010011#16 = some (.clr ⟨.autoInc, .r3⟩) ∧
    decodeWord 0b1000101000000001#16 = some (.clrb ⟨.register, .r1⟩) ∧
    decodeWord 0b0000101001001010#16 = some (.com ⟨.deferred, .r2⟩) ∧
    decodeWord 0b1000101001011111#16 = some (.comb ⟨.autoIncDeferred, .pc⟩) ∧
    decodeWord 0b0000101010100100#16 = some (.inc ⟨.autoDec, .r4⟩) ∧
    decodeWord 0b1000101010101101#16 = some (.incb ⟨.autoDecDeferred, .r5⟩) ∧
    decodeWord 0b0000101011110110#16 = some (.dec ⟨.index, .sp⟩) ∧
    decodeWord 0b1000101011111000#16 = some (.decb ⟨.indexDeferred, .r0⟩) ∧
    decodeWord 0b0000101100000000#16 = some (.neg ⟨.register, .r0⟩) ∧
    decodeWord 0b1000101100001001#16 = some (.negb ⟨.deferred, .r1⟩) ∧
    decodeWord 0b0000101101000010#16 = some (.adc ⟨.register, .r2⟩) ∧
    decodeWord 0b1000101101000011#16 = some (.adcb ⟨.register, .r3⟩) ∧
    decodeWord 0b0000101110000100#16 = some (.sbc ⟨.register, .r4⟩) ∧
    decodeWord 0b1000101110000101#16 = some (.sbcb ⟨.register, .r5⟩) ∧
    decodeWord 0b0000101111010111#16 = some (.tst ⟨.autoInc, .pc⟩) ∧
    decodeWord 0b1000101111000110#16 = some (.tstb ⟨.register, .sp⟩) := by decide

theorem test_decode_shifts :
    decodeWord 0b0000110000000001#16 = some (.ror ⟨.register, .r1⟩) ∧
    decodeWord 0b1000110000001010#16 = some (.rorb ⟨.deferred, .r2⟩) ∧
    decodeWord 0b0000110001010011#16 = some (.rol ⟨.autoInc, .r3⟩) ∧
    decodeWord 0b1000110001011100#16 = some (.rolb ⟨.autoIncDeferred, .r4⟩) ∧
    decodeWord 0b0000110010100101#16 = some (.asr ⟨.autoDec, .r5⟩) ∧
    decodeWord 0b1000110010101110#16 = some (.asrb ⟨.autoDecDeferred, .sp⟩) ∧
    decodeWord 0b0000110011110111#16 = some (.asl ⟨.index, .pc⟩) ∧
    decodeWord 0b1000110011111000#16 = some (.aslb ⟨.indexDeferred, .r0⟩) ∧
    decodeWord 0b0000110111000010#16 = some (.sxt ⟨.register, .r2⟩) ∧
    decodeWord 0b0000000011000101#16 = some (.swab ⟨.register, .r5⟩) ∧
    decodeWord 0b0111010101010111#16 = some (.ash .r5 ⟨.autoInc, .pc⟩) ∧
    decodeWord 0b0111011010000011#16 = some (.ashc .r2 ⟨.register, .r3⟩) := by decide

theorem test_decode_double_operand :
    decodeWord 0b0001000001010010#16 = some (.mov ⟨.register, .r1⟩ ⟨.autoInc, .r2⟩) ∧
    decodeWord 0b1001010111000011#16 = some (.movb ⟨.autoInc, .pc⟩ ⟨.register, .r3⟩) ∧
    decodeWord 0b0010001010001100#16 = some (.cmp ⟨.deferred, .r2⟩ ⟨.deferred, .r4⟩) ∧
    decodeWord 0b1010100000100001#16 = some (.cmpb ⟨.autoDec, .r0⟩ ⟨.autoDec, .r1⟩) ∧
    decodeWord 0b0011000110000101#16 = some (.bit ⟨.register, .sp⟩ ⟨.register, .r5⟩) ∧
    decodeWord 0b1011011010011011#16 = some (.bitb ⟨.autoIncDeferred, .r2⟩ ⟨.autoIncDeferred, .r3⟩) ∧
    decodeWord 0b0100110101101110#16 = some (.bic ⟨.index, .r5⟩ ⟨.autoDecDeferred, .sp⟩) ∧
    decodeWord 0b1100111000110001#16 = some (.bicb ⟨.indexDeferred, .r0⟩ ⟨.index, .r1⟩) ∧
    decodeWord 0b0101000011111111#16 = some (.bis ⟨.register, .r3⟩ ⟨.indexDeferred, .pc⟩) ∧
    decodeWord 0b1101101100000000#16 = some (.bisb ⟨.autoDecDeferred, .r4⟩ ⟨.register, .r0⟩) ∧
    decodeWord 0b0110000000000001#16 = some (.add ⟨.register, .r0⟩ ⟨.register, .r1⟩) ∧
    decodeWord 0b1110000001000000#16 = some (.sub ⟨.register, .r1⟩ ⟨.register, .r0⟩) ∧
    decodeWord 0b0111000011010111#16 = some (.mul .r3 ⟨.autoInc, .pc⟩) ∧
    decodeWord 0b0111001100000101#16 = some (.div .r4 ⟨.register, .r5⟩) ∧
    decodeWord 0b0111100110001010#16 = some (.xor .sp ⟨.deferred, .r2⟩) := by decide

theorem test_decode_branches :
    decodeWord 0b0000000101111111#16 = some (.br 0x7F#8) ∧
    decodeWord 0b0000001010000000#16 = some (.bne 0x80#8) ∧
    decodeWord 0b0000001100000001#16 = some (.beq 1#8) ∧
    decodeWord 0b0000010000000010#16 = some (.bge 2#8) ∧
    decodeWord 0b0000010100000011#16 = some (.blt 3#8) ∧
    decodeWord 0b0000011000000100#16 = some (.bgt 4#8) ∧
    decodeWord 0b0000011100000101#16 = some (.ble 5#8) ∧
    decodeWord 0b1000000000000110#16 = some (.bpl 6#8) ∧
    decodeWord 0b1000000100000111#16 = some (.bmi 7#8) ∧
    decodeWord 0b1000001000001000#16 = some (.bhi 8#8) ∧
    decodeWord 0b1000001100001001#16 = some (.blos 9#8) ∧
    decodeWord 0b1000010000001010#16 = some (.bvc 10#8) ∧
    decodeWord 0b1000010100001011#16 = some (.bvs 11#8) ∧
    decodeWord 0b1000011000001100#16 = some (.bcc 12#8) ∧
    decodeWord 0b1000011100001101#16 = some (.bcs 13#8) := by decide

/-- `bhis` and `blo` are second names of the words of `bcc` and `bcs` (R132). -/
theorem test_decode_synonyms :
    encode (.bhis 12#8) = 0b1000011000001100#16 ∧ encode (.blo 13#8) = 0b1000011100001101#16 ∧
    decodeWord (encode (.bhis 12#8)) = some (.bcc 12#8) ∧
    decodeWord (encode (.blo 13#8)) = some (.bcs 13#8) := by decide

theorem test_decode_control :
    decodeWord 0b0000000001011001#16 = some (.jmp ⟨.autoIncDeferred, .r1⟩) ∧
    decodeWord 0b0000100101011111#16 = some (.jsr .r5 ⟨.autoIncDeferred, .pc⟩) ∧
    decodeWord 0b0000000010000111#16 = some (.rts .pc) ∧
    decodeWord 0b0000110100000010#16 = some (.mark 2#6) ∧
    decodeWord 0b0111111001111111#16 = some (.sob .r1 0x3F#6) := by decide

theorem test_decode_condition_codes :
    decodeWord 0b0000000010100000#16 = some .nop ∧ decodeWord 0b0000000010100001#16 = some .clc ∧
    decodeWord 0b0000000010100010#16 = some .clv ∧ decodeWord 0b0000000010100100#16 = some .clz ∧
    decodeWord 0b0000000010101000#16 = some .cln ∧ decodeWord 0b0000000010101111#16 = some .ccc ∧
    decodeWord 0b0000000010110001#16 = some .sec ∧ decodeWord 0b0000000010110010#16 = some .sev ∧
    decodeWord 0b0000000010110100#16 = some .sez ∧ decodeWord 0b0000000010111000#16 = some .sen ∧
    decodeWord 0b0000000010111111#16 = some .scc ∧
    decodeWord 0b0000000010110000#16 = some (.ccop true false false false false) ∧
    decodeWord 0b0000000010100011#16 = some (.ccop false false false true true) := by decide

/-- The low byte of a word comes first in memory (R63). -/
theorem test_decode_bytes :
    decode Config.pdp11Unsupported [0o300#8, 0o12#8] = .ok (.dec ⟨.register, .r0⟩, []) := by rfl

theorem test_decode_rejects :
    decode Config.pdp11Unsupported [0o7#8, 0#8] = .error .illegalOpcode ∧
    decode Config.pdp11Unsupported [0o2#8, 0#8] = .error .unsupported ∧
    decode Config.pdp11Unsupported [0o2#8] = .error .truncated := ⟨rfl, rfl, rfl⟩

theorem test_decodeTableWord : decodeTableWord 16 0o073027 = some (.ashc .r0 ⟨.autoInc, .pc⟩) := by decide

/-! ### One step: the common start of the vectors, and what is compared -/

/-- SP, PC and PS1 of a New region. -/
def newRegion (m : Memory) (area : Nat) : Memory :=
  m.writeWords (area + 0o30 + 12) [0o17000#16, 0o3000#16, 0o177600#16]

/-- Words stored in memory. -/
def holding (s : State) (words : List (Nat × Word)) : State :=
  { s with mem := words.foldl (fun m p => Memory.writeWord m p.1 p.2) s.mem }

/-- Registers given values. -/
def having (s : State) (regs : List (Reg × Word)) : State :=
  regs.foldl (fun s p => s.setReg p.1 p.2) s

/-- The common start of 95_test_vectors.md, with registers, words of memory, and N Z V C. -/
def start (regs : List (Reg × Word)) (words : List (Nat × Word)) (nzvc : BitVec 4) : State :=
  let s : State := { State.reset with run := .running, mem := [0o0, 0o60, 0o140].foldl newRegion [] }
  (having (holding s words) regs).setCc (Cc.ofBits nzvc)

/-- The start with another PS1, but for the codes. -/
def withPs1 (s : State) (w : Word) : State :=
  { s with cpu := { s.cpu with ps1 := Ps1.unpack .default w } }

/-- The common start of the mapping vectors: PS1 is 177700, STA 004000, PC 0. -/
def mapped (regs : List (Reg × Word)) (words : List (Nat × Word)) : State :=
  let s := start regs ([(0o4000, 0o7600#16), (0o4002, 0o4040#16), (0o4010, 0o175600#16),
    (0o4012, 0o4100#16), (0o4040, 0o100005#16), (0o4042, 0o100007#16), (0o4146, 0o100006#16)] ++ words) 0
  { s with cpu := { s.cpu with ps1 := { s.cpu.ps1 with m := true }, sta := 0o4000#16, pc := 0 } }

/-- The instruction completes: registers, words and codes change as listed, and no other of the Processor
State or memory. -/
def completes (i : Instr) (s : State) (regs : List (Reg × Word)) (words : List (Nat × Word))
    (nzvc : BitVec 4) : Bool :=
  match exec i s with
  | .next t => decide (t.cpu = ((having s regs).setCc (Cc.ofBits nzvc)).cpu) &&
      decide (t.mem = (holding s words).mem)
  | _ => false

/-- The instruction ends in a trap: the Old region of the area holds the listed registers and codes, the
start's others, and the code in PS2; the listed words and no others are stored besides; PC is the New
region's. -/
def traps (i : Instr) (s : State) (regs : List (Reg × Word)) (words : List (Nat × Word))
    (nzvc : BitVec 4) (area : Nat) (code : Word) : Bool :=
  let old := ((having (holding s words) regs).setCc (Cc.ofBits nzvc))
  let saved : ProcState := { old.cpu with ps2 := code }
  match exec i s with
  | .next t => decide (t.mem = old.mem.writeWords area (saved.words .default)) &&
      decide (t.cpu.pc = 0o3000#16) && decide (t.cpu.sp = 0o17000#16)
  | _ => false

/-- The values of N Z V C for which a branch goes to 002010. -/
def takenOn (i : Instr) : List Nat :=
  (List.range 16).filter (fun n =>
    match exec i (start [] [(0o2000, encode i)] (BitVec.ofNat 4 n)) with
    | .next t => decide (t.cpu.pc = 0o2010#16)
    | _ => false)

/-! ### One step of each instruction: the vectors of 95_test_vectors.md, named in the comments -/

/-- V40.17. -/
theorem test_mov_two_extension_words :
    completes (.mov ⟨.autoIncDeferred, .pc⟩ ⟨.autoIncDeferred, .pc⟩)
      (start [] [(0o2000, 0o013737#16), (0o2002, 0o003000#16), (0o2004, 0o003002#16),
      (0o3000, 0o000555#16)] 0b0000#4)
      [(.pc, 0o002006#16)] [(0o3002, 0o000555#16)] 0b0000#4 = true := by decide

/-- V40.21. -/
theorem test_mov_undone_at_odd_destination :
    traps (.mov ⟨.autoInc, .r1⟩ ⟨.autoIncDeferred, .pc⟩)
      (start [(.r1, 0o003000#16)] [(0o2000, 0o012137#16), (0o2002, 0o003001#16),
      (0o3000, 0o000111#16)] 0b0000#4)
      [] [] 0b0000#4 0o0 0o000004#16 = true := by decide

/-- V40.29. -/
theorem test_movb_pushes_with_step_two :
    completes (.movb ⟨.autoInc, .pc⟩ ⟨.autoDec, .sp⟩)
      (start [(.sp, 0o017776#16)] [(0o2000, 0o112746#16), (0o2002, 0o000101#16),
      (0o17774, 0o177777#16)] 0b0000#4)
      [(.sp, 0o017774#16), (.pc, 0o002004#16)] [(0o17774, 0o177501#16)] 0b0000#4 = true := by decide

/-- V44.2. -/
theorem test_movb_sign_extends_into_register :
    completes (.movb ⟨.autoInc, .pc⟩ ⟨.register, .r0⟩)
      (start [(.r0, 0o052525#16)] [(0o2000, 0o112700#16), (0o2002, 0o000200#16)] 0b0000#4)
      [(.r0, 0o177600#16), (.pc, 0o002004#16)] [] 0b1000#4 = true := by decide

/-- V44.7. -/
theorem test_cmp_overflow_and_borrow :
    completes (.cmp ⟨.register, .r0⟩ ⟨.register, .r1⟩)
      (start [(.r0, 0o077777#16), (.r1, 0o177777#16)] [(0o2000, 0o020001#16)] 0b0000#4)
      [(.pc, 0o002002#16)] [] 0b1011#4 = true := by decide

/-- V44.8. -/
theorem test_cmpb_reads_low_bytes :
    completes (.cmpb ⟨.register, .r0⟩ ⟨.register, .r1⟩)
      (start [(.r0, 0o000200#16), (.r1, 0o177401#16)] [(0o2000, 0o120001#16)] 0b0000#4)
      [(.pc, 0o002002#16)] [] 0b0010#4 = true := by decide

/-- V44.16. -/
theorem test_bit_keeps_carry :
    completes (.bit ⟨.register, .r0⟩ ⟨.register, .r1⟩)
      (start [(.r0, 0o100000#16), (.r1, 0o100001#16)] [(0o2000, 0o030001#16)] 0b0011#4)
      [(.pc, 0o002002#16)] [] 0b1001#4 = true := by decide

/-- V44.18. -/
theorem test_bitb_reads_low_bytes :
    completes (.bitb ⟨.register, .r0⟩ ⟨.register, .r1⟩)
      (start [(.r0, 0o177400#16), (.r1, 0o177777#16)] [(0o2000, 0o130001#16)] 0b0000#4)
      [(.pc, 0o002002#16)] [] 0b0100#4 = true := by decide

/-- V44.19. -/
theorem test_bic_clears :
    completes (.bic ⟨.register, .r0⟩ ⟨.register, .r1⟩)
      (start [(.r0, 0o177400#16), (.r1, 0o123456#16)] [(0o2000, 0o040001#16)] 0b0011#4)
      [(.r1, 0o000056#16), (.pc, 0o002002#16)] [] 0b0001#4 = true := by decide

/-- V44.20. -/
theorem test_bicb_keeps_high_byte :
    completes (.bicb ⟨.register, .r0⟩ ⟨.register, .r1⟩)
      (start [(.r0, 0o000017#16), (.r1, 0o123457#16)] [(0o2000, 0o140001#16)] 0b0000#4)
      [(.r1, 0o123440#16), (.pc, 0o002002#16)] [] 0b0000#4 = true := by decide

/-- V44.21. -/
theorem test_bis_sets :
    completes (.bis ⟨.register, .r0⟩ ⟨.register, .r1⟩)
      (start [(.r0, 0o100000#16), (.r1, 0o000001#16)] [(0o2000, 0o050001#16)] 0b0011#4)
      [(.r1, 0o100001#16), (.pc, 0o002002#16)] [] 0b1001#4 = true := by decide

/-- V44.22. -/
theorem test_bisb_sets_low_byte :
    completes (.bisb ⟨.register, .r0⟩ ⟨.register, .r1⟩)
      (start [(.r0, 0o000200#16), (.r1, 0o000001#16)] [(0o2000, 0o150001#16)] 0b0000#4)
      [(.r1, 0o000201#16), (.pc, 0o002002#16)] [] 0b1000#4 = true := by decide

/-- V44.9. -/
theorem test_add_signed_overflow :
    completes (.add ⟨.register, .r0⟩ ⟨.register, .r1⟩)
      (start [(.r0, 0o077777#16), (.r1, 0o000001#16)] [(0o2000, 0o060001#16)] 0b0000#4)
      [(.r1, 0o100000#16), (.pc, 0o002002#16)] [] 0b1010#4 = true := by decide

/-- V44.11. -/
theorem test_add_carry_and_overflow :
    completes (.add ⟨.register, .r0⟩ ⟨.register, .r1⟩)
      (start [(.r0, 0o100000#16), (.r1, 0o100000#16)] [(0o2000, 0o060001#16)] 0b0000#4)
      [(.r1, 0o000000#16), (.pc, 0o002002#16)] [] 0b0111#4 = true := by decide

/-- V44.12. -/
theorem test_sub_borrow :
    completes (.sub ⟨.register, .r0⟩ ⟨.register, .r1⟩)
      (start [(.r0, 0o000001#16), (.r1, 0o000000#16)] [(0o2000, 0o160001#16)] 0b0000#4)
      [(.r1, 0o177777#16), (.pc, 0o002002#16)] [] 0b1001#4 = true := by decide

/-- V44.13. -/
theorem test_sub_signed_overflow :
    completes (.sub ⟨.register, .r0⟩ ⟨.register, .r1⟩)
      (start [(.r0, 0o000001#16), (.r1, 0o100000#16)] [(0o2000, 0o160001#16)] 0b0000#4)
      [(.r1, 0o077777#16), (.pc, 0o002002#16)] [] 0b0010#4 = true := by decide

/-- V44.25. -/
theorem test_mul_even_register :
    completes (.mul .r0 ⟨.autoInc, .pc⟩)
      (start [(.r0, 0o040000#16), (.r1, 0o007777#16)] [(0o2000, 0o070027#16),
      (0o2002, 0o000003#16)] 0b0000#4)
      [(.r0, 0o000000#16), (.r1, 0o140000#16), (.pc, 0o002004#16)] [] 0b0001#4 = true := by decide

/-- V44.26. -/
theorem test_mul_odd_register :
    completes (.mul .r1 ⟨.autoInc, .pc⟩)
      (start [(.r1, 0o000005#16)] [(0o2000, 0o070127#16), (0o2002, 0o177776#16)] 0b0000#4)
      [(.r1, 0o177766#16), (.pc, 0o002004#16)] [] 0b1000#4 = true := by decide

/-- V44.32. -/
theorem test_div_negative_dividend :
    completes (.div .r0 ⟨.autoInc, .pc⟩)
      (start [(.r0, 0o177777#16), (.r1, 0o177754#16)] [(0o2000, 0o071027#16),
      (0o2002, 0o000003#16)] 0b0000#4)
      [(.r0, 0o177772#16), (.r1, 0o177776#16), (.pc, 0o002004#16)] [] 0b1000#4 = true := by decide

/-- V44.34. -/
theorem test_div_by_zero_traps :
    traps (.div .r0 ⟨.autoInc, .pc⟩)
      (start [(.r0, 0o000000#16), (.r1, 0o000024#16)] [(0o2000, 0o071027#16),
      (0o2002, 0o000000#16)] 0b0000#4)
      [] [] 0b0000#4 0o0 0o000011#16 = true := by decide

/-- V44.23. -/
theorem test_xor_keeps_carry :
    completes (.xor .r0 ⟨.register, .r1⟩)
      (start [(.r0, 0o177777#16), (.r1, 0o052525#16)] [(0o2000, 0o074001#16)] 0b0011#4)
      [(.r1, 0o125252#16), (.pc, 0o002002#16)] [] 0b1001#4 = true := by decide

/-- V43.1. -/
theorem test_clr_sets_zero :
    completes (.clr ⟨.register, .r0⟩)
      (start [(.r0, 0o123456#16)] [(0o2000, 0o005000#16)] 0b1111#4)
      [(.r0, 0o000000#16), (.pc, 0o002002#16)] [] 0b0100#4 = true := by decide

/-- V40.20. -/
theorem test_clrb_steps_by_one :
    completes (.clrb ⟨.autoInc, .r3⟩)
      (start [(.r3, 0o003001#16)] [(0o2000, 0o105023#16), (0o3000, 0o177777#16)] 0b0000#4)
      [(.r3, 0o003002#16), (.pc, 0o002002#16)] [(0o3000, 0o000377#16)] 0b0100#4 = true := by decide

/-- V43.3. -/
theorem test_com_sets_carry :
    completes (.com ⟨.register, .r0⟩)
      (start [(.r0, 0o013333#16)] [(0o2000, 0o005100#16)] 0b0000#4)
      [(.r0, 0o164444#16), (.pc, 0o002002#16)] [] 0b1001#4 = true := by decide

/-- V43.5. -/
theorem test_comb_of_memory_byte :
    completes (.comb ⟨.autoIncDeferred, .pc⟩)
      (start [] [(0o2000, 0o105137#16), (0o2002, 0o003000#16), (0o3000, 0o123400#16)] 0b0000#4)
      [(.pc, 0o002004#16)] [(0o3000, 0o123777#16)] 0b1001#4 = true := by decide

/-- V43.6. -/
theorem test_inc_overflows :
    completes (.inc ⟨.register, .r0⟩)
      (start [(.r0, 0o077777#16)] [(0o2000, 0o005200#16)] 0b0001#4)
      [(.r0, 0o100000#16), (.pc, 0o002002#16)] [] 0b1011#4 = true := by decide

/-- V43.8. -/
theorem test_incb_of_odd_byte :
    completes (.incb ⟨.autoIncDeferred, .pc⟩)
      (start [] [(0o2000, 0o105237#16), (0o2002, 0o003001#16), (0o3000, 0o077412#16)] 0b0000#4)
      [(.pc, 0o002004#16)] [(0o3000, 0o100012#16)] 0b1010#4 = true := by decide

/-- V43.9. -/
theorem test_dec_overflows :
    completes (.dec ⟨.register, .r0⟩)
      (start [(.r0, 0o100000#16)] [(0o2000, 0o005300#16)] 0b0001#4)
      [(.r0, 0o077777#16), (.pc, 0o002002#16)] [] 0b0011#4 = true := by decide

/-- V43.13. -/
theorem test_neg_of_smallest :
    completes (.neg ⟨.register, .r0⟩)
      (start [(.r0, 0o100000#16)] [(0o2000, 0o005400#16)] 0b0000#4)
      [(.pc, 0o002002#16)] [] 0b1011#4 = true := by decide

/-- V43.15. -/
theorem test_negb_of_smallest :
    completes (.negb ⟨.register, .r0⟩)
      (start [(.r0, 0o052200#16)] [(0o2000, 0o105400#16)] 0b0000#4)
      [(.pc, 0o002002#16)] [] 0b1011#4 = true := by decide

/-- V43.16. -/
theorem test_tst_clears_codes :
    completes (.tst ⟨.register, .r0⟩)
      (start [(.r0, 0o100001#16)] [(0o2000, 0o005700#16)] 0b0011#4)
      [(.pc, 0o002002#16)] [] 0b1000#4 = true := by decide

/-- V43.17. -/
theorem test_tstb_reads_low_byte :
    completes (.tstb ⟨.register, .r0⟩)
      (start [(.r0, 0o177400#16)] [(0o2000, 0o105700#16)] 0b0011#4)
      [(.pc, 0o002002#16)] [] 0b0100#4 = true := by decide

/-- V43.18. -/
theorem test_asr_keeps_sign :
    completes (.asr ⟨.register, .r0⟩)
      (start [(.r0, 0o100001#16)] [(0o2000, 0o006200#16)] 0b0000#4)
      [(.r0, 0o140000#16), (.pc, 0o002002#16)] [] 0b1001#4 = true := by decide

/-- V43.20. -/
theorem test_asrb_keeps_sign :
    completes (.asrb ⟨.register, .r0⟩)
      (start [(.r0, 0o000202#16)] [(0o2000, 0o106200#16)] 0b0000#4)
      [(.r0, 0o000301#16), (.pc, 0o002002#16)] [] 0b1010#4 = true := by decide

/-- V43.21. -/
theorem test_asl_overflows :
    completes (.asl ⟨.register, .r0⟩)
      (start [(.r0, 0o040000#16)] [(0o2000, 0o006300#16)] 0b0000#4)
      [(.r0, 0o100000#16), (.pc, 0o002002#16)] [] 0b1010#4 = true := by decide

/-- V43.24. -/
theorem test_aslb_of_register :
    completes (.aslb ⟨.register, .r0⟩)
      (start [(.r0, 0o000300#16)] [(0o2000, 0o106300#16)] 0b0000#4)
      [(.r0, 0o000200#16), (.pc, 0o002002#16)] [] 0b1001#4 = true := by decide

/-- V43.26. -/
theorem test_ror_carry_in :
    completes (.ror ⟨.register, .r0⟩)
      (start [(.r0, 0o000002#16)] [(0o2000, 0o006000#16)] 0b0001#4)
      [(.r0, 0o100001#16), (.pc, 0o002002#16)] [] 0b1010#4 = true := by decide

/-- V43.27. -/
theorem test_rorb_carry_in_and_out :
    completes (.rorb ⟨.register, .r0⟩)
      (start [(.r0, 0o177401#16)] [(0o2000, 0o106000#16)] 0b0001#4)
      [(.r0, 0o177600#16), (.pc, 0o002002#16)] [] 0b1001#4 = true := by decide

/-- V43.29. -/
theorem test_rol_carry_in :
    completes (.rol ⟨.register, .r0⟩)
      (start [(.r0, 0o040000#16)] [(0o2000, 0o006100#16)] 0b0001#4)
      [(.r0, 0o100001#16), (.pc, 0o002002#16)] [] 0b1010#4 = true := by decide

/-- V43.30. -/
theorem test_rolb_carry_in_and_out :
    completes (.rolb ⟨.register, .r0⟩)
      (start [(.r0, 0o000200#16)] [(0o2000, 0o106100#16)] 0b0001#4)
      [(.r0, 0o000001#16), (.pc, 0o002002#16)] [] 0b0011#4 = true := by decide

/-- V43.31. -/
theorem test_adc_overflows :
    completes (.adc ⟨.register, .r0⟩)
      (start [(.r0, 0o077777#16)] [(0o2000, 0o005500#16)] 0b0001#4)
      [(.r0, 0o100000#16), (.pc, 0o002002#16)] [] 0b1010#4 = true := by decide

/-- V43.34. -/
theorem test_adcb_overflows :
    completes (.adcb ⟨.register, .r0⟩)
      (start [(.r0, 0o000177#16)] [(0o2000, 0o105500#16)] 0b0001#4)
      [(.r0, 0o000200#16), (.pc, 0o002002#16)] [] 0b1010#4 = true := by decide

/-- V43.36. -/
theorem test_sbc_overflows :
    completes (.sbc ⟨.register, .r0⟩)
      (start [(.r0, 0o100000#16)] [(0o2000, 0o005600#16)] 0b0001#4)
      [(.r0, 0o077777#16), (.pc, 0o002002#16)] [] 0b0010#4 = true := by decide

/-- V43.38. -/
theorem test_sbcb_overflows :
    completes (.sbcb ⟨.register, .r0⟩)
      (start [(.r0, 0o000200#16)] [(0o2000, 0o105600#16)] 0b0001#4)
      [(.r0, 0o000177#16), (.pc, 0o002002#16)] [] 0b0010#4 = true := by decide

/-- V43.39. -/
theorem test_sxt_of_negative :
    completes (.sxt ⟨.register, .r0⟩)
      (start [(.r0, 0o012345#16)] [(0o2000, 0o006700#16)] 0b1010#4)
      [(.r0, 0o177777#16), (.pc, 0o002002#16)] [] 0b1000#4 = true := by decide

/-- V43.42. -/
theorem test_swab_codes_of_low_byte :
    completes (.swab ⟨.register, .r0⟩)
      (start [(.r0, 0o000377#16)] [(0o2000, 0o000300#16)] 0b0000#4)
      [(.r0, 0o177400#16), (.pc, 0o002002#16)] [] 0b0100#4 = true := by decide

/-- V43.46. -/
theorem test_ash_left_overflows :
    completes (.ash .r0 ⟨.autoInc, .pc⟩)
      (start [(.r0, 0o040000#16)] [(0o2000, 0o072027#16), (0o2002, 0o000001#16)] 0b0000#4)
      [(.r0, 0o100000#16), (.pc, 0o002004#16)] [] 0b1010#4 = true := by decide

/-- V43.48. -/
theorem test_ash_right_by_thirtytwo :
    completes (.ash .r0 ⟨.autoInc, .pc⟩)
      (start [(.r0, 0o100000#16)] [(0o2000, 0o072027#16), (0o2002, 0o000040#16)] 0b0000#4)
      [(.r0, 0o177777#16), (.pc, 0o002004#16)] [] 0b1001#4 = true := by decide

/-- V43.51. -/
theorem test_ashc_left :
    completes (.ashc .r0 ⟨.autoInc, .pc⟩)
      (start [(.r0, 0o000001#16), (.r1, 0o100000#16)] [(0o2000, 0o073027#16),
      (0o2002, 0o000004#16)] 0b0000#4)
      [(.r0, 0o000030#16), (.r1, 0o000000#16), (.pc, 0o002004#16)] [] 0b0000#4 = true := by decide

/-- V43.52. -/
theorem test_ashc_right :
    completes (.ashc .r0 ⟨.autoInc, .pc⟩)
      (start [(.r0, 0o100000#16), (.r1, 0o000001#16)] [(0o2000, 0o073027#16),
      (0o2002, 0o000077#16)] 0b0000#4)
      [(.r0, 0o140000#16), (.r1, 0o000000#16), (.pc, 0o002004#16)] [] 0b1001#4 = true := by decide

/-- V46.7. -/
theorem test_jmp_absolute :
    completes (.jmp ⟨.autoIncDeferred, .pc⟩)
      (start [] [(0o2000, 0o000137#16), (0o2002, 0o003000#16)] 0b0000#4)
      [(.pc, 0o003000#16)] [] 0b0000#4 = true := by decide

/-- V46.9. -/
theorem test_jmp_register_traps :
    traps (.jmp ⟨.register, .r1⟩)
      (start [(.r1, 0o003000#16)] [(0o2000, 0o000101#16)] 0b0000#4)
      [] [] 0b0000#4 0o0 0o000003#16 = true := by decide

/-- V46.2. -/
theorem test_jsr_links_r5 :
    completes (.jsr .r5 ⟨.autoIncDeferred, .pc⟩)
      (start [(.r5, 0o001234#16), (.sp, 0o017776#16)] [(0o2000, 0o004537#16),
      (0o2002, 0o003000#16)] 0b0000#4)
      [(.r5, 0o002004#16), (.sp, 0o017774#16), (.pc, 0o003000#16)] [(0o17774, 0o001234#16)]
      0b0000#4 = true := by decide

/-- V46.3. -/
theorem test_jsr_links_pc :
    completes (.jsr .pc ⟨.deferred, .r1⟩)
      (start [(.r1, 0o003000#16), (.sp, 0o017776#16)] [(0o2000, 0o004711#16)] 0b0000#4)
      [(.sp, 0o017774#16), (.pc, 0o003000#16)] [(0o17774, 0o002002#16)] 0b0000#4 = true := by decide

/-- V46.6. -/
theorem test_rts_r5 :
    completes (.rts .r5)
      (start [(.r5, 0o003004#16), (.sp, 0o017774#16)] [(0o2000, 0o000205#16),
      (0o17774, 0o001234#16)] 0b0000#4)
      [(.r5, 0o001234#16), (.sp, 0o017776#16), (.pc, 0o003004#16)] [] 0b0000#4 = true := by decide

/-- V46.15. -/
theorem test_mark_unwinds :
    completes (.mark 0x2#6)
      (start [(.r5, 0o002044#16), (.sp, 0o017766#16), (.pc, 0o017766#16)]
      [(0o17766, 0o006402#16), (0o17774, 0o000555#16)] 0b0000#4)
      [(.r5, 0o000555#16), (.sp, 0o017776#16), (.pc, 0o002044#16)] [] 0b0000#4 = true := by decide

/-- V46.11. -/
theorem test_sob_taken :
    completes (.sob .r0 0x2#6)
      (start [(.r0, 0o000002#16)] [(0o2000, 0o077002#16)] 0b1111#4)
      [(.r0, 0o000001#16), (.pc, 0o001776#16)] [] 0b1111#4 = true := by decide

/-- V46.12. -/
theorem test_sob_falls_through :
    completes (.sob .r0 0x2#6)
      (start [(.r0, 0o000001#16)] [(0o2000, 0o077002#16)] 0b1111#4)
      [(.r0, 0o000000#16), (.pc, 0o002002#16)] [] 0b1111#4 = true := by decide

/-- V45.4. -/
theorem test_br_farthest_backward :
    completes (.br 0x80#8)
      (start [] [(0o2000, 0o000600#16)] 0b0000#4)
      [(.pc, 0o001402#16)] [] 0b0000#4 = true := by decide

/-- V45.6. -/
theorem test_beq_not_taken :
    completes (.beq 0x3#8)
      (start [] [(0o2000, 0o001403#16)] 0b1011#4)
      [(.pc, 0o002002#16)] [] 0b1011#4 = true := by decide

/-- V45.8. -/
theorem test_bgt_taken :
    completes (.bgt 0x3#8)
      (start [] [(0o2000, 0o003003#16)] 0b1010#4)
      [(.pc, 0o002010#16)] [] 0b1010#4 = true := by decide

/-- V45.9. -/
theorem test_bhi_not_taken :
    completes (.bhi 0x3#8)
      (start [] [(0o2000, 0o101003#16)] 0b0100#4)
      [(.pc, 0o002002#16)] [] 0b0100#4 = true := by decide

/-- V45.10. -/
theorem test_blos_backward :
    completes (.blos 0xFE#8)
      (start [] [(0o2000, 0o101776#16)] 0b0001#4)
      [(.pc, 0o001776#16)] [] 0b0001#4 = true := by decide

/-- V47.1. -/
theorem test_nop_keeps_codes :
    completes .nop
      (start [] [(0o2000, 0o000240#16)] 0b1010#4)
      [(.pc, 0o002002#16)] [] 0b1010#4 = true := by decide

/-- V47.2. -/
theorem test_clc :
    completes .clc
      (start [] [(0o2000, 0o000241#16)] 0b1111#4)
      [(.pc, 0o002002#16)] [] 0b1110#4 = true := by decide

/-- V47.3. -/
theorem test_clv :
    completes .clv
      (start [] [(0o2000, 0o000242#16)] 0b1111#4)
      [(.pc, 0o002002#16)] [] 0b1101#4 = true := by decide

/-- V47.4. -/
theorem test_clz :
    completes .clz
      (start [] [(0o2000, 0o000244#16)] 0b1111#4)
      [(.pc, 0o002002#16)] [] 0b1011#4 = true := by decide

/-- V47.5. -/
theorem test_cln :
    completes .cln
      (start [] [(0o2000, 0o000250#16)] 0b1111#4)
      [(.pc, 0o002002#16)] [] 0b0111#4 = true := by decide

/-- V47.6. -/
theorem test_ccc :
    completes .ccc
      (start [] [(0o2000, 0o000257#16)] 0b1111#4)
      [(.pc, 0o002002#16)] [] 0b0000#4 = true := by decide

/-- V47.7. -/
theorem test_sec :
    completes .sec
      (start [] [(0o2000, 0o000261#16)] 0b0000#4)
      [(.pc, 0o002002#16)] [] 0b0001#4 = true := by decide

/-- V47.8. -/
theorem test_sev :
    completes .sev
      (start [] [(0o2000, 0o000262#16)] 0b0000#4)
      [(.pc, 0o002002#16)] [] 0b0010#4 = true := by decide

/-- V47.9. -/
theorem test_sez :
    completes .sez
      (start [] [(0o2000, 0o000264#16)] 0b0000#4)
      [(.pc, 0o002002#16)] [] 0b0100#4 = true := by decide

/-- V47.10. -/
theorem test_sen :
    completes .sen
      (start [] [(0o2000, 0o000270#16)] 0b0000#4)
      [(.pc, 0o002002#16)] [] 0b1000#4 = true := by decide

/-- V47.11. -/
theorem test_scc :
    completes .scc
      (start [] [(0o2000, 0o000277#16)] 0b0000#4)
      [(.pc, 0o002002#16)] [] 0b1111#4 = true := by decide

/-- V47.12. -/
theorem test_ccop_clears_two :
    completes (.ccop false false false true true)
      (start [] [(0o2000, 0o000243#16)] 0b1111#4)
      [(.pc, 0o002002#16)] [] 0b1100#4 = true := by decide

/-- V47.13. -/
theorem test_ccop_sets_two :
    completes (.ccop true true true false false)
      (start [] [(0o2000, 0o000274#16)] 0b0001#4)
      [(.pc, 0o002002#16)] [] 0b1101#4 = true := by decide

/-- V41.4. -/
theorem test_movbck_overlap_replicates :
    completes .movbck
      (start [(.sp, 0o017770#16)] [(0o2000, 0o107000#16), (0o3000, 0o041101#16),
      (0o3002, 0o042103#16), (0o3004, 0o043105#16), (0o17770, 0o003000#16),
      (0o17772, 0o003001#16), (0o17774, 0o000004#16)] 0b0000#4)
      [(.pc, 0o002002#16)] [(0o3000, 0o040501#16), (0o3002, 0o040501#16), (0o3004, 0o043101#16)]
      0b0000#4 = true := by decide

/-- V41.7. -/
theorem test_movbck_undone_beyond_memory :
    traps .movbck
      (start [(.sp, 0o017000#16)] [(0o2000, 0o107000#16), (0o3000, 0o041101#16),
      (0o3002, 0o000103#16), (0o17000, 0o003000#16), (0o17002, 0o017776#16),
      (0o17004, 0o000003#16)] 0b0000#4)
      [] [] 0b0000#4 0o0 0o000006#16 = true := by decide

/-- V41.8. -/
theorem test_stck_high_word_first :
    completes .stck
      { (start [(.sp, 0o017776#16)] [(0o2000, 0o107100#16), (0o17776, 0o003000#16)] 0b0000#4)
      with tdck := 0o1234567#32 }
      [(.pc, 0o002002#16)] [(0o3000, 0o000005#16), (0o3002, 0o034567#16)] 0b0000#4 = true := by decide

/-- V41.11. -/
theorem test_sys_from_user_mode :
    traps (.sys 0xFF#8)
      ((withPs1 (start [(.sp, 0o016000#16)] [(0o2000, 0o104777#16)] 0b1010#4)
      0o000412#16).setStl 0o015000#16)
      [(.pc, 0o002002#16)] [] 0b1010#4 0o140 0o000377#16 = true := by decide

/-- V41.12. -/
theorem test_inprg_exchanges :
    completes .inprg
      (start [(.sp, 0o017776#16)] [(0o2000, 0o107200#16), (0o17776, 0o002100#16)] 0b0000#4)
      [(.pc, 0o002100#16)] [(0o17776, 0o002002#16)] 0b0000#4 = true := by decide

/-- V41.13. -/
theorem test_csv_builds_frame :
    completes .csv
      (start [(.r2, 0o000022#16), (.r3, 0o000033#16), (.r4, 0o000044#16), (.r5, 0o000055#16),
      (.sp, 0o017770#16)] [(0o2000, 0o107300#16)] 0b0000#4)
      [(.r5, 0o017766#16), (.sp, 0o017760#16), (.pc, 0o002002#16)] [(0o17760, 0o000022#16),
      (0o17762, 0o000033#16), (0o17764, 0o000044#16), (0o17766, 0o000055#16)] 0b0000#4 = true := by decide

/-- V60.16. -/
theorem test_csv_yellow_trap_after_it :
    traps .csv
      (start [(.r2, 0o000002#16), (.r3, 0o000003#16), (.r4, 0o000004#16), (.r5, 0o000005#16),
      (.sp, 0o017030#16)] [(0o2000, 0o107300#16)] 0b0000#4)
      [(.pc, 0o002002#16), (.sp, 0o017020#16), (.r5, 0o017026#16)] [(0o17020, 0o000002#16),
      (0o17022, 0o000003#16), (0o17024, 0o000004#16), (0o17026, 0o000005#16)] 0b0000#4 0o0
      0o000007#16 = true := by decide

/-- V41.14. -/
theorem test_cret_unwinds_frame :
    completes .cret
      (start [(.r2, 0o000001#16), (.r3, 0o000001#16), (.r4, 0o000001#16), (.r5, 0o017766#16),
      (.sp, 0o017740#16)] [(0o2000, 0o107400#16), (0o17760, 0o000022#16),
      (0o17762, 0o000033#16), (0o17764, 0o000044#16), (0o17766, 0o000055#16),
      (0o17770, 0o002026#16)] 0b0000#4)
      [(.r2, 0o000022#16), (.r3, 0o000033#16), (.r4, 0o000044#16), (.r5, 0o000055#16),
      (.sp, 0o017772#16), (.pc, 0o002026#16)] [] 0b0000#4 = true := by decide

/-- V42.9. -/
theorem test_halt_in_user_mode_traps :
    traps .halt
      ((withPs1 (start [(.sp, 0o016000#16)] [(0o2000, 0o000000#16)] 0b0000#4)
      0o177400#16).setStl 0o015000#16)
      [] [] 0b0000#4 0o0 0o000002#16 = true := by decide

/-- V60.14. -/
theorem test_push_yellow_keeps_it :
    traps (.mov ⟨.register, .r0⟩ ⟨.autoDec, .sp⟩)
      (start [(.r0, 0o000123#16), (.sp, 0o017010#16)] [(0o2000, 0o010046#16)] 0b0000#4)
      [(.pc, 0o002002#16), (.sp, 0o017006#16)] [(0o17006, 0o000123#16)] 0b0000#4 0o0 0o000007#16
      = true := by decide

/-- V60.15. -/
theorem test_push_red_undoes_it :
    traps (.mov ⟨.register, .r0⟩ ⟨.autoDec, .sp⟩)
      (start [(.r0, 0o000123#16), (.sp, 0o017006#16)] [(0o2000, 0o010046#16)] 0b0000#4)
      [] [] 0b0000#4 0o0 0o000010#16 = true := by decide

/-- V20.2. -/
theorem test_mapped_write_marks_descriptors :
    completes (.mov ⟨.register, .r0⟩ ⟨.autoIncDeferred, .pc⟩)
      (mapped [(.r0, 0o000777#16)] [(0o5000, 0o010037#16), (0o5002, 0o123456#16)])
      [(.pc, 0o000004#16)] [(0o4040, 0o120005#16), (0o4146, 0o160006#16), (0o6456, 0o000777#16)]
      0b0000#4 = true := by decide

/-- V20.13. -/
theorem test_mapped_trap_undoes_marks :
    traps (.mov ⟨.autoInc, .r1⟩ ⟨.autoIncDeferred, .pc⟩)
      (mapped [(.r1, 0o001000#16)] [(0o5000, 0o012137#16), (0o5002, 0o123456#16),
      (0o7000, 0o000055#16), (0o4146, 0o000006#16)])
      [(.pc, 0o000000#16)] [] 0b0000#4 0o60 0o000523#16 = true := by decide

/-- R201: 200 minus 1 is 177 in a byte, the overflow of the smallest value. -/
theorem test_decb_of_smallest :
    completes (.decb ⟨.register, .r0⟩) (start [(.r0, 0o52600#16)] [(0o2000, 0o105300#16)] 0b0001#4)
      [(.r0, 0o52577#16), (.pc, 0o2002#16)] [] 0b0011#4 = true := by decide

/-! The table of the branches, with offset 3. -/

theorem test_taken_bne : takenOn (.bne 3#8) = [0, 1, 2, 3, 8, 9, 10, 11] := by decide

theorem test_taken_bge : takenOn (.bge 3#8) = [0, 1, 4, 5, 10, 11, 14, 15] := by decide

theorem test_taken_blt : takenOn (.blt 3#8) = [2, 3, 6, 7, 8, 9, 12, 13] := by decide

theorem test_taken_bgt : takenOn (.bgt 3#8) = [0, 1, 10, 11] := by decide

theorem test_taken_ble : takenOn (.ble 3#8) = [2, 3, 4, 5, 6, 7, 8, 9, 12, 13, 14, 15] := by decide

theorem test_taken_bpl : takenOn (.bpl 3#8) = [0, 1, 2, 3, 4, 5, 6, 7] := by decide

theorem test_taken_bmi : takenOn (.bmi 3#8) = [8, 9, 10, 11, 12, 13, 14, 15] := by decide

theorem test_taken_bhi : takenOn (.bhi 3#8) = [0, 2, 8, 10] := by decide

theorem test_taken_bvc : takenOn (.bvc 3#8) = [0, 1, 4, 5, 8, 9, 12, 13] := by decide

theorem test_taken_bvs : takenOn (.bvs 3#8) = [2, 3, 6, 7, 10, 11, 14, 15] := by decide

theorem test_taken_bcc : takenOn (.bcc 3#8) = [0, 2, 4, 6, 8, 10, 12, 14] := by decide

theorem test_taken_bcs : takenOn (.bcs 3#8) = [1, 3, 5, 7, 9, 11, 13, 15] := by decide

theorem test_taken_bhis : takenOn (.bhis 3#8) = [0, 2, 4, 6, 8, 10, 12, 14] := by decide

theorem test_taken_blo : takenOn (.blo 3#8) = [1, 3, 5, 7, 9, 11, 13, 15] := by decide

/-! The privileged instructions. -/

/-- What holds of the next state. -/
def after (i : Instr) (s : State) (p : State → Bool) : Bool :=
  match exec i s with
  | .next t => p t
  | _ => false

/-- V42.1. -/
theorem test_ldst_loads_state :
    after .ldst (start [(.sp, 0o17776#16)] [(0o2000, 0o7000#16), (0o17776, 0o3000#16), (0o3000, 1#16),
        (0o3014, 0o16000#16), (0o3016, 0o2052#16), (0o3020, 0o405#16), (0o3022, 0o7777#16),
        (0o3024, 0o4000#16), (0o3026, 0o15000#16)] 0)
      (fun t => decide (t.cpu.r0 = 1) && decide (t.cpu.sp = 0o16000#16) && decide (t.cpu.pc = 0o2052#16) &&
        decide (t.cpu.ps1.pack .default = 0o405#16) && decide (t.cpu.ps2 = 0o7777#16) &&
        decide (t.cpu.sta = 0o4000#16) && decide (t.cpu.stl = 0o15000#16)) = true := by decide

/-- V42.3. -/
theorem test_stst_stores_state :
    completes .stst (start [(.r0, 1#16), (.r1, 2#16), (.sp, 0o17776#16)]
        [(0o2000, 0o7100#16), (0o17776, 0o3000#16)] 0b1010#4)
      [(.pc, 0o2002#16)] [(0o3000, 1#16), (0o3002, 2#16), (0o3014, 0o17776#16), (0o3016, 0o2002#16),
        (0o3020, 0o177612#16), (0o3026, 0o17000#16)] 0b1010#4 = true := by decide

/-- V42.4, before the time of the step. -/
theorem test_ldit_loads_high_word_first :
    after .ldit (start [(.sp, 0o17776#16)] [(0o2000, 0o7200#16), (0o17776, 0o3000#16), (0o3000, 1#16),
        (0o3002, 0o103240#16)] 0) (fun t => decide (t.it = 100000#32)) = true := by decide

/-- V42.6. -/
theorem test_ldim_ignores_high_byte :
    after .ldim (start [(.sp, 0o17776#16)] [(0o2000, 0o7300#16), (0o17776, 0o125400#16)] 0)
      (fun t => decide (t.cpu.ps1.pack .default = 0o200#16)) = true := by decide

/-- V42.7. -/
theorem test_ldstl_loads_limit :
    after .ldstl (start [(.sp, 0o17776#16)] [(0o2000, 0o7400#16), (0o17776, 0o12000#16)] 0)
      (fun t => decide (t.cpu.stl = 0o12000#16) && decide (t.cpu.sp = 0o17776#16)) = true := by decide

/-- V42.8. -/
theorem test_halt_stops :
    after .halt (start [] [] 0)
      (fun t => decide (t.run = .stopped .halt) && decide (t.cpu.pc = 0o2002#16)) = true := by decide

/-! ### The machine around the instructions -/

/-- L1.1 and L1.2: the state after IPL of the source's example. -/
theorem test_reset_is_the_example :
    State.reset.cpu.pc = 0o2000#16 ∧ State.reset.cpu.sp = 0o20000#16 ∧ State.reset.cpu.stl = 0o17000#16 ∧
    State.reset.cpu.ps1.pack .default = 0o177600#16 ∧ State.reset.console.pace = 9 := by decide

/-- L1.1: the initial status line, but for its two surplus digits; the display shows the machine. -/
theorem test_initial_status_line :
    State.reset.statusLine.fields = ["1", "1", "1", "0", "0", "9", "2000", "start+0", "20000", "11111111",
      "1", "0", "0", "0", "0", "0", "0", "0", "Dynamic", "IPL"].map String.toList ∧
    State.reset.console.display =
      { status := State.reset.statusLine, window := State.reset.view, commands := [] } := by
  decide

/-- The machine after commands, each taken when the one before it is done. -/
def commanded (s : State) : List Command → Option State
  | [] => some s
  | c :: cs =>
    match s.command c with
    | .done t => commanded t cs
    | _ => none

/-- R412: the machine stops before the marked instruction; `run` from there executes it. -/
theorem test_breakpoint_stops_then_passes :
    ((commanded State.reset [.bi [(.symbol "start" 0, 1)], .run]).map (fun s =>
      match step s with
      | .next t =>
        (t.run, t.cpu.pc, match t.command .run with
          | .done u => (match step u with | .next v => some v.run | _ => none)
          | _ => none)
      | _ => (s.run, s.cpu.pc, none))) =
      some (.stopped .bkpt, 0o2000#16, some (.stopped .halt)) := by decide

/-- R413: a location appears only once on the suspect list. -/
theorem test_suspect_appears_once :
    ((commanded State.reset [.si [({ lower := .number 0o3000 0, upper := .plus 6 }, .both),
      ({ lower := .number 0o3002 0, upper := .single }, .write)]]).map (fun s => s.console.suspects)) =
      some [{ lo := 0o3000, hi := 0o3001, onRead := true, onWrite := true },
        { lo := 0o3004, hi := 0o3007, onRead := true, onWrite := true },
        { lo := 0o3002, hi := 0o3003, onRead := false, onWrite := true }] := by decide

/-- R424: removal mode begins at the top of the list; down, delete and quit. Its keys are no commands, and
commands are not taken in it. -/
theorem test_removal_mode :
    (let marks : List Command := [.bi [(.number 0o2000 0, 1), (.number 0o2002 0, 1), (.number 0o2004 0, 1)]]
     ((commanded State.reset (marks ++ [.br false, .key .down, .key .delete, .key .quit, .ds])).map
        (fun s => (s.console.breakpoints.map (·.addr), s.console.removal, s.console.screen)) =
        some ([0o2000#16, 0o2004#16], none, .dynamic)) ∧
     commanded State.reset (marks ++ [.br false, .run]) = none ∧
     commanded State.reset (marks ++ [.key .delete]) = none) := by decide

/-- R397, R424: `help` lists the commands until the next command; of the machine `bye` leaves the host files
of the devices. -/
theorem test_help_and_bye :
    ((commanded State.reset [.help]).map (fun s => s.console.display.commands.length) = some 32 ∧
     (commanded State.reset [.help, .ds]).map (fun s => s.console.display.commands) = some [] ∧
     State.reset.command .bye = .poweredDown State.reset.io.hostFiles) := ⟨by decide, by decide, rfl⟩

/-- A machine at pace 0 whose host has two object files. -/
def hosted : State :=
  State.reset.withConsole (fun c => { c with pace := 0, objects :=
    [("a.out", { image := [0o377#8], symbols := [("start", 0o2000#16)] }),
     ("prog", { image := [0o123#8], symbols := [("main", 0o2000#16)] })] })

/-- R402: `chip -s` takes a.out and writes its symbol table; `chip prog` takes prog and writes none. The image
is at 02000, and the console is that of a machine just started. -/
theorem test_invoke :
    (let atStart := hosted.invoke { writeSymbols := true, file := none }
     atStart.map (·.mem) = some [(0o2000, 0o377#8)] ∧ atStart.map (·.console.pace) = some 9 ∧
     atStart.map (·.console.symbolFiles) = some [("a.out.symbols", [("start", 0o2000#16)])]) ∧
    (let atStart := hosted.invoke { writeSymbols := false, file := some "prog" }
     atStart.map (·.mem) = some [(0o2000, 0o123#8)] ∧ atStart.map (·.console.symbolFiles) = some [] ∧
     atStart.map (·.console.display.status.place) = some (some ("main", 0))) ∧
    (hosted.invoke { writeSymbols := false, file := some "none" }).isNone :=
  ⟨⟨by decide, by decide, by decide⟩, ⟨by decide, by decide, by decide⟩, by decide⟩

/-- R414: the formats of traced values, `@` for an unprintable character. -/
theorem test_trace_formats :
    [Format.octal, .decimal, .binary, .ascii].map (fun f => String.ofList (f.text false 0o101#32)) =
      ["101", "65", "0000000001000001", "A@"] := by decide

/-- The word given to `withFetchWord` is what the next step executes. -/
theorem test_withFetchWord_is_fetched :
    (State.reset.withFetchWord 16 0o005200).fetch = .ok (.inc ⟨.register, .r0⟩) := by rfl

/-- The machine stands still after reset (R40, R410). -/
theorem test_reset_stands_still : step State.reset = .next State.reset := by rfl

/-- V60.30: the Clock is served before Terminal 2. -/
theorem test_clock_before_terminal :
    (withPs1 { (start [] [] 0).setCtl (.terminal 2) { DevCtl.idle with pending := true } with
      clockReq := true } 0o200#16).selectSource = some .clock := by decide

/-- V60.33: with level 2 masked Printer 0 is served, not Disk 1. -/
theorem test_masked_disk_waits :
    (withPs1 (((start [] [] 0).setCtl (.disk 1) { DevCtl.idle with pending := true }).setCtl (.printer 0)
      { DevCtl.idle with pending := true }) 0o2200#16).selectSource = some (.device (.printer 0)) := by
  decide

/-- V80.11: a line is read up to its New Line, which is consumed. -/
theorem test_terminal_line :
    lineRead Config.default [0o141#8, 0o142#8, 0o12#8, 0o143#8, 0o12#8] 0 =
      { bytes := [0o141#8, 0o142#8], pos := 3, status := 0 } := by decide

/-- V80.7: Invalid Operation is reported before Invalid Length and Invalid Buffer. -/
theorem test_invalid_operation_first :
    requestStatus Config.default Io.fresh (.printer 0) 0 2#16 0o121#16 0o17776#16 = some 2 := by decide

/-! ### Witnesses: for every obligation with hypotheses, a state and operands that meet them -/

/-- A state for the witnesses: SP, R1 and R2 point to words of memory. -/
def base : State :=
  start [(.sp, 0o17770#16), (.r0, 5#16), (.r1, 0o3000#16), (.r2, 0o3100#16), (.r5, 0o17766#16)]
    [(0o3000, 0o3200#16), (0o3100, 7#16), (0o17770, 0o3000#16), (0o17772, 0o3100#16), (0o17774, 3#16)] 0

/-- The base state after the fetch. -/
def fetched (s : State) : State := s.setReg .pc (s.cpu.pc + 2)

theorem base_fetches : DirectFetch base := ⟨rfl, rfl, by decide, rfl⟩

theorem base_unwatched : Unwatched base := .inr (.inr rfl)

theorem base_direct : Direct base .word 0o3000#16 := ⟨rfl, base_unwatched, rfl, by decide, rfl⟩

/-- The last word of memory, and the word of the top of the stack. -/
theorem base_direct_last : Direct base .word 0o17776#16 := ⟨rfl, base_unwatched, rfl, by decide, rfl⟩

theorem base_wf : base.mem.wf = true := by decide

theorem base_cfg_wf : base.cfg.wf = true := by decide

theorem base_clear (role : StackRole) : StackClear role base base := fun _ => by decide

theorem base_fetched_clear (role : StackRole) : StackClear role base (fetched base) := fun _ => by decide

/-- The base state in USER mode. -/
def user : State := { base with cpu := { base.cpu with ps1 := { base.cpu.ps1 with ku := false } } }

theorem user_fetches : DirectFetch user := ⟨rfl, rfl, by decide, rfl⟩

/-- The base state with other registers. -/
theorem fetches_having (r : Reg) (v : Word) (h : r ≠ .pc) : DirectFetch (base.setReg r v) := by
  cases r <;> first | exact absurd rfl h | exact base_fetches

theorem witness_DecodeEncode : (Instr.mov ⟨.autoInc, .pc⟩ ⟨.index, .sp⟩).wellFormed = true := by decide

theorem witness_EncodeDecode : decodeWord 0o277#16 = some .scc := by decide

/-- Words at the ends of ranges of both kinds. -/
theorem witness_RejectedWordsTrap :
    base.cfg.unsupported = Config.pdp11Unsupported ∧
    (∀ w ∈ [0o1#16, 0o6#16, 0o177777#16], inRanges unsupportedRanges w = true ∧
      ∃ s1, fetchWord (holding base [(0o2000, w)]) = .ok (w, s1)) ∧
    (∀ w ∈ [0o7#16, 0o77#16, 0o107777#16], inRanges illegalRanges w = true ∧
      ∃ s1, fetchWord (holding base [(0o2000, w)]) = .ok (w, s1)) := by
  refine ⟨rfl, ?_, ?_⟩ <;> intro w hw <;>
    simp only [List.mem_cons, List.not_mem_nil, or_false] at hw <;>
    rcases hw with rfl | rfl | rfl <;> exact ⟨by decide, _, rfl⟩

theorem witness_StepRunsDecoded :
    base.cfg.wf = true ∧ base.run = .running ∧ base.pollDevices.selectSource = none ∧
    base.pollDevices.cpu.ps1.w = false ∧ base.pollDevices.consoleCheck.run = .running ∧
    (∃ s1, fetchWord base.pollDevices.consoleCheck = .ok (0#16, s1)) ∧ decodeWord 0#16 = some .halt :=
  ⟨base_cfg_wf, rfl, by decide, by decide, by decide, ⟨_, rfl⟩, by decide⟩

/-- A run in which only time passes. -/
def ticks : Nat → State
  | 0 => base
  | k + 1 => (ticks k).tick

theorem witness_TimePasses :
    (base.cfg.itAfterZero = .stop ∧ base.run ≠ .stopped .susp ∧ ∃ t, finishStep (.next base) = .next t) ∧
    (∀ k, (ticks (k + 1)).still = (if (ticks k).instrTime = 0 then (ticks k).still + 1 else 0) ∧
      ((ticks k).instrTime = 0 → (ticks (k + 1)).since = (ticks k).since)) :=
  ⟨⟨rfl, by decide, _, rfl⟩, fun _ => ⟨rfl, fun h => if_pos h⟩⟩

/-- A device and the clock are eligible at once, and nothing is in the second state. -/
theorem witness_InterruptSelection :
    base.cfg.priorityOrder = .highNumberFirst ∧ base.cfg.sameLevelOrder = .lowestDeviceFirst ∧
    base.selectSource = none := ⟨rfl, rfl, by decide⟩

/-- The base state with all levels enabled, and a device or the clock pending. -/
def pendingDevice (d : Dev) : State :=
  (base.setIntmask 0).setCtl d { DevCtl.idle with pending := true }

def pendingClock : State := { base.setIntmask 0 with clockReq := true }

theorem witness_InterruptEntry :
    base.cfg.wSaved = .asIs ∧ base.cfg.itAfterZero = .stop ∧ base.run = .running ∧
    (pendingDevice (.drum 3)).pollDevices.selectSource = some (.device (.drum 3)) ∧
    (pendingDevice (.terminal 0)).pollDevices.selectSource = some (.device (.terminal 0)) ∧
    pendingClock.pollDevices.selectSource = some .clock :=
  ⟨rfl, rfl, rfl, by decide, by decide, by decide⟩

/-- A waiting state with all levels enabled. -/
def waiting : State := withPs1 base 0o240#16

/-- An operation in progress that will fail. -/
def failing (left : Nat) : DevOp :=
  { code := 0, arg := 0, buf := 0, failure := some 9, left := left, begun := true, moved := [] }

/-- The wait goes on for a device in progress. -/
def waitingForDrum : State := waiting.setCtl (.drum 3) { DevCtl.idle with busy := some (failing 1) }

/-- The machine can wait for nothing, for the timer, or for a device. -/
theorem witness_WaitState :
    waiting.cfg.wf = true ∧ waiting.run = .running ∧ waiting.cfg.itAfterZero = .stop ∧
    waiting.pollDevices.selectSource = none ∧ waiting.pollDevices.cpu.ps1.w = true ∧
    waiting.pollDevices.it = 0 ∧
    (∀ d ∈ Dev.all, (waiting.pollDevices.io.ctl[d.slot].busy).isSome = false) ∧
    ({ waiting with it := 1 } : State).pollDevices.selectSource = none ∧
    ({ waiting with it := 1 } : State).pollDevices.it ≠ 0 ∧
    waiting.pollDevices.cpu.ps1.intmask.getLsbD 5 = false ∧
    waitingForDrum.pollDevices.selectSource = none ∧
    (waitingForDrum.pollDevices.io.ctl[(Dev.drum 3).slot].busy).isSome = true :=
  ⟨base_cfg_wf, rfl, rfl, by decide, by decide, by decide, by decide, by decide, by decide, by decide,
    by decide, by decide⟩

theorem witness_EntrySequence : base.mem.wf = true := base_wf

theorem witness_OddPcTraps : (base.setReg .pc 0o2001#16).cpu.pc.getLsbD 0 = true := by decide

theorem witness_PrivilegedInUserMode :
    Instr.halt ∈ [Instr.ldst, .stst, .ldit, .ldim, .ldstl, .halt] ∧ user.cpu.ps1.ku = false ∧
    Fetches user (fetched user) := ⟨by decide, rfl, user_fetches.fetches⟩

/-- MOVBCK of one byte too many. -/
def tooLong : State := holding base [(0o17774, 513#16)]

theorem witness_IllInstructionsTrap :
    Fetches base (fetched base) ∧ Reg.pc ∈ [Reg.r1, .r3, .r5, .pc] ∧
    Fetches tooLong (fetched tooLong) ∧
    ∃ src dst size s2 s3 s4, memRead .word .read (fetched tooLong).cpu.sp (fetched tooLong) = .ok (src, s2) ∧
      memRead .word .read ((fetched tooLong).cpu.sp + 2) s2 = .ok (dst, s3) ∧
      memRead .word .read ((fetched tooLong).cpu.sp + 4) s3 = .ok (size, s4) ∧ 512 < size.toNat :=
  ⟨base_fetches.fetches, by decide, DirectFetch.fetches ⟨rfl, rfl, by decide, rfl⟩,
    0o3000#16, 0o3100#16, 513#16, fetched tooLong, fetched tooLong, fetched tooLong, rfl, rfl, rfl, by decide⟩

/-- Odd addresses, and the first address that does not exist. -/
theorem witness_OperandTraps :
    (0o3001#16).getLsbD 0 = true ∧ base.cpu.ps1.m = false ∧ Unwatched base ∧
    misaligned .word 0o20000#16 = false ∧ base.cfg.memsize ≤ (0o20000#16).toNat ∧
    (∀ v, Fetches (base.setReg .r1 v) (fetched (base.setReg .r1 v))) ∧
    ((base.setReg .r1 0o3001#16).reg .r1).getLsbD 0 = true ∧
    ((base.setReg .r1 0o20000#16).reg .r1).getLsbD 0 = false ∧
    base.cfg.memsize ≤ ((base.setReg .r1 0o20000#16).reg .r1).toNat ∧
    ((base.setReg .r1 0o20002#16).reg .r1).getLsbD 0 = false ∧
    base.cfg.memsize ≤ ((base.setReg .r1 0o20002#16).reg .r1 - 2).toNat :=
  ⟨by decide, rfl, base_unwatched, by decide, by decide, fun v => (fetches_having .r1 v (by decide)).fetches,
    by decide, by decide, by decide, by decide, by decide⟩

/-- A push that leaves SP at the ends of each zone of the stack limit 017000. -/
theorem witness_PushAtStackLimit :
    ∀ sp ∈ [0o17006#16, 0o17010#16, 0o17022#16, 0o17024#16],
      DirectFetch (base.setReg .sp sp) ∧ 2 ≤ (base.setReg .sp sp).cpu.sp.toNat ∧
      Direct (base.setReg .sp sp) .word ((base.setReg .sp sp).cpu.sp - 2) := by
  intro sp h
  simp only [List.mem_cons, List.not_mem_nil, or_false] at h
  rcases h with rfl | rfl | rfl | rfl <;>
    exact ⟨fetches_having .sp _ (by decide), by decide, rfl, .inr (.inr rfl), rfl, by decide, rfl⟩

/-- A sector read going on, alone, into the end of memory. -/
def reading : State :=
  let op : DevOp :=
    { code := 0, arg := 7, buf := 0o17000, failure := none, left := 9, begun := true, moved := [] }
  base.setCtl (.disk 0) { DevCtl.idle with busy := some op }

/-- The one operation in progress is the disk's. -/
theorem reading_alone (d : Dev) (op : DevOp) (h : d ≠ .disk 0) : reading.io.ctl[d.slot].busy ≠ some op := by
  intro hb
  have : ∀ d ∈ Dev.all, d ≠ .disk 0 → reading.io.ctl[d.slot].busy = none := by decide
  rw [this d d.mem_all h] at hb
  cases hb

/-- Mapping on: an address that is mapped, and one whose page is invalid. A sector read going on. -/
theorem witness_MemoryAccess :
    misaligned .word 0o17776#16 = false ∧ base.suspected .word .read 0o17776#16 = false ∧
    base.suspected .word .write 0o17776#16 = false ∧ (0o17776#16).toNat < base.cfg.memsize ∧
    (mapped [] []).cpu.ps1.m = true ∧ (mapped [] []).suspected .word .write 0o123456#16 = false ∧
    (∃ s', translate .write 0o123456#16 (mapped [] []).race = .ok (0o6456#16, s')) ∧
    (∃ s', translate .read 0o123456#16 (mapped [] []).race = .ok (0o6456#16, s')) ∧
    translate .read 0o2000#16 (mapped [] []).race = .error (.trap (.mm .invalidPage 0o2000#16) 0) ∧
    translate .write 0o2000#16 (mapped [] []).race = .error (.trap (.mm .invalidPage 0o2000#16) 0) ∧
    base.quiet = true ∧ reading.mem.wf = true ∧ reading.quiet = false ∧
    (∃ op, reading.io.ctl[(Dev.disk 0).slot].busy = some op ∧ op.begun = true ∧ op.failure = none ∧
      (Dev.disk 0).opKind op.code = some .sectorRead ∧ op.moved = []) ∧
    (∀ (d : Dev) (op : DevOp), d ≠ .disk 0 → reading.io.ctl[d.slot].busy = some op → op.begun = false) :=
  ⟨rfl, by decide, by decide, by decide, rfl, by decide, ⟨_, rfl⟩, ⟨_, rfl⟩, rfl, rfl, rfl, base_wf, by decide,
    ⟨_, rfl, rfl, rfl, rfl, rfl⟩, fun d op h hb => absurd hb (reading_alone d op h)⟩

theorem witness_TranslationRule :
    (mapped [] []).cfg.sdLayout = SdLayout.default ∧ (mapped [] []).cfg.pdLayout = PdLayout.default :=
  ⟨rfl, rfl⟩

/-- R1 and R1 less two address words; X is 0, and X(R1) a word that exists. -/
theorem witness_OperandForms :
    base.cfg.immediateKind = .execute ∧ DirectFetch base ∧ Direct base .word (base.reg .r1) ∧
    Direct base .word (base.reg .r1 - 2) ∧
    Direct base .word ((base.setReg .pc (base.cpu.pc + 2)).reg .r1 +
      base.mem.readWord base.cpu.pc.toNat) ∧
    Direct base .word ((base.setReg .pc (base.cpu.pc + 2)).reg .pc +
      base.mem.readWord base.cpu.pc.toNat) ∧
    (∃ p t, memRead .word .read (base.reg .r1) (base.setReg .r1 (base.reg .r1 + 2)) = .ok (p, t)) ∧
    (∃ p t, memRead .word .execute (base.reg .pc) (base.setReg .pc (base.reg .pc + 2)) = .ok (p, t)) ∧
    (∃ p t, memRead .word .read (base.reg .r1 - 2) (base.setReg .r1 (base.reg .r1 - 2)) = .ok (p, t)) ∧
    (∃ x t, fetchWord base = .ok (x, t) ∧ ∃ p u, memRead .word .read (t.reg .r1 + x) t = .ok (p, u)) ∧
    (∃ w t, memRead .word .execute base.cpu.pc base = .ok (w, t)) ∧
    base.cfg.steppedSource = false ∧ base.cfg.latePcSource = false :=
  ⟨rfl, base_fetches, ⟨rfl, base_unwatched, rfl, by decide, rfl⟩, ⟨rfl, base_unwatched, rfl, by decide, rfl⟩,
    ⟨rfl, base_unwatched, rfl, by decide, rfl⟩, ⟨rfl, base_unwatched, rfl, by decide, rfl⟩,
    ⟨_, _, rfl⟩, ⟨_, _, rfl⟩, ⟨_, _, rfl⟩, ⟨_, _, rfl, _, _, rfl⟩, ⟨_, _, rfl⟩, rfl, rfl⟩

/-! The operands of the shapes: R1 deferred selects a word of memory, R0 is a register. The witnesses hold
for every value written, so for every result. -/

theorem base_selects_memory (size : Size) :
    SelectsDest size ⟨.deferred, .r1⟩ (.mem 0o3000#16 .read) base (fetched base) :=
  ⟨fetched base, base_fetches.fetches, rfl⟩

theorem base_selects_register (size : Size) :
    SelectsDest size ⟨.register, .r0⟩ (.reg .r0) base (fetched base) :=
  ⟨fetched base, base_fetches.fetches, rfl⟩

theorem base_reads_memory : ReadsDest .word ⟨.deferred, .r1⟩ (.mem 0o3000#16 .read) 0o3200#16 base (fetched base) :=
  ⟨fetched base, fetched base, base_fetches.fetches, rfl, rfl⟩

theorem base_reads_memory_byte :
    ReadsDest .byte ⟨.deferred, .r1⟩ (.mem 0o3000#16 .read) 0o200#8 base (fetched base) :=
  ⟨fetched base, fetched base, base_fetches.fetches, rfl, rfl⟩

theorem base_reads_register : ReadsDest .word ⟨.register, .r0⟩ (.reg .r0) 5#16 base (fetched base) :=
  ⟨fetched base, fetched base, base_fetches.fetches, rfl, rfl⟩

theorem base_reads_register_byte : ReadsDest .byte ⟨.register, .r0⟩ (.reg .r0) 5#8 base (fetched base) :=
  ⟨fetched base, fetched base, base_fetches.fetches, rfl, rfl⟩

/-- Any value can be written to the memory operand, and the stack is clear after it. -/
theorem base_writes_memory (size : Size) (kind : Access) (v : BitVec size.bits) (role : StackRole) :
    ∃ t, Writes size (.mem 0o3000#16 kind) v (fetched base) t ∧ StackClear role base t := by
  refine ⟨(fetched base).store 0o3000#16 size v, ?_, fun _ => ?_⟩
  · refine memWrite_direct (va := 0o3000#16) (s := fetched base) ⟨rfl, .inr (.inr rfl), ?_, by decide, rfl⟩ v
    cases size <;> rfl
  · simp only [State.store_cpu]
    decide

theorem base_writes_register (size : Size) (v : BitVec size.bits) (role : StackRole) :
    ∃ t, Writes size (.reg .r0) v (fetched base) t ∧ StackClear role base t :=
  ⟨_, rfl, fun _ => by cases size <;> exact (by decide : base.cpu.stl.toNat + 16 < base.cpu.sp.toNat)⟩

theorem witness_SingleOperandArithmetic :
    (∃ loc old s', ReadsDest .word ⟨.deferred, .r1⟩ loc old base s' ∧
      ∀ v, ∃ t, Writes .word loc v s' t ∧ StackClear (.ordinary (writesSp ⟨.deferred, .r1⟩)) base t) ∧
    (∃ loc old s', ReadsDest .byte ⟨.register, .r0⟩ loc old base s' ∧
      ∀ v, ∃ t, Writes .byte loc v s' t ∧ StackClear (.ordinary (writesSp ⟨.register, .r0⟩)) base t) :=
  ⟨⟨_, _, _, base_reads_memory, fun v => base_writes_memory .word .read v _⟩,
    ⟨_, _, _, base_reads_register_byte, fun v => base_writes_register .byte v _⟩⟩

theorem witness_ShiftsAndRotates :
    (∃ loc old s', ReadsDest .word ⟨.register, .r0⟩ loc old base s' ∧
      ∀ v, ∃ t, Writes .word loc v s' t ∧ StackClear (.ordinary (writesSp ⟨.register, .r0⟩)) base t) ∧
    (∃ loc old s', ReadsDest .byte ⟨.deferred, .r1⟩ loc old base s' ∧
      ∀ v, ∃ t, Writes .byte loc v s' t ∧ StackClear (.ordinary (writesSp ⟨.deferred, .r1⟩)) base t) :=
  ⟨⟨_, _, _, base_reads_register, fun v => base_writes_register .word v _⟩,
    ⟨_, _, _, base_reads_memory_byte, fun v => base_writes_memory .byte .read v _⟩⟩

theorem witness_ClearSignExtendTest :
    (∀ size : Size, ∃ loc s', SelectsDest size ⟨.deferred, .r1⟩ loc base s' ∧
      ∀ v, ∃ t, Writes size loc v s' t ∧ StackClear (.ordinary (writesSp ⟨.deferred, .r1⟩)) base t) ∧
    ReadsDest .word ⟨.deferred, .r1⟩ (.mem 0o3000#16 .read) 0o3200#16 base (fetched base) ∧
    ReadsDest .byte ⟨.deferred, .r1⟩ (.mem 0o3000#16 .read) 0o200#8 base (fetched base) ∧
    StackClear (.ordinary (stepsSp ⟨.deferred, .r1⟩)) base (fetched base) :=
  ⟨fun size => ⟨_, _, base_selects_memory size, fun v => base_writes_memory size .read v _⟩,
    base_reads_memory, base_reads_memory_byte, base_fetched_clear _⟩

theorem base_source : ReadsSource ⟨.deferred, .r2⟩ 7#16 base (fetched base) :=
  ⟨fetched base, base_fetches.fetches, rfl⟩

/-- Writing registers other than SP leaves the stack clear. -/
theorem base_clear_pair (role : StackRole) (v w : Word) (cc : Cc) :
    StackClear role base (((((fetched base).setReg .r0 v).setReg .r1 w)).setCc cc) :=
  fun _ => (by decide : base.cpu.stl.toNat + 16 < base.cpu.sp.toNat)

theorem base_clear_one (role : StackRole) (r : Reg) (h : r ≠ .sp) (v : Word) (cc : Cc) :
    StackClear role base (((fetched base).setReg r v).setCc cc) := by
  intro _
  cases r <;> first
    | exact absurd rfl h
    | exact (by decide : base.cpu.stl.toNat + 16 < base.cpu.sp.toNat)

theorem witness_ArithmeticShifts :
    ReadsSource ⟨.deferred, .r2⟩ 7#16 base (fetched base) ∧ Reg.r0 ∈ evenRegs ∧ Reg.r1 ∈ oddRegs ∧
    (∀ v cc, StackClear (.ordinary (stepsSp ⟨.deferred, .r2⟩ || decide (Reg.r0 = .sp))) base
      (((fetched base).setReg .r0 v).setCc cc)) ∧
    (∀ v w cc, StackClear (.ordinary (stepsSp ⟨.deferred, .r2⟩ || decide (Reg.r0 = .sp))) base
      ((((fetched base).setReg .r0 v).setReg (nextReg .r0) w).setCc cc)) ∧
    StackClear (.ordinary (stepsSp ⟨.deferred, .r2⟩)) base (fetched base) :=
  ⟨base_source, by decide, by decide, fun v cc => base_clear_one _ .r0 (by decide) v cc,
    fun v w cc => base_clear_pair _ v w cc, base_fetched_clear _⟩

theorem base_pair_memory :
    SourceAndDest .word ⟨.deferred, .r2⟩ ⟨.deferred, .r1⟩ 7#16 (.mem 0o3000#16 .read) base (fetched base) :=
  ⟨fetched base, base_fetches.fetches, rfl⟩

theorem base_pair_memory_byte :
    SourceAndDest .byte ⟨.deferred, .r2⟩ ⟨.deferred, .r1⟩ 7#8 (.mem 0o3000#16 .read) base (fetched base) :=
  ⟨fetched base, base_fetches.fetches, rfl⟩

theorem base_pair_register_byte :
    SourceAndDest .byte ⟨.deferred, .r2⟩ ⟨.register, .r0⟩ 7#8 (.reg .r0) base (fetched base) :=
  ⟨fetched base, base_fetches.fetches, rfl⟩

theorem base_both_memory :
    ReadsBoth .word ⟨.deferred, .r2⟩ ⟨.deferred, .r1⟩ 7#16 0o3200#16 (.mem 0o3000#16 .read) base
      (fetched base) := ⟨fetched base, base_pair_memory, rfl⟩

theorem base_both_memory_byte :
    ReadsBoth .byte ⟨.deferred, .r2⟩ ⟨.deferred, .r1⟩ 7#8 0o200#8 (.mem 0o3000#16 .read) base
      (fetched base) := ⟨fetched base, base_pair_memory_byte, rfl⟩

theorem witness_Moves :
    (∃ src loc s', SourceAndDest .word ⟨.deferred, .r2⟩ ⟨.deferred, .r1⟩ src loc base s' ∧
      ∃ t, Writes .word loc src s' t ∧
        StackClear (.ordinary (stepsSp ⟨.deferred, .r2⟩ || writesSp ⟨.deferred, .r1⟩)) base t) ∧
    (∃ src a kind s', SourceAndDest .byte ⟨.deferred, .r2⟩ ⟨.deferred, .r1⟩ src (.mem a kind) base s' ∧
      ∃ t, memWrite .byte a src s' = .ok ((), t) ∧
        StackClear (.ordinary (stepsSp ⟨.deferred, .r2⟩ || writesSp ⟨.deferred, .r1⟩)) base t) ∧
    (SourceAndDest .byte ⟨.deferred, .r2⟩ ⟨.register, .r0⟩ 7#8 (.reg .r0) base (fetched base) ∧
      StackClear (.ordinary (stepsSp ⟨.deferred, .r2⟩ || writesSp ⟨.register, .r0⟩)) base
        ((fetched base).setReg .r0 7#16)) :=
  ⟨⟨_, _, _, base_pair_memory, base_writes_memory .word .read _ _⟩,
    ⟨_, _, _, _, base_pair_memory_byte, base_writes_memory .byte .read _ _⟩,
    base_pair_register_byte, fun _ => (by decide : base.cpu.stl.toNat + 16 < base.cpu.sp.toNat)⟩

theorem witness_Compares :
    ReadsBoth .word ⟨.deferred, .r2⟩ ⟨.deferred, .r1⟩ 7#16 0o3200#16 (.mem 0o3000#16 .read) base
      (fetched base) ∧
    ReadsBoth .byte ⟨.deferred, .r2⟩ ⟨.deferred, .r1⟩ 7#8 0o200#8 (.mem 0o3000#16 .read) base
      (fetched base) ∧
    StackClear (.ordinary (stepsSp ⟨.deferred, .r2⟩ || stepsSp ⟨.deferred, .r1⟩)) base (fetched base) :=
  ⟨base_both_memory, base_both_memory_byte, base_fetched_clear _⟩

/-- The operands of a combination; and of xor, whose source is R0. -/
theorem witness_LogicalOperations :
    (∃ src dst loc s', ReadsBoth .word ⟨.deferred, .r2⟩ ⟨.deferred, .r1⟩ src dst loc base s' ∧
      ∀ v, ∃ t, Writes .word loc v s' t ∧
        StackClear (.ordinary (stepsSp ⟨.deferred, .r2⟩ || writesSp ⟨.deferred, .r1⟩)) base t) ∧
    (∃ src dst loc s', ReadsBoth .byte ⟨.deferred, .r2⟩ ⟨.deferred, .r1⟩ src dst loc base s' ∧
      ∀ v, ∃ t, Writes .byte loc v s' t ∧
        StackClear (.ordinary (stepsSp ⟨.deferred, .r2⟩ || writesSp ⟨.deferred, .r1⟩)) base t) ∧
    (∃ loc dst s', ReadsDest .word ⟨.deferred, .r1⟩ loc dst base s' ∧
      ∃ t, Writes .word loc (dst ^^^ s'.reg .r0) s' t ∧
        StackClear (.ordinary (writesSp ⟨.deferred, .r1⟩)) base t) :=
  ⟨⟨_, _, _, _, base_both_memory, fun v => base_writes_memory .word .read v _⟩,
    ⟨_, _, _, _, base_both_memory_byte, fun v => base_writes_memory .byte .read v _⟩,
    ⟨_, _, _, base_reads_memory, base_writes_memory .word .read _ _⟩⟩

theorem witness_AddAndSubtract :
    ∃ src dst loc s', ReadsBoth .word ⟨.deferred, .r2⟩ ⟨.deferred, .r1⟩ src dst loc base s' ∧
      ∀ v, ∃ t, Writes .word loc v s' t ∧
        StackClear (.ordinary (stepsSp ⟨.deferred, .r2⟩ || writesSp ⟨.deferred, .r1⟩)) base t :=
  ⟨_, _, _, _, base_both_memory, fun v => base_writes_memory .word .read v _⟩

theorem witness_Multiply :
    ReadsSource ⟨.deferred, .r2⟩ 7#16 base (fetched base) ∧ Reg.r0 ∈ evenRegs ∧ Reg.r1 ∈ oddRegs ∧
    (∀ v w cc, StackClear (.ordinary (stepsSp ⟨.deferred, .r2⟩ || decide (Reg.r0 = .sp))) base
      ((((fetched base).setReg .r0 v).setReg (nextReg .r0) w).setCc cc)) ∧
    (∀ v cc, StackClear (.ordinary (stepsSp ⟨.deferred, .r2⟩)) base
      (((fetched base).setReg .r1 v).setCc cc)) :=
  ⟨base_source, by decide, by decide, fun v w cc => base_clear_pair _ v w cc,
    fun v cc => base_clear_one _ .r1 (by decide) v cc⟩

/-- With R0, R1 = 5, 003000 the quotient by 7 does not fit; with R4, R5 = 0, 017766 it does; and a zero
divisor at the word after. -/
theorem witness_Divide :
    ReadsSource ⟨.deferred, .r2⟩ 7#16 base (fetched base) ∧ (7#16 : Word) ≠ 0 ∧
    Reg.r0 ∈ evenRegs ∧ Reg.r4 ∈ evenRegs ∧
    (2 ^ 15 ≤ ((fetched base).reg .r0 ++ (fetched base).reg (nextReg .r0) : DWord).toInt.tdiv 7) ∧
    base.cfg.divOverflowRegs = .unchanged ∧
    StackClear (.ordinary (stepsSp ⟨.deferred, .r2⟩ || decide (Reg.r0 = .sp))) base (fetched base) ∧
    (-2 ^ 15 ≤ ((fetched base).reg .r4 ++ (fetched base).reg (nextReg .r4) : DWord).toInt.tdiv 7) ∧
    (((fetched base).reg .r4 ++ (fetched base).reg (nextReg .r4) : DWord).toInt.tdiv 7 < 2 ^ 15) ∧
    (∀ v w cc, StackClear (.ordinary (stepsSp ⟨.deferred, .r2⟩ || decide (Reg.r4 = .sp))) base
      ((((fetched base).setReg .r4 v).setReg (nextReg .r4) w).setCc cc)) ∧
    ReadsSource ⟨.register, .r3⟩ 0#16 base (fetched base) :=
  ⟨base_source, by decide, by decide, by decide, by decide, rfl, base_fetched_clear _, by decide,
    by decide, fun _ _ _ _ => (by decide : base.cpu.stl.toNat + 16 < base.cpu.sp.toNat),
    fetched base, base_fetches.fetches, rfl⟩

theorem witness_Branches :
    Fetches base (fetched base) ∧ StackClear (.ordinary false) base (fetched base) :=
  ⟨base_fetches.fetches, base_fetched_clear _⟩

theorem witness_ClearingOperators :
    Fetches user (fetched user) ∧ StackClear (.ordinary false) user (fetched user) :=
  ⟨user_fetches.fetches, fun _ => by decide⟩

theorem witness_SettingOperators :
    Fetches base (fetched base) ∧ StackClear (.ordinary false) base (fetched base) :=
  ⟨base_fetches.fetches, base_fetched_clear _⟩

theorem witness_GeneralOperator :
    Fetches base (fetched base) ∧ StackClear (.ordinary false) base (fetched base) :=
  ⟨base_fetches.fetches, base_fetched_clear _⟩

theorem witness_JumpsAndSubroutines :
    base.cfg.jumpStepFirst = false ∧
    SelectsDest .word ⟨.deferred, .r1⟩ (.mem 0o3000#16 .read) base (fetched base) ∧
    StackClear (.ordinary (stepsSp ⟨.deferred, .r1⟩)) base (fetched base) ∧
    StackClear (.ordinary (decide (Reg.r0 = .sp))) base
      ((fetched base).setReg .r0 ((fetched base).reg .r0 - 1)) ∧
    (∃ u, push ((fetched base).reg .r5) (fetched base) = .ok ((), u) ∧
      StackClear (.ordinary true) base ((u.setReg .r5 u.cpu.pc).setReg .pc 0o3000#16)) ∧
    (∃ v u, pop ((fetched base).setReg .pc ((fetched base).reg .r5)) = .ok (v, u) ∧
      StackClear (.ordinary true) base (u.setReg .r5 v)) ∧
    (∃ v u, pop (((fetched (base.setReg .pc 0o17766#16)).setReg .sp
        ((base.setReg .pc 0o17766#16).cpu.pc + 2 + 2 * (2#6).setWidth 16)).setReg .pc
        ((fetched base).reg .r5)) = .ok (v, u) ∧
      StackClear (.ordinary true) (base.setReg .pc 0o17766#16) (u.setReg .r5 v)) ∧
    Fetches (base.setReg .pc 0o17766#16) (fetched (base.setReg .pc 0o17766#16)) :=
  ⟨rfl, base_selects_memory .word, base_fetched_clear _, fun _ => by decide,
    ⟨_, rfl, fun _ => by decide⟩, ⟨_, _, rfl, fun _ => by decide⟩, ⟨_, _, rfl, fun _ => by decide⟩,
    DirectFetch.fetches ⟨rfl, rfl, by decide, rfl⟩⟩

/-- The double word ends at the end of memory. -/
def clockAtEnd : State := holding base [(0o17770, 0o17774#16)]

theorem witness_StoreClock :
    Fetches base (fetched base) ∧
    (∃ addr s2, memRead .word .read (fetched base).cpu.sp (fetched base) = .ok (addr, s2) ∧
      ∃ u, memWrite .word addr (base.tdck.extractLsb' 16 16) s2 = .ok ((), u) ∧
      ∃ t, memWrite .word (addr + 2) (base.tdck.extractLsb' 0 16) u = .ok ((), t) ∧
        StackClear (.ordinary false) base t) ∧
    clockAtEnd.mem.wf = true ∧ DirectFetch clockAtEnd ∧ Direct clockAtEnd .word clockAtEnd.cpu.sp ∧
    Direct clockAtEnd .word (clockAtEnd.mem.readWord clockAtEnd.cpu.sp.toNat) ∧
    Direct clockAtEnd .word (clockAtEnd.mem.readWord clockAtEnd.cpu.sp.toNat + 2) ∧
    StackClear (.ordinary false) clockAtEnd clockAtEnd :=
  ⟨base_fetches.fetches, ⟨_, _, rfl, _, rfl, _, rfl, fun _ => by decide⟩, by decide, ⟨rfl, rfl, by decide, rfl⟩,
    ⟨rfl, .inr (.inr rfl), rfl, by decide, rfl⟩, ⟨rfl, .inr (.inr rfl), rfl, by decide, rfl⟩,
    ⟨rfl, .inr (.inr rfl), rfl, by decide, rfl⟩, fun _ => by decide⟩

theorem witness_SystemCallAndInitialize :
    Fetches user (fetched user) ∧ Fetches base (fetched base) ∧
    ∃ target s2, memRead .word .read (fetched base).cpu.sp (fetched base) = .ok (target, s2) ∧
      ∃ t, memWrite .word (fetched base).cpu.sp (base.cpu.pc + 2) s2 = .ok ((), t) ∧
        StackClear (.ordinary false) base t :=
  ⟨user_fetches.fetches, base_fetches.fetches, _, _, rfl, _, rfl, fun _ => by decide⟩

/-- SP so that the last push lands just above the yellow zone. -/
def csvLowest : State := base.setReg .sp 0o17032#16

theorem witness_FunctionPrologue :
    (∃ u1, push base.cpu.r5 (fetched base) = .ok ((), u1) ∧
      ∃ u2, push base.cpu.r4 (u1.setReg .r5 u1.cpu.sp) = .ok ((), u2) ∧
      ∃ u3, push base.cpu.r3 u2 = .ok ((), u3) ∧
      ∃ t, push base.cpu.r2 u3 = .ok ((), t) ∧ StackClear (.ordinary true) base t) ∧
    csvLowest.mem.wf = true ∧ DirectFetch csvLowest ∧ Direct csvLowest .word (csvLowest.cpu.sp - 2) ∧
    Direct csvLowest .word (csvLowest.cpu.sp - 4) ∧ Direct csvLowest .word (csvLowest.cpu.sp - 6) ∧
    Direct csvLowest .word (csvLowest.cpu.sp - 8) ∧
    csvLowest.cpu.stl.toNat + 16 < (csvLowest.cpu.sp - 8).toNat :=
  ⟨⟨_, rfl, _, rfl, _, rfl, _, rfl, fun _ => by decide⟩, by decide, ⟨rfl, rfl, by decide, rfl⟩,
    ⟨rfl, .inr (.inr rfl), rfl, by decide, rfl⟩, ⟨rfl, .inr (.inr rfl), rfl, by decide, rfl⟩,
    ⟨rfl, .inr (.inr rfl), rfl, by decide, rfl⟩, ⟨rfl, .inr (.inr rfl), rfl, by decide, rfl⟩, by decide⟩

theorem witness_FunctionEpilogue :
    (∃ v2 u2, pop ((fetched base).setReg .sp (base.cpu.r5 - 6)) = .ok (v2, u2) ∧
      ∃ v3 u3, pop (u2.setReg .r2 v2) = .ok (v3, u3) ∧ ∃ v4 u4, pop (u3.setReg .r3 v3) = .ok (v4, u4) ∧
      ∃ v5 u5, pop (u4.setReg .r4 v4) = .ok (v5, u5) ∧
      ∃ target t, pop (u5.setReg .r5 v5) = .ok (target, t) ∧
        StackClear (.ordinary true) base (t.setReg .pc target)) ∧
    Direct base .word (base.cpu.r5 - 6) ∧ Direct base .word (base.cpu.r5 - 4) ∧
    Direct base .word (base.cpu.r5 - 2) ∧ Direct base .word base.cpu.r5 ∧
    Direct base .word (base.cpu.r5 + 2) ∧ base.cpu.stl.toNat + 16 < (base.cpu.r5 + 4).toNat :=
  ⟨⟨_, _, rfl, _, _, rfl, _, _, rfl, _, _, rfl, _, _, rfl, fun _ => by decide⟩,
    ⟨rfl, base_unwatched, rfl, by decide, rfl⟩, ⟨rfl, base_unwatched, rfl, by decide, rfl⟩,
    ⟨rfl, base_unwatched, rfl, by decide, rfl⟩, ⟨rfl, base_unwatched, rfl, by decide, rfl⟩,
    ⟨rfl, base_unwatched, rfl, by decide, rfl⟩, by decide⟩

theorem witness_MoveBlock :
    (∃ src dst size s2 s3 s4, memRead .word .read (fetched base).cpu.sp (fetched base) = .ok (src, s2) ∧
      memRead .word .read ((fetched base).cpu.sp + 2) s2 = .ok (dst, s3) ∧
      memRead .word .read ((fetched base).cpu.sp + 4) s3 = .ok (size, s4) ∧ size.toNat ≤ 512 ∧
      ∃ t, moveBlock base.cfg.movbckOrder src dst size.toNat s4 = .ok ((), t) ∧
        StackClear (.ordinary false) base t) ∧
    base.cfg.movbckOrder = .ascending ∧ Direct base .word base.cpu.sp ∧
    Direct base .word (base.cpu.sp + 2) ∧ Direct base .word (base.cpu.sp + 4) ∧
    (base.mem.readWord (base.cpu.sp + 4).toNat).toNat = 3 ∧
    (∀ i, i < 3 →
      (base.mem.readWord base.cpu.sp.toNat + BitVec.ofNat 16 i).toNat < base.cfg.memsize ∧
      (base.mem.readWord (base.cpu.sp + 2).toNat + BitVec.ofNat 16 i).toNat < base.cfg.memsize) :=
  ⟨⟨0o3000#16, 0o3100#16, 3#16, fetched base, fetched base, fetched base, rfl, rfl, rfl, by decide, _, rfl,
    fun _ => by decide⟩, rfl, ⟨rfl, base_unwatched, rfl, by decide, rfl⟩, ⟨rfl, base_unwatched, rfl, by decide, rfl⟩,
    ⟨rfl, base_unwatched, rfl, by decide, rfl⟩, by decide, by decide⟩

theorem witness_LoadState :
    base.cpu.ps1.ku = true ∧
    (∃ addr s2, memRead .word .read (fetched base).cpu.sp (fetched base) = .ok (addr, s2) ∧
      ∃ words s3, readBlock addr 12 s2 = .ok (words, s3) ∧
      let cpu := ProcState.ofWords base.cfg.ps1Layout (fun k => words.getD k 0)
      StackClear .loadsState base { s3 with cpu := cpu }) ∧
    DirectFetch base ∧ Direct base .word base.cpu.sp ∧
    (∀ k, k < 12 → Direct base .word
      (base.mem.readWord base.cpu.sp.toNat + BitVec.ofNat 16 (2 * k))) := by
  refine ⟨rfl, ⟨_, _, rfl, _, _, rfl, fun h => absurd h (by decide)⟩, base_fetches,
    ⟨rfl, base_unwatched, rfl, by decide, rfl⟩, fun k hk => ⟨rfl, base_unwatched, ?_, ?_, rfl⟩⟩
  · exact (by decide : ∀ k, k < 12 → misaligned .word
      (base.mem.readWord base.cpu.sp.toNat + BitVec.ofNat 16 (2 * k)) = false) k hk
  · exact (by decide : ∀ k, k < 12 →
      (base.mem.readWord base.cpu.sp.toNat + BitVec.ofNat 16 (2 * k)).toNat < base.cfg.memsize) k hk

/-- The block ends at the end of memory. -/
def blockAtEnd : State := holding base [(0o17720, 0o17750#16)]

theorem witness_StoreState :
    (∃ addr s2, memRead .word .read (fetched base).cpu.sp (fetched base) = .ok (addr, s2) ∧
      ∃ t, writeBlock addr (({ base.cpu with pc := base.cpu.pc + 2 } : ProcState).words
        base.cfg.ps1Layout) s2 = .ok ((), t) ∧ StackClear (.ordinary false) base t) ∧
    (let s := blockAtEnd.setReg .sp 0o17720#16
     s.mem.wf = true ∧ s.cpu.ps1.ku = true ∧ DirectFetch s ∧ Direct s .word s.cpu.sp ∧
      (s.mem.readWord s.cpu.sp.toNat).getLsbD 0 = false ∧
      (s.mem.readWord s.cpu.sp.toNat).toNat + 24 ≤ s.cfg.memsize ∧ s.cfg.memsize ≤ 2 ^ 16 ∧
      StackClear (.ordinary false) s s) :=
  ⟨⟨_, _, rfl, _, rfl, fun _ => by decide⟩, by decide, rfl, ⟨rfl, rfl, by decide, rfl⟩,
    ⟨rfl, .inr (.inr rfl), rfl, by decide, rfl⟩, by decide, by decide, by decide, fun _ => by decide⟩

theorem witness_LoadTimerMaskLimit :
    base.cpu.ps1.ku = true ∧ Fetches base (fetched base) ∧
    (∃ addr s2, memRead .word .read (fetched base).cpu.sp (fetched base) = .ok (addr, s2) ∧
      ∃ hi s3, memRead .word .read addr s2 = .ok (hi, s3) ∧
      ∃ lo t, memRead .word .read (addr + 2) s3 = .ok (lo, t) ∧ StackClear (.ordinary false) base t) ∧
    (∃ v t, memRead .word .read (fetched base).cpu.sp (fetched base) = .ok (v, t) ∧
      StackClear (.ordinary false) base t ∧
      StackClear (.ordinary false) base { t with cpu := { t.cpu with stl := v } }) :=
  ⟨rfl, base_fetches.fetches, ⟨_, _, rfl, _, _, rfl, _, _, rfl, fun _ => by decide⟩,
    ⟨_, _, rfl, fun _ => by decide, fun _ => by decide⟩⟩

theorem witness_HaltStops :
    base.cpu.ps1.ku = true ∧ Fetches base (fetched base) ∧ StackClear (.ordinary false) base (fetched base) ∧
    State.reset.cfg.wf = true ∧ State.reset.run = .stopped .ipl :=
  ⟨rfl, base_fetches.fetches, base_fetched_clear _, base_cfg_wf, rfl⟩

/-! The frames and the invariants. -/

theorem witness_SingleOperandFrame :
    base.mem.wf = true ∧ ∃ t, exec (.inc ⟨.deferred, .r1⟩) base = .next t :=
  ⟨base_wf, exec_next _ _⟩

theorem witness_DoubleOperandFrame :
    base.mem.wf = true ∧ ∃ t, exec (.mov ⟨.autoInc, .r2⟩ ⟨.autoDec, .r1⟩) base = .next t :=
  ⟨base_wf, exec_next _ _⟩

theorem witness_RegisterOperandFrame :
    base.mem.wf = true ∧ Reg.sp ∈ evenRegs ∧ Reg.pc ∈ oddRegs ∧
    (∃ t, exec (.mul .sp ⟨.register, .r0⟩) base = .next t) ∧
    (∃ t, exec (.ashc .pc ⟨.register, .r0⟩) base = .next t) ∧
    ∃ t, exec (.ash .r3 ⟨.register, .r0⟩) base = .next t :=
  ⟨base_wf, by decide, by decide, exec_next _ _, exec_next _ _, exec_next _ _⟩

theorem witness_ControlFrame :
    base.mem.wf = true ∧ (∃ t, exec (.jsr .r5 ⟨.deferred, .r1⟩) base = .next t) ∧
    (∃ t, exec .inprg base = .next t) ∧ ∃ t, exec (.mark 2#6) base = .next t :=
  ⟨base_wf, exec_next _ _, exec_next _ _, exec_next _ _⟩

theorem witness_BlockFrame :
    base.mem.wf = true ∧ (∃ t, exec .stck base = .next t) ∧ (∃ t, exec .stst base = .next t) ∧
    (∃ t, exec .csv base = .next t) ∧ (∃ t, exec .cret base = .next t) ∧
    ∃ t, exec .movbck base = .next t :=
  ⟨base_wf, exec_next _ _, exec_next _ _, exec_next _ _, exec_next _ _,
    exec_next _ _⟩

theorem witness_PrivilegedFrame :
    base.mem.wf = true ∧ (∃ t, exec .ldit base = .next t) ∧ (∃ t, exec .ldim base = .next t) ∧
    (∃ t, exec .ldstl base = .next t) ∧ (∃ t, exec .halt base = .next t) ∧
    ∃ t, exec .ldst base = .next t :=
  ⟨base_wf, exec_next _ _, exec_next _ _, exec_next _ _, exec_next _ _,
    exec_next _ _⟩

theorem base_invariant : base.Inv := ⟨base_cfg_wf, base_wf, by decide, by decide, by decide⟩

theorem witness_StepKeepsInvariant : base.Inv ∧ ∃ t, step base = .next t := ⟨base_invariant, _, rfl⟩

theorem witness_UserModeConfined :
    user.cpu.ps1.ku = false ∧ ∃ t, exec (.inc ⟨.register, .r0⟩) user = .next t :=
  ⟨rfl, exec_next _ _⟩

theorem witness_WhoWritesWhat :
    (∃ t, exec .ldim base = .next t) ∧ ∀ number, Instr.ldim ≠ .sys number :=
  ⟨exec_next _ _, fun _ h => Instr.noConfusion h⟩

/-- A USER state in which the next instruction is the given one and SP the given value. -/
def userAt (w sp : Word) : State := (holding user [(0o2000, w)]).setReg .sp sp

/-- The same with a drum's request pending, all levels enabled, and a New region for it. -/
def userInterrupted : State :=
  { ((user.setIntmask 0).setCtl (.drum 3) { DevCtl.idle with pending := true }) with
    mem := newRegion user.mem 0o440 }

/-- HALT in USER mode, a SYS, a push that ends in the yellow zone, and a drum's interrupt. -/
theorem witness_LeavingUserMode :
    ∀ s ∈ [userAt 0 0o17770#16, userAt 0o104405#16 0o17770#16, userAt 0o010046#16 0o17010#16,
      userInterrupted], s.cpu.ps1.ku = false ∧ ∃ t, step s = .next t ∧ t.cpu.ps1.ku = true := by
  intro s h
  simp only [List.mem_cons, List.not_mem_nil, or_false] at h
  rcases h with rfl | rfl | rfl | rfl <;> exact ⟨rfl, _, rfl, by decide⟩

/-- The Operation words of the first and the last slot, and bytes beside them. -/
theorem witness_StoreStartsDevice :
    misaligned .word 0o1400#16 = false ∧ misaligned .word 0o1740#16 = false ∧
    misaligned .byte 0o1741#16 = false ∧ misaligned .byte 0o1742#16 = false := ⟨rfl, rfl, rfl, rfl⟩

theorem witness_RequestChecks :
    Config.default.deviceCheckOrder = Config.checkOrderDefault ∧ Config.default.hwFailures = [] :=
  ⟨rfl, rfl⟩

/-- The clauses of RequestChecks at the bounds of their ranges, each last value that passes beside the first that
fails; the values are those of R366 and the configuration. -/
theorem witness_RequestChecks_bounds :
    (let g := Config.default
     let io := State.reset.io
     let at_ (d : Dev) (code arg buf : Nat) :=
       requestStatus g io d 0 (BitVec.ofNat 16 code) (BitVec.ofNat 16 arg) (BitVec.ofNat 16 buf)
     ([at_ (.disk 0) 2 g.uptrack 0, at_ (.disk 0) 2 (g.uptrack + 1) 0, at_ (.disk 0) 3 0 0,
       at_ (.disk 0) 0 g.upsector (g.memsize - 512), at_ (.disk 0) 0 g.upsector (g.memsize - 511),
       at_ (.disk 0) 1 (g.upsector + 1) (g.memsize - 511)] =
         [none, some 5, some 2, none, some 3, some 6]) ∧
     ([at_ (.drum 0) 1 g.updrumsec (g.memsize - 512), at_ (.drum 0) 1 g.updrumsec (g.memsize - 511),
       at_ (.drum 0) 1 (g.updrumsec + 1) 0, at_ (.drum 0) 2 0 0] =
         [none, some 3, some 6, some 2]) ∧
     ([at_ (.printer 0) 1 g.upamount (g.memsize - g.upamount),
       at_ (.printer 0) 1 g.upamount (g.memsize - g.upamount + 1), at_ (.printer 0) 1 0 0o177777,
       at_ (.printer 0) 1 (g.upamount + 1) 0, at_ (.printer 0) 0 0 0] =
         [none, some 3, none, some 4, some 2]) ∧
     [at_ (.terminal 0) 1 g.upamount (g.memsize - g.upamount), at_ (.terminal 0) 1 (g.upamount + 1) 0,
       at_ (.terminal 0) 0 0 (g.memsize - g.upamount), at_ (.terminal 0) 0 0 (g.memsize - g.upamount + 1),
       at_ (.terminal 0) 2 0 0] = [none, some 4, some 9, some 3, some 2]) := by decide

/-- A disk at the end of an operation. -/
def diskEnding (op : DevOp) : State := base.setCtl (.disk 0) { DevCtl.idle with busy := some op }

theorem witness_DeviceCompletes :
    (diskEnding (failing 0)).io.ctl[(Dev.disk 0).slot].busy = some (failing 0) ∧
    (failing 0).left = 0 ∧ (failing 0).failure = some 9 ∧
    (let op : DevOp := { code := 2, arg := 9, buf := 0, failure := none, left := 0, begun := true, moved := [] }
     (diskEnding op).io.ctl[(Dev.disk 0).slot].busy = some op ∧ op.left = 0 ∧ op.failure = none ∧
      op.code = 2) := ⟨rfl, rfl, rfl, rfl, rfl, rfl, rfl⟩

/-- A read and a write whose buffer begins just after the disk's Status word, or ends at the end of memory. -/
theorem witness_SectorTransfers :
    ∀ code ∈ [0#16, 1#16], ∀ buf ∈ [0o1570#16, 0o17000#16],
      let op : DevOp := { code := code, arg := 7, buf := buf, failure := none, left := 0, begun := true, moved := [] }
      (diskEnding op).mem.wf = true ∧
      (diskEnding op).io.ctl[(Dev.disk 0).slot].busy = some op ∧ op.left = 0 ∧ op.failure = none ∧
      op.moved = [] ∧
      (op.buf.toNat + 512 ≤ (Dev.disk 0).statusAddr ∨ (Dev.disk 0).statusAddr + 2 ≤ op.buf.toNat) := by
  intro code _ buf hb
  refine ⟨base_wf, rfl, rfl, rfl, rfl, ?_⟩
  simp only [List.mem_cons, List.not_mem_nil, or_false] at hb
  rcases hb with rfl | rfl
  · exact .inr (show (Dev.disk 0).statusAddr + 2 ≤ (0o1570#16 : Word).toNat by decide)
  · exact .inr (show (Dev.disk 0).statusAddr + 2 ≤ (0o17000#16 : Word).toNat by decide)

/-- A device at the end of an operation into or from a buffer. -/
def ending (d : Dev) (code arg buf : Word) : State :=
  let op : DevOp :=
    { code := code, arg := arg, buf := buf, failure := none, left := 0, begun := true, moved := [] }
  let s := base.setCtl d { DevCtl.idle with busy := some op }
  { s with io := { s.io with
      terms := s.io.terms.set 4 { Terminal.fresh with input := some [0o141#8, 0o12#8] } } }

/-- Drum transfers whose buffers end where the drum's registers begin, or begin where they end; a line of a
printer and of a terminal, and an empty one; a terminal read beside the terminal's registers. -/
theorem witness_TransfersComplete :
    (∀ x ∈ [(Dev.drum 0, 0#16, 7#16, 0o660#16), (.drum 3, 0#16, 7#16, 0o1750#16),
        (.drum 3, 1#16, 0#16, 0o17000#16), (.printer 1, 1#16, 3#16, 0o3000#16),
        (.terminal 0, 1#16, 0#16, 0o3000#16), (.terminal 4, 0#16, 0#16, 0o1477#16),
        (.terminal 4, 0#16, 0#16, 0o1510#16)],
      (ending x.1 x.2.1 x.2.2.1 x.2.2.2).mem.wf = true ∧
      ∃ op, (ending x.1 x.2.1 x.2.2.1 x.2.2.2).io.ctl[x.1.slot].busy = some op ∧ op.left = 0 ∧
        op.failure = none ∧ op.moved = [] ∧ op.code = x.2.1 ∧ op.buf = x.2.2.2) ∧
    ((0o660#16).toNat + 512 ≤ (Dev.drum 0).base) ∧ ((Dev.drum 3).base + 8 ≤ (0o1750#16).toNat) ∧
    (ending (.terminal 4) 0 0 0o1477).io.terms[4].input = some [0o141#8, 0o12#8] ∧
    ((0o1477#16).toNat + (lineRead base.cfg [0o141#8, 0o12#8] 0).bytes.length ≤ (Dev.terminal 4).base) ∧
    ((Dev.terminal 4).base + 8 ≤ (0o1510#16).toNat) := by
  refine ⟨fun x h => ?_, by decide, by decide, rfl, by decide, by decide⟩
  simp only [List.mem_cons, List.not_mem_nil, or_false] at h
  rcases h with rfl | rfl | rfl | rfl | rfl | rfl | rfl <;>
    exact ⟨base_wf, _, rfl, rfl, rfl, rfl, rfl, rfl⟩

/-- A position at the start, and one at the end of the input. -/
theorem witness_TerminalRead :
    Config.default.termLongLine = .leaveRest ∧ Config.default.eoiTiming = .exhaustingRead ∧
    0 ≤ [0o141#8, 0o12#8].length ∧ 2 ≤ [0o141#8, 0o12#8].length := ⟨rfl, rfl, by decide, by decide⟩

end Sys2Proof.Tests
end

/-! PROOFS. What the fetch leaves, and blocks of words with mapping off: what `readBlock` answers, what
`writeBlock` leaves word for word, and the bytes of memory a stored block leaves. -/

namespace Sys2Proof.Machine

/-! ### The fetch and the stack check -/

/-- The fetch changes no register but PC, which it steps (R151). -/
theorem Fetches.cpu {s s1 : State} (h : Fetches s s1) : s1.cpu = { s.cpu with pc := s.cpu.pc + 2 } := by
  obtain ⟨w, h⟩ := h
  obtain ⟨u, hr, rfl⟩ := fetchWord_ok.1 h
  simp only [State.setReg, ProcState.setReg, memRead_cpu hr]

theorem Fetches.cfg {s s1 : State} (h : Fetches s s1) : s1.cfg = s.cfg := h.kept.system.cfg

/-- The fetch leaves the mode. -/
theorem Fetches.ku {s s1 : State} (h : Fetches s s1) : s1.cpu.ps1.ku = s.cpu.ps1.ku := by
  rw [h.cpu]

/-- The stack check of an end that has the configuration, SP and STL of another is that of the other. -/
theorem StackClear.of_same {role : StackRole} {s t u : State} (h : StackClear role s t)
    (hcfg : u.cfg = t.cfg) (hsp : u.cpu.sp = t.cpu.sp) (hstl : u.cpu.stl = t.cpu.stl) :
    StackClear role s u := by
  unfold StackClear at h ⊢
  rwa [hcfg, hsp, hstl]

/-- After the fetch the word on top of the stack is read where it was before (R186). -/
theorem memRead_top_direct {s : State} (h : Direct s .word s.cpu.sp) (v : Word) :
    memRead .word .read (s.setReg .pc v).cpu.sp (s.setReg .pc v) =
      .ok (s.mem.readWord s.cpu.sp.toNat, s.setReg .pc v) :=
  memRead_direct (h.setReg .pc v)

/-! ### Blocks -/

/-- The bytes of memory outside a stored block. -/
theorem Memory.read_writeWords_apart (vs : List Word) : ∀ (m : Memory) (a b : Nat), m.wf = true →
    (b < a ∨ a + 2 * vs.length ≤ b) → (m.writeWords a vs).read b = m.read b := by
  induction vs with
  | nil => exact fun _ _ _ _ _ => rfl
  | cons v vs ih =>
    intro m a b h hab
    simp only [List.length_cons] at hab
    rw [Memory.writeWords, ih _ _ _ (Memory.writeWord_wf m a v h) (by omega),
      Memory.read_writeWord m a b v h, if_neg (by omega), if_neg (by omega)]

theorem readBlock_cfg {a : Word} {n : Nat} {s t : State} {ws : List Word}
    (h : readBlock a n s = .ok (ws, t)) : t.cfg = s.cfg :=
  (ReadKept.reading.readBlock n a s ws t h).system.cfg

/-- The words of a block that begins at an even address and ends below MEMSIZE can be accessed directly
wherever the top of the stack can. -/
theorem Direct.block {s : State} {va addr : Word} {n k : Nat} (h : Direct s .word va)
    (heven : addr.getLsbD 0 = false) (hfits : addr.toNat + 2 * n ≤ s.cfg.memsize)
    (hsize : s.cfg.memsize ≤ 2 ^ 16) (hk : k < n) :
    Direct s .word (BitVec.ofNat 16 (addr.toNat + 2 * k)) := by
  have hval : (BitVec.ofNat 16 (addr.toNat + 2 * k)).toNat = addr.toNat + 2 * k := by
    rw [BitVec.toNat_ofNat, Nat.mod_eq_of_lt (by omega)]
  refine ⟨h.unmapped, h.unwatched, ?_, by omega, h.quiet⟩
  simp only [BitVec.getLsbD, Nat.testBit_zero, decide_eq_false_iff_not] at heven
  simp only [misaligned, BitVec.getLsbD, Nat.testBit_zero, decide_eq_false_iff_not, hval]
  omega

/-- Reading a block with mapping off answers the words in memory and changes nothing (R190). -/
theorem readBlock_direct {s : State} (n : Nat) : ∀ {a : Word},
    (∀ k, k < n → Direct s .word (a + BitVec.ofNat 16 (2 * k))) →
    readBlock a n s =
      .ok ((List.range n).map (fun k => s.mem.readWord (a + BitVec.ofNat 16 (2 * k)).toNat), s) := by
  induction n with
  | zero => exact fun _ => rfl
  | succ n ih =>
    intro a h
    have next (k : Nat) : a + 2 + BitVec.ofNat 16 (2 * k) = a + BitVec.ofNat 16 (2 * (k + 1)) := by
      rw [BitVec.add_assoc, show 2 * (k + 1) = 2 + 2 * k by omega, BitVec.ofNat_add 2 (2 * k)]
      rfl
    have head : Direct s .word a := by simpa using h 0 (by omega)
    have tail := ih (a := a + 2) (fun k hk => next k ▸ h (k + 1) (by omega))
    rw [readBlock, bind_of_ok (memRead_direct head), bind_of_ok tail, pure_apply]
    simp only [next, List.range_succ_eq_map, List.map_cons, List.map_map, Function.comp_def, State.load,
      Nat.mul_zero, BitVec.add_zero, Nat.succ_eq_add_one]

/-- Writing a block that does not wrap, with mapping off, stores its words upward and changes nothing that
the registers or the configuration hold (R191). -/
theorem writeBlock_direct (ws : List Word) : ∀ {p : Nat} {s : State}, p + 2 * ws.length ≤ 2 ^ 16 →
    (∀ k, k < ws.length → Direct s .word (BitVec.ofNat 16 (p + 2 * k))) →
    ∃ t, writeBlock (BitVec.ofNat 16 p) ws s = .ok ((), t) ∧ t.cpu = s.cpu ∧ t.cfg = s.cfg ∧
      t.mem = s.mem.writeWords p ws := by
  induction ws with
  | nil => exact fun {_ s} _ _ => ⟨s, rfl, rfl, rfl, rfl⟩
  | cons w ws ih =>
    intro p s hp h
    simp only [List.length_cons] at hp h
    have next : BitVec.ofNat 16 p + 2 = BitVec.ofNat 16 (p + 2) := (BitVec.ofNat_add p 2).symm
    obtain ⟨t, ht, hcpu, hcfg, hmem⟩ := ih (p := p + 2) (s := s.store (BitVec.ofNat 16 p) .word w)
      (by omega) (fun k hk => by
        rw [show p + 2 + 2 * k = p + 2 * (k + 1) by omega]
        exact (h (k + 1) (by omega)).store _ _ _)
    refine ⟨t, ?_, by simpa using hcpu, by simpa using hcfg, ?_⟩
    · have head : Direct s .word (BitVec.ofNat 16 p) := h 0 (by omega)
      rw [writeBlock, bind_of_ok (memWrite_direct head w), next, ht]
    · rw [hmem, State.store_mem, State.storeMem_word, BitVec.toNat_ofNat, Nat.mod_eq_of_lt (by omega)]
      rfl

end Sys2Proof.Machine

/-! PROOFS. LDST and STST: the Processor State as the twelve words of R34. -/

namespace Sys2Proof.Machine

/-- Twelve words make the Processor State; the others do not matter (R34). -/
theorem ProcState.ofWords_congr (l : Ps1Layout) {t u : Nat → Word} (h : ∀ k, k < 12 → t k = u k) :
    ProcState.ofWords l t = ProcState.ofWords l u := by
  simp [ProcState.ofWords, h]

/-! ### LDST -/

theorem ldstBody_of {addr : Word} {words : List Word} {s s2 s3 : State} (hk : s.cpu.ps1.ku = true)
    (hr : memRead .word .read s.cpu.sp s = .ok (addr, s2))
    (hb : readBlock addr 12 s2 = .ok (words, s3)) :
    ldstBody s = .ok ((), s3.install (fun k => words.getD k 0)) := by
  rw [ldstBody, bind_of_ok (privileged_kernel hk), bind_of_ok ((topOfStack_apply s).trans hr),
    bind_of_ok hb, update_apply]

/-- LDST completes with the state that the words it read make, if they clear the stack limit (R190). -/
theorem exec_ldst_of {addr : Word} {words : List Word} {s s1 s2 s3 : State} (hk : s.cpu.ps1.ku = true)
    (hf : Fetches s s1) (hr : memRead .word .read s1.cpu.sp s1 = .ok (addr, s2))
    (hb : readBlock addr 12 s2 = .ok (words, s3))
    (hc : StackClear .loadsState s
      { s3 with cpu := ProcState.ofWords s.cfg.ps1Layout (fun k => words.getD k 0) }) :
    exec .ldst s = .next
      { s3 with cpu := ProcState.ofWords s.cfg.ps1Layout (fun k => words.getD k 0) } := by
  have hcfg : s3.cfg = s.cfg :=
    (readBlock_cfg hb).trans ((memRead_kept hr).system.cfg.trans hf.cfg)
  rw [← hcfg] at hc ⊢
  exact transact_completes hf (ldstBody_of (hf.ku.trans hk) hr hb) hc

/-- Settles O39: the first clause is the chain of LDST's parts; the second is the first with every access
direct. -/
theorem loadState : Obligations.LoadState := by
  refine ⟨fun addr words s s1 s2 s3 hk hf hr hb hc => exec_ldst_of hk hf hr hb hc, ?_⟩
  intro s hk hf hd addr hblock block t hc
  have top := memRead_top_direct hd (s.cpu.pc + 2)
  have words := readBlock_direct 12 (fun k hlt => (hblock k hlt).setReg .pc (s.cpu.pc + 2))
  have result : t = { s.setReg .pc (s.cpu.pc + 2) with
      cpu := ProcState.ofWords s.cfg.ps1Layout
        (fun k => ((List.range 12).map block).getD k 0) } := by
    have same : ∀ k, k < 12 → block k = ((List.range 12).map block).getD k 0 := by
      intro k hlt
      simp [List.getD_eq_getElem?_getD, hlt]
    rw [← ProcState.ofWords_congr _ same]
    rfl
  rw [result] at hc ⊢
  exact exec_ldst_of hk hf.fetches top words hc

/-! ### STST -/

theorem ststBody_of {addr : Word} {s s2 t : State} (hk : s.cpu.ps1.ku = true)
    (hr : memRead .word .read s.cpu.sp s = .ok (addr, s2))
    (hw : writeBlock addr (s2.cpu.words s2.cfg.ps1Layout) s2 = .ok ((), t)) :
    ststBody s = .ok ((), t) := by
  rw [ststBody, bind_of_ok (privileged_kernel hk), bind_of_ok ((topOfStack_apply s).trans hr),
    bind_of_ok (peek_apply _ s2), hw]

/-- STST completes with the Processor State stored, PC at the next word, if the stack is clear (R191). -/
theorem exec_stst_of {addr : Word} {s s1 s2 t : State} (hk : s.cpu.ps1.ku = true) (hf : Fetches s s1)
    (hr : memRead .word .read s1.cpu.sp s1 = .ok (addr, s2))
    (hw : writeBlock addr (({ s.cpu with pc := s.cpu.pc + 2 } : ProcState).words s.cfg.ps1Layout) s2 =
      .ok ((), t))
    (hc : StackClear (.ordinary false) s t) : exec .stst s = .next t := by
  have hcfg : s2.cfg = s.cfg := (memRead_kept hr).system.cfg.trans hf.cfg
  have hcpu : s2.cpu = { s.cpu with pc := s.cpu.pc + 2 } := (memRead_cpu hr).trans hf.cpu
  rw [← hcpu, ← hcfg] at hw
  exact transact_completes hf (ststBody_of (hf.ku.trans hk) hr hw) hc

/-- Settles O40: the first clause is the chain of STST's parts; the second is the first with every access
direct, and what memory holds after a block is stored. -/
theorem storeState : Obligations.StoreState := by
  refine ⟨fun addr s s1 s2 t hk hf hr hw hc => exec_stst_of hk hf hr hw hc, ?_⟩
  intro s hwf hk hf hd addr heven hfits hsize hc
  let words := ({ s.cpu with pc := s.cpu.pc + 2 } : ProcState).words s.cfg.ps1Layout
  have hlen : words.length = 12 := rfl
  have top := memRead_top_direct hd (s.cpu.pc + 2)
  obtain ⟨t, hw, hcpu, hcfg, hmem⟩ := writeBlock_direct words (p := addr.toNat)
    (s := s.setReg .pc (s.cpu.pc + 2)) (by omega)
    (fun k hlt => (hd.block heven hfits hsize (by omega)).setReg _ _)
  rw [BitVec.ofNat_toNat, BitVec.setWidth_eq] at hw
  have hend : t.cpu = { s.cpu with pc := s.cpu.pc + 2 } := hcpu
  refine ⟨t, exec_stst_of hk hf.fetches top hw (hc.of_same hcfg ?_ ?_), hend, ?_, ?_⟩
  · rw [hend]
  · rw [hend]
  · intro k hlt
    rw [hmem, hend, State.setReg_mem, Memory.readWord_writeWords words s.mem addr.toNat k hwf (by omega)]
    exact (List.getD_eq_getElem words 0 (by omega)).symm
  · intro a ha
    rw [hmem, State.setReg_mem]
    exact Memory.read_writeWords_apart words s.mem addr.toNat a hwf (by omega)

end Sys2Proof.Machine

/-! PROOFS. The state after reset: the example's configuration, empty memory, idle controllers and heads at
track 0, which are the model's choice (log entries 1, 2, 5 and 6), and the values of R40. -/

namespace Sys2Proof.Machine

/-- Operations in progress are as they have to be where there are none. -/
theorem State.opsWf_of_idle {s : State} (h : ∀ k : Fin 15, s.io.ctl[k].busy = none) : s.opsWf = true := by
  simp only [State.opsWf, List.all_eq_true]
  intro d _
  have idle : s.io.ctl[d.slot].busy = none := h d.slot
  rw [idle]
  rfl

/-- Heads at track 0 stand on a track that exists. -/
theorem State.headsWf_of_zero {s : State} (h : ∀ d ∈ s.io.disks.toList, d.head = 0) : s.headsWf = true := by
  simp only [State.headsWf, List.all_eq_true, decide_eq_true_eq]
  exact fun d hd => by rw [h d hd]; exact Nat.zero_le _

/-- The example's configuration is one of CHIP's (log entries 1 and 2). -/
theorem Config.default_wf : Config.default.wf = true := by decide

theorem State.reset_ctl (k : Fin 15) : State.reset.io.ctl[k] = DevCtl.idle := by
  simp [State.reset, Io.fresh]

theorem State.reset_heads : ∀ d ∈ State.reset.io.disks.toList, d.head = 0 := by
  simp [State.reset, Io.fresh]

/-- Settles O50: nothing is in memory, no operation is in progress, and every head is at track 0. -/
theorem resetInvariant : Obligations.ResetInvariant where
  cfg := Config.default_wf
  canonical := State.reset_mem_wf
  bounded := rfl
  ops := State.opsWf_of_idle (fun k => by rw [State.reset_ctl]; rfl)
  heads := State.headsWf_of_zero State.reset_heads

/-- SP after IPL is MEMSIZE, where a word can hold it (R401). -/
theorem ProcState.afterIpl_sp {memsize : Nat} (h : memsize < 2 ^ 16) :
    (ProcState.afterIpl memsize).sp.toNat = memsize := by
  simp only [ProcState.afterIpl, BitVec.toNat_ofNat, Nat.mod_eq_of_lt h]

/-- STL after IPL is MEMSIZE less 512 (R401). -/
theorem ProcState.afterIpl_stl {memsize : Nat} (h : memsize < 2 ^ 16) :
    (ProcState.afterIpl memsize).stl.toNat = memsize - 512 := by
  simp only [ProcState.afterIpl, BitVec.toNat_ofNat]
  exact Nat.mod_eq_of_lt (by omega)

/-- The registers R0 to R5 are 0 after IPL (R40). -/
theorem ProcState.afterIpl_reg {memsize : Nat} {r : Reg} (h : r ≠ .sp) (h' : r ≠ .pc) :
    (ProcState.afterIpl memsize).reg r = 0 := by
  cases r
  case sp => exact absurd rfl h
  case pc => exact absurd rfl h'
  all_goals rfl

/-- Settles O51: the values of the Processor State after IPL at the example's MEMSIZE, and those of the
registers beside it. -/
theorem resetValues : Obligations.ResetValues := by
  have small : Config.default.memsize < 2 ^ 16 := by decide
  refine ⟨rfl, ProcState.afterIpl_sp small, ProcState.afterIpl_stl small, rfl, rfl, rfl, rfl, rfl, ?_,
    rfl, rfl, rfl, rfl, rfl⟩
  intro r hr
  have general : r ≠ .sp ∧ r ≠ .pc := by constructor <;> rintro rfl <;> simp at hr
  exact ProcState.afterIpl_reg general.1 general.2

end Sys2Proof.Machine

/-! PROOFS. The slots of the devices, and one controller replaced. -/

namespace Sys2Proof.Machine

/-- Every slot is that of its device (R360). -/
@[simp] theorem Dev.slot_ofSlot (k : Fin 15) : (Dev.ofSlot k).slot = k := by
  revert k; decide

@[simp] theorem Dev.ofSlot_slot (d : Dev) : Dev.ofSlot d.slot = d := by
  cases d with
  | terminal i => revert i; decide
  | printer i => revert i; decide
  | disk i => revert i; decide
  | drum i => revert i; decide

/-- Two devices have two slots (R360). -/
theorem Dev.slot_ne {d e : Dev} (h : e ≠ d) : e.slot ≠ d.slot := fun he => by
  rw [← Dev.ofSlot_slot e, he, Dev.ofSlot_slot] at h
  exact h rfl

/-- The controllers after one is replaced. -/
theorem State.setCtl_ctl (s : State) (d : Dev) (c : DevCtl) (k : Fin 15) :
    (s.setCtl d c).io.ctl[k] = if k = d.slot then c else s.io.ctl[k] := by
  simp only [State.setCtl, Fin.getElem_fin, Vector.getElem_set, Fin.ext_iff, eq_comm]

@[simp] theorem State.setCtl_ctl_same (s : State) (d : Dev) (c : DevCtl) :
    (s.setCtl d c).io.ctl[d.slot] = c := by
  rw [State.setCtl_ctl, if_pos rfl]

theorem State.setCtl_ctl_other (s : State) (d : Dev) (c : DevCtl) {k : Fin 15} (h : k ≠ d.slot) :
    (s.setCtl d c).io.ctl[k] = s.io.ctl[k] := by
  rw [State.setCtl_ctl, if_neg h]

/-- The device registers lie from 01400 to 01757 (R360). -/
theorem Dev.base_bounds (d : Dev) : 0o1400 ≤ d.base ∧ d.base + 16 ≤ 0o1760 := by
  have := d.slot.isLt
  simp only [Dev.base]
  omega

end Sys2Proof.Machine

/-! PROOFS. One byte of a transfer moved: what it does to the controller, and what any number of them leave of
the machine. -/

namespace Sys2Proof.Machine

/-- The operation with another record of the bytes moved. -/
def DevOp.record (op : DevOp) (moved : List (Nat × Byte)) : DevOp := { op with moved := moved }

@[simp] theorem DevOp.record_code (op : DevOp) (moved : List (Nat × Byte)) :
    (op.record moved).code = op.code := rfl

@[simp] theorem DevOp.record_arg (op : DevOp) (moved : List (Nat × Byte)) :
    (op.record moved).arg = op.arg := rfl

@[simp] theorem DevOp.record_buf (op : DevOp) (moved : List (Nat × Byte)) :
    (op.record moved).buf = op.buf := rfl

@[simp] theorem DevOp.record_failure (op : DevOp) (moved : List (Nat × Byte)) :
    (op.record moved).failure = op.failure := rfl

@[simp] theorem DevOp.record_moved (op : DevOp) (moved : List (Nat × Byte)) :
    (op.record moved).moved = moved := rfl

@[simp] theorem DevOp.record_record (op : DevOp) (moved moved' : List (Nat × Byte)) :
    (op.record moved).record moved' = op.record moved' := rfl

@[simp] theorem DevOp.record_self (op : DevOp) : op.record op.moved = op := rfl

@[simp] theorem DevOp.record_wf (op : DevOp) (moved : List (Nat × Byte)) (g : Config) (d : Dev) :
    (op.record moved).wf g d = op.wf g d := rfl

/-- The controller with an operation in progress. -/
def DevCtl.running (c : DevCtl) (op : DevOp) : DevCtl := { c with busy := some op }

@[simp] theorem DevCtl.running_busy (c : DevCtl) (op : DevOp) : (c.running op).busy = some op := rfl

@[simp] theorem DevCtl.running_running (c : DevCtl) (op op' : DevOp) :
    (c.running op).running op' = c.running op' := rfl

theorem DevCtl.running_self {c : DevCtl} {op : DevOp} (h : c.busy = some op) : c.running op = c := by
  simp only [DevCtl.running, ← h]

/-- A byte that has not been moved is put where it goes, and recorded (R112). -/
theorem State.moveByte_of_unmoved {s : State} {d : Dev} {op : DevOp} {j : Nat}
    (hb : s.io.ctl[d.slot].busy = some op) (hj : ∀ m ∈ op.moved, m.1 ≠ j) :
    s.moveByte d j = (s.placeByte d op j (s.transferByte d op j)).setCtl d
      ((s.io.ctl[d.slot]).running (op.record ((j, s.transferByte d op j) :: op.moved))) := by
  have hany : op.moved.any (fun m => m.1 == j) = false := by
    simpa only [List.any_eq_false, beq_iff_eq] using hj
  simp only [State.moveByte, hb, hany, Bool.false_eq_true, if_false, DevCtl.running, DevOp.record]

/-- A byte is moved once. -/
theorem State.moveByte_cases {s : State} {d : Dev} {op : DevOp} (j : Nat)
    (hb : s.io.ctl[d.slot].busy = some op) :
    s.moveByte d j = s ∨
      s.moveByte d j = (s.placeByte d op j (s.transferByte d op j)).setCtl d
        ((s.io.ctl[d.slot]).running (op.record ((j, s.transferByte d op j) :: op.moved))) := by
  by_cases hj : ∀ m ∈ op.moved, m.1 ≠ j
  · exact .inr (State.moveByte_of_unmoved hb hj)
  · have hany : op.moved.any (fun m => m.1 == j) = true := by
      simpa only [List.any_eq_true, beq_iff_eq, not_forall, not_not, exists_prop] using hj
    exact .inl (by simp only [State.moveByte, hb, hany, if_true])

/-- The length and the bytes of a transfer do not depend on the record. -/
@[simp] theorem State.transferLength_record (s : State) (d : Dev) (op : DevOp)
    (moved : List (Nat × Byte)) : s.transferLength d (op.record moved) = s.transferLength d op := rfl

@[simp] theorem State.transferByte_record (s : State) (d : Dev) (op : DevOp) (moved : List (Nat × Byte))
    (j : Nat) : s.transferByte d (op.record moved) j = s.transferByte d op j := rfl

@[simp] theorem State.placeByte_record (s : State) (d : Dev) (op : DevOp) (moved : List (Nat × Byte))
    (j : Nat) (b : Byte) : s.placeByte d (op.record moved) j b = s.placeByte d op j b := rfl

/-- What moving bytes of a device's operation leaves of the machine: all but memory and the devices, the host
files, the heads, the other controllers, and its own but for the record. -/
structure MovesOf (d : Dev) (op : DevOp) (s t : State) : Prop where
  devices : DevicesOnly s t
  terms : t.io.terms = s.io.terms
  prints : t.io.prints = s.io.prints
  heads : ∀ i : Fin 4, t.io.disks[i].head = s.io.disks[i].head
  own : ∃ moved, t.io.ctl[d.slot] = (s.io.ctl[d.slot]).running (op.record moved)
  others : ∀ k : Fin 15, k ≠ d.slot → t.io.ctl[k] = s.io.ctl[k]

theorem MovesOf.refl {s : State} {d : Dev} {op : DevOp} (hb : s.io.ctl[d.slot].busy = some op) :
    MovesOf d op s s :=
  ⟨.refl s, rfl, rfl, fun _ => rfl, ⟨op.moved, by rw [DevOp.record_self, DevCtl.running_self hb]⟩,
    fun _ _ => rfl⟩

theorem MovesOf.busy {s t : State} {d : Dev} {op : DevOp} (h : MovesOf d op s t) :
    ∃ moved, t.io.ctl[d.slot].busy = some (op.record moved) := by
  obtain ⟨moved, hown⟩ := h.own
  exact ⟨moved, by rw [hown, DevCtl.running_busy]⟩

theorem MovesOf.moveByte {s t : State} {d : Dev} {op : DevOp} (h : MovesOf d op s t) (j : Nat) :
    MovesOf d op s (t.moveByte d j) := by
  obtain ⟨moved, hown⟩ := h.own
  have hb : t.io.ctl[d.slot].busy = some (op.record moved) := by rw [hown, DevCtl.running_busy]
  rcases State.moveByte_cases j hb with e | e <;> rw [e]
  · exact h
  · obtain ⟨hterms, hprints, hctl, hheads⟩ :=
      State.placeByte_io t d (op.record moved) j (t.transferByte d (op.record moved) j)
    refine ⟨h.devices.trans ((DevicesOnly.placeByte _ _ _ _ _).trans (.setCtl _ _ _)), hterms.trans h.terms,
      hprints.trans h.prints, fun i => (hheads i).trans (h.heads i),
      ⟨(j, t.transferByte d op j) :: moved, ?_⟩, fun k hk => ?_⟩
    · rw [State.setCtl_ctl_same, hown]; rfl
    · rw [State.setCtl_ctl_other _ _ _ hk, hctl, h.others k hk]

theorem MovesOf.moveBytes {s : State} {d : Dev} {op : DevOp} (hb : s.io.ctl[d.slot].busy = some op)
    (now : Nat → Bool) (n : Nat) : MovesOf d op s (s.moveBytes d now n) := by
  induction n with
  | zero => exact .refl hb
  | succ n ih =>
    simp only [State.moveBytes]
    split
    · exact ih.moveByte n
    · exact ih

theorem MovesOf.transferLength {s t : State} {d : Dev} {op : DevOp} (h : MovesOf d op s t) :
    t.transferLength d op = s.transferLength d op :=
  State.transferLength_congr h.devices.cfg h.terms d op op rfl

end Sys2Proof.Machine

/-! PROOFS. The invariant of the machine: what it asks of a state, and which of its parts each change of memory
and of the devices touches. -/

namespace Sys2Proof.Machine

/-- What the proofs use of a configuration that CHIP admits (D9, section P). -/
theorem Config.wf_bounds {g : Config} (h : g.wf = true) :
    g.memsize % 512 = 0 ∧ 0o3000 ≤ g.memsize ∧ g.deviceCheckOrder.Perm Config.checkOrderDefault := by
  simp only [Config.wf, Bool.and_eq_true, beq_iff_eq, decide_eq_true_eq, List.isPerm_iff] at h
  obtain ⟨⟨⟨⟨⟨⟨⟨⟨⟨⟨⟨hpage, hmin⟩, -⟩, -⟩, -⟩, -⟩, -⟩, -⟩, -⟩, -⟩, -⟩, hperm⟩ := h
  exact ⟨hpage, hmin, hperm⟩

theorem State.opsWf_iff (s : State) :
    s.opsWf = true ↔ ∀ (d : Dev) (op : DevOp), s.io.ctl[d.slot].busy = some op → op.wf s.cfg d = true := by
  simp only [State.opsWf, List.all_eq_true]
  constructor
  · intro h d op hb
    simpa only [hb, Option.all_some] using h d d.mem_all
  · intro h d _
    cases hb : s.io.ctl[d.slot].busy with
    | none => rfl
    | some op => exact h d op hb

theorem State.headsWf_iff (s : State) :
    s.headsWf = true ↔ ∀ i : Fin 4, s.io.disks[i].head ≤ s.cfg.uptrack := by
  simp only [State.headsWf, List.all_eq_true, decide_eq_true_eq]
  constructor
  · exact fun h i => h _ (by simp)
  · intro h d hd
    obtain ⟨i, hi, rfl⟩ := List.mem_iff_getElem.1 hd
    simp only [Vector.length_toList] at hi
    exact h ⟨i, hi⟩

/-- The invariant speaks of the configuration, memory and the devices alone. -/
theorem State.Inv.congr {s t : State} (h : s.Inv) (hcfg : t.cfg = s.cfg) (hmem : t.mem = s.mem)
    (hio : t.io = s.io) : t.Inv where
  cfg := by rw [hcfg]; exact h.cfg
  canonical := by rw [hmem]; exact h.canonical
  bounded := by rw [hmem, hcfg]; exact h.bounded
  ops := by simp only [State.opsWf, hio, hcfg]; exact h.ops
  heads := by simp only [State.headsWf, hio, hcfg]; exact h.heads

/-- Memory replaced by another canonical one below MEMSIZE. -/
theorem State.Inv.withMem {s : State} (h : s.Inv) {m : Memory} (hwf : m.wf = true)
    (hbelow : m.below s.cfg.memsize = true) : ({ s with mem := m } : State).Inv :=
  ⟨h.cfg, hwf, hbelow, h.ops, h.heads⟩

/-- The devices replaced by others with operations and heads in range. -/
theorem State.Inv.withIo {s : State} (h : s.Inv) {io : Io}
    (hops : ∀ (d : Dev) (op : DevOp), io.ctl[d.slot].busy = some op → op.wf s.cfg d = true)
    (hheads : ∀ i : Fin 4, io.disks[i].head ≤ s.cfg.uptrack) : ({ s with io := io } : State).Inv :=
  ⟨h.cfg, h.canonical, h.bounded, (State.opsWf_iff _).2 hops, (State.headsWf_iff _).2 hheads⟩

theorem State.Inv.op {s : State} (h : s.Inv) {d : Dev} {op : DevOp}
    (hb : s.io.ctl[d.slot].busy = some op) : op.wf s.cfg d = true := (State.opsWf_iff s).1 h.ops d op hb

theorem State.Inv.head {s : State} (h : s.Inv) (i : Fin 4) : s.io.disks[i].head ≤ s.cfg.uptrack :=
  (State.headsWf_iff s).1 h.heads i

/-- A word stored at a device register or in a trap area lies below MEMSIZE (D9). -/
theorem State.Inv.writeWord {s : State} (h : s.Inv) {a : Nat} (v : Word) (ha : a + 1 < s.cfg.memsize) :
    ({ s with mem := s.mem.writeWord a v } : State).Inv :=
  h.withMem (Memory.writeWord_wf _ _ _ h.canonical) (Memory.writeWord_below _ _ _ _ h.bounded ha)

theorem State.Inv.setCtl {s : State} (h : s.Inv) (d : Dev) (c : DevCtl)
    (hc : ∀ op, c.busy = some op → op.wf s.cfg d = true) : (s.setCtl d c).Inv := by
  refine h.withIo (fun e op hb => ?_) h.head
  by_cases he : e = d
  · subst he
    exact hc op (by rw [← hb]; exact congrArg DevCtl.busy (State.setCtl_ctl_same s e c).symm)
  · refine h.op ?_
    rw [← State.setCtl_ctl_other s d c (Dev.slot_ne he)]
    exact hb

end Sys2Proof.Machine

/-! PROOFS. The controllers' share of a step keeps the invariant. -/

namespace Sys2Proof.Machine

theorem State.Inv.writeSector {s : State} (h : s.Inv) (sector j : Nat) (b : Byte) (d : Dev) :
    (s.writeSector sector j b d).Inv := by
  cases d with
  | terminal i => exact h
  | printer i => exact h
  | drum i => exact h.withIo (fun _ _ => h.op) h.head
  | disk k =>
    refine h.withIo (fun _ _ => h.op) (fun i => ?_)
    have := h.head i
    have := h.head k
    simp only [Fin.getElem_fin, Vector.getElem_set] at *
    split <;> assumption

theorem State.Inv.placeByte {s : State} (h : s.Inv) {d : Dev} {op : DevOp} {j : Nat} (b : Byte)
    (hop : op.wf s.cfg d = true) (hj : j < s.transferLength d op) : (s.placeByte d op j b).Inv := by
  have store (hk : d.opKind op.code = some .sectorRead ∨ d.opKind op.code = some .lineRead) :
      ({ s with mem := s.mem.write (op.buf.toNat + j) b } : State).Inv := by
    refine h.withMem (Memory.write_wf _ _ _ h.canonical) (Memory.write_below _ _ _ _ h.bounded ?_)
    rcases State.transfer_fits hk hop with h0 | hfit <;> omega
  unfold State.placeByte
  split
  · next hk => exact store (.inl hk)
  · next hk => exact store (.inr hk)
  · exact h.writeSector _ _ _ _
  · exact h

/-- Moving bytes of a checked operation keeps the invariant, whether the operation has begun or not. -/
theorem State.Inv.moveBytes {s : State} (h : s.Inv) {d : Dev} {op : DevOp}
    (hb : s.io.ctl[d.slot].busy = some op) (now : Nat → Bool) (n : Nat)
    (hn : n ≤ s.transferLength d op) : (s.moveBytes d now n).Inv := by
  induction n with
  | zero => exact h
  | succ n ih =>
    have hi := ih (by omega)
    have hmoves := MovesOf.moveBytes hb now n
    obtain ⟨moved, hbusy⟩ := hmoves.busy
    have hwf := hi.op hbusy
    simp only [State.moveBytes]
    split
    · rcases State.moveByte_cases n hbusy with e | e <;> rw [e]
      · exact hi
      · refine (hi.placeByte _ hwf (by rw [State.transferLength_record, hmoves.transferLength]; omega)).setCtl
          _ _ ?_
        rw [(DevicesOnly.placeByte _ _ _ _ _).cfg]
        rintro op' ⟨⟩
        exact hwf
    · exact hi

theorem State.Inv.moveSome {s : State} (h : s.Inv) (draw : Nat) (d : Dev) : (s.moveSome draw d).Inv :=
  (Moves.moveSome draw s d).inv h

theorem State.Inv.emit {s : State} (h : s.Inv) (bytes : List Byte) (d : Dev) : (s.emit bytes d).Inv := by
  cases d with
  | terminal i => exact h.withIo (fun _ _ => h.op) h.head
  | printer i => exact h.withIo (fun _ _ => h.op) h.head
  | disk i => exact h
  | drum i => exact h

theorem State.Inv.setInputPos {s : State} (h : s.Inv) (pos : Nat) (d : Dev) : (s.setInputPos pos d).Inv := by
  cases d with
  | terminal i => exact h.withIo (fun _ _ => h.op) h.head
  | printer i => exact h
  | disk i => exact h
  | drum i => exact h

theorem State.Inv.setHead {s : State} (h : s.Inv) {track : Nat} (ht : track ≤ s.cfg.uptrack) (d : Dev) :
    (s.setHead track d).Inv := by
  cases d with
  | terminal i => exact h
  | printer i => exact h
  | drum i => exact h
  | disk k =>
    refine h.withIo (fun _ _ => h.op) (fun i => ?_)
    have := h.head i
    simp only [Fin.getElem_fin, Vector.getElem_set] at *
    split <;> assumption

/-- A checked seek goes to a track that exists (R366, R371). -/
theorem DevOp.seek_in_range {g : Config} {d : Dev} {op : DevOp} (h : op.wf g d = true)
    (hf : op.failure = none) (hk : d.opKind op.code = some .seek) : op.arg.toNat ≤ g.uptrack := by
  simp only [DevOp.wf, hf, hk, Bool.and_eq_true, OpKind.argumentStatus] at h
  by_contra hgt
  rw [if_pos (by omega)] at h
  simp at h

/-- The device registers lie below the least MEMSIZE (R360, D9). -/
theorem State.Inv.registers {s : State} (h : s.Inv) (d : Dev) : d.base + 8 ≤ s.cfg.memsize := by
  have := Dev.base_bounds d
  have := (Config.wf_bounds h.cfg).2.1
  omega

theorem State.Inv.finishOp {s : State} (h : s.Inv) {d : Dev} {op : DevOp} (hop : op.wf s.cfg d = true) :
    (s.finishOp d op).1.Inv := by
  unfold State.finishOp
  split
  · exact h
  · next hf =>
    split
    · next hk => exact h.setHead (DevOp.seek_in_range hop hf hk) d
    · exact h.emit _ _
    · have := h.registers d
      exact (h.writeWord _ (by simp only [Dev.argAddr]; omega)).setInputPos _ _
    · exact h

theorem State.Inv.completeOp {s : State} (h : s.Inv) (d : Dev) : (s.completeOp d).Inv := by
  unfold State.completeOp
  cases hb : s.io.ctl[d.slot].busy with
  | none => exact h
  | some op =>
    have hi := h.moveBytes hb (fun _ => true) _ (Nat.le_refl _)
    obtain ⟨moved, hbusy⟩ := (MovesOf.moveBytes hb (fun _ => true) (s.transferLength d op)).busy
    have hdone := hi.finishOp (hi.op hbusy)
    have := hdone.registers d
    dsimp only
    rw [hbusy, Option.getD_some]
    exact (hdone.writeWord _ (by simp only [Dev.statusAddr]; omega)).setCtl d _ (by rintro op' ⟨⟩)

theorem State.Inv.pollDevice {s : State} (h : s.Inv) (d : Dev) : (s.pollDevice d).Inv := by
  unfold State.pollDevice
  split
  · exact h
  · split
    · exact h.completeOp d
    · exact h.moveSome _ d

theorem State.Inv.pollDevices {s : State} (h : s.Inv) : s.pollDevices.Inv := by
  unfold State.pollDevices
  generalize Dev.all = ds
  induction ds generalizing s with
  | nil => exact h
  | cons d ds ih => exact ih (h.pollDevice d)

end Sys2Proof.Machine

/-! PROOFS. Instructions, entries and the passing of time keep the invariant. -/

namespace Sys2Proof.Machine

/-- A check in `DEVICE_CHECK_ORDER` that fails fails the request (R366). -/
theorem checkStatus_of_accepted {g : Config} {io : Io} {d : Dev} {n : Nat} {code arg buf : Word}
    (h : requestStatus g io d n code arg buf = none) {c : DeviceCheck} (hc : c ∈ g.deviceCheckOrder) :
    checkStatus g io d n code arg buf c = none := by
  simpa using List.findSome?_eq_none_iff.1 h c hc

/-- An operation just started has been checked (R366). -/
theorem DevCtl.start_wf {g : Config} (hg : g.wf = true) (mem : Memory) (io : Io) (d : Dev) (c : DevCtl)
    (op : DevOp) (h : (DevCtl.start g mem io d c).busy = some op) : op.wf g d = true := by
  obtain ⟨-, -, hperm⟩ := Config.wf_bounds hg
  simp only [DevCtl.start, Option.some.injEq] at h
  subst h
  simp only [DevOp.wf]
  split
  · next kind hf hk =>
    have hbuf := checkStatus_of_accepted hf (c := .invalidBuffer) (hperm.mem_iff.2 (by decide))
    have harg := checkStatus_of_accepted hf (c := .invalidArgument) (hperm.mem_iff.2 (by decide))
    simp only [checkStatus, hk, Option.bind_some] at hbuf harg
    simpa [harg] using hbuf
  · rfl

theorem State.Inv.startDevice {s : State} (h : s.Inv) (d : Dev) : (s.startDevice d).Inv :=
  h.setCtl d _ (DevCtl.start_wf h.cfg _ _ _ _)

/-- An aligned store below MEMSIZE stays below it, its second byte included (D9). -/
theorem State.Inv.storeMem {s : State} (h : s.Inv) {pa : Word} {size : Size} (v : BitVec size.bits)
    (hlt : pa.toNat < s.cfg.memsize) (ha : misaligned size pa = false) : (s.storeMem pa size v).Inv := by
  cases size with
  | byte => exact h.withMem (Memory.write_wf _ _ _ h.canonical) (Memory.write_below _ _ _ _ h.bounded hlt)
  | word =>
    obtain ⟨hpage, -, -⟩ := Config.wf_bounds h.cfg
    simp only [misaligned, BitVec.getLsbD, Nat.testBit_zero, decide_eq_false_iff_not] at ha
    exact h.writeWord v (by omega)

theorem State.Inv.store {s : State} (h : s.Inv) {pa : Word} {size : Size} (v : BitVec size.bits)
    (hlt : pa.toNat < s.cfg.memsize) (ha : misaligned size pa = false) : (s.store pa size v).Inv := by
  unfold State.store
  split
  · exact h.storeMem v hlt ha
  · exact (h.storeMem v hlt ha).startDevice _

/-- The second state meets the invariant if the first does. -/
def KeepsInv (s t : State) : Prop := s.Inv → t.Inv

/-- Keeping the invariant is a relation that ordinary instructions stay within. -/
theorem KeepsInv.closed : Closed KeepsInv where
  refl _ h := h
  trans h k hi := k (h hi)
  setReg _ _ _ h := h.congr rfl rfl rfl
  setCc _ _ h := h.congr rfl rfl rfl
  race s h := (Moves.race s).inv h
  store _ _ _ v hlt ha h := h.store v hlt ha

/-- An entry into an area that lies below the least MEMSIZE (R310, D9). -/
theorem State.Inv.enter {s : State} (h : s.Inv) {area : Nat} (code : Word) (ha : area + 24 ≤ 0o3000) :
    (s.enter area code).Inv := by
  have := (Config.wf_bounds h.cfg).2.1
  exact ⟨h.cfg, enter_wf s _ _ h.canonical, enter_below s _ _ s.cfg.memsize h.bounded (by omega), h.ops, h.heads⟩

theorem State.Inv.takeTrap {s : State} (h : s.Inv) (trap : Trap) : (s.takeTrap trap).Inv :=
  h.enter _ (by cases trap <;> simp [Trap.area])

theorem State.Inv.meanwhile {s : State} (h : s.Inv) (draw : Nat) : (s.meanwhile draw).Inv :=
  (Moves.meanwhile s draw).inv h

theorem State.Inv.abandon {s : State} (h : s.Inv) (a : Abort) : (s.abandon a).Inv := by
  cases a with
  | trap t draw => exact (h.meanwhile draw).takeTrap t
  | suspect draw => exact (h.meanwhile draw).congr rfl rfl rfl

/-- However an instruction ends, the invariant holds if its completion keeps it. -/
theorem State.Inv.ends {s t : State} (h : s.Inv) (he : Ends (KeepsInv s) s t) : t.Inv := by
  rcases he with hdone | ⟨trap, draw, rfl⟩ | ⟨u, hu, rfl⟩ | ⟨draw, rfl⟩
  · exact hdone h
  · exact (h.meanwhile draw).takeTrap trap
  · exact (hu h).takeTrap _
  · exact (h.meanwhile draw).congr rfl rfl rfl

/-- A part that keeps the invariant, and then a change of registers, IT or the run state. -/
theorem KeepsInv.load {α : Type} {m : Exec α} (f : α → State → State) (hm : Preserves KeepsInv m)
    (hf : ∀ a u, (f a u).cfg = u.cfg ∧ (f a u).mem = u.mem ∧ (f a u).io = u.io) :
    Preserves KeepsInv (m >>= fun a => update (f a)) :=
  KeepsInv.closed.bind hm (fun a u _ v h hu => by
    cases h
    obtain ⟨hcfg, hmem, hio⟩ := hf a u
    exact hu.congr hcfg hmem hio)

theorem KeepsInv.haltBody : Preserves KeepsInv haltBody :=
  KeepsInv.load (fun _ s => s.stop .halt) closed.privileged (fun _ _ => ⟨rfl, rfl, rfl⟩)

theorem KeepsInv.ldstBody : Preserves KeepsInv ldstBody :=
  closed.bind closed.privileged (fun _ => closed.bind closed.topOfStack (fun addr =>
    KeepsInv.load (fun t s => s.install (fun k => t.getD k 0)) (closed.readBlock 12 addr)
      (fun _ _ => ⟨rfl, rfl, rfl⟩)))

theorem KeepsInv.lditBody : Preserves KeepsInv lditBody :=
  closed.bind closed.privileged (fun _ => closed.bind closed.topOfStack (fun addr =>
    closed.bind (closed.memRead .word .read addr) (fun hi =>
      KeepsInv.load (fun lo s => s.setIt (hi ++ lo)) (closed.memRead .word .read (addr + 2))
        (fun _ _ => ⟨rfl, rfl, rfl⟩))))

theorem KeepsInv.ldimBody : Preserves KeepsInv ldimBody :=
  closed.bind closed.privileged (fun _ =>
    KeepsInv.load (fun a s => s.setIntmask (a.extractLsb' 0 8)) closed.topOfStack
      (fun _ _ => ⟨rfl, rfl, rfl⟩))

theorem KeepsInv.ldstlBody : Preserves KeepsInv ldstlBody :=
  closed.bind closed.privileged (fun _ =>
    KeepsInv.load (fun a s => s.setStl a) closed.topOfStack (fun _ _ => ⟨rfl, rfl, rfl⟩))

theorem KeepsInv.sysBody (number : BitVec 8) : Preserves KeepsInv (sysBody number) := by
  intro s _ t h hs
  cases h
  exact hs.enter _ (by decide)

/-- Every instruction keeps the invariant: the ordinary ones by their four primitives, SYS by its entry, the
others because what they load is no part of it. -/
theorem State.Inv.exec {s t : State} (h : s.Inv) {i : Instr} (he : exec i s = .next t) : t.Inv := by
  refine h.ends ?_
  cases hi : ordinary i with
  | true => exact KeepsInv.closed.exec hi he
  | false =>
    cases i with
    | halt => exact KeepsInv.closed.transact KeepsInv.haltBody he
    | ldst => exact KeepsInv.closed.transact KeepsInv.ldstBody he
    | ldit => exact KeepsInv.closed.transact KeepsInv.lditBody he
    | ldim => exact KeepsInv.closed.transact KeepsInv.ldimBody he
    | ldstl => exact KeepsInv.closed.transact KeepsInv.ldstlBody he
    | sys number => exact KeepsInv.closed.transact (KeepsInv.sysBody number) he
    | _ => cases hi

theorem State.Inv.runInstruction {s t : State} (h : s.Inv) (hr : s.runInstruction = .next t) : t.Inv := by
  unfold State.runInstruction at hr
  split at hr
  · exact h.exec hr
  · cases hr; exact h.abandon _

/-- Time moves no operation's parameters (R350, R365). -/
theorem State.Inv.advance {s : State} (h : s.Inv) (dt : Nat) : (s.advance dt).Inv := by
  refine (h.withIo (io := (s.advance dt).io) (fun d op hb => ?_) h.head).congr rfl rfl rfl
  simp only [State.advance, Fin.getElem_fin, Vector.getElem_map, DevCtl.elapse,
    Option.map_eq_some_iff] at hb
  obtain ⟨op', hb', rfl⟩ := hb
  exact h.op (op := op') hb'

theorem State.Inv.tick {s : State} (h : s.Inv) : s.tick.Inv := (h.advance s.instrTime).congr rfl rfl rfl

theorem State.Inv.endStep {s : State} (h : s.Inv) : s.endStep.Inv := by
  unfold State.endStep
  split
  · exact h
  · dsimp only
    split <;> exact h.tick.congr rfl rfl rfl

theorem State.Inv.consoleCheck {s : State} (h : s.Inv) : s.consoleCheck.Inv := by
  unfold State.consoleCheck
  split
  · exact h.congr rfl rfl rfl
  · split <;> exact h.congr rfl rfl rfl

theorem State.Inv.waitStep {s : State} (h : s.Inv) : s.waitStep.Inv := by
  unfold State.waitStep
  split
  · exact (h.advance _).congr rfl rfl rfl
  · exact h.congr rfl rfl rfl

theorem State.Inv.clearPending {s : State} (h : s.Inv) (src : Source) : (s.clearPending src).Inv := by
  cases src with
  | clock => exact h.congr rfl rfl rfl
  | device d => exact h.setCtl d _ (fun _ hb => h.op hb)

theorem State.Inv.settleW {s : State} (h : s.Inv) : s.settleW.Inv := by
  unfold State.settleW
  split <;> exact h.congr rfl rfl rfl

theorem Source.level_le (src : Source) : src.level ≤ 5 := by
  rcases src with _ | d
  · exact Nat.le_refl 5
  · cases d <;> simp [Source.level, Dev.level]

theorem State.Inv.interrupt {s : State} (h : s.Inv) (src : Source) : (s.interrupt src).Inv := by
  have := src.level_le
  exact (h.clearPending src).settleW.enter _ (by simp only [interruptArea]; omega)

/-- What the CPU does in its part of a step keeps the invariant (R390). -/
theorem State.Inv.cpuStep {s t : State} (h : s.Inv) (hs : s.cpuStep = .next t) : t.Inv := by
  unfold State.cpuStep at hs
  split at hs
  · cases hs; exact (h.interrupt _).tick
  · split at hs
    · cases hs; exact h.waitStep
    · dsimp only at hs
      split at hs
      · cases hs; exact h.consoleCheck
      · cases hr : s.consoleCheck.runInstruction with
        | next u =>
          rw [hr] at hs
          cases hs
          exact (h.consoleCheck.runInstruction hr).endStep
        | fault f => rw [hr] at hs; cases hs
        | refused r => rw [hr] at hs; cases hs

/-- Settles O49: the controllers' share keeps the invariant, and so do an interrupt entry, the wait state and
an instruction with the time it takes. -/
theorem stepKeepsInvariant : Obligations.StepKeepsInvariant := by
  intro s t h hs
  rw [step, if_pos h.cfg, State.cycle] at hs
  split at hs
  · cases hs; exact h
  · cases hc : s.pollDevices.cpuStep with
    | next u =>
      rw [hc] at hs
      cases hs
      exact (h.pollDevices.cpuStep hc).congr rfl rfl rfl
    | fault f => rw [hc] at hs; cases hs
    | refused r => rw [hc] at hs; cases hs

end Sys2Proof.Machine

/-! PROOFS. The entry sequence of a trap (60_exceptions.md R311 to R322), and the traps of operands that are odd
or do not exist (R326, R328). -/

namespace Sys2Proof.Machine

/-! ### The entry sequence -/

theorem ProcState.words_length (l : Ps1Layout) (p : ProcState) : (p.words l).length = 12 := rfl

/-- The Old region receives the Processor State with the code in PS2 (R320, R322). -/
theorem State.enter_old (s : State) (area : Nat) (code : Word) (h : s.mem.wf = true) {k : Nat}
    (hk : k < 12) : (s.enter area code).mem.readWord (area + 2 * k) =
      (({ s.cpu with ps2 := code } : ProcState).words s.cfg.ps1Layout).getD k 0 := by
  rw [State.enter_mem, Memory.readWord_writeWords _ _ _ _ h (by rw [ProcState.words_length]; exact hk),
    List.getD_eq_getElem]

/-- The Processor State is loaded from the New region, which the Old one does not reach (R321). -/
theorem State.enter_cpu (s : State) (area : Nat) (code : Word) (h : s.mem.wf = true) :
    (s.enter area code).cpu =
      ProcState.ofWords s.cfg.ps1Layout (fun k => s.mem.readWord (area + 0o30 + 2 * k)) := by
  simp only [State.enter, State.loadState, State.install_cpu, State.storeState_cfg, State.storeState_mem]
  refine ProcState.ofWords_congr _ (fun k _ => ?_)
  exact Memory.readWord_writeWords_apart _ _ _ _ h (by rw [ProcState.words_length]; omega)

/-- The rest of memory stays (R320). -/
theorem State.enter_read (s : State) (area : Nat) (code : Word) (h : s.mem.wf = true) {a : Nat}
    (ha : a < area ∨ area + 24 ≤ a) : (s.enter area code).mem.read a = s.mem.read a := by
  rw [State.enter_mem, Memory.read_writeWords_apart _ _ _ _ h (by rw [ProcState.words_length]; exact ha)]

/-- The clocks, the devices and the rest of the machine stay (R322). -/
theorem State.enter_rest (s : State) (area : Nat) (code : Word) :
    s.enter area code =
      { s with cpu := (s.enter area code).cpu, mem := (s.enter area code).mem } := by
  simp only [State.enter, State.loadState, State.install, State.storeState]

/-- At the default layout segment and page number stand in the low byte as they do in the address (R91,
R98). -/
theorem vaSeg_vaPage_default (va : Word) :
    (vaSeg va).setWidth 8 <<< MmCodeLayout.default.seg ||| (vaPage va).setWidth 8 <<< MmCodeLayout.default.page =
      va.extractLsb' 9 8 := by
  apply BitVec.eq_of_getLsbD_eq
  intro i hi
  simp only [MmCodeLayout.default, vaSeg, vaPage, BitVec.getLsbD_or, BitVec.getLsbD_shiftLeft,
    BitVec.getLsbD_setWidth, BitVec.getLsbD_extractLsb', hi, decide_true, Bool.true_and, Nat.sub_zero,
    Nat.not_lt_zero, decide_false, Bool.not_false]
  by_cases hpage : i < 5
  · simp [hpage]
  · simp only [hpage, decide_false, Bool.not_false, Bool.true_and, Bool.false_and, Bool.or_false,
      show 14 + (i - 5) = 9 + i by omega]
    by_cases hseg : i < 7
    · simp [show i - 5 < 2 by omega, show i - 5 < 8 by omega]
    · simp [show ¬ i - 5 < 2 by omega, BitVec.getLsbD_of_ge va (9 + i) (by omega)]

/-- The code of a Memory Management trap at the default layout: the condition over va[15:9] (R98, R313). -/
theorem toNat_mmCode_default (code : BitVec 8) (va : Word) :
    (mmCode MmCodeLayout.default code va).toNat = code.toNat * 256 + va.toNat / 512 := by
  have hva := va.isLt
  have low : (va.extractLsb' 9 8).toNat = va.toNat / 512 := by
    rw [BitVec.extractLsb'_toNat, Nat.shiftRight_eq_div_pow, Nat.mod_eq_of_lt (by omega)]
  rw [mmCode, vaSeg_vaPage_default]
  change (code ++ va.extractLsb' 9 8 : BitVec (8 + 8)).toNat = _
  rw [BitVec.toNat_append, ← Nat.shiftLeft_add_eq_or_of_lt (va.extractLsb' 9 8).isLt, low,
    Nat.shiftLeft_eq]

theorem MmCode.toNat_number (c : MmCode) : c.number.toNat = mmNumber c := by cases c <;> rfl

/-- Settles O10: the parts of the entry sequence, and the area and the code of each category. -/
theorem entrySequence : Obligations.EntrySequence := by
  refine ⟨fun s area code h => ⟨fun k => s.enter_old area code h, s.enter_cpu area code h,
    fun a => s.enter_read area code h, s.enter_rest area code⟩, fun _ _ => rfl, fun c l => ⟨rfl, ?_⟩, fun c va => ⟨rfl, ?_⟩⟩
  · cases c <;> rfl
  · simp only [Trap.ps2, toNat_mmCode_default, MmCode.toNat_number]

/-! ### Odd addresses and addresses beyond MEMSIZE -/

/-- A word access at an odd address traps before any translation (R66, R326). -/
theorem resolve_odd {kind : Access} {va : Word} {s : State} (h : va.getLsbD 0 = true) :
    resolve .word kind va s = .error (.trap (.program .oddAddress) s.draw) := by
  simp only [resolve, misaligned, h, if_true]

theorem memRead_odd {kind : Access} {va : Word} {s : State} (h : va.getLsbD 0 = true) :
    memRead .word kind va s = .error (.trap (.program .oddAddress) s.race.draw) := by
  rw [memRead, instant_bind, bind_of_error (resolve_odd h)]

theorem memWrite_odd {va v : Word} {s : State} (h : va.getLsbD 0 = true) :
    memWrite .word va v s = .error (.trap (.program .oddAddress) s.race.draw) := by
  rw [memWrite, instant_bind, bind_of_error (resolve_odd h)]

/-- With mapping off an aligned address that no suspect watches is its own physical address (R85, R87). -/
theorem resolve_unmapped {size : Size} {kind : Access} {va : Word} {s : State}
    (ha : misaligned size va = false) (hs : s.suspected size kind va = false)
    (hm : s.cpu.ps1.m = false) : resolve size kind va s.race = .ok (va, s.race) :=
  resolve_ok.2 ⟨ha, by rwa [State.race_suspected], .inr ⟨by rwa [State.race_cpu], rfl, rfl⟩⟩

/-- With mapping off an access at or beyond MEMSIZE traps (R75, R328). -/
theorem memRead_beyond {size : Size} {kind : Access} {va : Word} {s : State} (hm : s.cpu.ps1.m = false)
    (hu : Unwatched s) (ha : misaligned size va = false) (hb : s.cfg.memsize ≤ va.toNat) :
    memRead size kind va s = .error (.trap (.program .nonexistentMemory) s.race.draw) := by
  rw [memRead, instant_bind, bind_of_ok (resolve_unmapped ha (hu.suspected _ _ _) hm), physRead,
    if_neg (by rw [State.race_cfg]; omega)]

theorem memWrite_beyond {size : Size} {va : Word} {v : BitVec size.bits} {s : State}
    (hm : s.cpu.ps1.m = false) (hu : Unwatched s) (ha : misaligned size va = false)
    (hb : s.cfg.memsize ≤ va.toNat) :
    memWrite size va v s = .error (.trap (.program .nonexistentMemory) s.race.draw) := by
  rw [memWrite, instant_bind, bind_of_ok (resolve_unmapped ha (hu.suspected _ _ _) hm), physWrite,
    if_neg (by rw [State.race_cfg]; omega)]

/-- An odd PC stops the fetch (R335 step 1). -/
theorem fetchWord_odd {s : State} (h : s.cpu.pc.getLsbD 0 = true) :
    fetchWord s = .error (.trap (.program .oddAddress) s.race.draw) := by
  exact (bind_of_ok (getReg_apply .pc s)).trans (bind_of_error (memRead_odd h))

/-- What an access that is given up leaves: what the controllers moved before it (R318, R107). -/
theorem State.abandon_race (s : State) (t : Trap) :
    s.abandon (.trap t s.race.draw) = s.race.takeTrap t := by
  rw [State.abandon, State.meanwhile_race]

/-- Settles O11: every instruction begins with the fetch. -/
theorem oddPcTraps : Obligations.OddPcTraps := by
  intro i s h
  have hf := fetchWord_odd h
  have given_up (role : StackRole) (body : Exec Unit) :
      transact role body s = .next (s.race.takeTrap (.program .oddAddress)) := by
    rw [transact_of_fetch_error hf, State.abandon_race]
  constructor
  · cases i <;> exact given_up _ _
  · rw [State.runInstruction, State.fetch, hf]
    exact congrArg _ (State.abandon_race s _)

/-! ### Operands that trap -/

theorem stepOf_word (r : Reg) : stepOf .word r = 2 := by cases r <;> rfl

/-- `mov (Rn)+,Rm` is given up as its source is. -/
theorem moveInto_autoInc_error {n : Reg} {dd : Operand} {s : State} {e : Abort}
    (h : ∀ kind, memRead .word kind (s.reg n) (s.setReg n (s.reg n + 2)) = .error e) :
    moveInto .word ⟨.autoInc, n⟩ dd s = .error e := by
  have place : operand .word ⟨.autoInc, n⟩ s =
      .ok (.mem (s.reg n) (immediateAccess s.cfg n), s.setReg n (s.reg n + 2)) := by
    rw [← stepOf_word n]; rfl
  rw [moveInto, bind_of_error]
  rw [sourceThenDest, bind_of_ok place, bind_of_error]
  exact h _

/-- `mov Rm,-(Rn)` is given up as the write to its destination is. -/
theorem moveInto_autoDec_error {n m : Reg} {s : State} {e : Abort}
    (h : ∀ v, memWrite .word (s.reg n - 2) v (s.setReg n (s.reg n - 2)) = .error e) :
    moveInto .word ⟨.register, m⟩ ⟨.autoDec, n⟩ s = .error e := by
  have place : operand .word ⟨.autoDec, n⟩ s =
      .ok (.mem (s.reg n - 2) .read, s.setReg n (s.reg n - 2)) := by
    rw [← stepOf_word n]; rfl
  have pair : ∃ src, sourceThenDest .word ⟨.register, m⟩ ⟨.autoDec, n⟩ s =
      .ok ((src, .mem (s.reg n - 2) .read), s.setReg n (s.reg n - 2)) := by
    refine ⟨if rereadsSource s.cfg ⟨.register, m⟩ ⟨.autoDec, n⟩ then
      ((s.setReg n (s.reg n - 2)).reg m).setWidth 16 else (s.reg m).setWidth 16, ?_⟩
    rw [sourceThenDest, bind_of_ok (show operand .word ⟨.register, m⟩ s = .ok (.reg m, s) from rfl),
      bind_of_ok (show readLoc .word (.reg m) s = .ok ((s.reg m).setWidth 16, s) from rfl),
      bind_of_ok place, bind_of_ok (peek_apply _ _), State.setReg_cfg]
    split <;> rfl
  obtain ⟨src, hpair⟩ := pair
  rw [moveInto, bind_of_ok hpair]
  dsimp only
  rw [bind_of_ok (getCc_apply _), bind_of_error]
  exact h src

theorem exec_mov_error {ss dd : Operand} {s s1 : State} {t : Trap} {n : Nat} (hf : Fetches s s1)
    (hb : moveInto .word ss dd s1 = .error (.trap t n)) :
    exec (.mov ss dd) s = .next ((s.meanwhile n).takeTrap t) := by
  obtain ⟨w, hf⟩ := hf
  exact transact_of_error hf hb

/-- The fetch leaves every register but PC. -/
theorem Fetches.reg {s s1 : State} (h : Fetches s s1) {r : Reg} (hr : r ≠ .pc) : s1.reg r = s.reg r := by
  rw [State.reg, h.cpu]
  cases r with
  | pc => exact absurd rfl hr
  | _ => rfl

theorem Fetches.unwatched {s s1 : State} (h : Fetches s s1) (hu : Unwatched s) : Unwatched s1 := by
  unfold Unwatched at *
  rwa [h.kept.system.console]

theorem Fetches.unmapped {s s1 : State} (h : Fetches s s1) (hm : s.cpu.ps1.m = false) :
    s1.cpu.ps1.m = false := by
  rw [h.cpu]; exact hm

theorem Unwatched.setReg {s : State} (h : Unwatched s) (r : Reg) (v : Word) : Unwatched (s.setReg r v) := h

/-- Stepping a register down by two keeps its parity. -/
theorem getLsbD_sub_two (a : Word) : (a - 2).getLsbD 0 = a.getLsbD 0 := by
  simp only [BitVec.getLsbD, Nat.testBit_zero, decide_eq_decide]
  bv_omega

/-- Settles O14: the traps of the two accesses, and of `mov` the source and the destination that raise
them. -/
theorem operandTraps : Obligations.OperandTraps := by
  refine ⟨fun _ _ _ h => memRead_odd h, fun _ _ _ h => memWrite_odd h,
    fun _ _ _ _ hm hu ha hb => memRead_beyond hm hu ha hb, ?_, ?_, ?_, ?_⟩
  · intro n m s s1 hn hf hodd
    refine exec_mov_error hf (moveInto_autoInc_error (fun kind => ?_))
    rw [memRead_odd (by rwa [hf.reg hn]), State.race_setReg, State.setReg_draw]
  · intro n m s s1 hn hf hodd
    refine exec_mov_error hf (moveInto_autoDec_error (fun v => ?_))
    rw [memWrite_odd (by rwa [getLsbD_sub_two, hf.reg hn]), State.race_setReg, State.setReg_draw]
  · intro n m s s1 hn hf hm hu heven hb
    refine exec_mov_error hf (moveInto_autoInc_error (fun kind => ?_))
    rw [memRead_beyond (by simpa using hf.unmapped hm) ((hf.unwatched hu).setReg _ _)
      (by rw [hf.reg hn]; exact heven) (by rwa [State.setReg_cfg, hf.cfg, hf.reg hn]), State.race_setReg,
      State.setReg_draw]
  · intro n m s s1 hn hf hm hu heven hb
    refine exec_mov_error hf (moveInto_autoDec_error (fun v => ?_))
    rw [memWrite_beyond (by simpa using hf.unmapped hm) ((hf.unwatched hu).setReg _ _)
      (by rw [hf.reg hn]; exact (getLsbD_sub_two _).trans heven)
      (by rwa [State.setReg_cfg, hf.cfg, hf.reg hn]), State.race_setReg, State.setReg_draw]

end Sys2Proof.Machine

/-! PROOFS. The table walk at the default layouts (20_memory.md R91 to R97): the fields of an address and of the
descriptors as shifts and masks of words. -/

namespace Sys2Proof.Machine

/-- va.Seg as a shift (R91). -/
theorem vaSeg_eq (va : Word) : (vaSeg va).setWidth 16 = va >>> 14 := by
  apply BitVec.eq_of_getLsbD_eq
  intro i hi
  simp only [vaSeg, BitVec.getLsbD_setWidth, BitVec.getLsbD_extractLsb', BitVec.getLsbD_ushiftRight, hi,
    decide_true, Bool.true_and]
  by_cases h : i < 2
  · simp [h]
  · simp [h, BitVec.getLsbD_of_ge va (14 + i) (by omega)]

/-- va.Page as a shift and a mask (R91). -/
theorem vaPage_eq (va : Word) : (vaPage va).setWidth 16 = (va >>> 9) &&& 0o37#16 := by
  apply BitVec.eq_of_toNat_eq
  rw [BitVec.toNat_and, BitVec.toNat_setWidth, vaPage, BitVec.extractLsb'_toNat, BitVec.toNat_ushiftRight]
  rw [show (0o37#16).toNat = 2 ^ 5 - 1 from rfl, Nat.and_two_pow_sub_one_eq_mod, Nat.mod_eq_of_lt]
  omega

/-- The page number of an address is compared with the length of the segment (R97). -/
theorem segment_short_iff (sd1 va : Word) :
    (sd1.extractLsb' 11 5).toNat < (vaPage va).toNat ↔ sd1 >>> 11 < (va >>> 9) &&& 0o37#16 := by
  have hsd := sd1.isLt
  rw [← vaPage_eq, BitVec.lt_def, BitVec.toNat_setWidth, BitVec.toNat_ushiftRight,
    BitVec.extractLsb'_toNat, Nat.mod_eq_of_lt (show sd1.toNat >>> 11 < 2 ^ 5 by
      rw [Nat.shiftRight_eq_div_pow]; omega), Nat.mod_eq_of_lt (by have := (vaPage va).isLt; omega)]

/-- The address in the page frame at the default layout (R95). -/
theorem frameAddr_default (pd va : Word) :
    frameAddr PdLayout.default pd va = ((pd &&& 0o177#16) <<< 9) ||| (va &&& 0o777#16) := by
  have mask (n i : Nat) : (BitVec.ofNat 16 (2 ^ n - 1)).getLsbD i = (decide (i < 16) && decide (i < n)) := by
    rw [BitVec.getLsbD_ofNat, Nat.testBit_two_pow_sub_one]
  apply BitVec.eq_of_getLsbD_eq
  intro i hi
  rw [frameAddr, pdFrame_default, vaOffset, BitVec.getLsbD_append, BitVec.getLsbD_or,
    BitVec.getLsbD_shiftLeft, BitVec.getLsbD_and, BitVec.getLsbD_and, BitVec.getLsbD_extractLsb',
    BitVec.getLsbD_extractLsb', show (0o177#16 : Word) = BitVec.ofNat 16 (2 ^ 7 - 1) from rfl,
    show (0o777#16 : Word) = BitVec.ofNat 16 (2 ^ 9 - 1) from rfl, mask, mask]
  by_cases h : i < 9
  · simp [h, hi]
  · simp [h, hi, show i - 9 < 7 by omega, show i - 9 < 16 by omega]

/-- A marked page descriptor at the default layout (R96). -/
theorem pdMark_default (isWrite : Bool) (pd : Word) :
    pdMark PdLayout.default isWrite pd = if isWrite then pd ||| 0o60000#16 else pd ||| 0o20000#16 := by
  have marks : (bitAt PdLayout.default.r true ||| bitAt PdLayout.default.m true : Word) = 0o60000#16 := by decide
  have mark : (bitAt PdLayout.default.r true : Word) = 0o20000#16 := by decide
  cases isWrite
  · exact congrArg (pd ||| ·) mark
  · exact (BitVec.or_assoc _ _ _).trans (congrArg (pd ||| ·) marks)

theorem pdPresent_default (pd : Word) : pdPresent PdLayout.default pd = pd.getLsbD 15 := rfl

/-- What a translation makes of its walk: a trap, or the address and the mark (R97). -/
def markFound (kind : Access) (va : Word) (s : State) : Except Trap (Word × Word) → Except Abort (Word × State)
  | .error t => .error (.trap t s.draw)
  | .ok (pda, pd) =>
    .ok (frameAddr s.cfg.pdLayout pd va,
      s.store pda .word (pdMark s.cfg.pdLayout (decide (kind = .write)) pd))

theorem markFound_error (kind : Access) (va : Word) (s : State) (t : Trap) :
    markFound kind va s (.error t) = .error (.trap t s.draw) := rfl

theorem markFound_found (kind : Access) (va pda pd : Word) (s : State) :
    markFound kind va s (.ok (pda, pd)) = .ok (frameAddr s.cfg.pdLayout pd va,
      s.store pda .word (pdMark s.cfg.pdLayout (decide (kind = .write)) pd)) := rfl

theorem translate_eq_mark (kind : Access) (va : Word) (s : State) :
    translate kind va s = markFound kind va s (walk s (some kind) va) := by
  unfold translate
  cases walk s (some kind) va <;> rfl

/-- Settles O17: the tests of the walk one after the other, each as a test of the words in memory. -/
theorem translationRule : Obligations.TranslationRule := by
  intro kind va s hsd hpd
  have hsda : s.cpu.sta + 4 * (va >>> 14) = segDescAddr s.cpu.sta va :=
    congrArg (fun seg : Word => s.cpu.sta + 4 * seg) (vaSeg_eq va).symm
  have hpda (pta page : Word) (h : (vaPage va).setWidth 16 = page) :
      pta + 2 * page = pageDescAddr pta va := by
    subst h; rfl
  dsimp only
  rw [hsda, hpda _ _ (vaPage_eq va)]
  rw [translate_eq_mark, walk, hsd, hpd]
  simp only [Option.all_some, SegDesc.ofWords_default, segment_short_iff, pdPresent_default,
    apply_ite (markFound kind va s), markFound_error, markFound_found, hpd, frameAddr_default, pdMark_default,
    Bool.not_eq_true', decide_eq_true_eq]
  cases kind <;> rfl

end Sys2Proof.Machine

/-! PROOFS. STCK (41_new_user_instructions.md R180). -/

namespace Sys2Proof.Machine

theorem stckBody_of {addr : Word} {s s2 u t : State} (hr : memRead .word .read s.cpu.sp s = .ok (addr, s2))
    (hhi : memWrite .word addr (s2.tdck.extractLsb' 16 16) s2 = .ok ((), u))
    (hlo : memWrite .word (addr + 2) (s2.tdck.extractLsb' 0 16) u = .ok ((), t)) :
    stckBody s = .ok ((), t) := by
  rw [stckBody, bind_of_ok ((topOfStack_apply s).trans hr), bind_of_ok (peek_apply _ s2), bind_of_ok hhi, hlo]

/-- STCK completes with the sample of TDCK stored, if the stack is clear (R180). -/
theorem exec_stck_of {addr : Word} {s s1 s2 u t : State} (hf : Fetches s s1)
    (hr : memRead .word .read s1.cpu.sp s1 = .ok (addr, s2))
    (hhi : memWrite .word addr (s.tdck.extractLsb' 16 16) s2 = .ok ((), u))
    (hlo : memWrite .word (addr + 2) (s.tdck.extractLsb' 0 16) u = .ok ((), t))
    (hc : StackClear (.ordinary false) s t) : exec .stck s = .next t := by
  have htdck : s2.tdck = s.tdck := (memRead_kept hr).system.tdck.trans hf.kept.system.tdck
  rw [← htdck] at hhi hlo
  exact transact_completes hf (stckBody_of hr hhi hlo) hc

/-- The two halves of a double word (R64). -/
theorem DWord.append_halves (v : DWord) : v.extractLsb' 16 16 ++ v.extractLsb' 0 16 = v := by
  apply BitVec.eq_of_getLsbD_eq
  intro i hi
  rw [BitVec.getLsbD_append, BitVec.getLsbD_extractLsb', BitVec.getLsbD_extractLsb']
  by_cases h : i < 16
  · simp [h]
  · simp [h, show i - 16 < 16 by omega, show 16 + (i - 16) = i by omega]

/-- Two words one after the other do not overlap, though the second may lie at 0. -/
theorem next_word_apart (addr : Word) :
    addr.toNat + 2 ≤ (addr + 2).toNat ∨ (addr + 2).toNat + 2 ≤ addr.toNat := by
  bv_omega

/-- Settles O34: the first clause is the chain of STCK's parts; the second is the first with every access
direct. -/
theorem storeClock : Obligations.StoreClock := by
  refine ⟨fun addr s s1 s2 u t hf hr hhi hlo hc => exec_stck_of hf hr hhi hlo hc, ?_⟩
  intro s hwf hf hsp addr hd hd2 hc
  let s1 := s.setReg .pc (s.cpu.pc + 2)
  let u := s1.store addr .word (s.tdck.extractLsb' 16 16)
  let t := u.store (addr + 2) .word (s.tdck.extractLsb' 0 16)
  have hhi : memWrite .word addr (s.tdck.extractLsb' 16 16) s1 = .ok ((), u) :=
    memWrite_direct (hd.setReg _ _) _
  have hlo : memWrite .word (addr + 2) (s.tdck.extractLsb' 0 16) u = .ok ((), t) :=
    memWrite_direct ((hd2.setReg _ _).store _ _ _) _
  have hcpu : t.cpu = s1.cpu := by simp only [t, u, State.store_cpu]
  have hwfu : u.mem.wf = true := store_wf s1 _ _ _ hwf
  have apart := next_word_apart addr
  refine ⟨t, exec_stck_of hf.fetches (memRead_top_direct hsp _) hhi hlo
    (hc.of_same (by simp [t, u, s1]) (by rw [hcpu]; rfl) (by rw [hcpu]; rfl)), hcpu, ?_, ?_⟩
  · rw [store_readWord u _ _ hwfu, store_readWord_apart u _ _ _ hwfu apart,
      store_readWord s1 _ _ hwf, DWord.append_halves]
  · intro a h1 h2 h3 h4
    rw [store_read_outside u _ _ _ a hwfu (by simp only [Size.bits]; omega),
      store_read_outside s1 _ _ _ a hwf (by simp only [Size.bits]; omega)]
    rfl

end Sys2Proof.Machine

/-! PROOFS. A store to an Operation register (60_exceptions.md R362, R363). -/

namespace Sys2Proof.Machine

/-- The device operated by an address is the one whose Operation word it lies in (R362). -/
theorem Dev.operatedBy_eq_some {pa : Nat} {d : Dev} : Dev.operatedBy pa = some d ↔ pa / 2 = d.base / 2 := by
  constructor
  · intro h
    simpa using List.find?_some h
  · intro h
    cases hfound : Dev.operatedBy pa with
    | none => exact absurd h (by simpa using List.find?_eq_none.1 hfound d d.mem_all)
    | some e =>
      have he : pa / 2 = e.base / 2 := by simpa using List.find?_some hfound
      by_contra hne
      refine Dev.slot_ne (d := d) (e := e) (fun h => hne (by rw [h])) (Fin.ext ?_)
      simp only [Dev.base] at h he
      omega

theorem Dev.operatedBy_slot {pa : Nat} (k : Fin 15) :
    Dev.operatedBy pa = some (Dev.ofSlot k) ↔ pa = 0o1400 + 0o20 * k.val ∨ pa = 0o1401 + 0o20 * k.val := by
  rw [Dev.operatedBy_eq_some, Dev.base, Dev.slot_ofSlot]
  omega

theorem State.startDevice_ctl (s : State) (d : Dev) :
    (s.startDevice d).io.ctl[d.slot] = DevCtl.start s.cfg s.mem s.io d s.io.ctl[d.slot] :=
  State.setCtl_ctl_same s d _

/-- A store that touches a device's Operation word starts it. -/
theorem State.store_of_operated {s : State} {pa : Word} {size : Size} {v : BitVec size.bits} {d : Dev}
    (h : Dev.operatedBy pa.toNat = some d) : s.store pa size v = (s.storeMem pa size v).startDevice d := by
  simp only [State.store, h]

/-- A store that touches another device's Operation word, or none, leaves a controller (R363). -/
theorem State.store_ctl_of_not_operated {s : State} {pa : Word} {size : Size} {v : BitVec size.bits}
    {k : Fin 15} (h : Dev.operatedBy pa.toNat ≠ some (Dev.ofSlot k)) :
    (s.store pa size v).io.ctl[k] = s.io.ctl[k] := by
  cases hop : Dev.operatedBy pa.toNat with
  | none => simp only [State.store, hop, State.storeMem_io]
  | some d =>
    have hne : k ≠ d.slot := by
      rintro rfl
      rw [Dev.ofSlot_slot] at h
      exact h hop
    rw [State.store_of_operated hop]
    exact (State.setCtl_ctl_other (s.storeMem pa size v) d _ hne).trans (by rw [State.storeMem_io])

/-- Settles O55: the device operated by the address is started, the others stay. -/
theorem storeStartsDevice : Obligations.StoreStartsDevice := by
  intro s pa size v _
  refine ⟨State.store_mem s pa size v, State.store_cpu s pa size v, fun k hk => ?_, fun k h0 h1 => ?_⟩
  · have hop := (Dev.operatedBy_slot k).2 hk
    have hctl : (s.store pa size v).io.ctl[k] =
        DevCtl.start s.cfg (s.storeMem pa size v).mem s.io (Dev.ofSlot k) s.io.ctl[k] := by
      rw [State.store_of_operated hop]
      simpa only [Dev.slot_ofSlot, State.storeMem_io, State.storeMem_cfg] using
        State.startDevice_ctl (s.storeMem pa size v) (Dev.ofSlot k)
    have hbase : (Dev.ofSlot k).base = 0o1400 + 0o20 * k.val := by rw [Dev.base, Dev.slot_ofSlot]
    have hargs : (Dev.ofSlot k).argAddr = 0o1402 + 0o20 * k.val := by rw [Dev.argAddr, hbase]; omega
    have hbuf : (Dev.ofSlot k).bufAddr = 0o1404 + 0o20 * k.val := by rw [Dev.bufAddr, hbase]; omega
    rw [hctl, State.store_mem, ← hbase, ← hargs, ← hbuf]
    exact ⟨_, rfl, rfl, rfl, rfl, rfl, rfl, Nat.succ_pos _, rfl, rfl, rfl⟩
  · refine State.store_ctl_of_not_operated (fun h => ?_)
    rcases (Dev.operatedBy_slot k).1 h with h | h
    · exact h0 h
    · exact h1 h

end Sys2Proof.Machine

/-! PROOFS. Frames of the single and double operand instructions, and of those of a register and an operand
(43_single_operand.md, 44_double_operand.md): each is its shape's frame with what the operation does to the
codes. -/

namespace Sys2Proof.Machine

/-- Settles O43: the frames of the three shapes; `inc` and `dec` keep C, `sxt` keeps N and C. -/
theorem singleOperandFrame : Obligations.SingleOperandFrame := by
  intro dd s t hw word byte wordOnly byteOnly
  refine ⟨fun i hi h => ?_, fun i hi h => ?_, fun i hi h => ?_, fun i hi h => ?_,
    overwriteDest_frame hw trivial, overwriteDest_frame hw trivial, overwriteDest_frame hw ⟨rfl, rfl⟩,
    fun i hi h => ?_⟩
  all_goals simp only [List.mem_cons, List.not_mem_nil, or_false] at hi
  · rcases hi with rfl | rfl | rfl | rfl | rfl | rfl | rfl | rfl | rfl <;>
      exact modifyDest_frame hw (fun _ => trivial) h
  · rcases hi with rfl | rfl | rfl | rfl | rfl | rfl | rfl | rfl <;>
      exact modifyDest_frame hw (fun _ => trivial) h
  · rcases hi with rfl | rfl <;> exact modifyDest_frame hw (by intros; rfl) h
  · rcases hi with rfl | rfl <;> exact modifyDest_frame hw (by intros; rfl) h
  · rcases hi with rfl | rfl <;> exact testDest_frame hw (fun _ => trivial) h

/-- What `xor` leaves: its register is read after the destination, and is not written (R237). -/
theorem xorBody_frame {r : Reg} {dd : Operand} {role : StackRole} {s t : State} (hw : s.mem.wf = true)
    (h : transact role (xorBody r dd) s = .next t) :
    Ends (Frame (destRegs dd) codesKeepC
      (fun a => ∃ loc old u, ReadsDest .word dd loc old s u ∧ LocStores .word loc u a) s) s t := by
  refine transact_ends ?_ h
  intro s1 w s' hf hb
  unfold xorBody at hb
  obtain ⟨loc, s2, ho, hb⟩ := bind_ok.1 hb
  obtain ⟨old, s3, hr, hb⟩ := bind_ok.1 hb
  rw [bind_of_ok (getReg_apply _ _), bind_of_ok (getCc_apply _)] at hb
  obtain ⟨_, s4, hwr, hb⟩ := bind_ok.1 hb
  cases hb
  have hrd : ReadsDest .word dd loc old s s3 := ⟨s1, s2, ⟨w, hf⟩, ho, hr⟩
  obtain ⟨g1, w1⟩ := hrd.frame hw (steppedRegs_dest dd)
  obtain ⟨g2, _⟩ := writeLoc_frame hwr w1 (operand_dest ho)
  refine Part.setCc ((g1.after g2).mono (fun _ h => h) (fun _ _ h => h)
    (fun a ha => ⟨loc, old, s3, hrd, ha⟩)) ?_
  rw [hrd.kept.codes]
  rfl

/-- Settles O44: the frames of the shapes; all but `add`, `sub` and `cmp` keep C. -/
theorem doubleOperandFrame : Obligations.DoubleOperandFrame := by
  intro ss dd s t hw word byte wordOnly byteOnly xorStored regs
  refine ⟨moveInto_frame hw, moveByteInto_frame hw, fun i hi h => ?_, fun i hi h => ?_, fun i hi h => ?_,
    fun i hi h => ?_, fun i hi h => ?_, fun r => xorBody_frame hw⟩
  all_goals
    simp only [List.mem_cons, List.not_mem_nil, or_false] at hi
    rcases hi with rfl | rfl
  · exact combineInto_frame hw (by intros; rfl) h
  · exact combineInto_frame hw (by intros; rfl) h
  · exact combineInto_frame hw (by intros; rfl) h
  · exact combineInto_frame hw (by intros; rfl) h
  · exact combineInto_frame hw (fun _ _ => trivial) h
  · exact combineInto_frame hw (fun _ _ => trivial) h
  · exact compareWith_frame hw (by intros; rfl) h
  · exact compareWith_frame hw (by intros; rfl) h
  · exact compareWith_frame hw (fun _ _ => trivial) h
  · exact compareWith_frame hw (fun _ _ => trivial) h

/-! ### A register and an operand -/

/-- The registers that an instruction of a register and a source may write: the register, the other one of the
pair where it is even, and those its source steps. -/
structure PairRegs (r : Reg) (ss : Operand) (c : List Reg) : Prop where
  high : r ∈ c
  low : oddReg r = false → pairLow r = .pc ∨ pairLow r ∈ c
  source : ∀ q ∈ steppedRegs ss, q ∈ c

theorem PairRegs.even {r : Reg} (h : r ∈ evenRegs) (ss : Operand) :
    PairRegs r ss (r :: nextReg r :: steppedRegs ss) where
  high := by simp
  low _ := by
    simp only [evenRegs, List.mem_cons, List.not_mem_nil, or_false] at h
    rcases h with rfl | rfl | rfl | rfl <;> simp [pairLow, nextReg]
  source q hq := by simp [hq]

theorem PairRegs.odd {r : Reg} (h : r ∈ oddRegs) (ss : Operand) : PairRegs r ss (r :: steppedRegs ss) where
  high := by simp
  low he := by
    simp only [oddRegs, List.mem_cons, List.not_mem_nil, or_false] at h
    rcases h with rfl | rfl | rfl | rfl <;> cases he
  source q hq := by simp [hq]

variable {r : Reg} {ss : Operand} {c : List Reg}

theorem CodesPart.sourceValue (h : ∀ q ∈ steppedRegs ss, q ∈ c) :
    Preserves (CodesPart c) (sourceValue .word ss) :=
  (CodesPart.reading c).sourceValue (.inl rfl) .word ss (fun q hq => .inr (h q hq))

theorem CodesPart.putPair (h : PairRegs r ss c) (he : oddReg r = false) (v : DWord) :
    Preserves (CodesPart c) (putPair r v) :=
  (CodesPart.reading c).bind ((CodesPart.reading c).putReg (.inr h.high) _)
    (fun _ => (CodesPart.reading c).putReg (h.low he) _)

theorem CodesPart.ashBody (hr : r ∈ c) (hs : ∀ q ∈ steppedRegs ss, q ∈ c) :
    Preserves (CodesPart c) (ashBody r ss) :=
  have R := CodesPart.reading c
  R.bind (.sourceValue hs) (fun _ => R.bind (R.getReg _) (fun _ => R.bind (R.putReg (.inr hr) _)
    (fun _ => CodesPart.putCc c _)))

theorem CodesPart.ashcBody (h : PairRegs r ss c) : Preserves (CodesPart c) (ashcBody r ss) := by
  have R := CodesPart.reading c
  unfold Machine.ashcBody
  refine R.bind (.sourceValue h.source) (fun _ => ?_)
  split
  · exact R.bind (R.peek _) (fun _ => R.bind (R.putReg (.inr h.high) _) (fun _ => CodesPart.putCc c _))
  · next he =>
    exact R.bind (R.getPair _) (fun _ => R.bind (CodesPart.putPair h (by simpa using he) _)
      (fun _ => CodesPart.putCc c _))

theorem CodesPart.mulBody (h : PairRegs r ss c) : Preserves (CodesPart c) (mulBody r ss) := by
  have R := CodesPart.reading c
  unfold Machine.mulBody
  refine R.bind (.sourceValue h.source) (fun _ => R.bind (R.getReg _) (fun _ => ?_))
  dsimp only
  split
  · exact R.bind (R.putReg (.inr h.high) _) (fun _ => CodesPart.putCc c _)
  · next he =>
    exact R.bind (CodesPart.putPair h (by simpa using he) _) (fun _ => CodesPart.putCc c _)

theorem CodesPart.divOverflowBody (h : PairRegs r ss c) (he : oddReg r = false) :
    Preserves (CodesPart c) (divOverflowBody r) :=
  have R := CodesPart.reading c
  R.bind (R.peek _) (fun _ => R.bind (R.peek _) (fun regs => by
    cases regs
    · exact R.bind (R.pure _) (fun _ => CodesPart.putCc c _)
    · exact R.bind (CodesPart.putPair h he _) (fun _ => CodesPart.putCc c _)))

theorem CodesPart.divBody (h : PairRegs r ss c) : Preserves (CodesPart c) (divBody r ss) := by
  have R := CodesPart.reading c
  unfold Machine.divBody
  split
  · exact Preserves.raise _
  · next he =>
    have he : oddReg r = false := by simpa using he
    exact R.bind (.sourceValue h.source) (fun _ => Preserves.ite (Preserves.raise _)
      (R.bind (R.getPair _) (fun _ => Preserves.ite (CodesPart.divOverflowBody h he)
        (R.bind (R.putReg (.inr h.high) _) (fun _ => R.bind (R.putReg (h.low he) _)
          (fun _ => CodesPart.putCc c _))))))

/-- What ashc, mul and div leave, of either kind of register. -/
theorem pairInstr_frame {i : Instr} {s t : State} (hw : s.mem.wf = true) (h : PairRegs r ss c)
    (hi : i ∈ [Instr.ashc r ss, .mul r ss, .div r ss]) (he : exec i s = .next t) :
    Ends (Frame c codesAny NoStore s) s t := by
  simp only [List.mem_cons, List.not_mem_nil, or_false] at hi
  rcases hi with rfl | rfl | rfl
  · exact CodesPart.transact hw (.ashcBody h) he
  · exact CodesPart.transact hw (.mulBody h) he
  · exact CodesPart.transact hw (.divBody h) he

/-- Settles O45: the bodies write the register or pair and the codes, and otherwise read. -/
theorem registerOperandFrame : Obligations.RegisterOperandFrame := by
  intro r ss s t hw
  refine ⟨CodesPart.transact hw (.ashBody (by simp) (fun q hq => by simp [hq])), fun i hi hr => ?_,
    fun i hi hr => ?_⟩
  · exact pairInstr_frame hw (.even hr ss) hi
  · exact pairInstr_frame hw (.odd hr ss) hi

end Sys2Proof.Machine

/-! PROOFS. Frames of the control transfers and of the condition code operators (45_branches.md,
46_subroutine_and_control.md, 47_condition_code_operators.md). -/

namespace Sys2Proof.Machine

/-- A part followed by one that stores nothing. -/
theorem Part.before {c : List Reg} {p : Nat → Prop} {s t u : State} (h : Part c p s t)
    (g : Part c NoStore t u) : Part c p s u :=
  (h.trans g).mono (fun _ h => h) (fun _ _ h => h) (fun _ ha => ha.elim id (fun h => h.elim))

theorem ReadPart.branchIf (cond : Cond) (offset : BitVec 8) : Preserves (ReadPart []) (branchIf cond offset) :=
  have R := ReadPart.reading []
  R.bind R.getCc (fun _ => R.bind (R.getReg _) (fun _ => Preserves.ite (R.putReg (.inl rfl) _) (R.pure _)))

theorem CodesPart.ccBody (set n z v c : Bool) : Preserves (CodesPart []) (ccBody set n z v c) :=
  have R := CodesPart.reading []
  R.bind R.getCc (fun _ => CodesPart.putCc [] _)

/-- `nop` selects no code, and leaves the codes as they are (R301). -/
theorem ReadPart.nopBody : Preserves (ReadPart []) (ccBody false false false false false) := by
  intro s a t h
  cases h
  exact (ReadPart.reading []).refl s

theorem ReadPart.jmpBody (dd : Operand) : Preserves (ReadPart (steppedRegs dd)) (jmpBody dd) :=
  have R := ReadPart.reading (steppedRegs dd)
  R.bind (R.jumpTarget (.inl rfl) dd (fun _ h => .inr h)) (fun _ => R.putReg (.inl rfl) _)

theorem ReadPart.sobBody (r : Reg) (offset : BitVec 6) : Preserves (ReadPart [r]) (sobBody r offset) :=
  have R := ReadPart.reading [r]
  R.bind (R.getReg _) (fun _ => R.bind (R.putReg (.inr (by simp)) _) (fun _ => R.bind (R.getReg _)
    (fun _ => Preserves.ite (R.putReg (.inl rfl) _) (R.pure _))))

theorem ReadPart.rtsBody (r : Reg) : Preserves (ReadPart [r, .sp]) (rtsBody r) :=
  have R := ReadPart.reading [r, .sp]
  R.bind (R.getReg _) (fun _ => R.bind (R.putReg (.inl rfl) _) (fun _ => R.bind (R.pop (.inr (by simp)))
    (fun _ => R.putReg (.inr (by simp)) _)))

theorem ReadPart.markBody (nn : BitVec 6) : Preserves (ReadPart [.r5, .sp]) (markBody nn) :=
  have R := ReadPart.reading [.r5, .sp]
  R.bind (R.getReg _) (fun _ => R.bind (R.putReg (.inr (by simp)) _) (fun _ => R.bind (R.getReg _)
    (fun _ => R.bind (R.putReg (.inl rfl) _) (fun _ => R.bind (R.pop (.inr (by simp)))
      (fun _ => R.putReg (.inr (by simp)) _)))))

/-- A jump target is computed from what the specifier selects, and nothing else changes (R280, R283). -/
theorem jumpTarget_ok {dd : Operand} {target : Word} {s t : State} (h : jumpTarget dd s = .ok (target, t)) :
    ∃ loc, operand .word dd s = .ok (loc, t) := by
  unfold jumpTarget at h
  obtain ⟨loc, u, ho, h⟩ := bind_ok.1 h
  cases loc with
  | reg r => cases h
  | mem a kind =>
    cases h
    exact ⟨_, ho⟩

/-- What `jsr` leaves: it pushes the link register as it stands once the target is computed (R280). -/
theorem jsrBody_frame {r : Reg} {dd : Operand} {role : StackRole} {s t : State} (hw : s.mem.wf = true)
    (h : transact role (jsrBody r dd) s = .next t) :
    Ends (Frame (r :: .sp :: steppedRegs dd) codesSame
      (fun a => ∃ loc u, SelectsDest .word dd loc s u ∧ PushStores [u.reg r] u a) s) s t := by
  refine transact_ends ?_ h
  intro s1 w s' hf hb
  unfold jsrBody at hb
  obtain ⟨target, u, hj, hb⟩ := bind_ok.1 hb
  rw [bind_of_ok (getReg_apply _ _)] at hb
  obtain ⟨_, v, hp, hb⟩ := bind_ok.1 hb
  cases hb
  obtain ⟨loc, ho⟩ := jumpTarget_ok hj
  have hsel : SelectsDest .word dd loc s u := ⟨s1, ⟨w, hf⟩, ho⟩
  obtain ⟨g1, w1⟩ := hsel.frame hw (c := r :: .sp :: steppedRegs dd) (fun q hq => by simp [hq])
  have g2 := (push_frame hp w1).1.widen (d := r :: .sp :: steppedRegs dd) (by simp)
  have g3 := (Frame.setReg v r (v.reg .pc) (c := r :: .sp :: steppedRegs dd) (.inr (by simp))).before
    (Frame.setReg _ .pc target (.inl rfl))
  exact ((g1.after g2).before g3).mono (fun _ h => h) (fun _ _ h => h) (fun a ha => ⟨loc, u, hsel, ha⟩)

/-- What INPRG leaves: it stores where it read (R182). -/
theorem inprgBody_frame {role : StackRole} {s t : State} (hw : s.mem.wf = true)
    (h : transact role inprgBody s = .next t) :
    Ends (Frame [] codesSame
      (fun a => ∃ s1 v u, Fetches s s1 ∧ memRead .word .read s1.cpu.sp s1 = .ok (v, u) ∧
        StoresTo .word s1.cpu.sp u a) s) s t := by
  refine transact_ends ?_ h
  intro s1 w s' hf hb
  unfold inprgBody at hb
  rw [bind_of_ok (getReg_apply _ _)] at hb
  obtain ⟨target, u, hr, hb⟩ := bind_ok.1 hb
  rw [bind_of_ok (getReg_apply _ _)] at hb
  obtain ⟨_, v, hwr, hb⟩ := bind_ok.1 hb
  cases hb
  have R := ReadPart.reading []
  obtain ⟨g1, w1⟩ := R.trans (R.fetchWord (.inl rfl) s w s1 hf) (R.memRead _ _ _ s1 target u hr) hw
  obtain ⟨g2, _⟩ := memWrite_frame hwr w1
  exact ((g1.after g2).before (Frame.setReg v .pc target (.inl rfl))).mono (fun _ h => h) (fun _ _ h => h)
    (fun a ha => ⟨s1, target, u, ⟨w, hf⟩, hr, ha⟩)

/-- Settles O46: all but jsr and INPRG read and write registers, the operators write codes too. -/
theorem controlFrame : Obligations.ControlFrame := by
  intro s t hw
  refine ⟨fun offset i hi h => ?_, fun set n z v c => CodesPart.transact hw (.ccBody set n z v c),
    fun i hi h => ?_, ReadPart.transact hw .nopBody, fun dd => ReadPart.transact hw (.jmpBody dd),
    fun r offset => ReadPart.transact hw (.sobBody r offset), fun r => ReadPart.transact hw (.rtsBody r),
    fun nn => ReadPart.transact hw (.markBody nn), fun r dd => jsrBody_frame hw, inprgBody_frame hw⟩
  · simp only [branches, List.mem_cons, List.not_mem_nil, or_false] at hi
    rcases hi with rfl | rfl | rfl | rfl | rfl | rfl | rfl | rfl | rfl | rfl | rfl | rfl | rfl | rfl | rfl |
      rfl | rfl <;> exact ReadPart.transact hw (.branchIf _ _) h
  · simp only [List.mem_cons, List.not_mem_nil, or_false] at hi
    rcases hi with rfl | rfl | rfl | rfl | rfl | rfl | rfl | rfl | rfl | rfl <;>
      exact CodesPart.transact hw (.ccBody _ _ _ _ _) h

end Sys2Proof.Machine

/-! PROOFS. Frames of the instructions that store blocks, and of CRET (41_new_user_instructions.md,
42_privileged_instructions.md R191). -/

namespace Sys2Proof.Machine

/-! ### Pushes -/

@[simp] theorem State.setReg_reg_self (s : State) (r : Reg) : s.setReg r (s.reg r) = s := by
  cases r <;> rfl

/-- Writing SP and another register, in either order. -/
theorem State.setReg_sp_comm (s : State) {r : Reg} (h : r ≠ .sp) (v w : Word) :
    (s.setReg r v).setReg .sp w = (s.setReg .sp w).setReg r v := by
  cases r with
  | sp => exact absurd rfl h
  | _ => rfl

/-- A push does not look at the registers other than SP. -/
theorem push_setReg {r : Reg} (h : r ≠ .sp) {v w : Word} {s t : State} (hp : push w s = .ok ((), t)) :
    push w (s.setReg r v) = .ok ((), t.setReg r v) := by
  have hsp : (s.setReg r v).cpu.sp = s.cpu.sp := State.reg_setReg_other s r .sp v (Ne.symm h)
  rw [push_ok, hsp, State.setReg_sp_comm s h]
  exact memWrite_setReg (push_ok.1 hp)

/-- A push changes no register but SP (R183). -/
theorem push_reg {w : Word} {s t : State} (hp : push w s = .ok ((), t)) {r : Reg} (h : r ≠ .sp) :
    t.reg r = s.reg r := by
  rw [State.reg, memWrite_cpu (push_ok.1 hp)]
  exact State.reg_setReg_other s .sp r _ h

/-- The bytes that pushes store to depend on no register but SP. -/
theorem PushStores.setReg {r : Reg} (h : r ≠ .sp) (v : Word) {a : Nat} : ∀ {ws : List Word} {s : State},
    PushStores ws s a → PushStores ws (s.setReg r v) a
  | [], _, hs => hs
  | w :: ws, s, hs => by
    have hsp : (s.setReg r v).cpu.sp = s.cpu.sp := State.reg_setReg_other s r .sp v (Ne.symm h)
    rcases hs with hfirst | ⟨t, hp, hrest⟩
    · refine .inl ?_
      rw [hsp, State.setReg_sp_comm s h]
      exact hfirst.setReg
    · exact .inr ⟨t.setReg r v, push_setReg h hp, PushStores.setReg h v hrest⟩

theorem PushStores.of_setReg {r : Reg} (h : r ≠ .sp) {v : Word} {a : Nat} {ws : List Word} {s : State}
    (hs : PushStores ws (s.setReg r v) a) : PushStores ws s a := by
  have := PushStores.setReg h (s.reg r) hs
  rwa [State.setReg_setReg, State.setReg_reg_self] at this

/-- The bytes the first push stores to are among those of all. -/
theorem PushStores.head {w : Word} {ws : List Word} {s : State} {a : Nat} (h : PushStores [w] s a) :
    PushStores (w :: ws) s a := by
  rcases h with h | ⟨_, _, h⟩
  · exact .inl h
  · exact h.elim

theorem PushStores.tail {w : Word} {ws : List Word} {s t : State} {a : Nat} (hp : push w s = .ok ((), t))
    (h : PushStores ws t a) : PushStores (w :: ws) s a := .inr ⟨t, hp, h⟩

/-- What CSV leaves: R5 is written between the first push and the others, which it does not bear on (R183). -/
theorem csvBody_frame {s t : State} (h : csvBody s = .ok ((), t)) (hw : s.mem.wf = true) :
    Part [.r5, .sp] (PushStores [s.cpu.r5, s.cpu.r4, s.cpu.r3, s.cpu.r2] s) s t := by
  unfold csvBody at h
  rw [bind_of_ok (getReg_apply _ _)] at h
  obtain ⟨_, a, h5, h⟩ := bind_ok.1 h
  rw [bind_of_ok (getReg_apply _ _), bind_of_ok (putReg_apply _ _ _), bind_of_ok (getReg_apply _ _)] at h
  obtain ⟨_, b, h4, h⟩ := bind_ok.1 h
  rw [bind_of_ok (getReg_apply _ _)] at h
  obtain ⟨_, c, h3, h⟩ := bind_ok.1 h
  rw [bind_of_ok (getReg_apply _ _)] at h
  have r4 : (a.setReg .r5 (a.reg .sp)).reg .r4 = s.cpu.r4 := by
    rw [State.reg_setReg_other _ _ _ _ (by decide), push_reg h5 (by decide)]; rfl
  have r3 : b.reg .r3 = s.cpu.r3 := by
    rw [push_reg h4 (by decide), State.reg_setReg_other _ _ _ _ (by decide), push_reg h5 (by decide)]; rfl
  have r2 : c.reg .r2 = s.cpu.r2 := by
    rw [push_reg h3 (by decide), push_reg h4 (by decide), State.reg_setReg_other _ _ _ _ (by decide),
      push_reg h5 (by decide)]
    rfl
  rw [r4] at h4
  rw [r3] at h3
  rw [r2] at h
  obtain ⟨g5, w5⟩ := push_frame h5 hw
  obtain ⟨g4, w4⟩ := push_frame h4 w5
  obtain ⟨g3, w3⟩ := push_frame h3 w4
  obtain ⟨g2, _⟩ := push_frame h w3
  have wide {p : Nat → Prop} {x y : State} (g : Part [.sp] p x y) : Part [.r5, .sp] p x y :=
    g.widen (by simp)
  have link := Frame.setReg a .r5 (a.reg .sp) (c := [.r5, .sp]) (.inr (by simp))
  refine (((wide g5).before link).trans ((wide g4).trans ((wide g3).trans (wide g2)))).mono (fun _ h => h)
    (fun _ _ h => h) ?_
  rintro x (hx | hx | hx | hx)
  · exact PushStores.head hx
  · exact .tail h5 (.of_setReg (by decide) (.head hx))
  · exact .tail h5 (.of_setReg (by decide) (.tail h4 (.head hx)))
  · exact .tail h5 (.of_setReg (by decide) (.tail h4 (.tail h3 (.head hx))))

theorem ReadPart.cretBody : Preserves (ReadPart [.r2, .r3, .r4, .r5, .sp]) cretBody :=
  have R := ReadPart.reading [.r2, .r3, .r4, .r5, .sp]
  have load {r : Reg} (hr : r = .pc ∨ r ∈ [Reg.r2, .r3, .r4, .r5, .sp]) {k : Exec Unit}
      (hk : Preserves (ReadPart [.r2, .r3, .r4, .r5, .sp]) k) :
      Preserves (ReadPart [.r2, .r3, .r4, .r5, .sp]) (pop >>= fun v => putReg r v >>= fun _ => k) :=
    R.bind (R.pop (.inr (by simp))) (fun _ => R.bind (R.putReg hr _) (fun _ => hk))
  R.bind (R.getReg _) (fun _ => R.bind (R.putReg (.inr (by simp)) _) (fun _ =>
    load (by simp) (load (by simp) (load (by simp) (load (by simp)
      (R.bind (R.pop (.inr (by simp))) (fun _ => R.putReg (.inl rfl) _)))))))

/-! ### Blocks -/

/-- The fetch and a read of the stack, as one part that stores nothing. -/
theorem Fetches.read_frame {s s1 u : State} {va v : Word} (hf : Fetches s s1)
    (hr : memRead .word .read va s1 = .ok (v, u)) (hw : s.mem.wf = true) :
    Part [] NoStore s u ∧ u.mem.wf = true := by
  obtain ⟨w, hf⟩ := hf
  have R := ReadPart.reading []
  exact R.trans (R.fetchWord (.inl rfl) s w s1 hf) (R.memRead .word .read va s1 v u hr) hw

/-- What STCK leaves: its two writes are a block of two words (R180). -/
theorem stckBody_frame {s s1 t : State} (hf : Fetches s s1) (h : stckBody s1 = .ok ((), t))
    (hw : s.mem.wf = true) :
    Part [] (fun a => ∃ s1 addr u, Fetches s s1 ∧ memRead .word .read s1.cpu.sp s1 = .ok (addr, u) ∧
      BlockStores addr [s.tdck.extractLsb' 16 16, s.tdck.extractLsb' 0 16] u a) s t := by
  unfold stckBody at h
  obtain ⟨addr, u, hr, h⟩ := bind_ok.1 h
  rw [topOfStack_apply] at hr
  rw [bind_of_ok (peek_apply _ _)] at h
  obtain ⟨_, v, hhi, hlo⟩ := bind_ok.1 h
  have htdck : u.tdck = s.tdck := (memRead_kept hr).system.tdck.trans hf.kept.system.tdck
  rw [htdck] at hhi hlo
  have hblock : writeBlock addr [s.tdck.extractLsb' 16 16, s.tdck.extractLsb' 0 16] u = .ok ((), t) :=
    (bind_of_ok hhi).trans (bind_of_ok hlo)
  obtain ⟨g1, w1⟩ := hf.read_frame hr hw
  exact (g1.after (writeBlock_frame _ hblock w1).1).mono (fun _ h => h) (fun _ _ h => h)
    (fun a ha => ⟨s1, addr, u, hf, hr, ha⟩)

/-- The privilege check changes nothing where it passes (R196). -/
theorem privileged_ok {s t : State} (h : privileged s = .ok ((), t)) : t = s := by
  unfold privileged at h
  split at h
  · cases h; rfl
  · cases h

/-- What STST leaves (R191). -/
theorem ststBody_frame {s s1 t : State} (hf : Fetches s s1) (h : ststBody s1 = .ok ((), t))
    (hw : s.mem.wf = true) :
    Part [] (fun a => ∃ s1 addr u, Fetches s s1 ∧ memRead .word .read s1.cpu.sp s1 = .ok (addr, u) ∧
      BlockStores addr (u.cpu.words s.cfg.ps1Layout) u a) s t := by
  unfold ststBody at h
  obtain ⟨_, s2, hp, h⟩ := bind_ok.1 h
  rw [privileged_ok hp] at h
  obtain ⟨addr, u, hr, h⟩ := bind_ok.1 h
  rw [topOfStack_apply] at hr
  rw [bind_of_ok (peek_apply _ _)] at h
  have hcfg : u.cfg = s.cfg := (memRead_kept hr).system.cfg.trans hf.cfg
  rw [hcfg] at h
  obtain ⟨g1, w1⟩ := hf.read_frame hr hw
  exact (g1.after (writeBlock_frame _ h w1).1).mono (fun _ h => h) (fun _ _ h => h)
    (fun a ha => ⟨s1, addr, u, hf, hr, ha⟩)

theorem ReadPart.readBytes (c : List Reg) (n : Nat) : ∀ src, Preserves (ReadPart c) (readBytes src n) := by
  have R := ReadPart.reading c
  induction n with
  | zero => exact fun _ => R.pure _
  | succ n ih => exact fun src => R.bind (R.memRead _ _ src) (fun _ => R.bind (ih _) (fun _ => R.pure _))

/-- The move of a block stores to its destination, in either order (R185, D24). -/
theorem moveBlock_frame {order : MovbckOrder} {src dst : Word} {n : Nat} {s t : State}
    (h : moveBlock order src dst n s = .ok ((), t)) (hw : s.mem.wf = true) :
    Part [] (MoveStores order src dst n s) s t := by
  cases order with
  | ascending => exact (copyBytes_frame n h hw).1
  | asIfBuffered =>
    obtain ⟨bs, u, hr, hwr⟩ := bind_ok.1 h
    obtain ⟨g1, w1⟩ := ReadPart.readBytes [] n src s bs u hr hw
    exact (g1.after (writeBytes_frame bs hwr w1).1).mono (fun _ h => h) (fun _ _ h => h)
      (fun a ha => ⟨bs, u, hr, ha⟩)

/-- What MOVBCK leaves (R185). -/
theorem movbckBody_frame {s s1 t : State} (hf : Fetches s s1) (h : movbckBody s1 = .ok ((), t))
    (hw : s.mem.wf = true) :
    Part [] (fun a => ∃ s1 s2 s3 s4 src dst size, Fetches s s1 ∧
      memRead .word .read s1.cpu.sp s1 = .ok (src, s2) ∧
      memRead .word .read (s1.cpu.sp + 2) s2 = .ok (dst, s3) ∧
      memRead .word .read (s1.cpu.sp + 4) s3 = .ok (size, s4) ∧
      MoveStores s.cfg.movbckOrder src dst size.toNat s4 a) s t := by
  unfold movbckBody at h
  rw [bind_of_ok (getReg_apply _ _)] at h
  obtain ⟨src, s2, h2, h⟩ := bind_ok.1 h
  obtain ⟨dst, s3, h3, h⟩ := bind_ok.1 h
  obtain ⟨size, s4, h4, h⟩ := bind_ok.1 h
  rw [bind_of_ok (peek_apply _ _)] at h
  split at h
  · cases h
  · have hcfg : s4.cfg = s.cfg :=
      (memRead_kept h4).system.cfg.trans ((memRead_kept h3).system.cfg.trans
        ((memRead_kept h2).system.cfg.trans hf.cfg))
    rw [hcfg] at h
    have R := ReadPart.reading []
    obtain ⟨g2, w2⟩ := hf.read_frame h2 hw
    obtain ⟨g4, w4⟩ := R.trans (R.memRead _ _ _ s2 dst s3 h3) (R.memRead _ _ _ s3 size s4 h4) w2
    exact ((g2.after g4).after (moveBlock_frame h w4)).mono (fun _ h => h) (fun _ _ h => h)
      (fun a ha => ⟨s1, s2, s3, s4, src, dst, size, hf, h2, h3, h4, ha⟩)

/-- Settles O47: the frame of each body after that of the fetch. -/
theorem blockFrame : Obligations.BlockFrame := by
  intro s t hw
  refine ⟨transact_ends (fun s1 w s' hf hb => stckBody_frame ⟨w, hf⟩ hb hw),
    transact_ends (fun s1 w s' hf hb => ststBody_frame ⟨w, hf⟩ hb hw),
    transact_ends (fun s1 w s' hf hb => ?_), ReadPart.transact hw .cretBody,
    transact_ends (fun s1 w s' hf hb => movbckBody_frame ⟨w, hf⟩ hb hw)⟩
  have fetched : Fetches s s1 := ⟨w, hf⟩
  obtain ⟨g1, w1⟩ := (ReadPart.reading [.r5, .sp]).fetchWord (.inl rfl) s w s1 hf hw
  have g2 := csvBody_frame hb w1
  rw [fetched.cpu] at g2
  exact (g1.after g2).mono (fun _ h => h) (fun _ _ h => h) (fun a ha => ⟨s1, fetched, ha⟩)

end Sys2Proof.Machine

/-! PROOFS. Frames of the instructions that load a special register, and of HALT
(42_privileged_instructions.md R192 to R195, R197). -/

namespace Sys2Proof.Machine

variable {α : Type}

/-- The body reads, and then makes the change `L` and no other. -/
def LoadsAfterReading (L : State → State → Prop) (body : Exec Unit) : Prop :=
  ∀ s t, body s = .ok ((), t) → ∃ u, ReadPart [] s u ∧ L u t

theorem LoadsAfterReading.update {L : State → State → Prop} {f : State → State} (h : ∀ u, L u (f u)) :
    LoadsAfterReading L (update f) := by
  intro s t hb
  cases hb
  exact ⟨s, (ReadPart.reading []).refl s, h s⟩

theorem LoadsAfterReading.bind {L : State → State → Prop} {m : Exec α} {k : α → Exec Unit}
    (hm : Preserves (ReadPart []) m) (hk : ∀ a, LoadsAfterReading L (k a)) :
    LoadsAfterReading L (m >>= k) := by
  intro s t hb
  obtain ⟨a, u, h1, h2⟩ := bind_ok.1 hb
  obtain ⟨v, hv, hL⟩ := hk a u t h2
  exact ⟨v, (ReadPart.reading []).trans (hm s a u h1) hv, hL⟩

/-- An instruction of that kind ends with what its change makes of a state that reading leaves. -/
theorem LoadsAfterReading.transact {L : State → State → Prop} {P : State → Prop} {role : StackRole}
    {body : Exec Unit} {s t : State} (hb : LoadsAfterReading L body) (hw : s.mem.wf = true)
    (hP : ∀ u t, Part [] NoStore s u → L u t → P t) (h : transact role body s = .next t) : Ends P s t := by
  refine transact_ends (fun s1 w s' hf h' => ?_) h
  obtain ⟨u, hu, hL⟩ := hb s1 s' h'
  have R := ReadPart.reading []
  exact hP u s' (R.trans (R.fetchWord (.inl rfl) s w s1 hf) hu hw).1 hL

theorem LoadsAfterReading.lditBody : LoadsAfterReading (fun u t => ∃ v, t = u.setIt v) lditBody :=
  have R := ReadPart.reading []
  .bind R.privileged (fun _ => .bind R.topOfStack (fun _ => .bind (R.memRead _ _ _) (fun _ =>
    .bind (R.memRead _ _ _) (fun _ => .update (fun _ => ⟨_, rfl⟩)))))

theorem LoadsAfterReading.ldimBody : LoadsAfterReading (fun u t => ∃ mask, t = u.setIntmask mask) ldimBody :=
  have R := ReadPart.reading []
  .bind R.privileged (fun _ => .bind R.topOfStack (fun _ => .update (fun _ => ⟨_, rfl⟩)))

theorem LoadsAfterReading.ldstlBody : LoadsAfterReading (fun u t => ∃ v, t = u.setStl v) ldstlBody :=
  have R := ReadPart.reading []
  .bind R.privileged (fun _ => .bind R.topOfStack (fun _ => .update (fun _ => ⟨_, rfl⟩)))

theorem LoadsAfterReading.haltBody : LoadsAfterReading (fun u t => t = u.stop .halt) haltBody :=
  .bind (ReadPart.reading []).privileged (fun _ => .update (fun _ => rfl))

theorem LoadsAfterReading.ldstBody : LoadsAfterReading (fun u t => ∃ p, t = u.withCpu p) ldstBody :=
  have R := ReadPart.reading []
  .bind R.privileged (fun _ => .bind R.topOfStack (fun _ => .bind (R.readBlock _ _) (fun _ =>
    .update (fun _ => ⟨_, rfl⟩))))

/-- The mask that was there, put back. -/
theorem Part.restore_intmask {s u : State} (h : Part [] NoStore s u) (mask : BitVec 8) :
    (u.setIntmask mask).setIntmask s.cpu.ps1.intmask = u := by
  have hmask : u.cpu.ps1.intmask = s.cpu.ps1.intmask := by rw [h.system.ps1]
  rw [← hmask]
  rfl

/-- The stack limit that was there, put back. -/
theorem Part.restore_stl {s u : State} (h : Part [] NoStore s u) (v : Word) :
    (u.setStl v).setStl s.cpu.stl = u := by
  rw [← h.system.stl]
  rfl

/-- The Processor State that was there, put back: a reading part changed PC alone. -/
theorem Frame.restore_cpu {c : List Reg} {k : Cc → Cc → Prop} {p : Nat → Prop} {s u : State}
    (h : Frame c k p s u) (d : List Reg) : Part d p s { u with cpu := s.cpu } where
  system := { h.system with ps1 := rfl, ps2 := rfl, sta := rfl, stl := rfl }
  regs _ _ _ := rfl
  codes := rfl
  mem := h.mem
  devices := h.devices

/-- Settles O48: each body reads, and what it then loads is put back. -/
theorem privilegedFrame : Obligations.PrivilegedFrame := by
  intro s t hw
  refine ⟨LoadsAfterReading.lditBody.transact hw ?_, LoadsAfterReading.ldimBody.transact hw ?_,
    LoadsAfterReading.ldstlBody.transact hw ?_, LoadsAfterReading.haltBody.transact hw ?_,
    LoadsAfterReading.ldstBody.transact hw ?_⟩
  · rintro u _ h ⟨v, rfl⟩
    rw [← h.system.it]
    exact h
  · rintro u _ h ⟨mask, rfl⟩
    rwa [h.restore_intmask]
  · rintro u _ h ⟨v, rfl⟩
    rwa [h.restore_stl]
  · rintro u _ h rfl
    rw [← h.system.run]
    exact h
  · rintro u _ h ⟨p, rfl⟩
    exact h.restore_cpu _

end Sys2Proof.Machine

/-! PROOFS. The bytes of a transfer (60_exceptions.md R112, R365): what any number of them, moved from the
beginning, make of memory, of the sectors and of the operation's record. -/

namespace Sys2Proof.Machine

/-! ### Sectors -/

/-- Reading a medium where a byte was stored gives it; every other key reads as before, whatever the order of
the keys. -/
theorem Medium.read_write (fresh : Nat → Byte) (m : Medium) (key k : Nat) (v : Byte) :
    Medium.read fresh (m.write key v) k = if k = key then v else Medium.read fresh m k := by
  induction m with
  | nil =>
    by_cases h : k = key <;> simp [Medium.write, Medium.read, h]
  | cons c rest ih =>
    obtain ⟨j, x⟩ := c
    rcases Nat.lt_trichotomy key j with hlt | rfl | hgt
    · rw [Medium.write, if_pos hlt, Medium.read]
      by_cases h : k = key
      · rw [if_pos h, if_pos h]
      · rw [if_neg h, if_neg h]
        by_cases hk : k < key
        · rw [if_pos hk, Medium.read, if_neg (by omega), if_pos (by omega)]
        · rw [if_neg hk]
    · rw [Medium.write, if_neg (by omega), if_pos rfl, Medium.read, Medium.read]
      by_cases h : k = key
      · rw [if_pos h, if_pos h]
      · rw [if_neg h, if_neg h, if_neg h]
    · rw [Medium.write, if_neg (by omega), if_neg (by omega), Medium.read, ih, Medium.read]
      by_cases h : k = j
      · rw [if_pos h, if_pos h, if_neg (by omega)]
      · rw [if_neg h, if_neg h]
        by_cases hk : k < j
        · rw [if_pos hk, if_pos hk, if_neg (by omega)]
        · rw [if_neg hk, if_neg hk]

/-- Two bytes of sectors under one head have one key only if they are the same byte of the same sector. -/
theorem Disk.key_eq_iff (g : Config) (head sector sector' : Nat) {j j' : Nat} (hj : j < 512) (hj' : j' < 512) :
    Disk.key g head sector' j' = Disk.key g head sector j ↔ sector' = sector ∧ j' = j := by
  simp only [Disk.key]
  generalize head * (g.upsector + 1) = track
  omega

/-- Only disks and drums have sectors to write (R370, R375). -/
theorem Dev.opKind_sectorWrite {d : Dev} {code : Word} (h : d.opKind code = some .sectorWrite) :
    (∃ i, d = .disk i) ∨ ∃ i, d = .drum i := by
  unfold Dev.opKind at h
  split at h <;> simp_all

/-- A byte written to a sector is at its place alone (R372, R375). -/
theorem State.sectorByte_writeSector (s : State) {d : Dev} {code : Word}
    (hd : d.opKind code = some .sectorWrite) (sector sector' : Nat) {j j' : Nat} (b : Byte) (hj : j < 512)
    (hj' : j' < 512) : (s.writeSector sector j b d).sectorByte sector' j' d =
      if sector' = sector ∧ j' = j then b else s.sectorByte sector' j' d := by
  rcases Dev.opKind_sectorWrite hd with ⟨i, rfl⟩ | ⟨i, rfl⟩
  · simp only [State.writeSector, State.sectorByte, Fin.getElem_fin, Vector.getElem_set_self,
      Medium.read_write, Disk.key_eq_iff _ _ _ _ hj hj']
  · have hkey : sector' * 512 + j' = sector * 512 + j ↔ sector' = sector ∧ j' = j := by omega
    simp only [State.writeSector, State.sectorByte, Fin.getElem_fin, Vector.getElem_set_self,
      Medium.read_write, hkey]

@[simp] theorem State.sectorByte_setCtl (s : State) (d e : Dev) (c : DevCtl) (sector j : Nat) :
    (s.setCtl d c).sectorByte sector j e = s.sectorByte sector j e := by
  cases e <;> rfl

/-! ### Transfers into memory and out of it -/

/-- The operation brings bytes into memory. -/
def DevOp.arrives (d : Dev) (op : DevOp) : Prop :=
  d.opKind op.code = some .sectorRead ∨ d.opKind op.code = some .lineRead

theorem State.placeByte_of_arrives (s : State) {d : Dev} {op : DevOp} (h : op.arrives d) (j : Nat) (b : Byte) :
    s.placeByte d op j b = { s with mem := s.mem.write (op.buf.toNat + j) b } := by
  unfold State.placeByte
  rcases h with h | h <;> rw [h]

theorem State.placeByte_mem (s : State) {d : Dev} {op : DevOp} (h : ¬ op.arrives d) (j : Nat) (b : Byte) :
    (s.placeByte d op j b).mem = s.mem := by
  unfold State.placeByte
  split
  · next hk => exact absurd (.inl hk) h
  · next hk => exact absurd (.inr hk) h
  · cases d <;> rfl
  · rfl

section
variable {s : State} {d : Dev} {op : DevOp} (hb : s.io.ctl[d.slot].busy = some op) (now : Nat → Bool)
include hb

/-- A transfer into memory leaves the media. -/
theorem State.moveBytes_media (h : op.arrives d) (n : Nat) :
    (s.moveBytes d now n).io.disks = s.io.disks ∧ (s.moveBytes d now n).io.drums = s.io.drums := by
  induction n with
  | zero => exact ⟨rfl, rfl⟩
  | succ n ih =>
    simp only [State.moveBytes]
    split
    · obtain ⟨moved, hbusy⟩ := (MovesOf.moveBytes hb now n).busy
      rcases State.moveByte_cases n hbusy with e | e <;> rw [e]
      · exact ih
      · rw [State.placeByte_record, State.placeByte_of_arrives _ h]
        exact ih
    · exact ih

/-- Every other transfer leaves memory. -/
theorem State.moveBytes_mem (h : ¬ op.arrives d) (n : Nat) : (s.moveBytes d now n).mem = s.mem := by
  induction n with
  | zero => rfl
  | succ n ih =>
    simp only [State.moveBytes]
    split
    · obtain ⟨moved, hbusy⟩ := (MovesOf.moveBytes hb now n).busy
      rcases State.moveByte_cases n hbusy with e | e <;> rw [e]
      · exact ih
      · rw [State.placeByte_record, State.setCtl_mem, State.placeByte_mem _ h]
        exact ih
    · exact ih

/-- What a transfer moves does not depend on what it has moved. -/
theorem State.moveBytes_transferByte (n j : Nat) :
    (s.moveBytes d now n).transferByte d op j = s.transferByte d op j := by
  have hm := MovesOf.moveBytes hb now n
  by_cases h : op.arrives d
  · obtain ⟨hdisks, hdrums⟩ := State.moveBytes_media hb now h n
    unfold State.transferByte
    rcases h with h | h <;> rw [h]
    · cases d <;> simp only [State.sectorByte, hm.devices.cfg, hdisks, hdrums]
    · simp only [State.lineOf_congr hm.devices.cfg hm.terms]
  · have hmem := State.moveBytes_mem hb now h n
    unfold State.transferByte
    split
    · next hk => exact absurd (.inl hk) h
    · next hk => exact absurd (.inr hk) h
    · rw [hmem]

end

/-! ### A transfer from its beginning -/

/-- The record of the bytes below `n` that the filter lets through. -/
def State.movedBytes (s : State) (d : Dev) (op : DevOp) (now : Nat → Bool) : Nat → List (Nat × Byte)
  | 0 => []
  | n + 1 =>
    if now n then (n, s.transferByte d op n) :: s.movedBytes d op now n else s.movedBytes d op now n

theorem State.movedBytes_lt (s : State) (d : Dev) (op : DevOp) (now : Nat → Bool) :
    ∀ (n : Nat), ∀ m ∈ s.movedBytes d op now n, m.1 < n
  | 0, _, h => nomatch h
  | n + 1, m, h => by
    rw [State.movedBytes] at h
    split at h
    · rcases List.mem_cons.1 h with rfl | h
      · exact Nat.lt_succ_self n
      · exact Nat.lt_succ_of_lt (s.movedBytes_lt d op now n m h)
    · exact Nat.lt_succ_of_lt (s.movedBytes_lt d op now n m h)

/-- Where all bytes are let through, each is recorded. -/
theorem State.find_movedBytes (s : State) (d : Dev) (op : DevOp) {n j : Nat} (hj : j < n) :
    (s.movedBytes d op (fun _ => true) n).find? (fun m => m.1 == j) = some (j, s.transferByte d op j) := by
  induction n with
  | zero => omega
  | succ n ih =>
    rw [State.movedBytes, if_pos rfl]
    by_cases h : n = j
    · subst h; simp
    · rw [List.find?_cons_of_neg (by simpa using h), ih (by omega)]

section
variable {s : State} {d : Dev} {op : DevOp} (hb : s.io.ctl[d.slot].busy = some op) (h0 : op.moved = [])
  (now : Nat → Bool)
include hb h0

omit hb h0 in
theorem State.moveBytes_skip {n : Nat} (hn : now n = false) :
    s.moveBytes d now (n + 1) = s.moveBytes d now n := by
  rw [State.moveBytes, if_neg (by simp [hn])]

omit hb h0 in
theorem State.moveBytes_next {n : Nat} (hn : now n = true) :
    s.moveBytes d now (n + 1) = (s.moveBytes d now n).moveByte d n := by
  rw [State.moveBytes, if_pos hn]

omit h0 in
/-- A byte moved by a controller whose record is that of the bytes before it. -/
theorem State.moveByte_next {n : Nat} (hctl : (s.moveBytes d now n).io.ctl[d.slot] =
    (s.io.ctl[d.slot]).running (op.record (s.movedBytes d op now n))) :
    (s.moveBytes d now n).moveByte d n =
      ((s.moveBytes d now n).placeByte d op n (s.transferByte d op n)).setCtl d
        ((s.io.ctl[d.slot]).running (op.record ((n, s.transferByte d op n) :: s.movedBytes d op now n))) := by
  have hbusy : (s.moveBytes d now n).io.ctl[d.slot].busy =
      some (op.record (s.movedBytes d op now n)) := by rw [hctl, DevCtl.running_busy]
  rw [State.moveByte_of_unmoved hbusy (fun m hm => Nat.ne_of_lt (s.movedBytes_lt d op now n m hm)), hctl,
    State.transferByte_record, State.moveBytes_transferByte hb now]
  rfl

/-- The controller of a transfer that no byte had been moved of. -/
theorem State.moveBytes_ctl (n : Nat) : (s.moveBytes d now n).io.ctl[d.slot] =
    (s.io.ctl[d.slot]).running (op.record (s.movedBytes d op now n)) := by
  induction n with
  | zero => rw [State.movedBytes, ← h0, DevOp.record_self, DevCtl.running_self hb]; rfl
  | succ n ih =>
    cases hn : now n with
    | true =>
      rw [State.moveBytes_next now hn, State.moveByte_next hb now ih, State.setCtl_ctl_same,
        State.movedBytes, if_pos hn]
    | false => rw [State.moveBytes_skip now hn, ih, State.movedBytes, if_neg (by simp [hn])]

/-- One more byte of such a transfer is put where it goes. -/
theorem State.moveBytes_succ {n : Nat} (hn : now n = true) :
    ∃ c, s.moveBytes d now (n + 1) =
      ((s.moveBytes d now n).placeByte d op n (s.transferByte d op n)).setCtl d c :=
  ⟨_, by rw [State.moveBytes_next now hn, State.moveByte_next hb now (State.moveBytes_ctl hb h0 now n)]⟩

/-- What a transfer into memory makes of memory: the bytes let through arrive at their places in the buffer,
and nothing else changes (R112). -/
theorem State.moveBytes_read (hw : s.mem.wf = true) (h : op.arrives d) (n a : Nat) :
    (s.moveBytes d now n).mem.read a =
      if op.buf.toNat ≤ a ∧ a < op.buf.toNat + n ∧ now (a - op.buf.toNat) = true
      then s.transferByte d op (a - op.buf.toNat) else s.mem.read a := by
  induction n with
  | zero => rw [if_neg (by omega)]; rfl
  | succ n ih =>
    cases hn : now n with
    | true =>
      obtain ⟨c, e⟩ := State.moveBytes_succ hb h0 now hn
      have hwn := (DevicesOnly.moveBytes s d now n).wf hw
      rw [e, State.setCtl_mem, State.placeByte_of_arrives _ h]
      dsimp only
      rw [Memory.read_write _ _ _ _ hwn, ih]
      by_cases ha : a = op.buf.toNat + n
      · subst ha
        rw [if_pos rfl, Nat.add_sub_cancel_left, if_pos ⟨by omega, by omega, hn⟩]
      · rw [if_neg ha]
        exact if_congr (by constructor <;> rintro ⟨h1, h2, h3⟩ <;> exact ⟨h1, by omega, h3⟩) rfl rfl
    | false =>
      rw [State.moveBytes_skip now hn, ih]
      refine if_congr ⟨fun ⟨h1, h2, h3⟩ => ⟨h1, by omega, h3⟩, fun ⟨h1, h2, h3⟩ => ⟨h1, ?_, h3⟩⟩ rfl rfl
      by_contra hge
      rw [show a - op.buf.toNat = n by omega, hn] at h3
      cases h3

/-- What a transfer onto a sector makes of the sectors. -/
theorem State.moveBytes_sectorByte (hk : d.opKind op.code = some .sectorWrite) {n : Nat} (hn : n ≤ 512)
    (sector : Nat) {j : Nat} (hj : j < 512) :
    (s.moveBytes d (fun _ => true) n).sectorByte sector j d =
      if sector = op.arg.toNat ∧ j < n then s.mem.read (op.buf.toNat + j)
      else s.sectorByte sector j d := by
  induction n with
  | zero => rw [if_neg (by omega)]; rfl
  | succ n ih =>
    obtain ⟨c, e⟩ := State.moveBytes_succ hb h0 (fun _ => true) (n := n) rfl
    have hbyte : s.transferByte d op n = s.mem.read (op.buf.toNat + n) := by
      simp only [State.transferByte, hk]
    have hplace (u : State) (b : Byte) : u.placeByte d op n b = u.writeSector op.arg.toNat n b d := by
      simp only [State.placeByte, hk]
    rw [e, State.sectorByte_setCtl, hplace, State.sectorByte_writeSector _ hk _ _ _ (by omega) hj,
      ih (by omega), hbyte]
    by_cases h : sector = op.arg.toNat ∧ j = n
    · obtain ⟨rfl, rfl⟩ := h
      rw [if_pos ⟨rfl, rfl⟩, if_pos ⟨rfl, by omega⟩]
    · rw [if_neg h]
      exact if_congr (by omega) rfl rfl

/-- A transfer of one disk leaves the others. -/
theorem State.moveBytes_other_disk {j : Fin 4} (hj : d ≠ .disk j) (n : Nat) :
    (s.moveBytes d now n).io.disks[j] = s.io.disks[j] := by
  induction n with
  | zero => rfl
  | succ n ih =>
    cases hn : now n with
    | false => rw [State.moveBytes_skip now hn, ih]
    | true =>
      obtain ⟨c, e⟩ := State.moveBytes_succ hb h0 now hn
      rw [e, State.setCtl_io_disks, ← ih]
      unfold State.placeByte
      split
      · rfl
      · rfl
      · cases d with
        | disk i =>
          have hne : i.val ≠ j.val := fun he => hj (by rw [Fin.ext he])
          simp only [State.writeSector, Fin.getElem_fin, Vector.getElem_set_ne _ _ hne]
        | _ => rfl
      · rfl

end

end Sys2Proof.Machine

/-! PROOFS. The completion of an operation (60_exceptions.md R365): the transfer is finished, the effects of its
kind follow, and the status is stored. -/

namespace Sys2Proof.Machine

/-- The device registers of an operation. -/
theorem State.finishOp_ctl (s : State) (d : Dev) (op : DevOp) : (s.finishOp d op).1.io.ctl = s.io.ctl := by
  unfold State.finishOp
  split
  · rfl
  · split
    · cases d <;> rfl
    · cases d <;> rfl
    · cases d <;> rfl
    · rfl

/-- What a device's operation leaves whose transfer is finished, and its status. -/
def State.finished (s : State) (d : Dev) (op : DevOp) : State × Nat :=
  (s.moveBytes d (fun _ => true) (s.transferLength d op)).finishOp d
    (op.record (s.movedBytes d op (fun _ => true) (s.transferLength d op)))

section
variable {s : State} {d : Dev} {op : DevOp} (hb : s.io.ctl[d.slot].busy = some op)
  (h0 : op.moved = [])
include hb h0

omit h0 in
theorem State.finished_ctl_other {k : Fin 15} (hk : k ≠ d.slot) :
    (s.finished d op).1.io.ctl[k] = s.io.ctl[k] := by
  rw [State.finished, State.finishOp_ctl]
  exact (MovesOf.moveBytes hb _ _).others k hk

/-- Completion stores the status and makes the request (R365). -/
theorem State.pollDevice_eq (hleft : op.left = 0) : s.pollDevice d =
    ({ (s.finished d op).1 with
        mem := (s.finished d op).1.mem.writeWord d.statusAddr (BitVec.ofNat 16 (s.finished d op).2) } :
      State).setCtl d { (s.finished d op).1.io.ctl[d.slot] with busy := none, pending := true } := by
  have hbusy : (s.moveBytes d (fun _ => true) (s.transferLength d op)).io.ctl[d.slot].busy =
      some (op.record (s.movedBytes d op (fun _ => true) (s.transferLength d op))) := by
    rw [State.moveBytes_ctl hb h0, DevCtl.running_busy]
  simp only [State.pollDevice, hb, hleft, if_true, State.completeOp, hbusy, Option.getD_some]
  rfl

variable (hleft : op.left = 0)
include hleft

theorem State.pollDevice_mem : (s.pollDevice d).mem =
    (s.finished d op).1.mem.writeWord d.statusAddr (BitVec.ofNat 16 (s.finished d op).2) := by
  rw [State.pollDevice_eq hb h0 hleft]; rfl

theorem State.pollDevice_disks : (s.pollDevice d).io.disks = (s.finished d op).1.io.disks := by
  rw [State.pollDevice_eq hb h0 hleft]; rfl

theorem State.pollDevice_drums : (s.pollDevice d).io.drums = (s.finished d op).1.io.drums := by
  rw [State.pollDevice_eq hb h0 hleft]; rfl

theorem State.pollDevice_terms : (s.pollDevice d).io.terms = (s.finished d op).1.io.terms := by
  rw [State.pollDevice_eq hb h0 hleft]; rfl

theorem State.pollDevice_prints : (s.pollDevice d).io.prints = (s.finished d op).1.io.prints := by
  rw [State.pollDevice_eq hb h0 hleft]; rfl

theorem State.pollDevice_sectorByte (e : Dev) (sector j : Nat) :
    (s.pollDevice d).sectorByte sector j e = (s.finished d op).1.sectorByte sector j e := by
  rw [State.pollDevice_eq hb h0 hleft, State.sectorByte_setCtl]
  cases e <;> rfl

/-- The CPU and the other controllers stay; the operation is over and the request made (R365). -/
theorem State.pollDevice_over : (s.pollDevice d).cpu = s.cpu ∧
    (s.pollDevice d).io.ctl[d.slot].busy = none ∧ (s.pollDevice d).io.ctl[d.slot].pending = true ∧
    ∀ k : Fin 15, k ≠ d.slot → (s.pollDevice d).io.ctl[k] = s.io.ctl[k] := by
  refine ⟨(DevicesOnly.pollDevice s d).cpu, ?_⟩
  rw [State.pollDevice_eq hb h0 hleft]
  refine ⟨by rw [State.setCtl_ctl_same], by rw [State.setCtl_ctl_same], fun k hk => ?_⟩
  rw [State.setCtl_ctl_other _ _ _ hk]
  exact State.finished_ctl_other hb hk

omit hb h0 hleft in
/-- A sector transfer has no effect besides. -/
theorem State.finished_sector (hf : op.failure = none)
    (hk : d.opKind op.code = some .sectorRead ∨ d.opKind op.code = some .sectorWrite) :
    s.finished d op = (s.moveBytes d (fun _ => true) 512, 0) := by
  have hlen : s.transferLength d op = 512 := by
    rcases hk with hk | hk <;> simp only [State.transferLength, hf, hk]
  rcases hk with hk | hk <;>
    simp only [State.finished, hlen, State.finishOp, DevOp.record_failure, DevOp.record_code, hf, hk]

/-- A sector read has put the sector in the buffer; memory outside it and the Status register stays, and so
do the media (R372, R375). -/
theorem State.sectorRead_completes (hw : s.mem.wf = true) (hf : op.failure = none)
    (hk : d.opKind op.code = some .sectorRead)
    (hapart : op.buf.toNat + 512 ≤ d.statusAddr ∨ d.statusAddr + 2 ≤ op.buf.toNat) :
    (∀ j, j < 512 → (s.pollDevice d).mem.read (op.buf.toNat + j) = s.sectorByte op.arg.toNat j d) ∧
    (∀ a, (a < op.buf.toNat ∨ op.buf.toNat + 512 ≤ a) → a ≠ d.statusAddr → a ≠ d.statusAddr + 1 →
      (s.pollDevice d).mem.read a = s.mem.read a) ∧
    (s.pollDevice d).io.disks = s.io.disks ∧ (s.pollDevice d).io.drums = s.io.drums ∧
    (s.pollDevice d).mem.readWord d.statusAddr = 0 := by
  have hfin := State.finished_sector (s := s) hf (.inl hk)
  obtain ⟨hdisks, hdrums⟩ := State.moveBytes_media hb (fun _ => true) (.inl hk) 512
  have hw' := (DevicesOnly.moveBytes s d (fun _ => true) 512).wf hw
  have hread := State.moveBytes_read hb h0 (fun _ => true) hw (.inl hk) 512
  have hbyte (j : Nat) : s.transferByte d op j = s.sectorByte op.arg.toNat j d := by
    simp only [State.transferByte, hk]
  rw [State.pollDevice_mem hb h0 hleft, State.pollDevice_disks hb h0 hleft,
    State.pollDevice_drums hb h0 hleft, hfin]
  generalize s.moveBytes d (fun _ => true) 512 = u at hdisks hdrums hw' hread
  refine ⟨fun j hj => ?_, fun a ha h1 h2 => ?_, hdisks, hdrums, Memory.readWord_writeWord _ _ _ hw'⟩
  · rw [Memory.read_writeWord _ _ _ _ hw', if_neg (by omega), if_neg (by omega), hread,
      if_pos ⟨by omega, by omega, rfl⟩, Nat.add_sub_cancel_left, hbyte]
  · rw [Memory.read_writeWord _ _ _ _ hw', if_neg h1, if_neg h2, hread, if_neg (by omega)]

/-- A sector write has put the buffer on the sector; the other sectors and memory but for the Status register
stay (R372, R375). -/
theorem State.sectorWrite_completes (hf : op.failure = none) (hk : d.opKind op.code = some .sectorWrite) :
    (∀ j, j < 512 → (s.pollDevice d).sectorByte op.arg.toNat j d = s.mem.read (op.buf.toNat + j)) ∧
    (∀ sector j, sector ≠ op.arg.toNat → j < 512 →
      (s.pollDevice d).sectorByte sector j d = s.sectorByte sector j d) ∧
    (s.pollDevice d).mem = s.mem.writeWord d.statusAddr 0 := by
  have hfin := State.finished_sector (s := s) hf (.inr hk)
  have hout : ¬ op.arrives d := by rintro (h | h) <;> rw [hk] at h <;> cases h
  have hsector := State.moveBytes_sectorByte hb h0 hk (Nat.le_refl 512)
  refine ⟨fun j hj => ?_, fun sector j hs hj => ?_, ?_⟩
  · rw [State.pollDevice_sectorByte hb h0 hleft, hfin, hsector _ hj, if_pos ⟨rfl, hj⟩]
  · rw [State.pollDevice_sectorByte hb h0 hleft, hfin, hsector _ hj, if_neg (fun h => hs h.1)]
  · rw [State.pollDevice_mem hb h0 hleft, hfin, State.moveBytes_mem hb _ hout]
    rfl

end

/-- Settles O58: a disk's transfers are a sector read and a sector write; the head and the other disks are no
part of them. -/
theorem sectorTransfers : Obligations.SectorTransfers := by
  intro s i op hw hb hleft hf h0 hapart t
  obtain ⟨hcpu, hover, hpending, -⟩ := State.pollDevice_over hb h0 hleft
  have kind0 (h : op.code = 0) : (Dev.disk i).opKind op.code = some .sectorRead := by rw [h]; rfl
  have kind1 (h : op.code = 1) : (Dev.disk i).opKind op.code = some .sectorWrite := by rw [h]; rfl
  refine ⟨fun h => ?_, fun h => ?_, fun h => ?_⟩
  · obtain ⟨hin, hout, hdisks, -, -⟩ := State.sectorRead_completes hb h0 hleft hw hf (kind0 h) hapart
    exact ⟨hin, hout, hdisks⟩
  · obtain ⟨hsector, hothers, hmem⟩ := State.sectorWrite_completes hb h0 hleft hf (kind1 h)
    have hfin := State.finished_sector (s := s) hf (.inr (kind1 h))
    have hdisks : t.io.disks = (s.moveBytes (.disk i) (fun _ => true) 512).io.disks := by
      rw [State.pollDevice_disks hb h0 hleft, hfin]
    refine ⟨hsector, hothers, ?_, fun j hj => ?_, hmem⟩
    · rw [hdisks]
      exact (MovesOf.moveBytes hb (fun _ => true) 512).heads i
    · rw [hdisks]
      exact State.moveBytes_other_disk hb h0 (fun _ => true) (fun he => hj (Dev.disk.inj he).symm) 512
  · refine ⟨?_, hcpu, hover, hpending⟩
    rcases h with h | h
    · exact (State.sectorRead_completes hb h0 hleft hw hf (kind0 h) hapart).2.2.2.2
    · rw [(State.sectorWrite_completes hb h0 hleft hf (kind1 h)).2.2]
      exact Memory.readWord_writeWord _ _ _ hw

/-! ### Prints and terminal reads -/

section
variable {s : State} {d : Dev} {op : DevOp} (hb : s.io.ctl[d.slot].busy = some op)
  (h0 : op.moved = []) (hf : op.failure = none)
include hb h0 hf

omit hb h0 hf in
/-- The line of a print that is finished: the bytes of the buffer. -/
theorem DevOp.line_of_print (hk : d.opKind op.code = some .print) (n : Nat) :
    (op.record (s.movedBytes d op (fun _ => true) n)).line n =
      (List.range n).map (fun j => s.mem.read (op.buf.toNat + j)) := by
  refine List.map_congr_left (fun j hj => ?_)
  rw [DevOp.record_moved, State.find_movedBytes s d op (List.mem_range.1 hj)]
  simp only [State.transferByte, hk, Option.map_some, Option.getD_some]

omit hb h0 in
/-- A print that is finished has put out the bytes of the buffer and a New Line (R378). -/
theorem State.finished_print (hk : d.opKind op.code = some .print) : s.finished d op =
    ((s.moveBytes d (fun _ => true) op.arg.toNat).emit
      ((List.range op.arg.toNat).map (fun j => s.mem.read (op.buf.toNat + j)) ++ [newLine]) d, 0) := by
  have hlen : s.transferLength d op = op.arg.toNat := by simp only [State.transferLength, hf, hk]
  simp only [State.finished, hlen, State.finishOp, DevOp.record_failure, DevOp.record_code, hf, hk,
    DevOp.record_arg, DevOp.line_of_print hk]

omit hb h0 hf in
theorem State.emit_mem (s : State) (bytes : List Byte) (d : Dev) : (s.emit bytes d).mem = s.mem := by
  cases d <;> rfl

/-- A print leaves memory but for the Status register. -/
theorem State.print_mem (hleft : op.left = 0) (hk : d.opKind op.code = some .print) :
    (s.pollDevice d).mem = s.mem.writeWord d.statusAddr 0 := by
  have hout : ¬ op.arrives d := by rintro (h | h) <;> rw [hk] at h <;> cases h
  rw [State.pollDevice_mem hb h0 hleft, State.finished_print hf hk, State.emit_mem,
    State.moveBytes_mem hb _ hout]
  rfl

end

section
variable {s : State} {i : Fin 5} {op : DevOp} {input : List Byte}
  (hb : s.io.ctl[(Dev.terminal i).slot].busy = some op) (h0 : op.moved = []) (hf : op.failure = none)
  (hk : (Dev.terminal i).opKind op.code = some .lineRead) (hin : s.io.terms[i].input = some input)
include hb h0 hf hk hin

omit hb h0 hf hk in
/-- The line a terminal brings in is that of its input from its position on (R382). -/
theorem State.lineOf_terminal :
    s.lineOf (.terminal i) = lineRead s.cfg input s.io.terms[i].pos := by
  simp only [State.lineOf, hin, Option.getD_some]

omit h0 in
/-- A terminal read that is finished: the line is in the buffer, its length in the Length register, and the
position moved (R382). -/
theorem State.finished_lineRead : s.finished (.terminal i) op =
    (let r := lineRead s.cfg input s.io.terms[i].pos
     let u := s.moveBytes (.terminal i) (fun _ => true) r.bytes.length
     (({ u with mem := u.mem.writeWord (Dev.terminal i).argAddr (BitVec.ofNat 16 r.bytes.length) } :
        State).setInputPos r.pos (.terminal i), r.status)) := by
  have hline := State.lineOf_terminal hin
  have hlen : s.transferLength (.terminal i) op =
      (lineRead s.cfg input s.io.terms[i].pos).bytes.length := by
    simp only [State.transferLength, hf, hk, hline]
  have hm := MovesOf.moveBytes hb (fun _ => true) (lineRead s.cfg input s.io.terms[i].pos).bytes.length
  have hline' := (State.lineOf_congr hm.devices.cfg hm.terms (.terminal i)).trans hline
  simp only [State.finished, State.finishOp, DevOp.record_failure, DevOp.record_code, hf, hk, hline', hlen]

/-- What a terminal read leaves in memory and of the terminal (R382). -/
theorem State.lineRead_completes (hw : s.mem.wf = true) (hleft : op.left = 0)
    (hapart : op.buf.toNat + (lineRead s.cfg input s.io.terms[i].pos).bytes.length ≤ (Dev.terminal i).base ∨
      (Dev.terminal i).base + 8 ≤ op.buf.toNat) :
    let t := s.pollDevice (.terminal i)
    let r := lineRead s.cfg input s.io.terms[i].pos
    (∀ j (h : j < r.bytes.length), t.mem.read (op.buf.toNat + j) = r.bytes[j]) ∧
    t.mem.readWord ((Dev.terminal i).base + 2) = BitVec.ofNat 16 r.bytes.length ∧
    t.mem.readWord ((Dev.terminal i).base + 6) = BitVec.ofNat 16 r.status ∧
    (∀ a, (a < op.buf.toNat ∨ op.buf.toNat + r.bytes.length ≤ a) → a / 2 ≠ (Dev.terminal i).base / 2 + 1 →
      a / 2 ≠ (Dev.terminal i).base / 2 + 3 → t.mem.read a = s.mem.read a) ∧
    t.io.terms[i] = { s.io.terms[i] with pos := r.pos } := by
  intro t r
  have hapart : op.buf.toNat + r.bytes.length ≤ (Dev.terminal i).base ∨
      (Dev.terminal i).base + 8 ≤ op.buf.toNat := hapart
  have hfin := State.finished_lineRead hb hf hk hin
  have hread := State.moveBytes_read hb h0 (fun _ => true) hw (.inr hk) r.bytes.length
  have hw1 := (DevicesOnly.moveBytes s (.terminal i) (fun _ => true) r.bytes.length).wf hw
  have hw2 := Memory.writeWord_wf _ ((Dev.terminal i).base + 2) (BitVec.ofNat 16 r.bytes.length) hw1
  have hmem : t.mem =
      (((s.moveBytes (.terminal i) (fun _ => true) r.bytes.length).mem.writeWord ((Dev.terminal i).base + 2)
        (BitVec.ofNat 16 r.bytes.length)).writeWord ((Dev.terminal i).base + 6) (BitVec.ofNat 16 r.status)) := by
    rw [State.pollDevice_mem hb h0 hleft, hfin]
    rfl
  have hterms : t.io.terms = s.io.terms.set i { s.io.terms[i] with pos := r.pos } := by
    have hm := MovesOf.moveBytes hb (fun _ => true) (lineRead s.cfg input s.io.terms[i].pos).bytes.length
    rw [State.pollDevice_terms hb h0 hleft, hfin]
    simp only [State.setInputPos, hm.terms]
    rfl
  have hbyte (j : Nat) : s.transferByte (.terminal i) op j = r.bytes.getD j Memory.unwritten := by
    simp only [State.transferByte, hk, State.lineOf_terminal hin]
    rfl
  have heven : (Dev.terminal i).base % 2 = 0 := by simp only [Dev.base]; omega
  refine ⟨fun j hj => ?_, ?_, ?_, fun a ha h2 h6 => ?_, ?_⟩
  · rw [hmem, Memory.read_writeWord _ _ _ _ hw2, if_neg (by omega), if_neg (by omega),
      Memory.read_writeWord _ _ _ _ hw1, if_neg (by omega), if_neg (by omega), hread,
      if_pos ⟨by omega, by omega, rfl⟩, Nat.add_sub_cancel_left, hbyte, List.getD_eq_getElem _ _ hj]
  · rw [hmem, Memory.readWord_writeWord_apart _ _ _ _ hw2 (by omega), Memory.readWord_writeWord _ _ _ hw1]
  · rw [hmem, Memory.readWord_writeWord _ _ _ hw2]
  · rw [hmem, Memory.read_writeWord _ _ _ _ hw2, if_neg (by omega), if_neg (by omega),
      Memory.read_writeWord _ _ _ _ hw1, if_neg (by omega), if_neg (by omega), hread, if_neg (by omega)]
  · rw [hterms, Fin.getElem_fin, Vector.getElem_set_self]

end

/-- Settles O59: each kind of operation by what its transfer and its completion leave. -/
theorem transfersComplete : Obligations.TransfersComplete := by
  intro s d op hw hb hleft hf h0 t line
  refine ⟨?_, ?_, ?_, ?_, ?_, State.pollDevice_over hb h0 hleft⟩
  · rintro i rfl hcode hapart
    have hk : (Dev.drum i).opKind op.code = some .sectorRead := by rw [hcode]; rfl
    obtain ⟨hin, hout, -, hdrums, hstatus⟩ := State.sectorRead_completes hb h0 hleft hw hf hk
      (by simp only [Dev.statusAddr]; omega)
    exact ⟨hin, hout, hdrums, hstatus⟩
  · rintro i rfl hcode
    have hk : (Dev.drum i).opKind op.code = some .sectorWrite := by rw [hcode]; rfl
    exact State.sectorWrite_completes hb h0 hleft hf hk
  · rintro i rfl hcode
    have hk : (Dev.printer i).opKind op.code = some .print := by rw [hcode]; rfl
    refine ⟨?_, State.print_mem hb h0 hf hleft hk⟩
    rw [State.pollDevice_prints hb h0 hleft, State.finished_print hf hk]
    simp only [State.emit, (MovesOf.moveBytes hb (fun _ => true) op.arg.toNat).prints, Fin.getElem_fin,
      Vector.getElem_set_self, List.append_assoc]
    rfl
  · rintro i rfl hcode
    have hk : (Dev.terminal i).opKind op.code = some .print := by rw [hcode]; rfl
    refine ⟨?_, State.print_mem hb h0 hf hleft hk⟩
    rw [State.pollDevice_terms hb h0 hleft, State.finished_print hf hk]
    simp only [State.emit, (MovesOf.moveBytes hb (fun _ => true) op.arg.toNat).terms, Fin.getElem_fin,
      Vector.getElem_set_self, List.append_assoc]
    rfl
  · rintro i input rfl hcode hin r hapart
    have hk : (Dev.terminal i).opKind op.code = some .lineRead := by rw [hcode]; rfl
    exact State.lineRead_completes hb h0 hf hk hin hw hleft hapart

end Sys2Proof.Machine

/-! PROOFS. The path of a memory access (20_memory.md R84, R85), and what the controllers move in the instant
before it (R107, R112). -/

namespace Sys2Proof.Machine

/-! ### The path -/

/-- With mapping on an aligned address that no suspect stops is translated, after the instant (R84, R85). -/
theorem resolve_mapped {size : Size} {kind : Access} {va : Word} {s : State}
    (ha : misaligned size va = false) (hs : s.suspected size kind va = false) (hm : s.cpu.ps1.m = true) :
    resolve size kind va s.race = translate kind va s.race := by
  simp only [resolve, ha, State.race_suspected, hs, State.race_cpu, hm, Bool.false_eq_true, if_false, if_true]

/-- A translation leaves the configuration. -/
theorem translate_cfg {kind : Access} {va pa : Word} {s t : State}
    (h : translate kind va s = .ok (pa, t)) : t.cfg = s.cfg := by
  obtain ⟨_, _, _, _, rfl⟩ := translate_ok.1 h
  exact State.store_cfg _ _ _ _

/-- A read goes on at the address resolved (R84). -/
theorem memRead_of_resolve {size : Size} {kind : Access} {va pa : Word} {s t : State}
    (h : resolve size kind va s.race = .ok (pa, t)) : memRead size kind va s = physRead size pa t := by
  rw [memRead, instant_bind, bind_of_ok h]

/-- A write goes on at the address resolved (R85). -/
theorem memWrite_of_resolve {size : Size} {va pa : Word} {v : BitVec size.bits} {s t : State}
    (h : resolve size .write va s.race = .ok (pa, t)) : memWrite size va v s = physWrite size pa v t := by
  rw [memWrite, instant_bind, bind_of_ok h]

theorem memRead_of_fault {size : Size} {kind : Access} {va : Word} {s : State} {e : Abort}
    (h : resolve size kind va s.race = .error e) : memRead size kind va s = .error e := by
  rw [memRead, instant_bind, bind_of_error h]

theorem memWrite_of_fault {size : Size} {va : Word} {v : BitVec size.bits} {s : State} {e : Abort}
    (h : resolve size .write va s.race = .error e) : memWrite size va v s = .error e := by
  rw [memWrite, instant_bind, bind_of_error h]

/-- A word's low byte is at its own address, its high byte at the next (R63). -/
theorem State.load_word (s : State) {pa : Word} (h : pa ≠ 0xFFFF#16) :
    s.load pa .word = s.load (pa + 1) .byte ++ s.load pa .byte := by
  have hnext : (pa + 1).toNat = pa.toNat + 1 := by bv_omega
  simp only [State.load, Memory.readWord, wordOfBytes, hnext]

/-! ### What the controllers move -/

/-- Any number of instants keep the frame of an instruction that stores nothing. -/
theorem Frame.races (n : Nat) : ∀ {s : State}, s.mem.wf = true → Part [] NoStore s (s.races n) := by
  induction n with
  | zero => exact fun _ => .refl _
  | succ n ih =>
    exact fun hw => NoStore.or ▸ (Frame.race hw).trans (ih ((Moves.race _).wf hw))

/-- No transfer of the device is going on. -/
def State.idle (s : State) (d : Dev) : Prop :=
  ∀ op, s.io.ctl[d.slot].busy = some op → op.begun = false

/-- A controller without a transfer moves nothing. -/
theorem State.moveSome_idle {s : State} {d : Dev} (h : s.idle d) (draw : Nat) : s.moveSome draw d = s := by
  unfold State.moveSome
  split
  · rfl
  · next op hb => rw [if_neg (by simp [h op hb])]

theorem State.foldl_moveSome_idle {s : State} (draw : Nat) {ds : List Dev} (h : ∀ d ∈ ds, s.idle d) :
    ds.foldl (State.moveSome draw) s = s := by
  induction ds with
  | nil => rfl
  | cons d ds ih =>
    rw [List.foldl_cons, State.moveSome_idle (h d List.mem_cons_self)]
    exact ih (fun e he => h e (List.mem_cons_of_mem d he))

section
variable {s : State} {d : Dev} {op : DevOp} (hb : s.io.ctl[d.slot].busy = some op)
  (hg : op.begun = true)
include hb hg

/-- A transfer going on moves the bytes whose instant has come (R112). -/
theorem State.moveSome_begun (draw : Nat) : s.moveSome draw d =
    s.moveBytes d (Config.movesNow draw d.slot.val) (s.transferLength d op) := by
  simp only [State.moveSome, hb, hg, if_true]

theorem State.not_quiet : s.quiet = false := by
  have hrun : (s.io.ctl[d.slot].busy).any (fun op => op.begun) = true := by rw [hb]; exact hg
  rw [State.quiet, List.all_eq_false]
  exact ⟨d, Dev.mem_all d, by rw [hrun]; exact Bool.false_ne_true⟩

/-- Where one transfer alone is going on, the controllers move its bytes and nothing else. -/
theorem State.foldl_moveSome_single (hidle : ∀ e, e ≠ d → s.idle e) (draw : Nat) :
    Dev.all.foldl (State.moveSome draw) s = s.moveSome draw d := by
  obtain ⟨before, after, hall⟩ := List.append_of_mem (Dev.mem_all d)
  have hnodup : Dev.all.Nodup := by decide
  rw [hall, List.nodup_middle, List.nodup_cons, List.mem_append, not_or] at hnodup
  obtain ⟨⟨hbefore, hafter⟩, -⟩ := hnodup
  have hmoves : MovesOf d op s (s.moveSome draw d) :=
    State.moveSome_begun hb hg draw ▸ MovesOf.moveBytes hb _ _
  have hstill (e : Dev) (he : e ∈ after) : (s.moveSome draw d).idle e := by
    have hne : e ≠ d := fun h => hafter (h ▸ he)
    rw [State.idle, hmoves.others _ (Dev.slot_ne hne)]
    exact hidle e hne
  rw [hall, List.foldl_append,
    State.foldl_moveSome_idle draw (fun e he => hidle e (fun h => hbefore (h ▸ he))), List.foldl_cons,
    State.foldl_moveSome_idle draw hstill]

/-- Memory after the instant in which one transfer alone is going on. -/
theorem State.race_mem_single (hidle : ∀ e, e ≠ d → s.idle e) : s.race.mem =
    (s.moveBytes d (Config.movesNow s.draw d.slot.val) (s.transferLength d op)).mem := by
  rw [State.race, if_neg (by rw [State.not_quiet hb hg]; exact Bool.false_ne_true)]
  dsimp only
  rw [State.foldl_moveSome_single hb hg hidle, State.moveSome_begun hb hg]

/-- Of a single sector read exactly the bytes whose instant has come arrive (R112). -/
theorem State.race_sectorRead (hw : s.mem.wf = true) (hf : op.failure = none)
    (hk : d.opKind op.code = some .sectorRead) (h0 : op.moved = []) (hidle : ∀ e, e ≠ d → s.idle e)
    {j : Nat} (hj : j < 512) : s.race.mem.read (op.buf.toNat + j) =
      if Config.movesNow s.draw d.slot.val j then s.sectorByte op.arg.toNat j d
      else s.mem.read (op.buf.toNat + j) := by
  have hlen : s.transferLength d op = 512 := by simp only [State.transferLength, hf, hk]
  have hbyte : s.transferByte d op j = s.sectorByte op.arg.toNat j d := by
    simp only [State.transferByte, hk]
  rw [State.race_mem_single hb hg hidle, hlen, State.moveBytes_read hb h0 _ hw (.inl hk),
    Nat.add_sub_cancel_left, hbyte]
  exact if_congr (by simp only [Nat.le_add_right, Nat.add_lt_add_iff_left, hj, true_and]) rfl rfl

end

/-- Settles O16: the path with mapping off and on, the byte order, and what the controllers move before an
access. -/
theorem memoryAccess : Obligations.MemoryAccess := by
  refine ⟨fun size kind va s ha hs hm hlt => ?_, fun size va v s ha hs hm hlt => ?_,
    fun size kind va s pa t ha hs hm ht => ?_, fun size kind va s e ha hs hm ht => ?_,
    fun size va v s pa t ha hs hm ht => ?_, fun size va v s e ha hs hm ht => ?_,
    fun s pa h => s.load_word h,
    fun s hq => ⟨State.race_quiet hq, State.meanwhile_quiet hq⟩,
    fun s hw => ⟨Frame.race hw, fun n => Frame.races (n - s.draw) hw⟩,
    fun s d op hw hb hg hf hk h0 hothers j hj =>
      State.race_sectorRead hb hg hw hf hk h0 (fun e he op' => hothers e op' he) hj⟩
  · rw [memRead_of_resolve (resolve_unmapped ha hs hm), physRead, State.race_cfg, if_pos hlt]
  · rw [memWrite_of_resolve (resolve_unmapped ha hs hm), physWrite, State.race_cfg, if_pos hlt]
  · rw [memRead_of_resolve ((resolve_mapped ha hs hm).trans ht), physRead, translate_cfg ht, State.race_cfg]
  · exact memRead_of_fault ((resolve_mapped ha hs hm).trans ht)
  · rw [memWrite_of_resolve ((resolve_mapped ha hs hm).trans ht), physWrite, translate_cfg ht, State.race_cfg]
  · exact memWrite_of_fault ((resolve_mapped ha hs hm).trans ht)

end Sys2Proof.Machine

/-! PROOFS. The first word of an instruction (30_encoding.md R121, R127, R128): decoding what was encoded, and
encoding what was decoded. -/

namespace Sys2Proof

/-! ### Registers, modes and specifiers (R123, R124) -/

@[simp] theorem Reg.ofBits_bits (r : Reg) : Reg.ofBits r.bits = r := by cases r <;> rfl

@[simp] theorem Reg.bits_ofBits : ∀ b : BitVec 3, (Reg.ofBits b).bits = b := by decide

@[simp] theorem Mode.ofBits_bits (m : Mode) : Mode.ofBits m.bits = m := by cases m <;> rfl

@[simp] theorem Mode.bits_ofBits : ∀ b : BitVec 3, (Mode.ofBits b).bits = b := by decide

@[simp] theorem Operand.ofBits_bits (o : Operand) : Operand.ofBits o.bits = o := by
  simp only [Operand.ofBits, Operand.bits, BitVec.extractLsb'_append_eq_left,
    BitVec.extractLsb'_append_eq_right, Mode.ofBits_bits, Reg.ofBits_bits]

/-- A word cut at a bit is its two parts put together. -/
theorem append_fields {n m : Nat} (w : BitVec (n + m)) : w.extractLsb' m n ++ w.extractLsb' 0 m = w := by
  rw [BitVec.extractLsb'_append_extractLsb'_eq_extractLsb' (Nat.zero_add m).symm, BitVec.extractLsb'_eq_self]

@[simp] theorem Operand.bits_ofBits (b : BitVec 6) : (Operand.ofBits b).bits = b := by
  simp only [Operand.bits, Operand.ofBits, Mode.bits_ofBits, Reg.bits_ofBits]
  exact append_fields (n := 3) (m := 3) b

/-- A field of a word as a number: the digits of the word from the field's place on. -/
theorem field_eq_iff {start len : Nat} {w : Word} {field : BitVec len} :
    w.extractLsb' start len = field ↔ w.toNat / 2 ^ start % 2 ^ len = field.toNat := by
  rw [BitVec.toNat_eq, BitVec.extractLsb'_toNat, Nat.shiftRight_eq_div_pow]

/-! ### The fields of an encoded word (R121) -/

section Fields

variable {start len : Nat}

theorem encodeS_opcode (op : BitVec 10) (dd : Operand) (h : 6 ≤ start) :
    (encodeS op dd).extractLsb' start len = op.extractLsb' (start - 6) len :=
  BitVec.extractLsb'_append_eq_of_le h

theorem encodeD_opcode (op : BitVec 4) (ss dd : Operand) (h : 12 ≤ start) :
    (encodeD op ss dd).extractLsb' start len = op.extractLsb' (start - 12) len :=
  BitVec.extractLsb'_append_eq_of_le h

theorem encodeRS_opcode (op : BitVec 7) (r : Reg) (o : Operand) (h : 9 ≤ start) :
    (encodeRS op r o).extractLsb' start len = op.extractLsb' (start - 9) len :=
  BitVec.extractLsb'_append_eq_of_le h

theorem encodeB_opcode (op offset : BitVec 8) (h : 8 ≤ start) :
    (encodeB op offset).extractLsb' start len = op.extractLsb' (start - 8) len :=
  BitVec.extractLsb'_append_eq_of_le h

end Fields

@[simp] theorem encodeS_dd (op : BitVec 10) (dd : Operand) : (encodeS op dd).dd = dd := by
  rw [Word.dd, encodeS, BitVec.extractLsb'_append_eq_right, Operand.ofBits_bits]

@[simp] theorem encodeD_dd (op : BitVec 4) (ss dd : Operand) : (encodeD op ss dd).dd = dd := by
  rw [Word.dd, encodeD, BitVec.extractLsb'_append_eq_of_add_le (by decide),
    BitVec.extractLsb'_append_eq_right, Operand.ofBits_bits]

@[simp] theorem encodeD_ss (op : BitVec 4) (ss dd : Operand) : (encodeD op ss dd).ss = ss := by
  rw [Word.ss, encodeD, BitVec.extractLsb'_append_eq_of_add_le (by decide),
    BitVec.extractLsb'_append_eq_left, Operand.ofBits_bits]

@[simp] theorem encodeRS_dd (op : BitVec 7) (r : Reg) (o : Operand) : (encodeRS op r o).dd = o := by
  rw [Word.dd, encodeRS, BitVec.extractLsb'_append_eq_of_add_le (by decide),
    BitVec.extractLsb'_append_eq_right, Operand.ofBits_bits]

@[simp] theorem encodeRS_r (op : BitVec 7) (r : Reg) (o : Operand) : (encodeRS op r o).r = r := by
  rw [Word.r, encodeRS, BitVec.extractLsb'_append_eq_of_add_le (by decide),
    BitVec.extractLsb'_append_eq_left, Reg.ofBits_bits]

@[simp] theorem encodeB_low8 (op offset : BitVec 8) : (encodeB op offset).low8 = offset := by
  rw [Word.low8, encodeB, BitVec.extractLsb'_append_eq_right]

/-! ### Decoding what was encoded (R127, R128) -/

/-- `jsr` has two of the sixteen rows of bits 11:8, since its register begins at bit 8 (R128). -/
theorem decodeGroup0_jsr {w : Word} (h : w.extractLsb' 9 3 = 0b100#3) :
    decodeGroup0 w = some (.jsr w.r w.dd) := by
  have rows : w.extractLsb' 8 4 = 0b1000#4 ∨ w.extractLsb' 8 4 = 0b1001#4 := by
    simp [field_eq_iff] at h ⊢
    omega
  rcases rows with h | h <;> simp only [decodeGroup0, h]

theorem decodeWord_rts (r : Reg) : decodeWord (encode (.rts r)) = some (.rts r) := by cases r <;> rfl

theorem decodeWord_sob (r : Reg) (offset : BitVec 6) :
    decodeWord (encode (.sob r offset)) = some (.sob r offset) := by
  have opcode {start len : Nat} (h : 9 ≤ start) : (encode (.sob r offset)).extractLsb' start len =
      (0b0111111#7).extractLsb' (start - 9) len := BitVec.extractLsb'_append_eq_of_le h
  have reg : (encode (.sob r offset)).r = r := by
    rw [Word.r, encode, BitVec.extractLsb'_append_eq_of_add_le (by decide),
      BitVec.extractLsb'_append_eq_left, Reg.ofBits_bits]
  have count : (encode (.sob r offset)).low6 = offset := by
    rw [Word.low6, encode, BitVec.extractLsb'_append_eq_of_add_le (by decide),
      BitVec.extractLsb'_append_eq_right]
  simp [decodeWord, decodeGroup7, opcode, reg, count]

theorem decodeWord_mark (nn : BitVec 6) : decodeWord (encode (.mark nn)) = some (.mark nn) := by
  have opcode {start len : Nat} (h : 6 ≤ start) : (encode (.mark nn)).extractLsb' start len =
      (0b0000110100#10).extractLsb' (start - 6) len := BitVec.extractLsb'_append_eq_of_le h
  have count : (encode (.mark nn)).low6 = nn := by
    rw [Word.low6, encode, BitVec.extractLsb'_append_eq_right]
  simp [decodeWord, decodeGroup0, opcode, count]

/-- A condition code word that has no name of its own is the general operator's (R300, R132). -/
theorem decodeWord_ccop : ∀ s n z v c : Bool, (Instr.ccop s n z v c).wellFormed = true →
    decodeWord (encode (.ccop s n z v c)) = some (.ccop s n z v c) := by decide

/-- The decoder's rows are told apart by the opcode bits, which each format leaves as they are. -/
theorem decodeWord_encode {i : Instr} (h : i.wellFormed = true) : decodeWord (encode i) = some i := by
  cases i with
  | halt | ldst | stst | ldit | ldim | ldstl | movbck | stck | inprg | csv | cret | nop | clc | clv | clz | cln
    | ccc | sec | sev | sez | sen | scc => rfl
  | mov ss dd | movb ss dd | cmp ss dd | cmpb ss dd | bit ss dd | bitb ss dd | bic ss dd | bicb ss dd
    | bis ss dd | bisb ss dd | add ss dd | sub ss dd => simp [encode, decodeWord, encodeD_opcode]
  | clr dd | com dd | inc dd | dec dd | neg dd | adc dd | sbc dd | tst dd | ror dd | rol dd | asr dd | asl dd
    | sxt dd => simp [encode, decodeWord, decodeGroup0, encodeS_opcode]
  | swab dd | jmp dd => simp [encode, decodeWord, decodeGroup0, decodeLowest, encodeS_opcode]
  | clrb dd | comb dd | incb dd | decb dd | negb dd | adcb dd | sbcb dd | tstb dd | rorb dd | rolb dd | asrb dd
    | aslb dd => simp [encode, decodeWord, decodeGroup8, encodeS_opcode]
  | ash r o | ashc r o | mul r o | div r o | xor r o =>
    simp [encode, decodeWord, decodeGroup7, encodeRS_opcode]
  | jsr r dd => simp [encode, decodeWord, encodeRS_opcode, decodeGroup0_jsr]
  | br n | bne n | beq n | bge n | blt n | bgt n | ble n =>
    simp [encode, decodeWord, decodeGroup0, encodeB_opcode]
  | bpl n | bmi n | bhi n | blos n | bvc n | bvs n | bcc n | bcs n | sys n =>
    simp [encode, decodeWord, decodeGroup8, encodeB_opcode]
  | bhis n | blo n => cases h
  | rts r => exact decodeWord_rts r
  | sob r n => exact decodeWord_sob r n
  | mark n => exact decodeWord_mark n
  | ccop s n z v c => exact decodeWord_ccop s n z v c h

/-! ### Bytes (20_memory.md R63) -/

@[simp] theorem wordOfBytes_bytes (w : Word) :
    wordOfBytes (w.extractLsb' 0 8) (w.extractLsb' 8 8) = w := append_fields (n := 8) (m := 8) w

theorem decode_of_some {set : List (Nat × Nat)} {w : Word} {i : Instr} {rest : List Byte}
    (h : decodeWord w = some i) : decode set (bytesOfWord w ++ rest) = .ok (i, rest) := by
  simp [bytesOfWord, decode, h]

theorem decode_of_none {set : List (Nat × Nat)} {w : Word} (h : decodeWord w = none) :
    decode set (bytesOfWord w) = .error (classifyReject set w) := by
  simp [bytesOfWord, decode, h]

/-- Settles O1: the bytes hold the word, and the word is decoded to its instruction. -/
theorem decodeEncode : Obligations.DecodeEncode :=
  fun _ _ _ h => decode_of_some (decodeWord_encode h)

/-- Settles O3: each word is evaluated. -/
theorem sampleWordsDecode : Obligations.SampleWordsDecode := by
  unfold Obligations.SampleWordsDecode
  decide

/-! ### Encoding what was decoded (R128, R132) -/

/-- Two fields side by side at the low end of a word are one field. -/
theorem joined_fields {k start len : Nat} (w : BitVec k) :
    w.extractLsb' start len ++ w.extractLsb' 0 start = w.extractLsb' 0 (len + start) :=
  BitVec.extractLsb'_append_extractLsb'_eq_extractLsb' (Nat.zero_add start).symm

/-- A word is its opcode, of any length, and the rest. -/
theorem opcode_append_rest_eq_iff {n m : Nat} {op : BitVec n} {w : BitVec (n + m)} :
    op ++ w.extractLsb' 0 m = w ↔ w.toNat / 2 ^ m = op.toNat := by
  have hm : w.toNat / 2 ^ m < 2 ^ n := by
    rw [Nat.div_lt_iff_lt_mul (by positivity), ← pow_add]
    exact w.isLt
  conv_lhs => rhs; rw [← append_fields w]
  rw [BitVec.append_left_inj, BitVec.toNat_eq, BitVec.extractLsb'_toNat, Nat.shiftRight_eq_div_pow,
    Nat.mod_eq_of_lt hm, eq_comm]

section Parts

variable {w : Word}

/-! Of the fields of a word each format makes the word again exactly when the opcode is the one the word begins
with. -/

theorem encodeS_eq_iff {op : BitVec 10} : encodeS op w.dd = w ↔ w.toNat / 64 = op.toNat := by
  rw [encodeS, Word.dd, Operand.bits_ofBits]
  exact opcode_append_rest_eq_iff

theorem encodeD_eq_iff {op : BitVec 4} : encodeD op w.ss w.dd = w ↔ w.toNat / 4096 = op.toNat := by
  rw [encodeD, Word.ss, Word.dd, Operand.bits_ofBits, Operand.bits_ofBits, joined_fields]
  exact opcode_append_rest_eq_iff

theorem encodeRS_eq_iff {op : BitVec 7} : encodeRS op w.r w.dd = w ↔ w.toNat / 512 = op.toNat := by
  rw [encodeRS, Word.r, Word.dd, Reg.bits_ofBits, Operand.bits_ofBits, joined_fields]
  exact opcode_append_rest_eq_iff

theorem encodeB_eq_iff {op : BitVec 8} : encodeB op w.low8 = w ↔ w.toNat / 256 = op.toNat :=
  opcode_append_rest_eq_iff

theorem encode_sob_eq_iff : encode (.sob w.r w.low6) = w ↔ w.toNat / 512 = 0o077 := by
  rw [encode, Word.r, Word.low6, Reg.bits_ofBits, joined_fields]
  exact opcode_append_rest_eq_iff

theorem encode_mark_eq_iff : encode (.mark w.low6) = w ↔ w.toNat / 64 = 0o064 :=
  opcode_append_rest_eq_iff

theorem encode_rts_eq_iff :
    encode (.rts (Reg.ofBits (w.extractLsb' 0 3))) = w ↔ w.toNat / 8 = 0o020 := by
  rw [encode, Reg.bits_ofBits]
  exact opcode_append_rest_eq_iff

end Parts

/-- The decoder names a condition code word by the name of its own, if it has one (R132). -/
theorem decodeCc_wellFormed : ∀ b : BitVec 5, (decodeCc b).wellFormed = true := by decide

theorem encode_decodeCc : ∀ b : BitVec 5, encode (decodeCc b) = 0b00000000101#11 ++ b := by decide

theorem encode_decodeCc_eq_iff {w : Word} :
    encode (decodeCc (w.extractLsb' 0 5)) = w ↔ w.toNat / 32 = 0o005 := by
  rw [encode_decodeCc]
  exact opcode_append_rest_eq_iff

/-- The instruction is the one name of the word (R132). -/
def Instr.Names (i : Instr) (w : Word) : Prop := i.wellFormed = true ∧ encode i = w

/-- The words below 000400 (R128). -/
theorem decodeLowest_names {w : Word} {i : Instr} (hw : w.extractLsb' 12 4 = 0x0#4)
    (hrow : w.extractLsb' 8 4 = 0b0000#4) (h : decodeLowest w = some i) : i.Names w := by
  unfold decodeLowest at h
  split at h
  case h_1 =>
    split at h <;> cases h
    exact ⟨rfl, Eq.symm ‹_›⟩
  case h_3 =>
    split at h
    · cases h
      refine ⟨rfl, ?_⟩
      simp [field_eq_iff, ↓encode_rts_eq_iff] at *
      omega
    · split at h <;> cases h
      refine ⟨decodeCc_wellFormed _, ?_⟩
      simp [field_eq_iff, encode_decodeCc_eq_iff] at *
      omega
  all_goals
    cases h
    refine ⟨rfl, ?_⟩
    simp [field_eq_iff, encode, encodeS_eq_iff] at *
    omega

/-- The fixed words are compared whole (R130). -/
theorem decodePrivileged_names {w : Word} {i : Instr} (h : decodePrivileged w = some i) : i.Names w := by
  unfold decodePrivileged at h
  repeat' split at h
  all_goals cases h
  all_goals exact ⟨rfl, Eq.symm ‹_›⟩

theorem decodeNewUser_names {w : Word} {i : Instr} (h : decodeNewUser w = some i) : i.Names w := by
  unfold decodeNewUser at h
  repeat' split at h
  all_goals cases h
  all_goals exact ⟨rfl, Eq.symm ‹_›⟩

/-- The words below 010000: rows h_2 to h_8 are the branches, h_9 and h_10 `jsr`, h_11 to h_14 the groups of
format S told apart by bits 7:6, with `mark` (R128). -/
theorem decodeGroup0_names {w : Word} {i : Instr} (hw : w.extractLsb' 12 4 = 0x0#4)
    (h : decodeGroup0 w = some i) : i.Names w := by
  unfold decodeGroup0 at h
  split at h
  case h_1 hrow => exact decodeLowest_names hw hrow h
  case h_15 => exact decodePrivileged_names h
  case h_11 | h_12 | h_13 | h_14 =>
    split at h <;> cases h <;> refine ⟨rfl, ?_⟩ <;>
      simp [field_eq_iff, encode, ↓encode_mark_eq_iff, encodeS_eq_iff] at * <;> omega
  all_goals
    cases h
    refine ⟨rfl, ?_⟩
    simp [field_eq_iff, encode, encodeB_eq_iff, encodeRS_eq_iff] at *
    omega

theorem decodeGroup7_names {w : Word} {i : Instr} (hw : w.extractLsb' 12 4 = 0x7#4)
    (h : decodeGroup7 w = some i) : i.Names w := by
  unfold decodeGroup7 at h
  split at h <;> cases h <;> refine ⟨rfl, ?_⟩ <;>
    simp [field_eq_iff, encode, ↓encode_sob_eq_iff, encodeRS_eq_iff] at * <;> omega

/-- The words 100000 to 107777: as group 0, with the byte forms and SYS (R128). -/
theorem decodeGroup8_names {w : Word} {i : Instr} (hw : w.extractLsb' 12 4 = 0x8#4)
    (h : decodeGroup8 w = some i) : i.Names w := by
  unfold decodeGroup8 at h
  split at h
  case h_15 => exact decodeNewUser_names h
  case h_11 | h_12 | h_13 =>
    split at h <;> cases h <;> refine ⟨rfl, ?_⟩ <;>
      simp [field_eq_iff, encode, encodeS_eq_iff] at * <;> omega
  all_goals cases h
  all_goals
    refine ⟨rfl, ?_⟩
    simp [field_eq_iff, encode, encodeB_eq_iff] at *
    omega

/-- Every digit but 0, 7 and 8 is an opcode of format D (R128). -/
theorem decodeWord_names {w : Word} {i : Instr} (h : decodeWord w = some i) : i.Names w := by
  unfold decodeWord at h
  split at h
  case h_1 hw => exact decodeGroup0_names hw h
  case h_8 hw => exact decodeGroup7_names hw h
  case h_9 hw => exact decodeGroup8_names hw h
  all_goals cases h
  all_goals
    refine ⟨rfl, ?_⟩
    simp [field_eq_iff, encode, encodeD_eq_iff] at *
    omega

/-- Settles O2: every branch of the decoder has the opcode of its instruction, and takes the fields from the
word. -/
theorem encodeDecode : Obligations.EncodeDecode := fun _ _ h => decodeWord_names h

end Sys2Proof

/-! PROOFS. The words that are no instruction (30_encoding.md R128, R136), and the instructions that are
ill-formed (R137). -/

namespace Sys2Proof.Machine

/-! ### Words that match no row (30_encoding.md R128, R136)

The ranges are found as the decoder branches: those of each group by its rows, then those of all words. -/

@[simp] theorem inRanges_nil (w : Word) : inRanges [] w = false := rfl

@[simp] theorem inRanges_cons (lo hi : Nat) (ranges : List (Nat × Nat)) (w : Word) :
    inRanges ((lo, hi) :: ranges) w = true ↔
      (lo ≤ w.toNat ∧ w.toNat ≤ hi) ∨ inRanges ranges w = true := by
  simp [inRanges]

theorem decodeLowest_eq_none_iff {w : Word} (hw : w.extractLsb' 12 4 = 0x0#4)
    (hrow : w.extractLsb' 8 4 = 0b0000#4) :
    decodeLowest w = none ↔ inRanges [(0o1, 0o77), (0o210, 0o237)] w = true := by
  unfold decodeLowest
  split
  case h_1 =>
    split <;> simp [BitVec.toNat_eq] at * <;> omega
  case h_3 =>
    split
    · simp [field_eq_iff] at *; omega
    · split <;> simp [field_eq_iff] at * <;> omega
  all_goals simp [field_eq_iff] at *; omega

theorem decodePrivileged_eq_none_iff {w : Word} (hw : w.toNat / 512 = 0o7) : decodePrivileged w = none ↔
    inRanges [(0o7001, 0o7077), (0o7101, 0o7177), (0o7201, 0o7277), (0o7301, 0o7377), (0o7401, 0o7777)] w
      = true := by
  unfold decodePrivileged
  repeat' split
  all_goals
    simp [BitVec.toNat_eq] at *
    omega

theorem decodeNewUser_eq_none_iff {w : Word} (hw : w.toNat / 512 = 0o107) : decodeNewUser w = none ↔
    inRanges [(0o107001, 0o107077), (0o107101, 0o107177), (0o107201, 0o107277), (0o107301, 0o107377),
      (0o107401, 0o107777)] w = true := by
  unfold decodeNewUser
  repeat' split
  all_goals
    simp [BitVec.toNat_eq] at *
    omega

theorem decodeGroup0_eq_none_iff {w : Word} (hw : w.extractLsb' 12 4 = 0x0#4) : decodeGroup0 w = none ↔
    inRanges [(0o1, 0o77), (0o210, 0o237), (0o6500, 0o6677), (0o7001, 0o7077), (0o7101, 0o7177),
      (0o7201, 0o7277), (0o7301, 0o7377), (0o7401, 0o7777)] w = true := by
  unfold decodeGroup0
  split
  case h_1 hrow =>
    rw [decodeLowest_eq_none_iff hw hrow]
    simp [field_eq_iff] at *
    omega
  case h_15 =>
    rw [decodePrivileged_eq_none_iff (by simp [field_eq_iff] at *; omega)]
    simp [field_eq_iff] at *
    omega
  case h_11 | h_12 | h_13 | h_14 => split <;> simp [field_eq_iff] at * <;> omega
  all_goals
    simp [field_eq_iff] at *
    omega

theorem decodeGroup7_eq_none_iff {w : Word} (hw : w.extractLsb' 12 4 = 0x7#4) :
    decodeGroup7 w = none ↔ inRanges [(0o75000, 0o76777)] w = true := by
  unfold decodeGroup7
  split <;> simp [field_eq_iff] at * <;> omega

theorem decodeGroup8_eq_none_iff {w : Word} (hw : w.extractLsb' 12 4 = 0x8#4) : decodeGroup8 w = none ↔
    inRanges [(0o104000, 0o104377), (0o106400, 0o106777), (0o107001, 0o107077), (0o107101, 0o107177),
      (0o107201, 0o107277), (0o107301, 0o107377), (0o107401, 0o107777)] w = true := by
  unfold decodeGroup8
  split
  case h_15 =>
    rw [decodeNewUser_eq_none_iff (by simp [field_eq_iff] at *; omega)]
    simp [field_eq_iff] at *
    omega
  case h_11 | h_12 | h_13 => split <;> simp [field_eq_iff] at * <;> omega
  all_goals
    simp [field_eq_iff] at *
    omega

/-- The words that match no row are those of the unassigned ranges. -/
theorem decodeWord_eq_none_iff (w : Word) : decodeWord w = none ↔
    inRanges unsupportedRanges w = true ∨ inRanges illegalRanges w = true := by
  unfold decodeWord unsupportedRanges illegalRanges
  split
  case h_1 hw =>
    rw [decodeGroup0_eq_none_iff hw]
    simp [field_eq_iff] at *
    omega
  case h_8 hw =>
    rw [decodeGroup7_eq_none_iff hw]
    simp [field_eq_iff] at *
    omega
  case h_9 hw =>
    rw [decodeGroup8_eq_none_iff hw]
    simp [field_eq_iff] at *
    omega
  all_goals
    simp [field_eq_iff] at *
    omega

/-- No word lies in ranges of both kinds. -/
theorem not_unsupported_of_illegal {w : Word} (h : inRanges illegalRanges w = true) :
    inRanges unsupportedRanges w = false := by
  rw [← Bool.not_eq_true]
  simp [illegalRanges, unsupportedRanges] at h ⊢
  omega

/-- The default `UNSUPPORTED_SET` tells the two kinds apart (R136). -/
theorem classifyReject_default (w : Word) : classifyReject Config.pdp11Unsupported w =
    if inRanges unsupportedRanges w then .unsupported else .illegalOpcode := rfl

/-- A word that is no instruction is given up with its trap, after the fetch (R135, R318). -/
theorem runInstruction_of_reject {s s1 : State} {w : Word} (hf : fetchWord s = .ok (w, s1))
    (hw : decodeWord w = none) : s.runInstruction =
      .next ((s.meanwhile s1.draw).takeTrap (rejectTrap (classifyReject s.cfg.unsupported w))) := by
  have hfetch : s.fetch =
      .error (.trap (rejectTrap (classifyReject s.cfg.unsupported w)) s1.draw) := by
    simp only [State.fetch, hf, decode_of_none hw]
  rw [State.runInstruction, hfetch]
  rfl

/-- Settles O4: the ranges are read off the decoder's branches, and the trap off the fetch. -/
theorem rejectedWordsTrap : Obligations.RejectedWordsTrap := by
  refine ⟨fun w => ?_, fun s s1 w hset hf => ⟨fun hu => ?_, fun hi => ?_⟩⟩
  · rw [decodeWord_eq_none_iff, Bool.or_eq_true]
  · rw [runInstruction_of_reject hf ((decodeWord_eq_none_iff w).2 (.inl hu)), hset,
      classifyReject_default, if_pos hu]
    rfl
  · rw [runInstruction_of_reject hf ((decodeWord_eq_none_iff w).2 (.inr hi)), hset,
      classifyReject_default, not_unsupported_of_illegal hi]
    rfl

/-! ### Ill-formed instructions (R137) -/

/-- An instruction whose body raises a Program trap is undone, but for what the controllers moved (R318). -/
theorem transact_of_raise {role : StackRole} {body : Exec Unit} {s s1 : State} {code : ProgCode} {n : Nat}
    (hf : Fetches s s1) (hb : body s1 = .error (.trap (.program code) n)) :
    transact role body s = .next ((s.meanwhile n).takeTrap (.program code)) := by
  obtain ⟨w, hf⟩ := hf
  exact transact_of_error hf hb

/-- Register mode selects no address to jump to (R280, R283), so that neither body gets further. -/
theorem jumpTarget_register (r : Reg) (s : State) :
    jumpTarget ⟨.register, r⟩ s = .error (.trap (.program .illInstruction) s.draw) := rfl

theorem jmpBody_register (r : Reg) (s : State) :
    jmpBody ⟨.register, r⟩ s = .error (.trap (.program .illInstruction) s.draw) :=
  bind_of_error (jumpTarget_register r s)

theorem jsrBody_register (r q : Reg) (s : State) :
    jsrBody r ⟨.register, q⟩ s = .error (.trap (.program .illInstruction) s.draw) :=
  bind_of_error (jumpTarget_register q s)

/-- An odd register is found before the operand is evaluated (R236). -/
theorem divBody_odd {r : Reg} (hr : oddReg r = true) (ss : Operand) (s : State) :
    divBody r ss s = .error (.trap (.program .illInstruction) s.draw) := by
  rw [divBody, if_pos hr, raiseProgram_apply]

theorem oddReg_of_mem : ∀ r ∈ [Reg.r1, .r3, .r5, .pc], oddReg r = true := by decide

/-- A block above the page size is found after the three arguments are read (R185). -/
theorem movbckBody_tooLong {s1 s2 s3 s4 : State} {src dst size : Word}
    (hsrc : memRead .word .read s1.cpu.sp s1 = .ok (src, s2))
    (hdst : memRead .word .read (s1.cpu.sp + 2) s2 = .ok (dst, s3))
    (hsize : memRead .word .read (s1.cpu.sp + 4) s3 = .ok (size, s4)) (hlong : 512 < size.toNat) :
    movbckBody s1 = .error (.trap (.program .illInstruction) s4.draw) := by
  rw [movbckBody, bind_of_ok (getReg_apply .sp s1), show s1.reg .sp = s1.cpu.sp from rfl,
    bind_of_ok hsrc, bind_of_ok hdst, bind_of_ok hsize, bind_of_ok (peek_apply _ _), if_pos hlong,
    raiseProgram_apply]

/-- Settles O13: each body raises the trap where the rule says, and the transaction undoes the rest. -/
theorem illInstructionsTrap : Obligations.IllInstructionsTrap :=
  ⟨fun r _ s1 hf => transact_of_raise hf (jmpBody_register r s1),
    fun r q _ s1 hf => transact_of_raise hf (jsrBody_register r q s1),
    fun _ ss _ s1 hr hf => transact_of_raise hf (divBody_odd (oddReg_of_mem _ hr) ss s1),
    fun _ _ _ _ _ _ _ _ hf hsrc hdst hsize hlong =>
      transact_of_raise hf (movbckBody_tooLong hsrc hdst hsize hlong)⟩

end Sys2Proof.Machine

/-! PROOFS. Operands (40_operand_addressing.md R151 to R167): an equation per addressing mode, reading and
writing what a specifier selects, and the order of source and destination. -/

namespace Sys2Proof.Machine

/-! ### The eight addressing modes -/

/-- A byte operand steps R0 to R5 by one; SP and PC, and every register of a word operand, step by two. -/
theorem stepOf_eq (size : Size) (r : Reg) :
    stepOf size r = if size = .byte ∧ r ≠ .sp ∧ r ≠ .pc then 1 else 2 := by
  cases size with
  | word => exact stepOf_word r
  | byte => cases r <;> rfl

/-- With `IMMEDIATE_ACCESS_KIND` at its default mode 2 reaches its operand as mode 3 does its pointer (D6). -/
theorem immediateAccess_execute {g : Config} (h : g.immediateKind = .execute) (r : Reg) :
    immediateAccess g r = streamKind r := by
  rw [immediateAccess, h, streamKind]

theorem operand_register (size : Size) (r : Reg) (s : State) :
    operand size ⟨.register, r⟩ s = .ok (.reg r, s) := rfl

theorem operand_deferred (size : Size) (r : Reg) (s : State) :
    operand size ⟨.deferred, r⟩ s = .ok (.mem (s.reg r) .read, s) := rfl

theorem operand_autoInc (size : Size) (r : Reg) (s : State) :
    operand size ⟨.autoInc, r⟩ s =
      .ok (.mem (s.reg r) (immediateAccess s.cfg r), s.setReg r (s.reg r + stepOf size r)) := rfl

theorem operand_autoDec (size : Size) (r : Reg) (s : State) :
    operand size ⟨.autoDec, r⟩ s =
      .ok (.mem (s.reg r - stepOf size r) .read, s.setReg r (s.reg r - stepOf size r)) := rfl

/-- Mode 3 steps its register before it reads the pointer word (R156). -/
theorem operand_autoIncDeferred {size : Size} {r : Reg} {s t : State} {p : Word}
    (h : memRead .word (streamKind r) (s.reg r) (s.setReg r (s.reg r + 2)) = .ok (p, t)) :
    operand size ⟨.autoIncDeferred, r⟩ s = .ok (.mem p .read, t) :=
  (bind_of_ok (getReg_apply r s)).trans ((bind_of_ok (putReg_apply r _ s)).trans (bind_of_ok h))

/-- Mode 5 steps its register before it reads the pointer word (R158). -/
theorem operand_autoDecDeferred {size : Size} {r : Reg} {s t : State} {p : Word}
    (h : memRead .word .read (s.reg r - 2) (s.setReg r (s.reg r - 2)) = .ok (p, t)) :
    operand size ⟨.autoDecDeferred, r⟩ s = .ok (.mem p .read, t) :=
  (bind_of_ok (getReg_apply r s)).trans ((bind_of_ok (putReg_apply r _ s)).trans (bind_of_ok h))

/-- Mode 6 takes its register after the extension word is fetched, so that PC is past it (R159, R161). -/
theorem operand_index {size : Size} {r : Reg} {s t : State} {x : Word} (h : fetchWord s = .ok (x, t)) :
    operand size ⟨.index, r⟩ s = .ok (.mem (t.reg r + x) .read, t) :=
  bind_of_ok h

theorem operand_indexDeferred {size : Size} {r : Reg} {s t u : State} {x p : Word}
    (hx : fetchWord s = .ok (x, t)) (hp : memRead .word .read (t.reg r + x) t = .ok (p, u)) :
    operand size ⟨.indexDeferred, r⟩ s = .ok (.mem p .read, u) :=
  (bind_of_ok hx).trans ((bind_of_ok (getReg_apply r t)).trans (bind_of_ok hp))

/-- With mapping off and no transfer going on, a word read after a register is written is what memory held
before. -/
theorem memRead_setReg_direct {kind : Access} {va : Word} {s : State} (h : Direct s .word va) (r : Reg)
    (v : Word) : memRead .word kind va (s.setReg r v) = .ok (s.mem.readWord va.toNat, s.setReg r v) :=
  memRead_direct (h.setReg r v)

/-! ### Reading and writing what a specifier selects -/

/-- The byte replaces the low byte and leaves the high one, here written with a mask (R152). -/
theorem mergeLow_byte (old : Word) (v : Byte) :
    mergeLow old .byte v = (old &&& 0xFF00#16) ||| v.setWidth 16 := by
  have hmask : old &&& 0xFF00#16 = highByte old ++ 0#8 := by
    calc old &&& 0xFF00#16
        = (highByte old ++ lowByte old) &&& (BitVec.allOnes 8 ++ 0#8) :=
          congrArg (· &&& 0xFF00#16) (append_fields (n := 8) (m := 8) old).symm
      _ = highByte old ++ 0#8 := by rw [BitVec.and_append, BitVec.and_allOnes, BitVec.and_zero]
  have hbyte : v.setWidth 16 = 0#8 ++ v := BitVec.setWidth_eq_append (by omega)
  rw [mergeLow, hmask, hbyte, BitVec.or_append, BitVec.or_zero, BitVec.zero_or]

theorem readLoc_reg_word (r : Reg) (s : State) : readLoc .word (.reg r) s = .ok (s.reg r, s) := by
  rw [readLoc, peek_apply]
  exact congrArg (fun v : Word => Except.ok (v, s)) (BitVec.setWidth_eq (s.reg r))

theorem readLoc_reg_byte (r : Reg) (s : State) :
    readLoc .byte (.reg r) s = .ok ((s.reg r).extractLsb' 0 8, s) := rfl

theorem writeLoc_reg_byte (r : Reg) (s : State) (v : Byte) :
    writeLoc .byte v (.reg r) s = .ok ((), s.setReg r ((s.reg r &&& 0xFF00#16) ||| v.setWidth 16)) := by
  rw [writeLoc, update_apply, mergeLow_byte]

/-! ### The order of source and destination -/

/-- At the spec's answers to M1 and M2 a source is read once (R167). -/
theorem rereadsSource_default {g : Config} (h1 : g.steppedSource = false) (h2 : g.latePcSource = false)
    (ss dd : Operand) : rereadsSource g ss dd = false := by
  simp [rereadsSource, h1, h2]

/-- The source is evaluated and read before the destination is evaluated, and not read again: no part of the
evaluation changes the configuration (R166, R167). -/
theorem sourceThenDest_of_ok {size : Size} {ss dd : Operand} {sloc dloc : Loc} {src : BitVec size.bits}
    {s s1 s2 s3 : State} (h1 : s.cfg.steppedSource = false) (h2 : s.cfg.latePcSource = false)
    (hs : operand size ss s = .ok (sloc, s1)) (hr : readLoc size sloc s1 = .ok (src, s2))
    (hd : operand size dd s2 = .ok (dloc, s3)) :
    sourceThenDest size ss dd s = .ok ((src, dloc), s3) := by
  have hcfg : s3.cfg = s.cfg :=
    (operand_kept hd).system.cfg.trans ((readLoc_kept hr).system.cfg.trans (operand_kept hs).system.cfg)
  have honce : rereadsSource s3.cfg ss dd = false := by rw [hcfg, rereadsSource_default h1 h2]
  rw [sourceThenDest, bind_of_ok hs, bind_of_ok hr, bind_of_ok hd, bind_of_ok (peek_apply _ _), honce]
  rfl

/-- Settles O18: the equations of the modes at the direct reads, then those of the parts. -/
theorem operandForms : Obligations.OperandForms := by
  refine ⟨fun size r s => ?_, fun size r s => ?_, fun s t w h => fetchWord_ok.2 ⟨t, h, rfl⟩,
    fun _ _ _ _ => rfl, fun _ _ _ _ _ => rfl, fun size o s => ?_, fun size ss dd s h1 h2 => ?_,
    readLoc_reg_word, readLoc_reg_byte, fun _ _ _ => rfl, writeLoc_reg_byte,
    fun r q s v => State.reg_setReg s r q v⟩
  · simp only [← stepOf_eq]
    refine ⟨operand_register size r s, operand_deferred size r s, fun hk => ?_, operand_autoDec size r s,
      fun h => operand_autoIncDeferred (memRead_setReg_direct h r _),
      fun h => operand_autoDecDeferred (memRead_setReg_direct h r _),
      fun hf => operand_index (fetchWord_direct hf),
      fun hf h => operand_indexDeferred (fetchWord_direct hf) (memRead_setReg_direct h .pc _)⟩
    rw [operand_autoInc, immediateAccess_execute hk, streamKind]
  · exact ⟨fun _ _ h => operand_autoIncDeferred h, fun _ _ h => operand_autoDecDeferred h,
      fun _ _ h => operand_index h, fun _ _ _ _ hx hp => operand_indexDeferred hx hp⟩
  · cases hs : operand size o s with
    | error e => exact bind_of_error hs
    | ok p => exact bind_of_ok hs
  · cases hs : operand size ss s with
    | error e => exact bind_of_error hs
    | ok p =>
      obtain ⟨sloc, s1⟩ := p
      dsimp only
      cases hr : readLoc size sloc s1 with
      | error e => exact (bind_of_ok hs).trans (bind_of_error hr)
      | ok p =>
        obtain ⟨src, s2⟩ := p
        dsimp only
        cases hd : operand size dd s2 with
        | error e => exact (bind_of_ok hs).trans ((bind_of_ok hr).trans (bind_of_error hd))
        | ok p => exact sourceThenDest_of_ok h1 h2 hs hr hd

end Sys2Proof.Machine

/-! PROOFS. SYS and INPRG (41_new_user_instructions.md R181, R182). -/

namespace Sys2Proof.Machine

/-- SYS completes with the entry of its area from the state after the fetch; no stack check follows an
entry (R181, R332). -/
theorem exec_sys_of {number : BitVec 8} {s s1 : State} (hf : Fetches s s1) :
    exec (.sys number) s = .next (s1.enter sysArea (number.setWidth 16)) :=
  transact_completes hf (update_apply _ s1) (fun hchecked => nomatch hchecked)

theorem inprgBody_of {target : Word} {s s2 t : State}
    (hr : memRead .word .read s.cpu.sp s = .ok (target, s2))
    (hw : memWrite .word s.cpu.sp s2.cpu.pc s2 = .ok ((), t)) :
    inprgBody s = .ok ((), t.setReg .pc target) := by
  rw [inprgBody, bind_of_ok (getReg_apply .sp s), State.reg_sp, bind_of_ok hr,
    bind_of_ok (getReg_apply .pc s2), State.reg_pc, bind_of_ok hw, putReg_apply]

/-- INPRG completes with PC on the stack and the word it replaces in PC, if the stack is clear (R182). -/
theorem exec_inprg_of {target : Word} {s s1 s2 t : State} (hf : Fetches s s1)
    (hr : memRead .word .read s1.cpu.sp s1 = .ok (target, s2))
    (hw : memWrite .word s1.cpu.sp (s.cpu.pc + 2) s2 = .ok ((), t))
    (hc : StackClear (.ordinary false) s t) : exec .inprg s = .next (t.setReg .pc target) := by
  have hpc : s2.cpu.pc = s.cpu.pc + 2 := by rw [memRead_cpu hr, hf.pc]
  rw [← hpc] at hw
  exact transact_completes hf (inprgBody_of hr hw) (hc.of_same rfl rfl rfl)

/-- Settles O35: SYS is the entry after the fetch, and INPRG the chain of its parts. -/
theorem systemCallAndInitialize : Obligations.SystemCallAndInitialize :=
  ⟨fun _ _ _ hf => ⟨hf.pc, exec_sys_of hf⟩, fun _ _ _ _ _ hf hr hw hc => exec_inprg_of hf hr hw hc⟩

end Sys2Proof.Machine

/-! PROOFS. Frames of functions: CSV and CRET (41_new_user_instructions.md R183, R184). -/

namespace Sys2Proof.Machine

@[simp] theorem State.reg_r5 (s : State) : s.reg .r5 = s.cpu.r5 := rfl

/-! ### CSV -/

theorem csvBody_of {s u1 u2 u3 t : State} (h5 : push s.cpu.r5 s = .ok ((), u1))
    (h4 : push s.cpu.r4 (u1.setReg .r5 u1.cpu.sp) = .ok ((), u2))
    (h3 : push s.cpu.r3 u2 = .ok ((), u3)) (h2 : push s.cpu.r2 u3 = .ok ((), t)) :
    csvBody s = .ok ((), t) := by
  have kept1 {r : Reg} (hsp : r ≠ .sp) (hr5 : r ≠ .r5) : (u1.setReg .r5 u1.cpu.sp).reg r = s.reg r :=
    (State.reg_setReg_other _ _ _ _ hr5).trans (push_reg h5 hsp)
  have r4 : (u1.setReg .r5 u1.cpu.sp).reg .r4 = s.cpu.r4 := kept1 (by decide) (by decide)
  have r3 : u2.reg .r3 = s.cpu.r3 := (push_reg h4 (by decide)).trans (kept1 (by decide) (by decide))
  have r2 : u3.reg .r2 = s.cpu.r2 :=
    (push_reg h3 (by decide)).trans ((push_reg h4 (by decide)).trans (kept1 (by decide) (by decide)))
  rw [← r4] at h4
  rw [← r3] at h3
  rw [← r2] at h2
  rw [csvBody, bind_of_ok (getReg_apply .r5 s), State.reg_r5, bind_of_ok h5,
    bind_of_ok (getReg_apply .sp u1), State.reg_sp, bind_of_ok (putReg_apply _ _ _),
    bind_of_ok (getReg_apply .r4 _), bind_of_ok h4, bind_of_ok (getReg_apply .r3 u2), bind_of_ok h3,
    bind_of_ok (getReg_apply .r2 u3), h2]

/-- CSV completes with what its pushes leave, if the stack is clear (R183). -/
theorem exec_csv_of {s s1 u1 u2 u3 t : State} (hf : Fetches s s1)
    (h5 : push s.cpu.r5 s1 = .ok ((), u1))
    (h4 : push s.cpu.r4 (u1.setReg .r5 u1.cpu.sp) = .ok ((), u2))
    (h3 : push s.cpu.r3 u2 = .ok ((), u3)) (h2 : push s.cpu.r2 u3 = .ok ((), t))
    (hc : StackClear (.ordinary true) s t) : exec .csv s = .next t := by
  have hcpu := hf.cpu
  refine transact_completes hf (csvBody_of (s := s1) (u1 := u1) (u2 := u2) (u3 := u3) ?_ ?_ ?_ ?_) hc <;>
    rw [hcpu]
  exacts [h5, h4, h3, h2]

/-- What a push with mapping off leaves: SP two lower and the word stored there; an access that was direct
still is (R183). -/
theorem push_effect {s : State} {a b : Word} (hsp : s.cpu.sp = a) (hb : a - 2 = b)
    (hd : Direct s .word b) (v : Word) :
    ∃ t, push v s = .ok ((), t) ∧ t.cpu = { s.cpu with sp := b } ∧
      t.mem = s.mem.writeWord b.toNat v ∧ ∀ va, Direct s .word va → Direct t .word va := by
  subst hsp hb
  refine ⟨_, push_direct hd v, by rw [State.store_cpu]; rfl, by rw [State.store_mem]; rfl, ?_⟩
  exact fun va h => (h.setReg .sp _).store _ _ _

/-- Two words below SP whose distance is at least two in both directions around the address space do not
overlap, wherever SP stands. -/
theorem words_below_apart (sp x y : Word) (hxy : 2 ≤ (y - x).toNat)
    (hyx : (y - x).toNat ≤ 0xFFFE) :
    (sp - y).toNat + 1 < (sp - x).toNat ∨ (sp - x).toNat + 1 < (sp - y).toNat := by
  bv_omega

/-- Four words stored one below the other read back (R183). -/
theorem Memory.readWord_four_below (m : Memory) (sp v w x y : Word) (h : m.wf = true) :
    let m' := (((m.writeWord (sp - 2).toNat v).writeWord (sp - 4).toNat w).writeWord (sp - 6).toNat
      x).writeWord (sp - 8).toNat y
    m'.readWord (sp - 2).toNat = v ∧ m'.readWord (sp - 4).toNat = w ∧
      m'.readWord (sp - 6).toNat = x ∧ m'.readWord (sp - 8).toNat = y := by
  have h1 := Memory.writeWord_wf m (sp - 2).toNat v h
  have h2 := Memory.writeWord_wf _ (sp - 4).toNat w h1
  have h3 := Memory.writeWord_wf _ (sp - 6).toNat x h2
  have apart := words_below_apart sp
  refine ⟨?_, ?_, ?_, Memory.readWord_writeWord _ _ _ h3⟩
  · rw [Memory.readWord_writeWord_apart _ _ _ _ h3 (apart 2 8 (by decide) (by decide)),
      Memory.readWord_writeWord_apart _ _ _ _ h2 (apart 2 6 (by decide) (by decide)),
      Memory.readWord_writeWord_apart _ _ _ _ h1 (apart 2 4 (by decide) (by decide)),
      Memory.readWord_writeWord _ _ _ h]
  · rw [Memory.readWord_writeWord_apart _ _ _ _ h3 (apart 4 8 (by decide) (by decide)),
      Memory.readWord_writeWord_apart _ _ _ _ h2 (apart 4 6 (by decide) (by decide)),
      Memory.readWord_writeWord _ _ _ h1]
  · rw [Memory.readWord_writeWord_apart _ _ _ _ h3 (apart 6 8 (by decide) (by decide)),
      Memory.readWord_writeWord _ _ _ h2]

/-- Settles O36: the first clause is the chain of CSV's pushes; in the second each push is direct, and the
four words lie apart. -/
theorem functionPrologue : Obligations.FunctionPrologue := by
  refine ⟨fun s s1 u1 u2 u3 t hf h5 h4 h3 h2 hc => exec_csv_of hf h5 h4 h3 h2 hc, ?_⟩
  intro s hwf hf d5 d4 d3 d2 hstl
  obtain ⟨u1, h5, c1, m1, k1⟩ := push_effect (s := s.setReg .pc (s.cpu.pc + 2)) (a := s.cpu.sp) rfl rfl
    (d5.setReg _ _) s.cpu.r5
  obtain ⟨u2, h4, c2, m2, k2⟩ := push_effect (s := u1.setReg .r5 u1.cpu.sp) (a := s.cpu.sp - 2)
    (b := s.cpu.sp - 4) (by rw [State.setReg, c1]; rfl) (by bv_omega)
    ((k1 _ (d4.setReg _ _)).setReg _ _) s.cpu.r4
  obtain ⟨u3, h3, c3, m3, k3⟩ := push_effect (s := u2) (a := s.cpu.sp - 4) (b := s.cpu.sp - 6)
    (by rw [c2]) (by bv_omega) (k2 _ ((k1 _ (d3.setReg _ _)).setReg _ _)) s.cpu.r3
  obtain ⟨t, h2, c4, m4, -⟩ := push_effect (s := u3) (a := s.cpu.sp - 6) (b := s.cpu.sp - 8)
    (by rw [c3]) (by bv_omega) (k3 _ (k2 _ ((k1 _ (d2.setReg _ _)).setReg _ _))) s.cpu.r2
  have hcpu : t.cpu = { s.cpu with sp := s.cpu.sp - 8, r5 := s.cpu.sp - 2, pc := s.cpu.pc + 2 } := by
    rw [c4, c3, c2, State.setReg, c1]; rfl
  refine ⟨t, exec_csv_of hf.fetches h5 h4 h3 h2 (fun _ => by rw [hcpu]; exact hstl), hcpu, ?_⟩
  rw [m4, m3, m2, State.setReg_mem, m1, State.setReg_mem]
  exact Memory.readWord_four_below s.mem s.cpu.sp _ _ _ _ hwf

/-! ### CRET -/

theorem cretBody_of {v2 v3 v4 v5 target : Word} {s u2 u3 u4 u5 t : State}
    (h2 : pop (s.setReg .sp (s.cpu.r5 - 6)) = .ok (v2, u2)) (h3 : pop (u2.setReg .r2 v2) = .ok (v3, u3))
    (h4 : pop (u3.setReg .r3 v3) = .ok (v4, u4)) (h5 : pop (u4.setReg .r4 v4) = .ok (v5, u5))
    (hpc : pop (u5.setReg .r5 v5) = .ok (target, t)) : cretBody s = .ok ((), t.setReg .pc target) := by
  rw [cretBody, bind_of_ok (getReg_apply .r5 s), State.reg_r5, bind_of_ok (putReg_apply _ _ _), bind_of_ok h2,
    bind_of_ok (putReg_apply _ _ _), bind_of_ok h3, bind_of_ok (putReg_apply _ _ _), bind_of_ok h4,
    bind_of_ok (putReg_apply _ _ _), bind_of_ok h5, bind_of_ok (putReg_apply _ _ _), bind_of_ok hpc,
    putReg_apply]

/-- CRET completes with what its pops leave, if the stack is clear (R184). -/
theorem exec_cret_of {v2 v3 v4 v5 target : Word} {s s1 u2 u3 u4 u5 t : State} (hf : Fetches s s1)
    (h2 : pop (s1.setReg .sp (s.cpu.r5 - 6)) = .ok (v2, u2))
    (h3 : pop (u2.setReg .r2 v2) = .ok (v3, u3)) (h4 : pop (u3.setReg .r3 v3) = .ok (v4, u4))
    (h5 : pop (u4.setReg .r4 v4) = .ok (v5, u5)) (hpc : pop (u5.setReg .r5 v5) = .ok (target, t))
    (hc : StackClear (.ordinary true) s (t.setReg .pc target)) :
    exec .cret s = .next (t.setReg .pc target) := by
  have r5 : s1.cpu.r5 = s.cpu.r5 := by rw [hf.cpu]
  rw [← r5] at h2
  exact transact_completes hf (cretBody_of h2 h3 h4 h5 hpc) hc

/-- A pop with mapping off answers the word at SP and raises SP by two; the other registers play no part
(R184). -/
theorem pop_at {s : State} {p : ProcState} {a b v : Word} (hm : p.ps1.m = s.cpu.ps1.m) (hsp : p.sp = a)
    (hb : a + 2 = b) (hd : Direct s .word a) (hv : s.mem.readWord a.toNat = v) :
    pop { s with cpu := p } = .ok (v, { s with cpu := { p with sp := b } }) := by
  subst hsp hb hv
  exact pop_direct (hd.of_same hm rfl rfl id)

/-- The body of CRET with mapping off, of a frame whose words are given (R184). -/
theorem cretBody_direct {s : State} {v2 v3 v4 v5 target : Word}
    (d2 : Direct s .word (s.cpu.r5 - 6)) (h2 : s.mem.readWord (s.cpu.r5 - 6).toNat = v2)
    (d3 : Direct s .word (s.cpu.r5 - 4)) (h3 : s.mem.readWord (s.cpu.r5 - 4).toNat = v3)
    (d4 : Direct s .word (s.cpu.r5 - 2)) (h4 : s.mem.readWord (s.cpu.r5 - 2).toNat = v4)
    (d5 : Direct s .word s.cpu.r5) (h5 : s.mem.readWord s.cpu.r5.toNat = v5)
    (dpc : Direct s .word (s.cpu.r5 + 2)) (hpc : s.mem.readWord (s.cpu.r5 + 2).toNat = target) :
    cretBody s = .ok ((), { s with cpu := { s.cpu with
      r2 := v2, r3 := v3, r4 := v4, r5 := v5, pc := target, sp := s.cpu.r5 + 4 } }) := by
  have pop2 := pop_at (p := { s.cpu with sp := s.cpu.r5 - 6 }) (b := s.cpu.r5 - 4) rfl rfl (by bv_omega)
    d2 h2
  have pop3 := pop_at (p := { s.cpu with sp := s.cpu.r5 - 4, r2 := v2 }) (b := s.cpu.r5 - 2) rfl rfl
    (by bv_omega) d3 h3
  have pop4 := pop_at (p := { s.cpu with sp := s.cpu.r5 - 2, r2 := v2, r3 := v3 }) (b := s.cpu.r5) rfl rfl
    (by bv_omega) d4 h4
  have pop5 := pop_at (p := { s.cpu with sp := s.cpu.r5, r2 := v2, r3 := v3, r4 := v4 })
    (b := s.cpu.r5 + 2) rfl rfl rfl d5 h5
  have popPc := pop_at (p := { s.cpu with sp := s.cpu.r5 + 2, r2 := v2, r3 := v3, r4 := v4, r5 := v5 })
    (b := s.cpu.r5 + 4) rfl rfl (by bv_omega) dpc hpc
  exact cretBody_of pop2 pop3 pop4 pop5 popPc

/-- Settles O37: the first clause is the chain of CRET's pops; in the second each pop is direct. -/
theorem functionEpilogue : Obligations.FunctionEpilogue := by
  refine ⟨fun v2 v3 v4 v5 target s s1 u2 u3 u4 u5 t hf h2 h3 h4 h5 hpc hc =>
    exec_cret_of hf h2 h3 h4 h5 hpc hc, ?_⟩
  intro s hf d2 d3 d4 d5 dpc hstl
  have unwound := cretBody_direct (d2.setReg .pc (s.cpu.pc + 2)) rfl (d3.setReg _ _) rfl (d4.setReg _ _) rfl
    (d5.setReg _ _) rfl (dpc.setReg _ _) rfl
  exact transact_completes hf.fetches unwound (fun _ => hstl)

end Sys2Proof.Machine

/-! PROOFS. MOVBCK of up to 512 bytes (41_new_user_instructions.md R185). -/

namespace Sys2Proof.Machine

theorem movbckBody_of {src dst size : Word} {s s2 s3 s4 t : State}
    (hsrc : memRead .word .read s.cpu.sp s = .ok (src, s2))
    (hdst : memRead .word .read (s.cpu.sp + 2) s2 = .ok (dst, s3))
    (hsize : memRead .word .read (s.cpu.sp + 4) s3 = .ok (size, s4)) (hle : size.toNat ≤ 512)
    (hmove : moveBlock s4.cfg.movbckOrder src dst size.toNat s4 = .ok ((), t)) :
    movbckBody s = .ok ((), t) := by
  rw [movbckBody, bind_of_ok (getReg_apply .sp s), State.reg_sp, bind_of_ok hsrc, bind_of_ok hdst,
    bind_of_ok hsize, bind_of_ok (peek_apply _ s4), if_neg (by omega), hmove]

/-- MOVBCK of a block no longer than a page completes with the block moved, if the stack is clear
(R185). -/
theorem exec_movbck_of {src dst size : Word} {s s1 s2 s3 s4 t : State} (hf : Fetches s s1)
    (hsrc : memRead .word .read s1.cpu.sp s1 = .ok (src, s2))
    (hdst : memRead .word .read (s1.cpu.sp + 2) s2 = .ok (dst, s3))
    (hsize : memRead .word .read (s1.cpu.sp + 4) s3 = .ok (size, s4)) (hle : size.toNat ≤ 512)
    (hmove : moveBlock s.cfg.movbckOrder src dst size.toNat s4 = .ok ((), t))
    (hc : StackClear (.ordinary false) s t) : exec .movbck s = .next t := by
  have hcfg : s4.cfg = s.cfg := (memRead_kept hsize).system.cfg.trans
    ((memRead_kept hdst).system.cfg.trans ((memRead_kept hsrc).system.cfg.trans hf.cfg))
  rw [← hcfg] at hmove
  exact transact_completes hf (movbckBody_of hsrc hdst hsize hle hmove) hc

/-- Memory after the byte of index `i` of a block is moved. -/
def Memory.copyByte (src dst : Word) (m : Memory) (i : Nat) : Memory :=
  m.write (dst + BitVec.ofNat 16 i).toNat (m.read (src + BitVec.ofNat 16 i).toNat)

/-- The bytes of a block after its first are those of the block one address on. -/
theorem Memory.copyByte_succ (src dst : Word) (m : Memory) (i : Nat) :
    Memory.copyByte src dst m (i + 1) = Memory.copyByte (src + 1) (dst + 1) m i := by
  have next (a : Word) : a + BitVec.ofNat 16 (i + 1) = a + 1 + BitVec.ofNat 16 i := by bv_omega
  rw [Memory.copyByte, Memory.copyByte, next, next]

/-- Moving bytes upward with mapping off stores them one after the other, and changes nothing that the
registers or the configuration hold (R185). -/
theorem copyBytes_direct (n : Nat) : ∀ {src dst : Word} {s : State},
    (∀ i, i < n → Direct s .byte (src + BitVec.ofNat 16 i) ∧ Direct s .byte (dst + BitVec.ofNat 16 i)) →
    ∃ t, copyBytes src dst n s = .ok ((), t) ∧ t.cpu = s.cpu ∧ t.cfg = s.cfg ∧
      t.mem = (List.range n).foldl (Memory.copyByte src dst) s.mem := by
  induction n with
  | zero => exact fun {_ _ s} _ => ⟨s, rfl, rfl, rfl, rfl⟩
  | succ n ih =>
    intro src dst s h
    have next (a : Word) (i : Nat) : a + 1 + BitVec.ofNat 16 i = a + BitVec.ofNat 16 (i + 1) := by bv_omega
    obtain ⟨hsrc, hdst⟩ : Direct s .byte src ∧ Direct s .byte dst := by simpa using h 0 (by omega)
    obtain ⟨t, ht, hcpu, hcfg, hmem⟩ := ih (src := src + 1) (dst := dst + 1)
      (s := s.store dst .byte (s.mem.read src.toNat)) (fun i hi => by
        obtain ⟨ds, dd⟩ := h (i + 1) (by omega)
        rw [next, next]
        exact ⟨ds.store _ _ _, dd.store _ _ _⟩)
    refine ⟨t, ?_, hcpu.trans (State.store_cpu _ _ _ _), hcfg.trans (State.store_cfg _ _ _ _), ?_⟩
    · rw [copyBytes, bind_of_ok (memRead_direct hsrc)]
      exact (bind_of_ok (memWrite_direct hdst _)).trans ht
    · have first : (s.store dst .byte (s.mem.read src.toNat)).mem = Memory.copyByte src dst s.mem 0 := by
        rw [State.store_mem, State.storeMem_byte, Memory.copyByte, BitVec.add_zero, BitVec.add_zero]
      rw [hmem, first, List.range_succ_eq_map, List.foldl_cons, List.foldl_map]
      simp only [Memory.copyByte_succ]

end Sys2Proof.Machine

/-! The name `moveBlock` is taken in `Sys2Proof.Machine` by the operation itself. -/

namespace Sys2Proof.Laws

open Sys2Proof.Machine

/-- Settles O38: the first clause is the chain of MOVBCK's parts; the second is the first with every access
direct. -/
theorem moveBlock : Obligations.MoveBlock := by
  refine ⟨fun src dst size s s1 s2 s3 s4 t hf hsrc hdst hsize hle hmove hc =>
    exec_movbck_of hf hsrc hdst hsize hle hmove hc, ?_⟩
  intro s horder hf dsrc ddst dsize src dst size hle hfits hc
  let s1 := s.setReg .pc (s.cpu.pc + 2)
  have byte {va : Word} (hva : va.toNat < s.cfg.memsize) : Direct s1 .byte va :=
    ⟨dsrc.unmapped, dsrc.unwatched, rfl, hva, dsrc.quiet⟩
  obtain ⟨t, hmove, hcpu, hcfg, hmem⟩ := copyBytes_direct size (src := src) (dst := dst) (s := s1)
    (fun i hi => ⟨byte (hfits i hi).1, byte (hfits i hi).2⟩)
  refine ⟨t, ?_, hcpu, hmem⟩
  refine exec_movbck_of hf.fetches (memRead_direct (dsrc.setReg _ _)) (memRead_direct (ddst.setReg _ _))
    (memRead_direct (dsize.setReg _ _)) hle ?_ (hc.of_same hcfg ?_ ?_)
  · rw [horder]; exact hmove
  · rw [hcpu]; rfl
  · rw [hcpu]; rfl

end Sys2Proof.Laws

/-! PROOFS. The privileged instructions: the trap in USER mode, and what LDIT, LDIM, LDSTL and HALT leave in
KERNEL mode (42_privileged_instructions.md R192 to R197). -/

namespace Sys2Proof.Machine

/-! ### USER mode (R196) -/

/-- The privileged instructions (R190 to R195). -/
def privilegedInstrs : List Instr := [.ldst, .stst, .ldit, .ldim, .ldstl, .halt]

/-- Each of them begins with the privilege check, before any operand access (R196). -/
theorem exec_privileged {i : Instr} (hi : i ∈ privilegedInstrs) :
    ∃ (role : StackRole) (rest : Unit → Exec Unit),
      ∀ s, exec i s = transact role (privileged >>= rest) s := by
  simp only [privilegedInstrs, List.mem_cons, List.not_mem_nil, or_false] at hi
  rcases hi with rfl | rfl | rfl | rfl | rfl | rfl <;> exact ⟨_, _, fun _ => rfl⟩

/-- What follows the check is not reached in USER mode. -/
theorem privileged_bind_user {α : Type} {rest : Unit → Exec α} {s : State} (hu : s.cpu.ps1.ku = false) :
    (privileged >>= rest) s = .error (.trap (.program .privileged) s.draw) :=
  bind_of_error (privileged_user hu)

/-- Settles O12: the check raises the trap, and the transaction undoes the fetch. -/
theorem privilegedInUserMode : Obligations.PrivilegedInUserMode := by
  intro i s s1 hi hu hf
  obtain ⟨role, rest, hexec⟩ := exec_privileged hi
  rw [hexec, transact_of_raise hf (privileged_bind_user (hf.ku.trans hu))]

/-! ### KERNEL mode -/

theorem lditBody_of {addr hi lo : Word} {s s2 s3 t : State} (hk : s.cpu.ps1.ku = true)
    (haddr : memRead .word .read s.cpu.sp s = .ok (addr, s2))
    (hhi : memRead .word .read addr s2 = .ok (hi, s3))
    (hlo : memRead .word .read (addr + 2) s3 = .ok (lo, t)) :
    lditBody s = .ok ((), t.setIt (hi ++ lo)) := by
  rw [lditBody, bind_of_ok (privileged_kernel hk), bind_of_ok ((topOfStack_apply s).trans haddr),
    bind_of_ok hhi, bind_of_ok hlo, update_apply]

theorem ldimBody_of {v : Word} {s t : State} (hk : s.cpu.ps1.ku = true)
    (hr : memRead .word .read s.cpu.sp s = .ok (v, t)) :
    ldimBody s = .ok ((), t.setIntmask (v.extractLsb' 0 8)) := by
  rw [ldimBody, bind_of_ok (privileged_kernel hk), bind_of_ok ((topOfStack_apply s).trans hr), update_apply]

theorem ldstlBody_of {v : Word} {s t : State} (hk : s.cpu.ps1.ku = true)
    (hr : memRead .word .read s.cpu.sp s = .ok (v, t)) :
    ldstlBody s = .ok ((), t.setStl v) := by
  rw [ldstlBody, bind_of_ok (privileged_kernel hk), bind_of_ok ((topOfStack_apply s).trans hr), update_apply]

theorem haltBody_of {s : State} (hk : s.cpu.ps1.ku = true) : haltBody s = .ok ((), s.stop .halt) := by
  rw [haltBody, bind_of_ok (privileged_kernel hk), update_apply]

/-- Settles O41: each clause is the chain of its instruction's parts. IT and INTMASK play no part in the stack
check; STL does, so that LDSTL is checked against the limit it loads. -/
theorem loadTimerMaskLimit : Obligations.LoadTimerMaskLimit := by
  refine ⟨?ldit, ?ldim, ?ldstl⟩
  case ldit =>
    intro addr hi lo s s1 s2 s3 t hk hf haddr hhi hlo hc
    exact transact_completes hf (lditBody_of (hf.ku.trans hk) haddr hhi hlo) (hc.of_same rfl rfl rfl)
  case ldim =>
    intro v s s1 t hk hf hr hc
    exact transact_completes hf (ldimBody_of (hf.ku.trans hk) hr) (hc.of_same rfl rfl rfl)
  case ldstl =>
    intro v s s1 t hk hf hr hc
    exact transact_completes hf (ldstlBody_of (hf.ku.trans hk) hr) hc

/-- A stopped machine stands still (R410). -/
theorem step_stopped {s : State} {why : StopReason} (hwf : s.cfg.wf = true) (hs : s.run = .stopped why) :
    step s = .next s := by
  rw [step, if_pos hwf, State.cycle, hs]

/-- Settles O42: HALT's body stops the machine that the fetch leaves, and a stopped machine stands still. -/
theorem haltStops : Obligations.HaltStops :=
  ⟨fun _ _ hk hf hc =>
      ⟨hf.pc, transact_completes hf (haltBody_of (hf.ku.trans hk)) (hc.of_same rfl rfl rfl)⟩,
    fun _ _ hwf hs => step_stopped hwf hs⟩

end Sys2Proof.Machine

/-! PROOFS. What instructions can write of the system state: an ordinary one nothing, the others the special
register they load (R196, R198). -/

namespace Sys2Proof.Machine

variable {α : Type}

/-- The ends of an instruction whose completion is described more weakly. -/
theorem Ends.mono {P Q : State → Prop} {s t : State} (hPQ : ∀ u, P u → Q u) (h : Ends P s t) : Ends Q s t := by
  rcases h with hdone | htrap | ⟨u, hu, rfl⟩ | hsuspect
  · exact .inl (hPQ t hdone)
  · exact .inr (.inl htrap)
  · exact .inr (.inr (.inl ⟨u, hPQ u hu, rfl⟩))
  · exact .inr (.inr (.inr hsuspect))

/-- The four primitives of ordinary instructions keep the system state. -/
theorem SystemKept.closed : Closed SystemKept where
  refl := .refl
  trans := .trans
  setReg := .setReg
  setCc := .setCc
  race := .race
  store s pa size v _ _ := .store s pa size v

/-! ### USER mode -/

/-- In USER mode a privileged instruction does not complete. -/
theorem exec_privileged_user {i : Instr} {s t : State} {P : State → Prop} (hi : i ∈ privilegedInstrs)
    (hu : s.cpu.ps1.ku = false) (h : exec i s = .next t) : Ends P s t := by
  obtain ⟨role, rest, hexec⟩ := exec_privileged hi
  rw [hexec] at h
  refine transact_ends (fun s1 w u hf hb => ?_) h
  have hu1 : s1.cpu.ps1.ku = false := (Fetches.ku ⟨w, hf⟩).trans hu
  rw [privileged_bind_user hu1] at hb
  cases hb

/-- Settles O52: an ordinary instruction keeps the system state in any mode; of the others SYS is an entry
after the fetch, and the privileged ones do not complete. -/
theorem userModeConfined : Obligations.UserModeConfined := by
  intro i s t hu h
  cases hi : ordinary i with
  | true => exact (SystemKept.closed.exec hi h).mono (fun _ hk => .inl hk)
  | false =>
    cases i with
    | sys number =>
      refine transact_ends (fun s1 w u hf hb => .inr ⟨number, s1, rfl, ⟨w, hf⟩, ?_⟩) h
      cases hb
      rfl
    | halt | ldst | ldit | ldim | ldstl =>
      exact exec_privileged_user (by simp [privilegedInstrs]) hu h
    | _ => cases hi

/-! ### Either mode -/

/-- What the completed instruction writes of the registers without general access is its own to write
(R198). -/
def WritesOwn (i : Instr) (s u : State) : Prop :=
  u.tdck = s.tdck ∧
  (i ≠ .ldst → u.cpu.ps1.ku = s.cpu.ps1.ku ∧ u.cpu.ps1.m = s.cpu.ps1.m ∧ u.cpu.ps1.w = s.cpu.ps1.w ∧
    u.cpu.sta = s.cpu.sta ∧ u.cpu.ps2 = s.cpu.ps2) ∧
  (i ≠ .ldst → i ≠ .ldim → u.cpu.ps1.intmask = s.cpu.ps1.intmask) ∧
  (i ≠ .ldst → i ≠ .ldstl → u.cpu.stl = s.cpu.stl) ∧
  (i ≠ .ldit → u.it = s.it)

variable {i : Instr}

theorem SystemKept.ku {s t : State} (h : SystemKept s t) : t.cpu.ps1.ku = s.cpu.ps1.ku := by
  rw [h.ps1]

theorem SystemKept.mapping {s t : State} (h : SystemKept s t) : t.cpu.ps1.m = s.cpu.ps1.m := by
  rw [h.ps1]

theorem SystemKept.wait {s t : State} (h : SystemKept s t) : t.cpu.ps1.w = s.cpu.ps1.w := by
  rw [h.ps1]

theorem SystemKept.intmask {s t : State} (h : SystemKept s t) : t.cpu.ps1.intmask = s.cpu.ps1.intmask := by
  rw [h.ps1]

/-- What a part that keeps the system state does before plays no part. -/
theorem WritesOwn.after {s t u : State} (hk : SystemKept s t) (h : WritesOwn i t u) : WritesOwn i s u := by
  unfold WritesOwn at h ⊢
  rwa [hk.tdck, hk.ku, hk.mapping, hk.wait, hk.sta, hk.ps2, hk.intmask, hk.stl, hk.it] at h

theorem SystemKept.writesOwn {s t : State} (hk : SystemKept s t) (i : Instr) : WritesOwn i s t :=
  .after hk ⟨rfl, fun _ => ⟨rfl, rfl, rfl, rfl, rfl⟩, fun _ _ => rfl, fun _ _ => rfl, fun _ => rfl⟩

theorem WritesOwn.bind {m : Exec α} {f : α → Exec Unit} (hm : Preserves SystemKept m)
    (hf : ∀ a, Preserves (WritesOwn i) (f a)) : Preserves (WritesOwn i) (m >>= f) := by
  intro s _ t h
  obtain ⟨a, u, h1, h2⟩ := bind_ok.1 h
  exact .after (hm s a u h1) (hf a u () t h2)

theorem WritesOwn.update {f : State → State} (hf : ∀ s, WritesOwn i s (f s)) :
    Preserves (WritesOwn i) (update f) := by
  intro s _ t h
  cases h
  exact hf s

theorem WritesOwn.haltBody : Preserves (WritesOwn .halt) haltBody :=
  .bind SystemKept.closed.privileged (fun _ => .update (fun s => by simp [WritesOwn]))

theorem WritesOwn.ldimBody : Preserves (WritesOwn .ldim) ldimBody :=
  .bind SystemKept.closed.privileged (fun _ => .bind SystemKept.closed.topOfStack (fun _ =>
    .update (fun s => by simp [WritesOwn])))

theorem WritesOwn.ldstlBody : Preserves (WritesOwn .ldstl) ldstlBody :=
  .bind SystemKept.closed.privileged (fun _ => .bind SystemKept.closed.topOfStack (fun _ =>
    .update (fun s => by simp [WritesOwn])))

theorem WritesOwn.lditBody : Preserves (WritesOwn .ldit) lditBody :=
  .bind SystemKept.closed.privileged (fun _ => .bind SystemKept.closed.topOfStack (fun _ =>
    .bind (SystemKept.closed.memRead _ _ _) (fun _ => .bind (SystemKept.closed.memRead _ _ _) (fun _ =>
      .update (fun s => by simp [WritesOwn])))))

theorem WritesOwn.ldstBody : Preserves (WritesOwn .ldst) ldstBody :=
  .bind SystemKept.closed.privileged (fun _ => .bind SystemKept.closed.topOfStack (fun _ =>
    .bind (SystemKept.closed.readBlock _ _) (fun _ => .update (fun s => by simp [WritesOwn]))))

/-- An instruction whose body writes only its own keeps to that: the fetch keeps the system state. -/
theorem WritesOwn.transact {role : StackRole} {body : Exec Unit} {s t : State}
    (hb : Preserves (WritesOwn i) body) (h : transact role body s = .next t) : Ends (WritesOwn i s) s t :=
  transact_ends (fun s1 w u hf hu => .after (Fetches.kept ⟨w, hf⟩).system (hb s1 () u hu)) h

/-- Settles O53: an ordinary instruction keeps the system state, and each of the others but SYS reads and then
loads its own register. -/
theorem whoWritesWhat : Obligations.WhoWritesWhat := by
  intro i s t h hsys
  change Ends (WritesOwn i s) s t
  cases hi : ordinary i with
  | true => exact (SystemKept.closed.exec hi h).mono (fun _ hk => hk.writesOwn i)
  | false =>
    cases i with
    | halt => exact WritesOwn.transact WritesOwn.haltBody h
    | ldst => exact WritesOwn.transact WritesOwn.ldstBody h
    | ldit => exact WritesOwn.transact WritesOwn.lditBody h
    | ldim => exact WritesOwn.transact WritesOwn.ldimBody h
    | ldstl => exact WritesOwn.transact WritesOwn.ldstlBody h
    | sys number => exact absurd rfl (hsys number)
    | _ => cases hi

end Sys2Proof.Machine

/-! PROOFS. How a step leaves USER mode: what a step can be, and which of its parts enter an area (R314, R318,
R330, R347, R390). -/

namespace Sys2Proof.Machine

/-! ### The parts of a step -/

@[simp] theorem State.consoleCheck_cpu (s : State) : s.consoleCheck.cpu = s.cpu := by
  unfold State.consoleCheck; split_ifs <;> rfl

@[simp] theorem State.consoleCheck_mem (s : State) : s.consoleCheck.mem = s.mem := by
  unfold State.consoleCheck; split_ifs <;> rfl

@[simp] theorem State.consoleCheck_cfg (s : State) : s.consoleCheck.cfg = s.cfg := by
  unfold State.consoleCheck; split_ifs <;> rfl

@[simp] theorem State.endStep_cpu (s : State) : s.endStep.cpu = s.cpu := by
  unfold State.endStep; dsimp only; split_ifs <;> rfl

@[simp] theorem State.endStep_mem (s : State) : s.endStep.mem = s.mem := by
  unfold State.endStep; dsimp only; split_ifs <;> rfl

@[simp] theorem State.waitStep_cpu (s : State) : s.waitStep.cpu = s.cpu := by
  unfold State.waitStep; split_ifs <;> rfl

@[simp] theorem State.clearPending_cpu (s : State) (src : Source) : (s.clearPending src).cpu = s.cpu := by
  cases src <;> rfl

@[simp] theorem State.clearPending_cfg (s : State) (src : Source) : (s.clearPending src).cfg = s.cfg := by
  cases src <;> rfl

@[simp] theorem State.settleW_ku (s : State) : s.settleW.cpu.ps1.ku = s.cpu.ps1.ku := by
  unfold State.settleW; split <;> rfl

@[simp] theorem State.settleW_cfg (s : State) : s.settleW.cfg = s.cfg := by
  unfold State.settleW; split <;> rfl

/-- The areas and codes of the machine's interrupts are those of Table 6 (R342). -/
theorem interruptTable_eq (src : Source) :
    interruptTable src = (interruptArea src.level, interruptCode src.level src.number) := by
  rcases src with _ | d
  · rfl
  · cases d with
    | terminal k => fin_cases k <;> rfl
    | printer k => fin_cases k <;> rfl
    | disk k => fin_cases k <;> rfl
    | drum k => fin_cases k <;> rfl

/-- The CPU's part of a step changes no register, or serves an interrupt, or executes the instruction at PC
(R390). -/
theorem State.cpuStep_cases {p t : State} (h : p.cpuStep = .next t) :
    t.cpu = p.cpu ∨
    (∃ src, p.selectSource = some src ∧ t = (p.interrupt src).tick) ∨
    (p.selectSource = none ∧ ∃ w, p.consoleCheck.runInstruction = .next w ∧ t = w.endStep) := by
  unfold State.cpuStep at h
  split at h
  · next src hsrc => cases h; exact .inr (.inl ⟨src, hsrc, rfl⟩)
  · next hnone =>
    split at h
    · cases h; exact .inl p.waitStep_cpu
    · dsimp only at h
      split at h
      · cases h; exact .inl p.consoleCheck_cpu
      · cases hr : p.consoleCheck.runInstruction with
        | next w => rw [hr] at h; cases h; exact .inr (.inr ⟨hnone, w, rfl, rfl⟩)
        | fault f => rw [hr] at h; cases h
        | refused r => rw [hr] at h; cases h

/-- A step changes nothing, or is the CPU's part after the controllers' share (R390, R410). -/
theorem step_cases {s t : State} (h : step s = .next t) :
    t = s ∨ ∃ v, s.pollDevices.cpuStep = .next v ∧ t = v.refresh := by
  unfold step State.cycle at h
  split at h
  · split at h
    · cases h; exact .inl rfl
    · cases hc : s.pollDevices.cpuStep with
      | next v => rw [hc] at h; cases h; exact .inr ⟨v, rfl, rfl⟩
      | fault f => rw [hc] at h; cases h
      | refused r => rw [hc] at h; cases h
  · cases h

/-! ### Entries out of USER mode -/

/-- An entry by the instruction at PC of the state `c`: from `u` into the area with the code. It is that of a
SYS after its fetch, of a trap that undid the instruction, or of the Stack Limit Yellow trap after it (R314,
R318, R330). -/
def EntersFrom (c u : State) (area : Nat) (code : Word) : Prop :=
  (∃ number, c.fetch = .ok (.sys number) ∧ Fetches c u ∧ area = 0o140 ∧ code = number.setWidth 16) ∨
  (∃ trap draw, c.runInstruction = .next (u.takeTrap trap) ∧ u = c.meanwhile draw ∧
    area = trap.area ∧ code = trap.ps2 c.cfg.mmCodeLayout) ∨
  (∃ i, c.fetch = .ok i ∧ exec i c = .next (u.takeTrap (.program .stackYellow)) ∧
    SystemKept c u ∧ area = 0 ∧ code = 7)

/-- The state `w` is the end of an entry by the instruction at PC of `c`, from USER mode. -/
def EntersTo (c w : State) : Prop :=
  ∃ u area code, w = u.enter area code ∧ u.cfg = c.cfg ∧ u.cpu.ps1.ku = false ∧ EntersFrom c u area code

variable {c w : State}

/-- A trap that undid the instruction. -/
theorem EntersTo.trap {trap : Trap} {draw : Nat} (hu : c.cpu.ps1.ku = false)
    (hr : c.runInstruction = .next w) (hw : w = (c.meanwhile draw).takeTrap trap) : EntersTo c w := by
  subst hw
  refine ⟨c.meanwhile draw, trap.area, trap.ps2 c.cfg.mmCodeLayout, ?_, c.meanwhile_cfg draw,
    by rw [State.meanwhile_cpu, hu], .inr (.inl ⟨trap, draw, hr, rfl, rfl, rfl⟩)⟩
  rw [State.takeTrap, State.meanwhile_cfg]

/-- A SYS that was fetched. -/
theorem EntersTo.sys {number : BitVec 8} {s1 : State} (hu : c.cpu.ps1.ku = false)
    (hi : c.fetch = .ok (.sys number)) (hf : Fetches c s1) (h : exec (.sys number) c = .next w) :
    EntersTo c w := by
  rw [exec_sys_of hf] at h
  cases h
  exact ⟨s1, sysArea, number.setWidth 16, rfl, hf.cfg, hf.ku.trans hu, .inl ⟨number, hi, hf, rfl, rfl⟩⟩

/-- An instruction fetched in USER mode stays in it or enters an area: it completes with the system state
kept or as a SYS (`userModeConfined`), and its other ends are traps, or a stop that moves no register. -/
theorem exec_leaves_user {i : Instr} (hu : c.cpu.ps1.ku = false) (hi : c.fetch = .ok i)
    (h : exec i c = .next w) : w.cpu.ps1.ku = false ∨ EntersTo c w := by
  have hr : c.runInstruction = .next w := by rw [State.runInstruction, hi]; exact h
  rcases userModeConfined i c w hu h with
    (hk | ⟨number, s1, rfl, hf, _⟩) | ⟨trap, draw, hw⟩ |
    ⟨u, hk | ⟨number, s1, rfl, hf, _⟩, rfl⟩ | ⟨draw, rfl⟩
  · exact .inl (hk.ku.trans hu)
  · exact .inr (.sys hu hi hf h)
  · exact .inr (.trap hu hr hw)
  · exact .inr ⟨u, 0, 7, rfl, hk.cfg, hk.ku.trans hu, .inr (.inr ⟨i, hi, h, hk, rfl, rfl⟩)⟩
  · exact .inr (.sys hu hi hf h)
  · exact .inl (by rw [State.stopAt_cpu, State.meanwhile_cpu, hu])

/-- The cycle of fetch and execution stays in USER mode or enters an area: the fetch itself may trap, or stop at
a suspect. -/
theorem runInstruction_leaves_user (hu : c.cpu.ps1.ku = false) (hr : c.runInstruction = .next w) :
    w.cpu.ps1.ku = false ∨ EntersTo c w := by
  cases hi : c.fetch with
  | ok i =>
    refine exec_leaves_user hu hi ?_
    rwa [State.runInstruction, hi] at hr
  | error a =>
    have hw : w = c.abandon a := by
      rw [State.runInstruction, hi] at hr
      cases hr
      rfl
    cases a with
    | trap trap draw => exact .inr (.trap hu hr hw)
    | suspect draw =>
      refine .inl ?_
      rw [hw, State.abandon, State.stopAt_cpu, State.meanwhile_cpu, hu]

/-- Settles O54: a step that leaves USER mode changes registers, so that it serves an interrupt or executes an
instruction that enters an area. -/
theorem leavingUserMode : Obligations.LeavingUserMode := by
  intro s t h hu hk p c
  have left : t.cpu.ps1.ku ≠ false := by rw [hk]; decide
  rcases step_cases h with rfl | ⟨v, hv, rfl⟩
  · exact absurd hu left
  rcases State.cpuStep_cases hv with hcpu | ⟨src, hsrc, rfl⟩ | ⟨hnone, w, hr, rfl⟩
  case inl =>
    refine absurd ?_ left
    rw [State.refresh_cpu, hcpu, State.pollDevices_cpu, hu]
  case inr.inl =>
    exact ⟨(p.clearPending src).settleW, interruptArea src.level, interruptCode src.level src.number,
      by rw [State.refresh_cpu, State.tick_cpu, State.interrupt],
      by rw [State.refresh_mem, State.tick_mem, State.interrupt],
      by simp [p], by simp [p, hu], .inl ⟨src, hsrc, rfl, (interruptTable_eq src).symm⟩⟩
  case inr.inr =>
    have hc : c.cpu = s.cpu := by simp [c, p]
    have hcfg : c.cfg = s.cfg := by simp [c, p]
    rcases runInstruction_leaves_user (c := c) (by rw [hc, hu]) hr with hw | hw
    · refine absurd ?_ left
      rw [State.refresh_cpu, State.endStep_cpu, hw]
    · obtain ⟨u, area, code, rfl, hucfg, huku, hentry⟩ := hw
      unfold EntersFrom at hentry
      rw [hcfg] at hentry
      exact ⟨u, area, code, by rw [State.refresh_cpu, State.endStep_cpu],
        by rw [State.refresh_mem, State.endStep_mem], hucfg.trans hcfg, huku,
        .inr ⟨hnone, hc, p.consoleCheck_mem, hentry⟩⟩

end Sys2Proof.Machine

/-! PROOFS. Arithmetic of the single operand instructions: what the operations of Flags.lean answer, in the
terms of the tables of 43_single_operand.md. -/

namespace Sys2Proof.Machine

variable {w : Nat}

/-! ### Extreme values and the carry (R220) -/

theorem toNat_maxPositive (w : Nat) : (maxPositive w).toNat = 2 ^ (w - 1) - 1 := by
  have : 2 ^ (w - 1) ≤ 2 ^ w := Nat.pow_le_pow_right (by decide) (by omega)
  have : 0 < 2 ^ (w - 1) := Nat.two_pow_pos _
  rw [maxPositive, BitVec.toNat_ofNat, Nat.mod_eq_of_lt (by omega)]

theorem toNat_signValue (hw : 0 < w) : (signValue w).toNat = 2 ^ (w - 1) := by
  rw [signValue, BitVec.toNat_ofNat,
    Nat.mod_eq_of_lt (Nat.pow_lt_pow_right (by decide) (by omega))]

theorem eq_maxPositive_iff {old : BitVec w} : old = maxPositive w ↔ old.toNat = 2 ^ (w - 1) - 1 := by
  rw [BitVec.toNat_eq, toNat_maxPositive]

theorem eq_signValue_iff (hw : 0 < w) {old : BitVec w} :
    old = signValue w ↔ old.toNat = 2 ^ (w - 1) := by
  rw [BitVec.toNat_eq, toNat_signValue hw]

theorem eq_neg_one_iff {old : BitVec w} : old = -1 ↔ old.toNat = 2 ^ w - 1 := by
  rw [BitVec.toNat_eq, show (-1 : BitVec w) = BitVec.allOnes w from BitVec.neg_one_eq_allOnes,
    BitVec.toNat_allOnes]

/-- SIGN has the highest bit alone. -/
theorem getLsbD_signValue (hw : 0 < w) (i : Nat) : (signValue w).getLsbD i = decide (i = w - 1) := by
  rw [signValue, BitVec.getLsbD_ofNat, Nat.testBit_two_pow]
  by_cases h : i = w - 1
  · simp [h, hw]
  · simp [h, Ne.symm h]

theorem Cc.carry_eq (cc : Cc) : (cc.carry : BitVec w) = if cc.c then 1 else 0 := by
  rw [Cc.carry]
  cases cc.c
  · simp
  · apply BitVec.eq_of_toNat_eq
    simp

theorem Cc.getLsbD_carry (cc : Cc) (i : Nat) :
    (cc.carry : BitVec w).getLsbD i = (decide (i < w) && decide (i = 0) && cc.c) := by
  rw [Cc.carry, BitVec.getLsbD_setWidth, BitVec.getLsbD_ofBool, Bool.and_assoc]

/-- Adding C is one more or the value itself (R210). -/
theorem add_carry (old : BitVec w) (cc : Cc) : old + cc.carry = if cc.c then old + 1 else old := by
  rw [Cc.carry_eq]
  cases cc.c <;> simp

/-- Subtracting C is one less or the value itself (R211). -/
theorem sub_carry (old : BitVec w) (cc : Cc) : old - cc.carry = if cc.c then old - 1 else old := by
  rw [Cc.carry_eq]
  cases cc.c <;> simp

/-! ### Shifts and rotates by one place -/

/-- A shift right that keeps the sign is the floor of half the signed value (R206). -/
theorem asr_result (hw : 0 < w) (old : BitVec w) :
    (old >>> 1) ||| (old &&& signValue w) = BitVec.ofInt w (old.toInt / 2) := by
  have half : BitVec.ofInt w (old.toInt / 2) = old.sshiftRight 1 := by
    rw [BitVec.sshiftRight, Int.shiftRight_eq_div_pow]
    rfl
  rw [half]
  apply BitVec.eq_of_getLsbD_eq
  intro i hi
  rw [BitVec.getLsbD_or, BitVec.getLsbD_and, BitVec.getLsbD_ushiftRight, BitVec.getLsbD_sshiftRight,
    getLsbD_signValue hw, BitVec.msb_eq_getLsbD_last]
  by_cases last : i = w - 1
  · subst last
    have : ¬ 1 + (w - 1) < w := by omega
    have out : old.getLsbD (1 + (w - 1)) = false := BitVec.getLsbD_of_ge old _ (by omega)
    simp [out, this, hw]
  · have : 1 + i < w := by omega
    simp [last, this, hi]

/-- A shift left is the double (R207). -/
theorem asl_result (old : BitVec w) : old <<< 1 = old + old := by
  apply BitVec.eq_of_toNat_eq
  rw [BitVec.toNat_shiftLeft, BitVec.toNat_add, Nat.shiftLeft_eq, pow_one, Nat.mul_two]

/-- C enters at the low end, and the highest bit leaves (R214). -/
theorem rol_result (old : BitVec w) (cc : Cc) :
    (old <<< 1) ||| cc.carry = (old.concat cc.c).setWidth w := by
  apply BitVec.eq_of_getLsbD_eq
  intro i hi
  rw [BitVec.getLsbD_or, BitVec.getLsbD_shiftLeft, Cc.getLsbD_carry, BitVec.getLsbD_setWidth,
    BitVec.getLsbD_concat]
  by_cases first : i = 0
  · simp [first]
  · have : ¬ i < 1 := by omega
    simp [first, hi, this]

/-- C enters at the high end, and the lowest bit leaves (R215). -/
theorem ror_result (old : BitVec w) (cc : Cc) :
    (old >>> 1) ||| ((cc.carry : BitVec w) <<< (w - 1)) = (BitVec.cons cc.c old).extractLsb' 1 w := by
  apply BitVec.eq_of_getLsbD_eq
  intro i hi
  rw [BitVec.getLsbD_or, BitVec.getLsbD_ushiftRight, BitVec.getLsbD_shiftLeft, Cc.getLsbD_carry,
    BitVec.getLsbD_extractLsb', BitVec.getLsbD_cons]
  by_cases last : 1 + i = w
  · have : i - (w - 1) = 0 := by omega
    have : ¬ i < w - 1 := by omega
    have : 0 < w := by omega
    simp [*]
  · have : i < w - 1 := by omega
    simp [*]

/-! ### The bytes of a word (R216) -/

/-- The exchange of the two bytes is a rotate by eight. -/
theorem swab_result (old : Word) :
    old.extractLsb' 0 8 ++ old.extractLsb' 8 8 = old.rotateLeft 8 := by
  apply BitVec.eq_of_getLsbD_eq
  intro i hi
  rw [BitVec.getLsbD_append, BitVec.getLsbD_rotateLeft, BitVec.getLsbD_extractLsb',
    BitVec.getLsbD_extractLsb']
  by_cases low : i < 8
  · simp [low]
  · have : i - 8 < 8 := by omega
    simp [low, this, hi]

theorem getLsbD_append_low_msb (high low : Byte) : (high ++ low).getLsbD 7 = low.msb := by
  rw [BitVec.getLsbD_append, BitVec.msb_eq_getLsbD_last]
  rfl

theorem append_and_low_eq_zero_iff (high low : Byte) :
    (high ++ low) &&& 0o377#16 = 0 ↔ low = 0 := by
  have masked : (high ++ low) &&& 0o377#16 = 0#8 ++ low := by
    rw [show 0o377#16 = 0#8 ++ BitVec.allOnes 8 from rfl, BitVec.and_append, BitVec.and_zero,
      BitVec.and_allOnes]
  rw [masked, show (0 : BitVec (8 + 8)) = 0#8 ++ 0#8 from rfl, BitVec.append_right_inj]
  rfl

/-! ### Shifts by a count (R208, R209) -/

/-- A shift by a signed count has the value and the codes that the rules write for it: in each direction, and
for a count of zero. -/
theorem shiftOp_eq (old : BitVec w) (count : BitVec 6) :
    shiftOp old count =
      (shiftValue old count.toInt, shiftCodes old (shiftValue old count.toInt) count.toInt) := by
  unfold shiftOp
  generalize count.toInt = n
  rcases lt_trichotomy n 0 with right | rfl | left
  · have : ¬ 0 < n := by omega
    simp [right.ne, right, this, shiftValue, shiftCodes, Cc.of]
  · simp [shiftValue, shiftCodes, Cc.of]
  · have small : n.toNat ≤ w ↔ n ≤ w := by omega
    simp [left.ne', left, shiftValue, shiftCodes, Cc.of, small]

end Sys2Proof.Machine

/-! PROOFS. The results of the single operand instructions (43_single_operand.md): each is its operation run
by the shape it shares with the others. -/

namespace Sys2Proof.Machine

/-! ### From an operation to its instruction -/

/-- An instruction that runs an operation on its destination has the results that the operation answers. -/
theorem ModifiesDest.of_op {size : Size} {i : Operand → Instr}
    {op f : Config → BitVec size.bits → Cc → BitVec size.bits × Cc}
    (hexec : ∀ dd s, exec (i dd) s =
      transact (.ordinary (writesSp dd)) (modifyDest size dd (op s.cfg)) s)
    (hop : ∀ g old cc, op g old cc = f g old cc) : ModifiesDest size i f := by
  intro dd loc old s s' t hr hw hc
  rw [← hop] at hw ⊢
  rw [hexec]
  exact modifyDest_of hr hw hc

/-- The same of a word instruction and its byte form, which run one operation at two widths. -/
theorem ModifiesBoth.of_op {word byte : Operand → Instr}
    (op : {w : Nat} → Config → BitVec w → Cc → BitVec w × Cc)
    {f : {w : Nat} → Config → BitVec w → Cc → BitVec w × Cc}
    (hword : ∀ dd s, exec (word dd) s =
      transact (.ordinary (writesSp dd)) (modifyDest .word dd (op s.cfg)) s)
    (hbyte : ∀ dd s, exec (byte dd) s =
      transact (.ordinary (writesSp dd)) (modifyDest .byte dd (op s.cfg)) s)
    (hop : ∀ {w : Nat}, 0 < w → ∀ g (old : BitVec w) cc, op g old cc = f g old cc) :
    ModifiesBoth word byte f :=
  ⟨.of_op hword (hop (by decide)), .of_op hbyte (hop (by decide))⟩

/-- Settles O19: the tests of MAXPOS, SIGN and MASK are tests of the unsigned value, and the carry is the
number 1 or 0. -/
theorem singleOperandArithmetic : Obligations.SingleOperandArithmetic := by
  refine ⟨?com, ?inc, ?dec, ?neg, ?adc, ?sbc⟩
  case com => exact .of_op (fun _ old _ => comOp old) (fun _ _ => rfl) (fun _ _ => rfl) (fun _ _ _ _ => rfl)
  case inc =>
    refine .of_op (fun _ => incOp) (fun _ _ => rfl) (fun _ _ => rfl) (fun _ _ old cc => ?_)
    simp only [incOp, Cc.of, eq_maxPositive_iff]
  case dec =>
    refine .of_op (fun _ => decOp) (fun _ _ => rfl) (fun _ _ => rfl) (fun hw _ old cc => ?_)
    simp only [decOp, Cc.of, eq_signValue_iff hw]
  case neg =>
    refine .of_op (fun _ old _ => negOp old) (fun _ _ => rfl) (fun _ _ => rfl) (fun hw _ old _ => ?_)
    simp only [negOp, Cc.of, eq_signValue_iff hw, show (0 : BitVec _) - old = -old from BitVec.zero_sub old]
  case adc =>
    refine .of_op (fun _ => adcOp) (fun _ _ => rfl) (fun _ _ => rfl) (fun _ _ old cc => ?_)
    simp only [adcOp, Cc.of, add_carry, eq_maxPositive_iff, eq_neg_one_iff, Bool.decide_and,
      Bool.decide_eq_true]
  case sbc =>
    refine .of_op (fun g => sbcOp g.sbcVIgnoresC) (fun _ _ => rfl) (fun _ _ => rfl) (fun hw g old cc => ?_)
    simp only [sbcOp, Cc.of, sub_carry, eq_signValue_iff hw, Bool.decide_and, Bool.decide_or,
      Bool.decide_eq_true]

/-- Settles O20: each result is rewritten into the form of its rule; the codes are those of the result. -/
theorem shiftsAndRotates : Obligations.ShiftsAndRotates := by
  refine ⟨?asr, ?asl, ?rol, ?ror, ?swab⟩
  case asr =>
    refine .of_op (fun _ old _ => asrOp old) (fun _ _ => rfl) (fun _ _ => rfl) (fun hw _ old _ => ?_)
    simp only [asrOp, shiftCc, Cc.of, asr_result hw]
  case asl =>
    refine .of_op (fun _ old _ => aslOp old) (fun _ _ => rfl) (fun _ _ => rfl) (fun _ _ old _ => ?_)
    simp only [aslOp, shiftCc, Cc.of, asl_result]
  case rol =>
    refine .of_op (fun _ => rolOp) (fun _ _ => rfl) (fun _ _ => rfl) (fun _ _ old cc => ?_)
    simp only [rolOp, shiftCc, Cc.of, rol_result]
  case ror =>
    refine .of_op (fun _ => rorOp) (fun _ _ => rfl) (fun _ _ => rfl) (fun _ _ old cc => ?_)
    simp only [rorOp, shiftCc, Cc.of, ror_result]
  case swab =>
    refine .of_op (size := .word) (op := fun _ old _ => swabOp old) (fun _ _ => rfl) (fun _ old _ => ?_)
    simp only [swabOp, Cc.of, ← swab_result, getLsbD_append_low_msb, append_and_low_eq_zero_iff]

/-- Settles O21: the operations are those of the rules as they stand, run by the shapes that do not read, or
do not write, the destination. -/
theorem clearSignExtendTest : Obligations.ClearSignExtendTest := by
  refine ⟨?clr, ?clrb, ?sxt, ?tst, ?tstb⟩
  case clr => exact fun _ _ _ _ _ hr hw hc => overwriteDest_of hr hw hc
  case clrb => exact fun _ _ _ _ _ hr hw hc => overwriteDest_of hr hw hc
  case sxt => exact fun _ _ _ _ _ hr hw hc => overwriteDest_of (f := sxtOp) hr hw hc
  case tst => exact fun _ _ _ _ _ hr hc => testDest_of hr hc
  case tstb => exact fun _ _ _ _ _ hr hc => testDest_of hr hc

/-! ### ash and ashc (R208, R209) -/

/-- The count is the low six bits of the source. -/
theorem shiftOp_source {w : Nat} (old : BitVec w) (src : Word) :
    shiftOp old (src.extractLsb' 0 6) =
      (shiftValue old (src.setWidth 6).toInt,
        shiftCodes old (shiftValue old (src.setWidth 6).toInt) (src.setWidth 6).toInt) := by
  rw [← BitVec.setWidth_eq_extractLsb' (by decide), shiftOp_eq]

section
variable {r : Reg} {ss : Operand} {src : Word} {s s' : State}

theorem ashBody_of {old res : Word} (hv : sourceValue .word ss s = .ok (src, s')) (hold : s'.reg r = old)
    (hres : shiftValue old (src.setWidth 6).toInt = res) :
    ashBody r ss s = .ok ((), (s'.setReg r res).setCc (shiftCodes old res (src.setWidth 6).toInt)) := by
  subst hold hres
  rw [ashBody, bind_of_ok hv, bind_of_ok (getReg_apply r s'), shiftOp_source]
  rfl

theorem pair_of_even : ∀ r ∈ evenRegs, oddReg r = false ∧ pairLow r = nextReg r := by decide

theorem ashcBody_even_of {old res : DWord} (hr : r ∈ evenRegs)
    (hv : sourceValue .word ss s = .ok (src, s')) (hold : s'.reg r ++ s'.reg (nextReg r) = old)
    (hres : shiftValue old (src.setWidth 6).toInt = res) :
    ashcBody r ss s = .ok ((),
      ((s'.setReg r (res.extractLsb' 16 16)).setReg (nextReg r) (res.extractLsb' 0 16)).setCc
        (shiftCodes old res (src.setWidth 6).toInt)) := by
  obtain ⟨even, low⟩ := pair_of_even r hr
  subst hold hres
  rw [ashcBody, bind_of_ok hv, even, if_neg Bool.false_ne_true, bind_of_ok (getPair_apply r s'),
    shiftOp_source, ← low]
  rfl

/-- With an odd register ashc writes that register and the codes, with free values (U3). -/
theorem ashcBody_odd_of (hr : oddReg r = true) (hv : sourceValue .word ss s = .ok (src, s')) :
    ashcBody r ss s = .ok ((), (s'.setReg r (Config.ashcOddResult s'.draw)).setCc
      (Cc.ofBits (Config.ashcOddFlags s'.draw))) := by
  rw [ashcBody, bind_of_ok hv, if_pos hr]
  rfl

end

/-- Settles O22: the bodies shift what the source leaves. An odd register is not SP, so that the stack check
of ashc is that of the state its source leaves. -/
theorem arithmeticShifts : Obligations.ArithmeticShifts := by
  refine ⟨?ash, ?even, ?odd⟩
  case ash =>
    rintro r ss src s s' ⟨s1, hf, hv⟩ n old t hc
    exact transact_completes hf (ashBody_of hv rfl rfl) hc
  case even =>
    rintro r ss src s s' hr ⟨s1, hf, hv⟩ n old res t hc
    exact transact_completes hf (ashcBody_even_of hr hv rfl rfl) hc
  case odd =>
    rintro r ss src s s' hr ⟨s1, hf, hv⟩ hc
    have hsp : r ≠ .sp := by rintro rfl; simp [oddRegs] at hr
    have role : (stepsSp ss || pairWritesSp r) = stepsSp ss := by simp [pairWritesSp, hsp]
    refine ⟨_, _, transact_completes hf (ashcBody_odd_of (oddReg_of_mem r hr) hv) ?_⟩
    rw [role]
    refine hc.of_same rfl ?_ (by simp)
    rw [State.setCc_sp, ← State.reg_sp, State.reg_setReg_other _ _ _ _ hsp.symm, State.reg_sp]

end Sys2Proof.Machine

/-! PROOFS. Arithmetic of the double operand instructions: what the operations of Flags.lean answer, in the
terms of signed and unsigned values of 44_double_operand.md. -/

namespace Sys2Proof.Machine

/-! ### Signed overflow (R232 to R234) -/

section
variable {w : Nat}

/-- A sum whose sign is that of neither of two terms of one sign lies outside the signed range (R232). -/
theorem add_overflow_iff (x y : BitVec w) :
    (x.msb = y.msb ∧ (x + y).msb ≠ x.msb) ↔
      (x.toInt + y.toInt < -2 ^ (w - 1) ∨ 2 ^ (w - 1) ≤ x.toInt + y.toInt) := by
  have h := BitVec.saddOverflow_eq x y
  rw [BitVec.saddOverflow, Bool.eq_iff_iff] at h
  simpa [or_comm] using h.symm

/-- A difference of terms of unlike signs that has the sign of the subtrahend lies outside the signed range
(R233, R234). -/
theorem sub_overflow_iff (x y : BitVec w) :
    (x.msb ≠ y.msb ∧ (x - y).msb = y.msb) ↔
      (x.toInt - y.toInt < -2 ^ (w - 1) ∨ 2 ^ (w - 1) ≤ x.toInt - y.toInt) := by
  have signs : (x.msb ≠ y.msb ∧ (x - y).msb = y.msb) ↔ x.ssubOverflow y = true := by
    rw [BitVec.ssubOverflow_eq]
    cases x.msb <;> cases y.msb <;> simp
  rw [signs, BitVec.ssubOverflow, Bool.or_eq_true, decide_eq_true_eq, decide_eq_true_eq, or_comm, ge_iff_le]

theorem addOp_eq (src dst : BitVec w) :
    addOp src dst = (dst + src,
      { n := (dst + src).msb, z := decide (dst + src = 0)
        v := decide (dst.toInt + src.toInt < -2 ^ (w - 1) ∨ 2 ^ (w - 1) ≤ dst.toInt + src.toInt)
        c := decide (2 ^ w ≤ dst.toNat + src.toNat) }) := by
  simp only [addOp, Cc.of, add_overflow_iff]
  rw [BitVec.add_comm src, Int.add_comm src.toInt, Nat.add_comm src.toNat]

theorem subOp_eq (src dst : BitVec w) :
    subOp src dst = (dst - src,
      { n := (dst - src).msb, z := decide (dst - src = 0)
        v := decide (dst.toInt - src.toInt < -2 ^ (w - 1) ∨ 2 ^ (w - 1) ≤ dst.toInt - src.toInt)
        c := decide (dst.toNat < src.toNat) }) := by
  simp only [subOp, Cc.of, ← sub_overflow_iff, ne_comm]

theorem cmpOp_eq (src dst : BitVec w) :
    cmpOp src dst =
      { n := (src - dst).msb, z := decide (src - dst = 0)
        v := decide (src.toInt - dst.toInt < -2 ^ (w - 1) ∨ 2 ^ (w - 1) ≤ src.toInt - dst.toInt)
        c := decide (src.toNat < dst.toNat) } := by
  simp only [cmpOp, Cc.of, sub_overflow_iff]

theorem bitOp_eq (src dst : BitVec w) (cc : Cc) :
    bitOp src dst cc =
      { n := (src &&& dst).msb, z := decide (src &&& dst = 0), v := false, c := cc.c } := by
  rw [bitOp, logicCc, Cc.of, BitVec.and_comm]

end

/-! ### Products and quotients (R235, R236) -/

/-- The upper bound of the signed range, as the listings write it and as the statements do. -/
theorem overflow_bounds (p : Int) : (p < -(2 ^ 15) ∨ 2 ^ 15 - 1 < p) ↔ (p < -2 ^ 15 ∨ 2 ^ 15 ≤ p) := by
  rw [Int.sub_one_lt_iff]

/-- The high word of a double word. -/
theorem extractLsb'_ofInt_high (p : Int) :
    (BitVec.ofInt 32 p).extractLsb' 16 16 = BitVec.ofInt 16 (p / 2 ^ 16) := by
  apply BitVec.eq_of_toNat_eq
  rw [BitVec.extractLsb'_toNat, BitVec.toNat_ofInt, BitVec.toNat_ofInt, Nat.shiftRight_eq_div_pow]
  omega

/-- The low word of a double word. -/
theorem extractLsb'_ofInt_low (p : Int) :
    (BitVec.ofInt 32 p).extractLsb' 0 16 = BitVec.ofInt 16 p := by
  apply BitVec.eq_of_toNat_eq
  rw [BitVec.extractLsb'_toNat, BitVec.toNat_ofInt, BitVec.toNat_ofInt, Nat.shiftRight_zero]
  omega

/-- The dividend less the quotient times the divisor is the remainder that has the dividend's sign (R236). -/
theorem divRemainder_eq (n : DWord) (d : Word) : divRemainder n d = n.toInt.tmod d.toInt := by
  rw [divRemainder, divQuotient, Int.tmod_def, Int.mul_comm]

theorem divOverflows_iff {n : DWord} {d : Word} :
    divOverflows n d = true ↔ (divQuotient n d < -2 ^ 15 ∨ 2 ^ 15 ≤ divQuotient n d) := by
  rw [divOverflows, decide_eq_true_eq, overflow_bounds]

end Sys2Proof.Machine

/-! PROOFS. The results of the double operand instructions (44_double_operand.md): each is its operation run
by the shape it shares with the others. -/

namespace Sys2Proof.Machine

/-! ### Moves (R230, R231) -/

section
variable {ss dd : Operand} {src : Byte} {role : StackRole} {s s' t : State}

/-- movb to memory writes the byte. -/
theorem moveByteInto_mem_of {a : Word} {kind : Access} (hr : SourceAndDest .byte ss dd src (.mem a kind) s s')
    (hw : memWrite .byte a src s' = .ok ((), t)) (hc : StackClear role s t) :
    transact role (moveByteInto ss dd) s = .next (t.setCc (logicCc src s.cpu.ps1.cc)) := by
  have hk := hr.kept.codes
  obtain ⟨s1, hf, ho⟩ := hr
  refine transact_completes hf ?_ hc
  rw [moveByteInto, bind_of_ok ho]
  dsimp only
  rw [bind_of_ok (getCc_apply s'), hk]
  exact bind_of_ok hw

/-- movb to a register writes all of it. -/
theorem moveByteInto_reg_of {r : Reg} (hr : SourceAndDest .byte ss dd src (.reg r) s s')
    (hc : StackClear role s (s'.setReg r (src.signExtend 16))) :
    transact role (moveByteInto ss dd) s =
      .next ((s'.setReg r (src.signExtend 16)).setCc (logicCc src s.cpu.ps1.cc)) := by
  have hk := hr.kept.codes
  obtain ⟨s1, hf, ho⟩ := hr
  refine transact_completes hf ?_ hc
  rw [moveByteInto, bind_of_ok ho]
  dsimp only
  rw [bind_of_ok (getCc_apply s'), hk]
  exact bind_of_ok (putReg_apply r _ s')

end

/-- Settles O23: the codes of a move are those of a logical result; movb has a case per kind of place. -/
theorem moves : Obligations.Moves := by
  refine ⟨?mov, ?toMemory, ?toRegister⟩
  case mov => exact fun _ _ _ _ _ _ _ hr hw hc => moveInto_of hr hw hc
  case toMemory => exact fun _ _ _ _ _ _ _ _ hr hw hc => moveByteInto_mem_of hr hw hc
  case toRegister => exact fun _ _ _ _ _ _ hr hc => moveByteInto_reg_of hr hc

/-! ### Comparisons (R234, R240) -/

/-- An instruction that runs an operation on two operands it only reads has the codes that the operation
answers. -/
theorem ComparesOperands.of_op {size : Size} {i : Operand → Operand → Instr}
    {op f : BitVec size.bits → BitVec size.bits → Cc → Cc}
    (hexec : ∀ ss dd s, exec (i ss dd) s =
      transact (.ordinary (stepsSp ss || stepsSp dd)) (compareWith size ss dd op) s)
    (hop : ∀ src dst cc, op src dst cc = f src dst cc) : ComparesOperands size i f := by
  intro ss dd src dst loc s t hr hc
  rw [← hop, hexec]
  exact compareWith_of hr hc

/-- Settles O24: the tests of signs are tests of the signed difference. -/
theorem compares : Obligations.Compares := by
  refine ⟨?cmp, ?cmpb, ?bit, ?bitb⟩
  case cmp => exact .of_op (fun _ _ _ => rfl) (fun src dst _ => cmpOp_eq (w := 16) src dst)
  case cmpb => exact .of_op (fun _ _ _ => rfl) (fun src dst _ => cmpOp_eq (w := 8) src dst)
  case bit => exact .of_op (fun _ _ _ => rfl) bitOp_eq
  case bitb => exact .of_op (fun _ _ _ => rfl) bitOp_eq

/-! ### Results into the destination (R232, R233, R237, R239, R241) -/

/-- An instruction that combines its source into its destination by an operation has the results that the
operation answers. -/
theorem CombinesInto.of_op {size : Size} {i : Operand → Operand → Instr}
    {op f : BitVec size.bits → BitVec size.bits → Cc → BitVec size.bits × Cc}
    (hexec : ∀ ss dd s, exec (i ss dd) s =
      transact (.ordinary (stepsSp ss || writesSp dd)) (combineInto size ss dd op) s)
    (hop : ∀ src dst cc, op src dst cc = f src dst cc) : CombinesInto size i f := by
  intro ss dd src dst loc s s' t hr hw hc
  rw [← hop] at hw ⊢
  rw [hexec]
  exact combineInto_of hr hw hc

/-- xor takes its register after the destination is read (R237). -/
theorem xorBody_of {r : Reg} {dd : Operand} {loc : Loc} {dst : Word} {role : StackRole} {s s' t : State}
    (hr : ReadsDest .word dd loc dst s s') (hw : Writes .word loc (dst ^^^ s'.reg r) s' t)
    (hc : StackClear role s t) :
    transact role (xorBody r dd) s =
      .next (t.setCc (logicCc (dst ^^^ s'.reg r) s.cpu.ps1.cc)) := by
  have hk := hr.kept.codes
  obtain ⟨s1, s2, hf, ho, hv⟩ := hr
  refine transact_completes hf ?_ hc
  rw [xorBody, bind_of_ok ho, bind_of_ok hv, bind_of_ok (getReg_apply r s'), bind_of_ok (getCc_apply s'), hk]
  exact bind_of_ok hw

/-- Settles O25: the operations are those of the rules as they stand; the exclusive or is zero exactly for
equal operands. -/
theorem logicalOperations : Obligations.LogicalOperations := by
  refine ⟨?bis, ?bisb, ?bic, ?bicb, ?xor⟩
  case bis => exact .of_op (op := bisOp) (fun _ _ _ => rfl) (fun _ _ _ => rfl)
  case bisb => exact .of_op (op := bisOp) (fun _ _ _ => rfl) (fun _ _ _ => rfl)
  case bic => exact .of_op (op := bicOp) (fun _ _ _ => rfl) (fun _ _ _ => rfl)
  case bicb => exact .of_op (op := bicOp) (fun _ _ _ => rfl) (fun _ _ _ => rfl)
  case xor =>
    intro r dd loc dst s s' t hr hw hc
    have zero : (dst ^^^ s'.reg r = 0) = (dst = s'.reg r) := propext BitVec.xor_eq_zero_iff
    simp only [← zero]
    exact xorBody_of hr hw hc

/-- Settles O26: the tests of signs are tests of the signed sum and difference. -/
theorem addAndSubtract : Obligations.AddAndSubtract := by
  refine ⟨?add, ?sub⟩
  case add => exact .of_op (fun _ _ _ => rfl) (fun src dst _ => addOp_eq (w := 16) src dst)
  case sub => exact .of_op (fun _ _ _ => rfl) (fun src dst _ => subOp_eq (w := 16) src dst)

/-! ### mul (R235) -/

/-- An odd register is not SP, so that an instruction of a pair writes SP through its source only. -/
theorem pairWritesSp_odd : ∀ r ∈ oddRegs, pairWritesSp r = false := by decide

/-- The codes of mul: those of the exact product, and whether it needs more than sixteen bits. -/
def mulCc (p : Int) : Cc :=
  { n := decide (p < 0), z := decide (p = 0), v := false, c := decide (p < -2 ^ 15 ∨ 2 ^ 15 ≤ p) }

theorem mulOp_eq (a b : Word) :
    mulOp a b = (BitVec.ofInt 32 (a.toInt * b.toInt), mulCc (a.toInt * b.toInt)) := by
  simp only [mulOp, mulCc, overflow_bounds]

section
variable {r : Reg} {ss : Operand} {src : Word} {s s' : State}

/-- An even register takes the high word of the product and the next one the low word. -/
theorem mulBody_even_of {p : Int} (hr : r ∈ evenRegs) (hv : sourceValue .word ss s = .ok (src, s'))
    (hp : (s'.reg r).toInt * src.toInt = p) :
    mulBody r ss s = .ok ((),
      ((s'.setReg r (BitVec.ofInt 16 (p / 2 ^ 16))).setReg (nextReg r) (BitVec.ofInt 16 p)).setCc
        (mulCc p)) := by
  obtain ⟨even, low⟩ := pair_of_even r hr
  rw [mulBody, bind_of_ok hv, bind_of_ok (getReg_apply r s'), mulOp_eq, hp]
  dsimp only
  rw [even, if_neg Bool.false_ne_true, bind_of_ok (putPair_apply r _ s'), low, extractLsb'_ofInt_high,
    extractLsb'_ofInt_low, putCc_apply]

/-- An odd register takes the low word alone. -/
theorem mulBody_odd_of {p : Int} (hr : oddReg r = true) (hv : sourceValue .word ss s = .ok (src, s'))
    (hp : (s'.reg r).toInt * src.toInt = p) :
    mulBody r ss s = .ok ((), (s'.setReg r (BitVec.ofInt 16 p)).setCc (mulCc p)) := by
  rw [mulBody, bind_of_ok hv, bind_of_ok (getReg_apply r s'), mulOp_eq, hp]
  dsimp only
  rw [if_pos hr, bind_of_ok (putReg_apply r _ s'), extractLsb'_ofInt_low, putCc_apply]

end

/-- Settles O27: the body multiplies what the source leaves, for either kind of register. -/
theorem multiply : Obligations.Multiply := by
  rintro r ss src s s' ⟨s1, hf, hv⟩ p cc even odd
  refine ⟨fun hr hc => transact_completes hf (mulBody_even_of hr hv rfl) hc, fun hr hc => ?_⟩
  refine transact_completes hf (mulBody_odd_of (oddReg_of_mem r hr) hv rfl) ?_
  rw [pairWritesSp_odd r hr, Bool.or_false]
  exact hc

/-! ### div (R236) -/

section
variable {r : Reg} {ss : Operand} {src : Word} {s s' : State}

/-- A zero divisor traps once it is read. -/
theorem divBody_zero_of (hr : r ∈ evenRegs) (hv : sourceValue .word ss s = .ok (0, s')) :
    divBody r ss s = .error (.trap (.program .zeroDivide) s'.draw) := by
  rw [divBody, (pair_of_even r hr).1, if_neg Bool.false_ne_true, bind_of_ok hv, if_pos rfl,
    raiseProgram_apply]

/-- With another divisor the quotient decides. -/
theorem divBody_of {n : DWord} (hr : r ∈ evenRegs) (hv : sourceValue .word ss s = .ok (src, s'))
    (hsrc : src ≠ 0) (hn : s'.reg r ++ s'.reg (nextReg r) = n) :
    divBody r ss s =
      if divOverflows n src then divOverflowBody r s'
      else .ok ((), ((s'.setReg r (BitVec.ofInt 16 (divQuotient n src))).setReg (nextReg r)
        (BitVec.ofInt 16 (n.toInt.tmod src.toInt))).setCc (divCc (divQuotient n src))) := by
  obtain ⟨even, low⟩ := pair_of_even r hr
  rw [divBody, even, if_neg Bool.false_ne_true, bind_of_ok hv, if_neg hsrc,
    bind_of_ok (getPair_apply r s'), low, hn, ← divRemainder_eq]
  cases divOverflows n src <;> rfl

/-- At the default of `DIV_OVERFLOW_REGS` an overflow writes the codes alone, N and Z with free values
(U4). -/
theorem divOverflowBody_unchanged (h : s.cfg.divOverflowRegs = .unchanged) :
    divOverflowBody r s = .ok ((), s.setCc
      { n := (Config.divOverflowFlags s.draw).getLsbD 1, z := (Config.divOverflowFlags s.draw).getLsbD 0
        v := true, c := false }) := by
  rw [divOverflowBody, bind_of_ok (peek_apply _ s), bind_of_ok (peek_apply _ s), h]
  rfl

end

/-- Settles O28: the body divides what the source leaves; the three cases are those of its tests. -/
theorem divide : Obligations.Divide := by
  rintro r ss src s s' hr hs dividend q t
  have hcfg : s'.cfg = s.cfg := hs.kept.system.cfg
  obtain ⟨s1, hf, hv⟩ := hs
  refine ⟨fun hsrc hlo hhi hc => ?fits, fun hsrc hq hregs hc => ?overflow, fun hsrc => ?zero⟩
  case fits =>
    have fits : ¬ divOverflows dividend src = true := by
      rw [divOverflows_iff, not_or]
      exact ⟨not_lt.2 hlo, not_le.2 hhi⟩
    refine transact_completes hf ?_ hc
    rw [divBody_of hr hv hsrc rfl, if_neg fits]
    rfl
  case overflow =>
    have body := (divBody_of hr hv hsrc rfl).trans
      ((if_pos (divOverflows_iff.2 hq)).trans (divOverflowBody_unchanged (hcfg ▸ hregs)))
    exact ⟨_, _, transact_completes hf body hc⟩
  case zero =>
    subst hsrc
    exact transact_of_raise hf (divBody_zero_of hr hv)

end Sys2Proof.Machine

/-! PROOFS. The branches (45_branches.md R250 to R268). -/

namespace Sys2Proof.Machine

/-! ### The conditions that combine codes (R260 to R264) -/

/-- bge: N and V agree when their exclusive or is clear. -/
theorem Cond.holds_greaterEqual (cc : Cc) : Cond.greaterEqual.holds cc = (cc.n == cc.v) :=
  Bool.not_not (cc.n == cc.v)

/-- bgt is bge without equality. -/
theorem Cond.holds_greater (cc : Cc) : Cond.greater.holds cc = (!cc.z && cc.n == cc.v) := by
  rw [← Cond.holds_greaterEqual]
  exact Bool.not_or ..

theorem Cond.holds_higher (cc : Cc) : Cond.higher.holds cc = (!cc.c && !cc.z) :=
  Bool.not_or ..

/-! ### The common rule (R250) -/

/-- An instruction that runs the common branch rule on a condition branches when the condition holds: PC in
the rule is already the address of the next word. -/
theorem BranchesWhen.of_cond {i : BitVec 8 → Instr} {f : Cc → Bool} (cond : Cond)
    (hexec : ∀ offset s, exec (i offset) s = transact (.ordinary false) (branchIf cond offset) s)
    (hholds : ∀ cc, cond.holds cc = f cc) : BranchesWhen i f := by
  intro offset s s1 hf hc
  rw [hexec, branchIf_of hf hc, hholds, hf.pc]

end Sys2Proof.Machine

/-! The name `branches` is taken in `Sys2Proof.Machine` by the list of the branches. -/

namespace Sys2Proof.Laws

open Sys2Proof.Machine

/-- Settles O29: every branch is the common rule on its condition. -/
theorem branches : Obligations.Branches := by
  refine ⟨?br, ?bne, ?beq, ?bge, ?blt, ?bgt, ?ble, ?bpl, ?bmi, ?bhi, ?blos, ?bvc, ?bvs, ?bcc, ?bcs, ?bhis, ?blo⟩
  case br => exact .of_cond .always (fun _ _ => rfl) (fun _ => rfl)
  case bne => exact .of_cond .notEqual (fun _ _ => rfl) (fun _ => rfl)
  case beq => exact .of_cond .equal (fun _ _ => rfl) (fun _ => rfl)
  case bge => exact .of_cond .greaterEqual (fun _ _ => rfl) Cond.holds_greaterEqual
  case blt => exact .of_cond .less (fun _ _ => rfl) (fun _ => rfl)
  case bgt => exact .of_cond .greater (fun _ _ => rfl) Cond.holds_greater
  case ble => exact .of_cond .lessEqual (fun _ _ => rfl) (fun _ => rfl)
  case bpl => exact .of_cond .plus (fun _ _ => rfl) (fun _ => rfl)
  case bmi => exact .of_cond .minus (fun _ _ => rfl) (fun _ => rfl)
  case bhi => exact .of_cond .higher (fun _ _ => rfl) Cond.holds_higher
  case blos => exact .of_cond .lowerSame (fun _ _ => rfl) (fun _ => rfl)
  case bvc => exact .of_cond .overflowClear (fun _ _ => rfl) (fun _ => rfl)
  case bvs => exact .of_cond .overflowSet (fun _ _ => rfl) (fun _ => rfl)
  case bcc => exact .of_cond .carryClear (fun _ _ => rfl) (fun _ => rfl)
  case bcs => exact .of_cond .carrySet (fun _ _ => rfl) (fun _ => rfl)
  case bhis => exact .of_cond .carryClear (fun _ _ => rfl) (fun _ => rfl)
  case blo => exact .of_cond .carrySet (fun _ _ => rfl) (fun _ => rfl)

end Sys2Proof.Laws

/-! PROOFS. Subroutine and program control: jmp, sob, jsr, rts and mark (46_subroutine_and_control.md R280 to
R284). -/

namespace Sys2Proof.Machine

/-- PC plays no part in the stack check (R332). -/
theorem StackClear.setPc {role : StackRole} {s t : State} (h : StackClear role s t) (v : Word) :
    StackClear role s (t.setReg .pc v) :=
  h.of_same rfl rfl rfl

/-! ### jmp and jsr (R280, R283) -/

section
variable {dd : Operand} {a : Word} {kind : Access} {s t : State}

/-- At the spec's answer to M3 the target is the address the specifier selects, before its register is
stepped: no part of the evaluation changes the configuration. -/
theorem jumpTarget_of (hm3 : s.cfg.jumpStepFirst = false) (ho : operand .word dd s = .ok (.mem a kind, t)) :
    jumpTarget dd s = .ok (a, t) := by
  have selected : t.cfg.jumpStepFirst = false := by rw [(operand_kept ho).system.cfg, hm3]
  rw [jumpTarget, bind_of_ok ho]
  dsimp only
  rw [bind_of_ok (getReg_apply _ t), bind_of_ok (peek_apply _ t), selected]
  rfl

theorem jmpBody_of (ht : jumpTarget dd s = .ok (a, t)) : jmpBody dd s = .ok ((), t.setReg .pc a) := by
  rw [jmpBody, bind_of_ok ht, putReg_apply]

/-- The link register is pushed as it stands once the target is computed, and takes PC after the push. -/
theorem jsrBody_of {r : Reg} {u : State} (ht : jumpTarget dd s = .ok (a, t))
    (hp : push (t.reg r) t = .ok ((), u)) :
    jsrBody r dd s = .ok ((), (u.setReg r u.cpu.pc).setReg .pc a) := by
  rw [jsrBody, bind_of_ok ht, bind_of_ok (getReg_apply r t), bind_of_ok hp, bind_of_ok (getReg_apply .pc u),
    State.reg_pc, bind_of_ok (putReg_apply r _ u), putReg_apply]

/-- An instruction that selects a word of memory has that word's address as its jump target. -/
theorem SelectsDest.target (hm3 : s.cfg.jumpStepFirst = false)
    (h : SelectsDest .word dd (.mem a kind) s t) :
    ∃ s1, Fetches s s1 ∧ jumpTarget dd s1 = .ok (a, t) := by
  obtain ⟨s1, hf, ho⟩ := h
  exact ⟨s1, hf, jumpTarget_of (by rw [hf.cfg, hm3]) ho⟩

/-- jmp completes at its target, if the stack is clear (R283). -/
theorem exec_jmp_of (hm3 : s.cfg.jumpStepFirst = false) (hd : SelectsDest .word dd (.mem a kind) s t)
    (hc : StackClear (.ordinary (stepsSp dd)) s t) : exec (.jmp dd) s = .next (t.setReg .pc a) := by
  obtain ⟨s1, hf, ht⟩ := hd.target hm3
  exact transact_completes hf (jmpBody_of ht) (hc.setPc a)

/-- jsr completes at its target, with the link pushed and the return address in the link register, if the
stack is clear (R280). -/
theorem exec_jsr_of {r : Reg} {u : State} (hm3 : s.cfg.jumpStepFirst = false)
    (hd : SelectsDest .word dd (.mem a kind) s t) (hp : push (t.reg r) t = .ok ((), u))
    (hc : StackClear (.ordinary true) s ((u.setReg r u.cpu.pc).setReg .pc a)) :
    exec (.jsr r dd) s = .next ((u.setReg r u.cpu.pc).setReg .pc a) := by
  obtain ⟨s1, hf, ht⟩ := hd.target hm3
  exact transact_completes hf (jsrBody_of ht hp) hc

end

/-! ### sob (R284) -/

/-- The register is counted down first; PC, which may be that register, is read after it and moves back
unless the count has reached zero. -/
theorem sobBody_of (r : Reg) (offset : BitVec 6) {s u : State} (hu : s.setReg r (s.reg r - 1) = u) :
    sobBody r offset s = .ok ((),
      if u.reg r = 0 then u else u.setReg .pc (u.cpu.pc - 2 * offset.setWidth 16)) := by
  have count : u.reg r = s.reg r - 1 := by rw [← hu, State.reg_setReg_same]
  rw [sobBody, bind_of_ok (getReg_apply r s), bind_of_ok (putReg_apply r _ s), hu,
    bind_of_ok (getReg_apply .pc u), State.reg_pc, count]
  by_cases hzero : s.reg r - 1 = 0
  · rw [if_neg (not_not.2 hzero), if_pos hzero, pure_apply]
  · rw [if_pos hzero, if_neg hzero, putReg_apply]

/-- sob completes with its count, at the next word or back from it, if the stack is clear (R284). -/
theorem exec_sob_of {r : Reg} {offset : BitVec 6} {s s1 u : State} (hf : Fetches s s1)
    (hu : s1.setReg r (s1.reg r - 1) = u) (hc : StackClear (.ordinary (decide (r = .sp))) s u) :
    exec (.sob r offset) s = .next
      (if u.reg r = 0 then u else u.setReg .pc (u.cpu.pc - 2 * offset.setWidth 16)) := by
  refine transact_completes hf (sobBody_of r offset hu) ?_
  split
  · exact hc
  · exact hc.setPc _

/-! ### rts and mark (R281, R282) -/

theorem rtsBody_of {r : Reg} {v : Word} {s u : State} (hp : pop (s.setReg .pc (s.reg r)) = .ok (v, u)) :
    rtsBody r s = .ok ((), u.setReg r v) := by
  rw [rtsBody, bind_of_ok (getReg_apply r s), bind_of_ok (putReg_apply .pc _ s), bind_of_ok hp, putReg_apply]

/-- The link is read after SP is set, which is another register. -/
theorem markBody_of {nn : BitVec 6} {v : Word} {s u : State}
    (hp : pop ((s.setReg .sp (s.cpu.pc + 2 * nn.setWidth 16)).setReg .pc (s.reg .r5)) = .ok (v, u)) :
    markBody nn s = .ok ((), u.setReg .r5 v) := by
  have link := State.reg_setReg_other s .sp .r5 (s.cpu.pc + 2 * nn.setWidth 16) (by decide)
  rw [markBody, bind_of_ok (getReg_apply .pc s), State.reg_pc, bind_of_ok (putReg_apply .sp _ s),
    bind_of_ok (getReg_apply .r5 _), link, bind_of_ok (putReg_apply .pc _ _), bind_of_ok hp, putReg_apply]

/-- rts completes at the link, with the word popped in the link register, if the stack is clear (R282). -/
theorem exec_rts_of {r : Reg} {v : Word} {s s1 u : State} (hf : Fetches s s1)
    (hp : pop (s1.setReg .pc (s1.reg r)) = .ok (v, u))
    (hc : StackClear (.ordinary true) s (u.setReg r v)) : exec (.rts r) s = .next (u.setReg r v) :=
  transact_completes hf (rtsBody_of hp) hc

/-- mark completes at the link, with the word above the arguments popped into R5, if the stack is clear: the
fetch has left PC at the word after the mark (R281). -/
theorem exec_mark_of {nn : BitVec 6} {v : Word} {s s1 u : State} (hf : Fetches s s1)
    (hp : pop ((s1.setReg .sp (s.cpu.pc + 2 + 2 * nn.setWidth 16)).setReg .pc (s1.reg .r5)) = .ok (v, u))
    (hc : StackClear (.ordinary true) s (u.setReg .r5 v)) :
    exec (.mark nn) s = .next (u.setReg .r5 v) := by
  rw [← hf.pc] at hp
  exact transact_completes hf (markBody_of hp) hc

/-- Settles O33: each of the five is the chain of its parts after the fetch. -/
theorem jumpsAndSubroutines : Obligations.JumpsAndSubroutines :=
  ⟨fun _ _ _ _ _ hm3 hd hc => exec_jmp_of hm3 hd hc,
    fun _ _ _ _ hf hc => exec_sob_of hf rfl hc,
    fun _ _ _ _ _ _ _ hm3 hd hp hc => exec_jsr_of hm3 hd hp hc,
    fun _ _ _ _ _ hf hp hc => exec_rts_of hf hp hc,
    fun _ _ _ _ _ hf hp hc => exec_mark_of hf hp hc⟩

end Sys2Proof.Machine

/-! PROOFS. The condition code operators (47_condition_code_operators.md R297 to R309). -/

namespace Sys2Proof.Machine

/-- Of each code the operator leaves the set bit where the mask selects it, and the old value elsewhere
(R300). -/
theorem Cc.operate_eq (cc : Cc) (set n z v c : Bool) :
    cc.operate set n z v c =
      { n := (n && set) || (!n && cc.n), z := (z && set) || (!z && cc.z)
        v := (v && set) || (!v && cc.v), c := (c && set) || (!c && cc.c) } := by
  have selected (mask old : Bool) : (if mask then set else old) = ((mask && set) || (!mask && old)) := by
    cases mask
    case false => rfl
    case true => exact (Bool.or_false set).symm
  simp only [Cc.operate, selected]

/-- An instruction that runs the common rule of R300 on a mask changes the codes as the rule says. -/
theorem OnlyCodes.of_mask {i : Instr} {f : Cc → Cc} (set n z v c : Bool)
    (hexec : ∀ s, exec i s = transact (.ordinary false) (ccBody set n z v c) s)
    (hoperate : ∀ cc : Cc, cc.operate set n z v c = f cc) : OnlyCodes i f := by
  intro s s1 hf hc
  rw [hexec, ccBody_of hf hc, hoperate]

/-- Settles O30: each is the common rule with the set bit clear, on the mask of the codes it names. -/
theorem clearingOperators : Obligations.ClearingOperators := by
  refine ⟨⟨rfl, ?clc⟩, ⟨rfl, ?clv⟩, ⟨rfl, ?clz⟩, ⟨rfl, ?cln⟩, rfl, ?ccc⟩
  case clc => exact .of_mask false false false false true (fun _ => rfl) (fun _ => rfl)
  case clv => exact .of_mask false false false true false (fun _ => rfl) (fun _ => rfl)
  case clz => exact .of_mask false false true false false (fun _ => rfl) (fun _ => rfl)
  case cln => exact .of_mask false true false false false (fun _ => rfl) (fun _ => rfl)
  case ccc => exact .of_mask false true true true true (fun _ => rfl) (fun _ => rfl)

/-- Settles O31: each is the common rule with the set bit set, on the mask of the codes it names. -/
theorem settingOperators : Obligations.SettingOperators := by
  refine ⟨⟨rfl, ?sec⟩, ⟨rfl, ?sev⟩, ⟨rfl, ?sez⟩, ⟨rfl, ?sen⟩, rfl, ?scc⟩
  case sec => exact .of_mask true false false false true (fun _ => rfl) (fun _ => rfl)
  case sev => exact .of_mask true false false true false (fun _ => rfl) (fun _ => rfl)
  case sez => exact .of_mask true false true false false (fun _ => rfl) (fun _ => rfl)
  case sen => exact .of_mask true true false false false (fun _ => rfl) (fun _ => rfl)
  case scc => exact .of_mask true true true true true (fun _ => rfl) (fun _ => rfl)

/-- Settles O32: the general operator is the common rule on every mask, and nop is the rule on the empty
one. -/
theorem generalOperator : Obligations.GeneralOperator := by
  refine ⟨fun set n z v c => ?ccop, ?nop⟩
  case ccop => exact .of_mask set n z v c (fun _ => rfl) (fun cc => cc.operate_eq set n z v c)
  case nop => exact .of_mask false false false false false (fun _ => rfl) (fun _ => rfl)

end Sys2Proof.Machine

/-! PROOFS. What the parts of a step leave once the controllers have had their share: which part the CPU takes,
and what the time that follows it moves (60_exceptions.md R350, R351, R365, R390, R423, R430). -/

namespace Sys2Proof.Machine

/-! ### The parts of a step (R390) -/

/-- A running machine of CHIP's takes the CPU's part after the controllers' share, and the operator sees it. -/
theorem step_of_running {s : State} (hwf : s.cfg.wf = true) (hrun : s.run = .running) :
    step s = shown s.pollDevices.cpuStep := by
  rw [step, if_pos hwf, State.cycle, hrun]

theorem State.cpuStep_of_source {s : State} {src : Source} (h : s.selectSource = some src) :
    s.cpuStep = .next (s.interrupt src).tick := by
  simp only [State.cpuStep, h]

theorem State.cpuStep_of_wait {s : State} (hnone : s.selectSource = none) (hw : s.cpu.ps1.w = true) :
    s.cpuStep = .next s.waitStep := by
  simp only [State.cpuStep, hnone, hw, if_true]

theorem State.cpuStep_of_instruction {s : State} (hnone : s.selectSource = none)
    (hw : s.cpu.ps1.w = false) (hrun : s.consoleCheck.run = .running) :
    s.cpuStep = finishStep s.consoleCheck.runInstruction := by
  simp only [State.cpuStep, hnone, hw, Bool.false_eq_true, if_false, hrun]

/-- A word that decodes is executed (R335 steps 1 to 3). -/
theorem runInstruction_of_decode {s s1 : State} {w : Word} {i : Instr} (hf : fetchWord s = .ok (w, s1))
    (hw : decodeWord w = some i) : s.runInstruction = exec i s := by
  have hdecode : decode s.cfg.unsupported (bytesOfWord w) = .ok (i, []) := by
    have := decode_of_some (set := s.cfg.unsupported) (rest := []) hw
    rwa [List.append_nil] at this
  simp only [State.runInstruction, State.fetch, hf, hdecode]

/-- Showing the machine changes the operator's display alone (R423). -/
theorem shown_next {s t : State} (h : shown (.next s) = .next t) :
    t = { s with console := { s.console with display := t.console.display } } := by
  cases h
  rfl

/-- Settles O5: the CPU's part is the instruction, which the decoder names, and the time it takes. -/
theorem stepRunsDecoded : Obligations.StepRunsDecoded := by
  refine ⟨fun s s1 w i hwf hrun hnone hw hgo hf hi => ?_, fun _ _ => shown_next⟩
  rw [step_of_running hwf hrun, State.cpuStep_of_instruction hnone hw hgo, runInstruction_of_decode hf hi]

/-! ### The clocks (R350, R351) -/

theorem tdckAfter_eq (draw : Nat) (t : DWord) (dt : Nat) : tdckAfter draw t dt =
    if t.toNat + dt < 2 ^ 32 then t + BitVec.ofNat 32 dt else Config.tdckAfterOverflow draw := by
  rw [tdckAfter, BitVec.ofNat_add, BitVec.ofNat_toNat, BitVec.setWidth_eq]

/-- A timer that stops at zero falls down to it. -/
theorem itAfter_stop (it : DWord) (dt : Nat) : (itAfter .stop it dt).toNat = it.toNat - dt := by
  have := it.isLt
  simp only [itAfter]
  split
  · next hle => exact (Nat.sub_eq_zero_of_le hle).symm
  · next hlt =>
    rw [BitVec.toNat_sub, BitVec.toNat_ofNat, Nat.mod_eq_of_lt (by omega : dt < 2 ^ 32)]
    omega

/-- A timer that stops at zero makes the request when it reaches it. -/
theorem itRequests_stop (it : DWord) (dt : Nat) :
    itRequests .stop it dt = (decide (it ≠ 0) && decide (it.toNat ≤ dt)) := by
  rw [itRequests, itPeriod]
  by_cases h : it = 0
  · rw [if_pos h, h]; rfl
  · rw [if_neg h, decide_eq_true h, Bool.true_and]

/-! ### What a tick moves -/

theorem State.tick_tdck (s : State) : s.tick.tdck = tdckAfter s.draw s.tdck s.instrTime := rfl

theorem State.tick_it (s : State) : s.tick.it = itAfter s.cfg.itAfterZero s.it s.instrTime := rfl

theorem State.tick_clockReq (s : State) :
    s.tick.clockReq = (s.clockReq || itRequests s.cfg.itAfterZero s.it s.instrTime) := rfl

theorem State.tick_still (s : State) :
    s.tick.still = if s.instrTime = 0 then s.still + 1 else 0 := rfl

theorem State.tick_since (s : State) :
    s.tick.since = if s.instrTime = 0 then s.since else s.draw + 1 := rfl

theorem State.tick_ctl (s : State) (k : Fin 15) :
    s.tick.io.ctl[k] = (s.io.ctl[k]).elapse s.instrTime := by
  simp only [State.tick, State.nextDraw_io, State.advance, Fin.getElem_fin, Vector.getElem_map]

/-- The state in which a step ends that executed an instruction: that of a machine at pace 0 is SS, unless the
instruction stopped it (R195, R390, R411). -/
def State.endRun (s : State) : RunState :=
  if s.console.pace = 0 ∧ s.run = .running then .stopped .ss else s.run

/-- After an instruction that no suspect stopped the time it took passes, and the run state is settled. -/
theorem State.endStep_eq {s : State} (h : s.run ≠ .stopped .susp) : s.endStep =
    { s.tick with console := { s.console with passing := false }, run := s.endRun } := by
  rw [State.endStep, if_neg h, State.endRun]
  by_cases hss : s.console.pace = 0 ∧ s.run = .running
  · rw [if_pos hss]; exact if_pos hss
  · rw [if_neg hss]; exact if_neg hss

/-! ### Time grows without bound (R350, D22) -/

/-- Outside a lull an instruction takes time. -/
theorem State.instrTime_pos {s : State} (h : Config.instrLull s.since ≤ s.still) : 0 < s.instrTime := by
  rw [State.instrTime, if_neg (by omega)]
  exact Nat.succ_pos _

/-- The states' two counters follow what the passing of time makes of them. -/
def CountsTime (σ : Nat → State) : Prop :=
  ∀ k, (σ (k + 1)).still = (if (σ k).instrTime = 0 then (σ k).still + 1 else 0) ∧
    ((σ k).instrTime = 0 → (σ (k + 1)).since = (σ k).since)

section
variable {σ : Nat → State} (hσ : CountsTime σ)
include hσ

/-- While no time passes one counter counts and the other stands. -/
theorem CountsTime.during_lull {k : Nat} (hzero : ∀ n, (σ (k + n)).instrTime = 0) (n : Nat) :
    (σ (k + n)).still = (σ k).still + n ∧ (σ (k + n)).since = (σ k).since := by
  induction n with
  | zero => exact ⟨rfl, rfl⟩
  | succ n ih =>
    obtain ⟨hstill, hsince⟩ := ih
    obtain ⟨hstill', hsince'⟩ := hσ (k + n)
    rw [if_pos (hzero n)] at hstill'
    exact ⟨by rw [← Nat.add_assoc, hstill', hstill, Nat.add_assoc],
      by rw [← Nat.add_assoc, hsince' (hzero n), hsince]⟩

/-- No lull lasts for ever. -/
theorem CountsTime.exists_pos (k : Nat) : ∃ n, 0 < (σ (k + n)).instrTime := by
  by_contra hnone
  have hzero (n : Nat) : (σ (k + n)).instrTime = 0 := by
    by_contra hn
    exact hnone ⟨n, Nat.pos_of_ne_zero hn⟩
  obtain ⟨hstill, hsince⟩ := hσ.during_lull hzero (Config.instrLull (σ k).since)
  have hover : Config.instrLull (σ (k + Config.instrLull (σ k).since)).since ≤
      (σ (k + Config.instrLull (σ k).since)).still := by
    rw [hsince, hstill]
    exact Nat.le_add_left _ _
  exact absurd (hzero _) (State.instrTime_pos hover).ne'

/-- Time reaches every bound: each further microsecond waits for the end of the lull at hand. -/
theorem CountsTime.unbounded (bound : Nat) :
    ∃ k, bound ≤ ((List.range k).map (fun i => (σ i).instrTime)).sum := by
  induction bound with
  | zero => exact ⟨0, Nat.zero_le _⟩
  | succ bound ih =>
    obtain ⟨k, hk⟩ := ih
    obtain ⟨n, hn⟩ := hσ.exists_pos k
    refine ⟨k + n + 1, ?_⟩
    rw [List.range_succ, List.range_add, List.map_append, List.map_append, List.sum_append, List.sum_append,
      List.map_singleton, List.sum_singleton]
    omega

end

/-- Settles O6: the end of the step is a tick with the run state settled, and the laws of the tick say what
moves. -/
theorem timePasses : Obligations.TimePasses := by
  refine ⟨fun s t hstop hrun ht => ?passes, fun σ hσ => CountsTime.unbounded hσ⟩
  case passes =>
    have ht : t = s.endStep := by cases ht; rfl
    rw [ht, State.endStep_eq hrun]
    refine ⟨rfl, rfl, rfl, rfl, rfl, rfl, rfl, ?tdck, ?it, ?clockReq, ?ctl, rfl, s.tick_still,
      s.tick_since⟩
    case tdck => exact s.tick_tdck.trans (tdckAfter_eq _ _ _)
    case it =>
      show s.tick.it.toNat = _
      rw [State.tick_it, hstop, itAfter_stop]
    case clockReq =>
      show s.tick.clockReq = _
      rw [State.tick_clockReq, hstop, itRequests_stop]
    case ctl => exact s.tick_ctl

end Sys2Proof.Machine

/-! PROOFS. Which interrupt is taken, what taking it leaves, and the wait state (60_exceptions.md R340 to R352). -/

namespace Sys2Proof.Machine

/-! ### Sources (R341, R342) -/

theorem Source.mem_all (src : Source) : src ∈ Source.all := by
  cases src with
  | clock => exact List.mem_cons_self
  | device d => exact List.mem_cons_of_mem _ (List.mem_map_of_mem d.mem_all)

/-- The sources of one level are listed in the order of their device numbers. -/
theorem Source.all_in_order :
    Source.all.Pairwise (fun a b => a.level = b.level → a.number ≤ b.number) := by decide

/-- Level and device number tell a source from every other (R342). -/
theorem Source.eq_of_level_of_number {a b : Source} (hl : a.level = b.level) (hn : a.number = b.number) :
    a = b := by
  have told : ∀ a ∈ Source.all, ∀ b ∈ Source.all, a.level = b.level → a.number = b.number → a = b := by
    decide
  exact told a a.mem_all b b.mem_all hl hn

theorem State.mem_readySources {s : State} {src : Source} : src ∈ s.readySources ↔ eligible s src := by
  simp [State.readySources, Source.mem_all, eligible, Source.unmasked]

/-! ### Selection (R344) -/

/-- The ready sources of one level, in the order of their device numbers. -/
def State.readyAt (s : State) (l : Nat) : List Source :=
  s.readySources.filter (fun src => decide (src.level = l))

theorem State.mem_readyAt {s : State} {l : Nat} {src : Source} :
    src ∈ s.readyAt l ↔ eligible s src ∧ src.level = l := by
  rw [State.readyAt, List.mem_filter, State.mem_readySources, decide_eq_true_iff]

/-- The first ready source of a level has the lowest device number of them. -/
theorem State.readyAt_head {s : State} {l : Nat} {src : Source} (h : (s.readyAt l).head? = some src) :
    (eligible s src ∧ src.level = l) ∧
      ∀ other, eligible s other → other.level = l → src.number ≤ other.number := by
  obtain ⟨rest, hlist⟩ := List.head?_eq_some_iff.1 h
  have hsrc : eligible s src ∧ src.level = l := State.mem_readyAt.1 (hlist ▸ List.mem_cons_self)
  have hordered : (src :: rest).Pairwise (fun a b => a.level = b.level → a.number ≤ b.number) :=
    hlist ▸ (Source.all_in_order.filter _).filter _
  refine ⟨hsrc, fun other ho hl => ?_⟩
  rcases List.mem_cons.1 (hlist ▸ State.mem_readyAt.2 ⟨ho, hl⟩ : other ∈ src :: rest) with rfl | hrest
  · exact Nat.le_refl _
  · exact (List.pairwise_cons.1 hordered).1 other hrest (hsrc.2.trans hl.symm)

/-- A level serves no source exactly when none of it is ready. -/
theorem State.readyAt_empty {s : State} {l : Nat} :
    (s.readyAt l).head? = none ↔ ∀ src, eligible s src → src.level ≠ l := by
  rw [List.head?_eq_none_iff, List.eq_nil_iff_forall_not_mem]
  exact forall_congr' fun src => by rw [State.mem_readyAt, not_and]

/-- At the defaults the levels are asked from the highest number to the lowest. -/
theorem State.selectSource_default {s : State} (hp : s.cfg.priorityOrder = .highNumberFirst)
    (ho : s.cfg.sameLevelOrder = .lowestDeviceFirst) :
    s.selectSource = (levelsByPriority .highNumberFirst).findSome? (fun l => (s.readyAt l).head?) := by
  rw [State.selectSource, hp, ho]
  rfl

theorem levels_descend : (levelsByPriority .highNumberFirst).Pairwise (· > ·) := by decide

theorem Source.level_listed (src : Source) : src.level ∈ levelsByPriority .highNumberFirst := by
  have listed : ∀ src ∈ Source.all, src.level ∈ levelsByPriority .highNumberFirst := by decide
  exact listed src src.mem_all

/-- The source is eligible, of the highest level, and of the lowest device number among those of its level. -/
def FirstServed (s : State) (src : Source) : Prop :=
  eligible s src ∧ ∀ other, eligible s other →
    other.level < src.level ∨ (other.level = src.level ∧ src.number ≤ other.number)

/-- There is one such source at most. -/
theorem FirstServed.unique {s : State} {a b : Source} (ha : FirstServed s a) (hb : FirstServed s b) :
    a = b := by
  have hab := ha.2 b hb.1
  have hba := hb.2 a ha.1
  exact Source.eq_of_level_of_number (by omega) (by omega)

/-- The first level that has a ready source is the highest one that has. -/
theorem FirstServed.of_first_level {s : State} {src : Source}
    (h : (levelsByPriority .highNumberFirst).findSome? (fun l => (s.readyAt l).head?) = some src) :
    FirstServed s src := by
  obtain ⟨higher, l, lower, hlevels, hsrc, hnone⟩ := List.findSome?_eq_some_iff.1 h
  obtain ⟨⟨hel, rfl⟩, hmin⟩ := State.readyAt_head hsrc
  refine ⟨hel, fun other ho => ?_⟩
  have hdescend := levels_descend
  have hlisted := other.level_listed
  rw [hlevels] at hdescend hlisted
  rcases List.mem_append.1 hlisted with hhigher | hl
  · exact absurd rfl (State.readyAt_empty.1 (hnone _ hhigher) other ho)
  · rcases List.mem_cons.1 hl with heq | hlower
    · exact .inr ⟨heq, hmin other ho heq⟩
    · exact .inl ((List.pairwise_cons.1 (List.pairwise_append.1 hdescend).2.1).1 _ hlower)

theorem State.selectSource_eq_none_iff {s : State} (hp : s.cfg.priorityOrder = .highNumberFirst)
    (ho : s.cfg.sameLevelOrder = .lowestDeviceFirst) :
    s.selectSource = none ↔ ∀ src, ¬ eligible s src := by
  rw [State.selectSource_default hp ho, List.findSome?_eq_none_iff]
  refine ⟨fun h src hel => ?_, fun h l _ => State.readyAt_empty.2 (fun src hel => absurd hel (h src))⟩
  exact State.readyAt_empty.1 (h _ src.level_listed) src hel rfl

/-- Settles O7: what is selected is served first, and only one source is. -/
theorem interruptSelection : Obligations.InterruptSelection := by
  intro s hp ho
  refine ⟨fun src => ⟨fun h => ?served, fun h => ?selected⟩, State.selectSource_eq_none_iff hp ho⟩
  case served => exact FirstServed.of_first_level ((State.selectSource_default hp ho).symm.trans h)
  case selected =>
    cases hsel : s.selectSource with
    | none => exact absurd h.1 ((State.selectSource_eq_none_iff hp ho).1 hsel src)
    | some found =>
      have hfound : FirstServed s found :=
        FirstServed.of_first_level ((State.selectSource_default hp ho).symm.trans hsel)
      rw [hfound.unique h]

/-! ### Entry (R343, R347) -/

@[simp] theorem State.clearPending_mem (s : State) (src : Source) : (s.clearPending src).mem = s.mem := by
  cases src <;> rfl

@[simp] theorem State.clearPending_it (s : State) (src : Source) : (s.clearPending src).it = s.it := by
  cases src <;> rfl

@[simp] theorem State.clearPending_instrTime (s : State) (src : Source) :
    (s.clearPending src).instrTime = s.instrTime := by
  cases src <;> rfl

theorem State.clearPending_clockReq (s : State) (src : Source) :
    (s.clearPending src).clockReq = (decide (src ≠ .clock) && s.clockReq) := by
  cases src with
  | clock => rfl
  | device d => simp [State.clearPending]

theorem State.clearPending_own (s : State) (d : Dev) :
    (s.clearPending (.device d)).io.ctl[d.slot].pending = false := by
  rw [State.clearPending, State.setCtl_ctl_same]

theorem State.clearPending_other (s : State) {src : Source} {d : Dev} (h : src ≠ .device d) :
    (s.clearPending src).io.ctl[d.slot] = s.io.ctl[d.slot] := by
  cases src with
  | clock => rfl
  | device e => exact State.setCtl_ctl_other s e _ (Dev.slot_ne (fun hde => h (congrArg _ hde.symm)))

/-- With `W_SAVED` at its default taking an interrupt is the entry of Table 6 with the source's flag
cleared. -/
theorem State.interrupt_eq_enter {s : State} (h : s.cfg.wSaved = .asIs) (src : Source) :
    s.interrupt src =
      (s.clearPending src).enter (interruptTable src).1 (interruptTable src).2 := by
  have hsettle : (s.clearPending src).settleW = s.clearPending src := by
    rw [State.settleW, State.clearPending_cfg, h]
  rw [State.interrupt, hsettle, interruptTable_eq]

@[simp] theorem State.enter_instrTime (s : State) (area : Nat) (code : Word) :
    (s.enter area code).instrTime = s.instrTime := rfl

@[simp] theorem State.pollDevices_instrTime (s : State) : s.pollDevices.instrTime = s.instrTime := by
  simp only [State.instrTime, State.pollDevices_still, State.pollDevices_since, State.pollDevices_draw]

/-- Time passing leaves a controller's request. -/
theorem State.tick_pending (s : State) (k : Fin 15) : s.tick.io.ctl[k].pending = s.io.ctl[k].pending := by
  rw [State.tick_ctl]
  rfl

/-- Settles O8: the step is the entry from the state with the flag cleared, and the tick after it moves the
clock's request alone. -/
theorem interruptEntry : Obligations.InterruptEntry := by
  intro s src hwf hmem hrun hsaved hstop hsel
  have hstep : step s = .next (((s.pollDevices.clearPending src).enter (interruptTable src).1
      (interruptTable src).2).tick.refresh) := by
    rw [step_of_running hwf hrun, State.cpuStep_of_source hsel,
      State.interrupt_eq_enter (by rw [State.pollDevices_cfg, hsaved])]
    rfl
  have hcanonical : (s.pollDevices.clearPending src).mem.wf = true := by
    rw [State.clearPending_mem]
    exact (DevicesOnly.pollDevices s).wf hmem
  refine ⟨_, hstep, fun k hk => ?old, ?new, fun a ha => ?rest, ?clockReq, fun d hd => ?own,
    fun d hd => ?others⟩
  case old =>
    rw [State.refresh_mem, State.tick_mem, State.enter_old _ _ _ hcanonical hk, State.clearPending_cpu,
      State.clearPending_cfg, State.pollDevices_cfg]
  case new =>
    rw [State.refresh_cpu, State.tick_cpu, State.enter_cpu _ _ _ hcanonical, State.clearPending_cfg,
      State.clearPending_mem, State.pollDevices_cfg]
  case rest =>
    rw [State.refresh_mem, State.tick_mem, State.enter_read _ _ _ hcanonical ha, State.clearPending_mem]
  case clockReq =>
    rw [State.refresh_clockReq, State.tick_clockReq, State.enter_clockReq, State.clearPending_clockReq,
      State.pollDevices_clockReq, State.enter_cfg, State.clearPending_cfg, State.pollDevices_cfg, hstop,
      itRequests_stop, State.enter_it, State.clearPending_it, State.pollDevices_it, State.enter_instrTime,
      State.clearPending_instrTime, State.pollDevices_instrTime]
  case own =>
    subst hd
    rw [State.refresh_io, State.tick_pending, State.enter_io, State.clearPending_own]
  case others =>
    rw [State.refresh_io, State.tick_pending, State.enter_io, State.clearPending_other _ hd]

/-! ### The wait state (R346) -/

@[simp] theorem State.waitStep_mem (s : State) : s.waitStep.mem = s.mem := by
  unfold State.waitStep; split_ifs <;> rfl

/-- An unmasked source can still request an interrupt. -/
def State.CanWake (s : State) : Prop := ∃ src : Source, src.possible s = true ∧ src.unmasked s = true

/-- The wait goes on where it can end. -/
theorem State.waitStep_run_of_canWake {s : State} (h : s.CanWake) : s.waitStep.run = s.run := by
  obtain ⟨src, hpossible, hunmasked⟩ := h
  rw [State.waitStep, if_pos]
  · rfl
  · exact List.any_eq_true.2 ⟨src, src.mem_all, by rw [hpossible, hunmasked]; rfl⟩

/-- The machine stops where nothing can end the wait. -/
theorem State.waitStep_run_of_not_canWake {s : State} (h : ¬ s.CanWake) :
    s.waitStep.run = .stopped .wait := by
  rw [State.waitStep, if_neg]
  · rfl
  · intro hany
    obtain ⟨src, -, hsrc⟩ := List.any_eq_true.1 hany
    exact h ⟨src, Bool.and_eq_true_iff.1 hsrc⟩

theorem Source.unmasked_iff (s : State) (src : Source) :
    src.unmasked s = true ↔ s.cpu.ps1.intmask.getLsbD src.level = false := by
  rw [Source.unmasked, Bool.not_eq_true']

/-- A timer that stops at zero can still request an interrupt as long as it runs (R351). -/
theorem Source.possible_clock {s : State} (hstop : s.cfg.itAfterZero = .stop) :
    Source.clock.possible s = true ↔ s.it ≠ 0 := by
  rw [Source.possible, hstop, itPeriod]
  split
  · next h => exact ⟨(fun hn => nomatch hn), fun hn => absurd h hn⟩
  · next h => exact ⟨fun _ => h, fun _ => rfl⟩

/-- What can wake the machine is the running timer, or an operation in progress, of an enabled level. -/
theorem State.canWake_iff {s : State} (hstop : s.cfg.itAfterZero = .stop) : s.CanWake ↔
    (s.it ≠ 0 ∧ s.cpu.ps1.intmask.getLsbD 5 = false) ∨
      ∃ d : Dev, (s.io.ctl[d.slot].busy).isSome = true ∧ s.cpu.ps1.intmask.getLsbD d.level = false := by
  constructor
  · rintro ⟨src, hpossible, hunmasked⟩
    rw [Source.unmasked_iff] at hunmasked
    cases src with
    | clock => exact .inl ⟨(Source.possible_clock hstop).1 hpossible, hunmasked⟩
    | device d => exact .inr ⟨d, hpossible, hunmasked⟩
  · rintro (⟨hit, hmask⟩ | ⟨d, hbusy, hmask⟩)
    · exact ⟨.clock, (Source.possible_clock hstop).2 hit, (Source.unmasked_iff s .clock).2 hmask⟩
    · exact ⟨.device d, hbusy, (Source.unmasked_iff s (.device d)).2 hmask⟩

/-- Settles O9: the step is the wait, which goes on exactly where something can end it. -/
theorem waitState : Obligations.WaitState := by
  intro s hwf hrun hstop hnone hw
  have hstep : step s = .next s.pollDevices.waitStep.refresh := by
    rw [step_of_running hwf hrun, State.cpuStep_of_wait hnone hw]
    rfl
  have hwake := State.canWake_iff (s := s.pollDevices) (by rw [State.pollDevices_cfg, hstop])
  refine ⟨_, hstep, by rw [State.refresh_cpu, State.waitStep_cpu],
    by rw [State.refresh_mem, State.waitStep_mem], fun hsome => ?goes, fun hnothing => ?stops⟩
  case goes =>
    rw [State.refresh_run, State.waitStep_run_of_canWake (hwake.2 hsome), State.pollDevices_run, hrun]
  case stops =>
    rw [State.refresh_run, State.waitStep_run_of_not_canWake]
    intro h
    obtain ⟨htimer, hdevices⟩ := hnothing
    rcases hwake.1 h with ⟨hit, hmask⟩ | ⟨d, hbusy, hmask⟩
    · rcases htimer with h0 | h1
      · exact hit h0
      · rw [hmask] at h1; cases h1
    · have := hdevices d hbusy
      rw [hmask] at this; cases this

end Sys2Proof.Machine

/-! PROOFS. The status of a request that fails, and the completion of a failing request and of a seek
(60_exceptions.md R365 to R367, R371 to R381). -/

namespace Sys2Proof.Machine

/-! ### The first answer of several -/

theorem ite_some_or {α : Type} {p : Prop} [Decidable p] (a : α) (rest : Option α) :
    (if p then some a else none).or rest = if p then some a else rest := by
  split <;> rfl

theorem findSome?_cons_eq_or {α β : Type} (f : α → Option β) (x : α) (xs : List α) :
    (x :: xs).findSome? f = (f x).or (xs.findSome? f) := by
  rw [List.findSome?_cons]
  cases f x <;> rfl

/-! ### Each check (R366, R367) -/

section
variable (g : Config) (io : Io) (d : Dev) (n : Nat) (code arg buf : Word)

theorem checkStatus_nonExistentDevice : checkStatus g io d n code arg buf .nonExistentDevice =
    if d.configured g ≤ d.number then some 8 else none := by
  by_cases h : d.number < d.configured g
  · rw [checkStatus, if_pos h, if_neg (by omega)]
  · rw [checkStatus, if_neg h, if_pos (by omega)]

variable {code} {kind : OpKind} (hk : d.opKind code = some kind)
include hk

theorem checkStatus_invalidOperation : checkStatus g io d n code arg buf .invalidOperation = none := by
  rw [checkStatus, hk]; rfl

theorem checkStatus_invalidArgument : checkStatus g io d n code arg buf .invalidArgument =
    kind.argumentStatus g d arg := by
  rw [checkStatus, hk]; rfl

theorem checkStatus_invalidBuffer : checkStatus g io d n code arg buf .invalidBuffer =
    if kind.bufferLength g arg ≠ 0 ∧ g.memsize < buf.toNat + kind.bufferLength g arg then some 3
    else none := by
  have hvalid := bufferValid_iff g buf (kind.bufferLength g arg)
  rw [checkStatus, hk, Option.bind_some]
  by_cases h : bufferValid g buf (kind.bufferLength g arg) = true
  · rw [if_pos h, if_neg (by have := hvalid.1 h; omega)]
  · rw [if_neg h, if_pos (by have := mt hvalid.2 h; omega)]

theorem checkStatus_notReady : checkStatus g io d n code arg buf .notReady =
    if io.ready d kind = false then some 9 else none := by
  rw [checkStatus, hk, Option.bind_some]
  cases io.ready d kind <;> rfl

end

/-! ### The checks in their default order (R366) -/

section
variable {g : Config} (io : Io) {d : Dev} (n : Nat) {code : Word} (arg buf : Word)
  (horder : g.deviceCheckOrder = Config.checkOrderDefault) (hhw : g.hwFailures = [])
include horder hhw

theorem requestStatus_default : requestStatus g io d n code arg buf =
    if d.configured g ≤ d.number then some 8
    else (checkStatus g io d n code arg buf .invalidOperation).or
      ((checkStatus g io d n code arg buf .invalidArgument).or
        ((checkStatus g io d n code arg buf .invalidBuffer).or
          (checkStatus g io d n code arg buf .notReady))) := by
  have hworks : checkStatus g io d n code arg buf .hardwareFailure = none := by
    rw [checkStatus, hhw]; rfl
  rw [requestStatus, horder, Config.checkOrderDefault]
  simp only [findSome?_cons_eq_or, List.findSome?_nil, hworks, Option.or_none,
    checkStatus_nonExistentDevice, ite_some_or]

/-- A code that stands for no operation fails on a device that is configured. -/
theorem requestStatus_of_invalid (hk : d.opKind code = none) : requestStatus g io d n code arg buf =
    if d.configured g ≤ d.number then some 8 else some 2 := by
  have hinvalid : checkStatus g io d n code arg buf .invalidOperation = some 2 := by
    rw [checkStatus, hk]; rfl
  rw [requestStatus_default io n arg buf horder hhw, hinvalid, Option.some_or]

/-- Of an operation the argument is checked, then the buffer, then the host file. -/
theorem requestStatus_of_kind {kind : OpKind} (hk : d.opKind code = some kind) :
    requestStatus g io d n code arg buf =
      if d.configured g ≤ d.number then some 8
      else (kind.argumentStatus g d arg).or
        (if kind.bufferLength g arg ≠ 0 ∧ g.memsize < buf.toNat + kind.bufferLength g arg then some 3
          else if io.ready d kind = false then some 9 else none) := by
  rw [requestStatus_default io n arg buf horder hhw, checkStatus_invalidOperation g io d n arg buf hk,
    checkStatus_invalidArgument g io d n arg buf hk, checkStatus_invalidBuffer g io d n arg buf hk,
    checkStatus_notReady g io d n arg buf hk, Option.none_or, ite_some_or]

theorem requestStatus_seek (hk : d.opKind code = some .seek) :
    requestStatus g io d n code arg buf =
      if d.configured g ≤ d.number then some 8
      else if g.uptrack < arg.toNat then some 5 else none := by
  rw [requestStatus_of_kind io n arg buf horder hhw hk]
  simp only [OpKind.argumentStatus, OpKind.bufferLength, ite_some_or, Io.ready, gt_iff_lt]
  rfl

/-- Sectors are read and written after the same checks. -/
theorem requestStatus_sector (hk : d.opKind code = some .sectorRead ∨ d.opKind code = some .sectorWrite) :
    requestStatus g io d n code arg buf =
      if d.configured g ≤ d.number then some 8
      else if d.lastSector g < arg.toNat then some 6
      else if g.memsize < buf.toNat + 512 then some 3 else none := by
  rcases hk with hk | hk <;>
    · rw [requestStatus_of_kind io n arg buf horder hhw hk]
      simp [OpKind.argumentStatus, OpKind.bufferLength, ite_some_or, Io.ready]

theorem requestStatus_print (hk : d.opKind code = some .print) :
    requestStatus g io d n code arg buf =
      if d.configured g ≤ d.number then some 8
      else if g.upamount < arg.toNat then some 4
      else if arg ≠ 0 ∧ g.memsize < buf.toNat + arg.toNat then some 3
      else if io.ready d .print = false then some 9 else none := by
  have hlen : arg.toNat ≠ 0 ↔ arg ≠ 0 := (@BitVec.toNat_ne 16 arg 0).symm
  rw [requestStatus_of_kind io n arg buf horder hhw hk]
  simp only [OpKind.argumentStatus, OpKind.bufferLength, ite_some_or, hlen, gt_iff_lt]

theorem requestStatus_lineRead (hk : d.opKind code = some .lineRead) :
    requestStatus g io d n code arg buf =
      if d.configured g ≤ d.number then some 8
      else if g.upamount ≠ 0 ∧ g.memsize < buf.toNat + g.upamount then some 3
      else if io.ready d .lineRead = false then some 9 else none :=
  requestStatus_of_kind io n arg buf horder hhw hk

end

/-! ### The operations of each device (Tables 9 to 12) -/

theorem Dev.opKind_disk_none {i : Fin 4} {code : Word} (h : 2 < code.toNat) :
    (Dev.disk i).opKind code = none := by
  unfold Dev.opKind
  generalize code.toNat = c at h
  match c, h with
  | _ + 3, _ => rfl

theorem Dev.opKind_drum_none {i : Fin 4} {code : Word} (h : 1 < code.toNat) :
    (Dev.drum i).opKind code = none := by
  unfold Dev.opKind
  generalize code.toNat = c at h
  match c, h with
  | _ + 2, _ => rfl

theorem Dev.opKind_terminal_none {i : Fin 5} {code : Word} (h : 1 < code.toNat) :
    (Dev.terminal i).opKind code = none := by
  unfold Dev.opKind
  generalize code.toNat = c at h
  match c, h with
  | _ + 2, _ => rfl

theorem Dev.opKind_printer_none {i : Fin 2} {code : Word} (h : code.toNat ≠ 1) :
    (Dev.printer i).opKind code = none := by
  unfold Dev.opKind
  generalize code.toNat = c at h
  match c, h with
  | 0, _ => rfl
  | _ + 2, _ => rfl

/-- The codes 0 and 1, which a disk and a drum have for a sector. -/
theorem code_of_le_one {code : Word} (h : code.toNat ≤ 1) : code = 0 ∨ code = 1 := by
  bv_omega

/-- Settles O56: the checks in their order for each operation of each device. -/
theorem requestChecks : Obligations.RequestChecks := by
  intro g io n code arg buf horder hhw
  refine ⟨fun i => ?disk, fun i => ?drum, fun i => ?printer, fun i => ?terminal⟩
  case disk =>
    by_cases hbad : 2 < code.toNat
    · rw [requestStatus_of_invalid io n arg buf horder hhw (Dev.opKind_disk_none hbad), if_pos hbad]
      rfl
    rw [if_neg hbad]
    by_cases hseek : code = 2
    · rw [if_pos hseek]
      exact requestStatus_seek io n arg buf horder hhw (by rw [hseek]; rfl)
    · have hle : code.toNat ≤ 1 := by bv_omega
      rw [if_neg hseek]
      refine requestStatus_sector io n arg buf horder hhw ?_
      rcases code_of_le_one hle with rfl | rfl
      · exact .inl rfl
      · exact .inr rfl
  case drum =>
    by_cases hbad : 1 < code.toNat
    · rw [requestStatus_of_invalid io n arg buf horder hhw (Dev.opKind_drum_none hbad), if_pos hbad]
      rfl
    rw [if_neg hbad]
    refine requestStatus_sector io n arg buf horder hhw ?_
    rcases code_of_le_one (Nat.le_of_not_lt hbad) with rfl | rfl
    · exact .inl rfl
    · exact .inr rfl
  case printer =>
    by_cases hprint : code = 1
    · rw [if_neg (not_not_intro hprint)]
      exact requestStatus_print io n arg buf horder hhw (by rw [hprint]; rfl)
    · rw [if_pos hprint]
      exact requestStatus_of_invalid io n arg buf horder hhw (Dev.opKind_printer_none (by bv_omega))
  case terminal =>
    by_cases hbad : 1 < code.toNat
    · rw [requestStatus_of_invalid io n arg buf horder hhw (Dev.opKind_terminal_none hbad), if_pos hbad]
      rfl
    rw [if_neg hbad]
    rcases code_of_le_one (Nat.le_of_not_lt hbad) with rfl | rfl
    · rw [if_neg (show (0 : Word) ≠ 1 by decide), requestStatus_lineRead io n arg buf horder hhw rfl]
      simp only [Io.ready, Option.isSome_eq_false_iff, Option.isNone_iff_eq_none]
      rfl
    · rw [if_pos rfl]
      exact requestStatus_print io n arg buf horder hhw rfl

/-! ### Completion where no byte is transferred (R365, R366, R371) -/

/-- The operation is over and the request made, and the rest is what the effects of its kind leave. -/
theorem State.pollDevice_of_no_transfer {s t : State} {d : Dev} {op : DevOp} {status : Nat}
    (hb : s.io.ctl[d.slot].busy = some op) (hleft : op.left = 0) (hlen : s.transferLength d op = 0)
    (hfin : s.finishOp d op = (t, status)) : s.pollDevice d =
      ({ t with mem := t.mem.writeWord d.statusAddr (BitVec.ofNat 16 status) } : State).setCtl d
        { s.io.ctl[d.slot] with busy := none, pending := true } := by
  have hctl : t.io.ctl = s.io.ctl := by
    have := State.finishOp_ctl s d op
    rwa [hfin] at this
  simp only [State.pollDevice, hb, hleft, if_true, State.completeOp, hlen, State.moveBytes, Option.getD_some,
    hfin, hctl]

/-- A failing request transfers nothing and has no effect besides its status (R366). -/
theorem State.pollDevice_failing {s : State} {d : Dev} {op : DevOp} {status : Nat}
    (hb : s.io.ctl[d.slot].busy = some op) (hleft : op.left = 0) (hf : op.failure = some status) :
    s.pollDevice d =
      ({ s with mem := s.mem.writeWord d.statusAddr (BitVec.ofNat 16 status) } : State).setCtl d
        { s.io.ctl[d.slot] with busy := none, pending := true } := by
  refine State.pollDevice_of_no_transfer hb hleft ?_ ?_
  · simp only [State.transferLength, hf]
  · simp only [State.finishOp, hf]

/-- A seek moves the head alone (R371). -/
theorem State.pollDevice_seek {s : State} {i : Fin 4} {op : DevOp}
    (hb : s.io.ctl[(Dev.disk i).slot].busy = some op) (hleft : op.left = 0) (hf : op.failure = none)
    (hcode : op.code = 2) : s.pollDevice (.disk i) =
      ({ s.setHead op.arg.toNat (.disk i) with
          mem := s.mem.writeWord (Dev.disk i).statusAddr 0 } : State).setCtl (.disk i)
        { s.io.ctl[(Dev.disk i).slot] with busy := none, pending := true } := by
  have hk : (Dev.disk i).opKind op.code = some .seek := by rw [hcode]; rfl
  refine State.pollDevice_of_no_transfer hb hleft ?_ ?_
  · simp only [State.transferLength, hf, hk]
  · simp only [State.finishOp, hf, hk]

/-- The disks after a head has moved. -/
theorem State.setHead_disks (s : State) (track : Nat) (i j : Fin 4) :
    (s.setHead track (.disk i)).io.disks[j] =
      if j = i then { s.io.disks[i] with head := track } else s.io.disks[j] := by
  simp only [State.setHead, Fin.getElem_fin, Vector.getElem_set, Fin.ext_iff, eq_comm]

/-- Settles O57: each completion as a state, read off field by field. -/
theorem deviceCompletes : Obligations.DeviceCompletes := by
  refine ⟨fun s d op status hb hleft hf => ?failing, fun s i op hb hleft hf hcode => ?seek⟩
  case failing =>
    rw [State.pollDevice_failing hb hleft hf]
    exact ⟨rfl, rfl, rfl, rfl, rfl, rfl, by rw [State.setCtl_ctl_same], by rw [State.setCtl_ctl_same],
      fun k hk => State.setCtl_ctl_other _ _ _ hk⟩
  case seek =>
    rw [State.pollDevice_seek hb hleft hf hcode]
    have hdisks := s.setHead_disks op.arg.toNat i
    have hown := (hdisks i).trans (if_pos rfl)
    have hdata : (s.setHead op.arg.toNat (.disk i)).io.disks[i].data = s.io.disks[i].data := by rw [hown]
    exact ⟨congrArg Disk.head hown, hdata, fun j hj => (hdisks j).trans (if_neg hj), rfl, rfl,
      rfl, rfl, rfl, by rw [State.setCtl_ctl_same], by rw [State.setCtl_ctl_same],
      fun k hk => State.setCtl_ctl_other _ _ _ hk⟩

end Sys2Proof.Machine

/-! PROOFS. The stack limit at a push (60_exceptions.md R330 to R333). -/

namespace Sys2Proof.Machine

/-! ### A push by `mov` -/

/-- The source of a push is not read again: only a mode that steps its register, or one with an extension word,
asks for that (R167). -/
theorem rereadsSource_push (g : Config) {r : Reg} (h : r ≠ .sp) :
    rereadsSource g ⟨.register, r⟩ ⟨.autoDec, .sp⟩ = false := by
  simp [rereadsSource, modeExtends, h]

theorem sourceThenDest_push {r : Reg} (h : r ≠ .sp) (s : State) :
    sourceThenDest .word ⟨.register, r⟩ ⟨.autoDec, .sp⟩ s =
      .ok ((s.reg r, .mem (s.cpu.sp - 2) .read), s.setReg .sp (s.cpu.sp - 2)) := by
  rw [sourceThenDest, bind_of_ok (operand_register _ _ _), bind_of_ok (readLoc_reg_word _ _),
    bind_of_ok (operand_autoDec _ _ _), bind_of_ok (peek_apply _ _), rereadsSource_push _ h]
  rfl

theorem moveInto_push {r : Reg} {s : State} (h : r ≠ .sp) (hd : Direct s .word (s.cpu.sp - 2)) :
    moveInto .word ⟨.register, r⟩ ⟨.autoDec, .sp⟩ s =
      .ok ((), ((s.setReg .sp (s.cpu.sp - 2)).store (s.cpu.sp - 2) .word (s.reg r)).setCc
        (logicCc (s.reg r) s.cpu.ps1.cc)) := by
  rw [moveInto, bind_of_ok (sourceThenDest_push h s)]
  dsimp only
  rw [bind_of_ok (getCc_apply _), writeLoc, bind_of_ok (memWrite_direct (hd.setReg _ _) _), putCc_apply,
    State.setReg_ps1]

/-! ### The zones (R330 to R332) -/

/-- With the default policy an instruction that lowers SP ends by the zone in which it leaves it. -/
theorem commit_of_lowered {s t : State} {writes : Bool} (hpolicy : t.cfg.stackPolicy = .lowered)
    (hlower : t.cpu.sp.toNat < s.cpu.sp.toNat) : commit (.ordinary writes) s t =
      if t.cpu.sp.toNat ≤ t.cpu.stl.toNat + 4 then (s.meanwhile t.draw).takeTrap (.program .stackRed)
      else if t.cpu.sp.toNat ≤ t.cpu.stl.toNat + 16 then t.takeTrap (.program .stackYellow)
      else t := by
  have hchecked : stackChecked t.cfg.stackPolicy (.ordinary writes) s.cpu.sp t.cpu.sp = true := by
    rw [hpolicy, stackChecked, decide_eq_true hlower]
  rw [commit, if_pos hchecked]
  simp only [inRedZone, inYellowZone, decide_eq_true_eq]

/-- Settles O15: the body is the push, and its end is settled by the zone of the lowered SP. -/
theorem pushAtStackLimit : Obligations.PushAtStackLimit := by
  intro r s hsp hpc hpolicy hf htwo hd pushed
  have hbody : moveInto .word ⟨.register, r⟩ ⟨.autoDec, .sp⟩ (s.setReg .pc (s.cpu.pc + 2)) =
      .ok ((), pushed) := by
    have hpush := moveInto_push (s := s.setReg .pc (s.cpu.pc + 2)) hsp (hd.setReg _ _)
    rw [State.reg_setReg_other _ _ _ _ hpc, State.setReg_ps1] at hpush
    exact hpush
  have hpushedSp : pushed.cpu.sp = s.cpu.sp - 2 := by simp [pushed, ← State.reg_sp]
  have hpushedStl : pushed.cpu.stl = s.cpu.stl := by simp [pushed]
  have hlower : pushed.cpu.sp.toNat < s.cpu.sp.toNat := by rw [hpushedSp]; bv_omega
  have hend := transact_of_ok (role := .ordinary (stepsSp ⟨.register, r⟩ || writesSp ⟨.autoDec, .sp⟩))
    (fetchWord_direct hf) hbody
  rw [commit_of_lowered (by simpa [pushed] using hpolicy) hlower, State.meanwhile_quiet hd.quiet, hpushedSp,
    hpushedStl] at hend
  exact hend

end Sys2Proof.Machine

/-! PROOFS. One terminal read (60_exceptions.md R382). -/

namespace Sys2Proof.Machine

/-- What is left of the line from a position: the bytes before the next New Line. -/
def restOfLine (input : List Byte) (pos : Nat) : List Byte :=
  (input.drop pos).takeWhile (fun b => decide (b ≠ newLine))

theorem newLine_not_mem_restOfLine (input : List Byte) (pos : Nat) : newLine ∉ restOfLine input pos :=
  fun h => by simpa using List.mem_takeWhile_imp h

theorem restOfLine_prefix (input : List Byte) (pos : Nat) : restOfLine input pos <+: input.drop pos :=
  List.takeWhile_prefix _

/-- The line lies within the input. -/
theorem restOfLine_length (input : List Byte) {pos : Nat} (h : pos ≤ input.length) :
    pos + (restOfLine input pos).length ≤ input.length := by
  have := (restOfLine_prefix input pos).length_le
  rw [List.length_drop] at this
  omega

/-- Where the input goes on after the line, it does with the New Line. -/
theorem getElem?_restOfLine (input : List Byte) {pos : Nat}
    (h : pos + (restOfLine input pos).length < input.length) :
    input[pos + (restOfLine input pos).length]? = some newLine := by
  have hsplit : restOfLine input pos ++ (input.drop pos).dropWhile (fun b => decide (b ≠ newLine)) =
      input.drop pos := List.takeWhile_append_dropWhile
  have hstops := List.head?_dropWhile_not (fun b => decide (b ≠ newLine)) (input.drop pos)
  cases hrest : (input.drop pos).dropWhile (fun b => decide (b ≠ newLine)) with
  | nil =>
    have hlen := congrArg List.length hsplit
    rw [hrest, List.append_nil, List.length_drop] at hlen
    omega
  | cons b bs =>
    rw [hrest] at hstops hsplit
    have hb : b = newLine := by simpa using hstops
    rw [← List.getElem?_drop, ← hsplit, List.getElem?_append_right (Nat.le_refl _), Nat.sub_self,
      List.getElem?_cons_zero, hb]

section
variable {g : Config} (input : List Byte) (pos : Nat)

theorem lineRead_bytes : (lineRead g input pos).bytes = (restOfLine input pos).take g.upamount := rfl

theorem lineRead_prefix : (lineRead g input pos).bytes <+: restOfLine input pos := List.take_prefix _ _

theorem lineRead_length_le : (lineRead g input pos).bytes.length ≤ g.upamount := List.length_take_le _ _

/-- A read of fewer bytes than it may take has the whole line. -/
theorem lineRead_bytes_of_short (h : (lineRead g input pos).bytes.length < g.upamount) :
    (lineRead g input pos).bytes = restOfLine input pos := by
  rw [lineRead_bytes, List.length_take] at h
  rw [lineRead_bytes, List.take_of_length_le (by omega)]

/-- With the defaults the position is after the bytes that were read, and after the New Line that the read
reached. -/
theorem lineRead_pos (hlong : g.termLongLine = .leaveRest) : (lineRead g input pos).pos =
    if (lineRead g input pos).bytes.length < g.upamount ∧
        pos + (lineRead g input pos).bytes.length < input.length then
      pos + (lineRead g input pos).bytes.length + 1
    else pos + (lineRead g input pos).bytes.length := by
  simp [lineRead, hlong]

/-- With the defaults status 7 comes with the read that exhausts the input. -/
theorem lineRead_status (heoi : g.eoiTiming = .exhaustingRead) : (lineRead g input pos).status =
    if input.length ≤ (lineRead g input pos).pos then 7 else 0 := by
  simp [lineRead, heoi]

variable {input pos} (hpos : pos ≤ input.length)
include hpos

theorem lineRead_within : pos + (lineRead g input pos).bytes.length ≤ input.length := by
  have hline := restOfLine_length input hpos
  have := (lineRead_prefix (g := g) input pos).length_le
  omega

/-- The position stays within the input. -/
theorem lineRead_pos_le (hlong : g.termLongLine = .leaveRest) :
    (lineRead g input pos).pos ≤ input.length := by
  have hwithin := lineRead_within (g := g) hpos
  rw [lineRead_pos input pos hlong]
  split <;> omega

end

/-- Settles O60: the bytes are the beginning of the rest of the line, and the position and the status follow from
how many they are. -/
theorem terminalRead : Obligations.TerminalRead := by
  intro g input pos hlong heoi hpos r
  have hnext : r.pos = _ := lineRead_pos input pos hlong
  have hstatus : r.status = if input.length ≤ r.pos then 7 else 0 := lineRead_status input pos heoi
  have hwithin : pos + r.bytes.length ≤ input.length := lineRead_within hpos
  have hend : r.pos ≤ input.length := lineRead_pos_le hpos hlong
  have hprefix : r.bytes <+: input.drop pos :=
    (lineRead_prefix input pos).trans (restOfLine_prefix input pos)
  refine ⟨lineRead_length_le input pos, fun h => ?noNewLine, List.prefix_iff_eq_take.1 hprefix,
    fun hfull => ?full, fun hshort hlast => ?last, fun hshort hmore => ⟨?newLine, ?consumed⟩, ?exhausted,
    ?left⟩
  case noNewLine => exact newLine_not_mem_restOfLine input pos ((lineRead_prefix input pos).subset h)
  case full => rw [hnext, if_neg (fun h => absurd hfull (Nat.ne_of_lt h.1))]
  case last => rw [hnext, if_neg (fun h => absurd hlast (Nat.ne_of_lt h.2)), hlast]
  case newLine =>
    have hwhole : r.bytes = restOfLine input pos := lineRead_bytes_of_short input pos hshort
    rw [hwhole] at hmore ⊢
    exact getElem?_restOfLine input hmore
  case consumed => rw [hnext, if_pos ⟨hshort, hmore⟩]
  case exhausted => split at hstatus <;> omega
  case left => split at hstatus <;> omega

end Sys2Proof.Machine
